-- ==== Sys2Proof/Word.lean ====
section
/-! DEFINITION. The words of the block: 1-bit values, bytes and 32-bit words, all unsigned (00_scope.md R13). -/

namespace Sys2Proof

/-- A 1-bit value: `false` is 0, `true` is 1. On a pin latch 0 pulls the line low, 1 releases it (10_state.md R40). -/
abbrev Bit := Bool

/-- An 8-bit value: a byte of `BUF` or on the wire. -/
abbrev Byte := BitVec 8

/-- A 32-bit value: a word of the command packet (20_memory.md R78). -/
abbrev Word := BitVec 32

end Sys2Proof
end

