-- ==== Sys2Proof/Config.lean ====
section
/-! DEFINITION. The parameters of the block (00_scope.md R7) and the values the spec leaves open.
A constant without a body is a free value: nothing can compute it, so a claim holds whatever it is. -/

namespace Sys2Proof.Config

/-- `CLK_MIN`, least legal `clock_rate` in hertz (R7, D28). -/
def clkMin : Word := 10000
/-- `CLK_MAX`, greatest legal `clock_rate` in hertz (R7, D28). -/
def clkMax : Word := 1000000
/-- `RIW_MAX`, greatest register-index width in bytes (R7). -/
def riwMax : BitVec 3 := 4
/-- `ADDR7_MAX`, greatest 7-bit address (R7). -/
def addr7Max : BitVec 10 := 0x7F
/-- The spec's default of the open parameter `MAX_LEN` (R7, D15). -/
def maxLenDefault : BitVec 12 := 4095
/-- The end mark of a scan, one past `SCAN_LAST` (R7, R26). -/
def scanEnd : BitVec 8 := 0x80
/-- Last address of the low reserved range, `RSVD_LO` (R7, R98). -/
def reservedLowLast : BitVec 8 := 0x07
/-- First address of the high reserved range, `RSVD_HI` (R7, R98). -/
def reservedHighFirst : BitVec 8 := 0x78

/-- What a byte of `BUF` that nothing has written reads as.
DESIGN CHOICE (log 4), unsafe: the spec does not reset `BUF` (R48). -/
def bufUnwritten : Byte := 0

/-- `F_CLK`, the block's own clock in hertz: an open parameter, used by timing only (R7, D24). -/
opaque fClk : Nat
/-- `T_SETTLE`, the settle delay of INIT: an open parameter, used by timing only (R7, D24). R7 and R262 give it no unit;
the model takes it in cycles of the block's clock (DESIGN CHOICE, log 19). -/
opaque tSettle : Nat

/-- Free value: what the n-th `PinRead(SCL)` of a released line draws once `sclAnswers` has run out
(R12, U10; log 2). Safe: nothing constrains it. -/
opaque sclLevel : Nat → Bit
/-- Free value: what the n-th `PinRead(SDA)` of a released line draws once `sdaAnswers` has run out
(R12, U10; log 2). Safe: nothing constrains it. -/
opaque sdaLevel : Nat → Bit

/-- Free value: byte k of `REGIDX` for k of 4 and more, which no legal `RIW` selects (R157; log 15). Safe. -/
opaque regidxBeyond : Nat → Byte

end Sys2Proof.Config
end

