-- ==== Sys2Proof/Syntax.lean ====
section
/-! DEFINITION. The instructions: the 23 rows of spec/opcode_table.json (four host commands, twelve internal
operations, seven wire bytes), and the encoded form of each (30_encoding.md). -/

namespace Sys2Proof

/-- `address_mode` (10_state.md R35): code 0 is 7-bit, code 1 is 10-bit. -/
inductive AddrMode where
  | seven
  | ten
  deriving DecidableEq, Repr

/-- What the block answers in the ninth cell of a byte it receives (40_bus_signalling.md R125). -/
inductive Ack where
  | ack
  | nack
  deriving DecidableEq, Repr

/-- The fields of a command packet but `OP` and the reserved bit (30_encoding.md R82, R83). Every field is latched,
used or not (R87). -/
structure Packet where
  /-- `AM`, W0[4] -/
  am : AddrMode
  /-- `RIW`, W0[7:5] -/
  riw : BitVec 3
  /-- `ADDR`, W0[17:8] -/
  addr : BitVec 10
  /-- `SKIP`, W0[18] -/
  skip : Bool
  /-- `LEN`, W0[31:20] -/
  len : BitVec 12
  /-- `CLK`, W1 -/
  clk : Word
  /-- `TMO`, W2 -/
  tmo : Word
  /-- `REGIDX`, W3 -/
  regidx : Word
  deriving DecidableEq, Repr

/-- One constructor per row of the opcode table. -/
inductive Instr where
  /-- INIT (43_transactions.md R172) -/
  | init (p : Packet)
  /-- WRREG (R176); with `RIW` = 0 the raw write (R182) -/
  | wrreg (p : Packet)
  /-- RDREG (R180); with `RIW` = 0 the raw read (R183) -/
  | rdreg (p : Packet)
  /-- SCAN (44_scanner.md R200) -/
  | scan (p : Packet)
  /-- GUARD_RELEASE_SCL (41_clock_stretch_guard.md R141) -/
  | guardReleaseScl
  /-- START (40_bus_signalling.md R121) -/
  | start
  /-- STOP (R122) -/
  | stop
  /-- WRITE_BIT(b) (R123) -/
  | writeBit (b : Bit)
  /-- READ_BIT (R124) -/
  | readBit
  /-- WRITE_ACK(k) (R125) -/
  | writeAck (k : Ack)
  /-- READ_ACK (R126) -/
  | readAck
  /-- WRITE_BYTE(v) (42_byte_and_framing.md R150) -/
  | writeByte (v : Byte)
  /-- READ_BYTE(k, i) (R152) -/
  | readByte (k : Ack) (i : BitVec 12)
  /-- SEND_ADDRESS(rw) (R153) -/
  | sendAddress (rw : Bit)
  /-- SEND_REGIDX (R156) -/
  | sendRegidx
  /-- PROBE (43_transactions.md R184) -/
  | probe
  /-- ADDR7, wire byte aaaaaaar (30_encoding.md R91) -/
  | addr7 (a : BitVec 7) (r : Bit)
  /-- ADDR10_HI, wire byte 11110aar (R92) -/
  | addr10Hi (a : BitVec 2) (r : Bit)
  /-- ADDR10_LO, wire byte aaaaaaaa (R92) -/
  | addr10Lo (a : Byte)
  /-- ADDR10_RE, wire byte 11110aa1 (R93) -/
  | addr10Re (a : BitVec 2)
  /-- REGIDX_BYTE, wire byte iiiiiiii (R94) -/
  | regidxByte (v : Byte)
  /-- DATA_BYTE, wire byte dddddddd (R95) -/
  | dataByte (v : Byte)
  /-- PROBE_ADDR, wire byte aaaaaaa0 (R184) -/
  | probeAddr (a : BitVec 7)
  deriving DecidableEq, Repr

/-- The host commands, the only instructions with an encoding a host can see (30_encoding.md R86, R102). -/
def Instr.isCommand : Instr → Bool
  | .init _ | .wrreg _ | .rdreg _ | .scan _ => true
  | .guardReleaseScl | .start | .stop | .writeBit _ | .readBit | .writeAck _ | .readAck | .writeByte _
  | .readByte _ _ | .sendAddress _ | .sendRegidx | .probe | .addr7 _ _ | .addr10Hi _ _ | .addr10Lo _
  | .addr10Re _ | .regidxByte _ | .dataByte _ | .probeAddr _ => false

/-- The place of a wire byte in its frame (30_encoding.md R96): nothing on the wire tells one pattern from another,
the place does. -/
inductive FramePlace where
  /-- the one byte of a 7-bit address phase (R91) -/
  | address7
  /-- first byte of a 10-bit address phase (R92) -/
  | address10First
  /-- second byte of a 10-bit address phase (R92) -/
  | address10Second
  /-- the byte after the repeated start in 10-bit mode (R93) -/
  | reAddress10
  /-- a register-index byte (R94) -/
  | registerIndex
  /-- a data byte (R95) -/
  | data
  /-- the address byte of a probe (R96) -/
  | probe
  deriving DecidableEq, Repr

/-- An encoded instruction, in the encoding space its table row belongs to. -/
inductive Code where
  /-- a command packet: W0 in bits 31:0 up to W3 in bits 127:96 (20_memory.md R78) -/
  | packet (p : BitVec 128)
  /-- an internal operation: its number (30_encoding.md R102) beside its operands, whose places in 16 bits are the
  model's own (DESIGN CHOICE, log 8) -/
  | internal (num : BitVec 4) (operand : BitVec 16)
  /-- a wire byte at its place in the frame; bit 7 is first on the wire (R66) -/
  | wire (place : FramePlace) (byte : Byte)
  deriving DecidableEq, Repr

end Sys2Proof
end

