-- ==== Sys2Proof/Machine/Operands.lean ====
section
/-! DEFINITION. Operand forms: the bytes the framer assembles (42_byte_and_framing.md R157) and the legality checks of
a command packet (30_encoding.md R88). -/

namespace Sys2Proof.Machine

/-! ### Bytes on the wire -/

/-- The 7-bit address byte, `ADDR[6:0] ++ rw` (30_encoding.md R91). -/
def addr7Byte (a : BitVec 7) (rw : Bit) : Byte := a.concat rw

/-- The first byte of a 10-bit address, `0b11110 ++ ADDR[9:8] ++ rw` (R92, R93). -/
def addr10Byte (a : BitVec 2) (rw : Bit) : Byte := (0b11110#5 ++ a).concat rw

/-- `ADDR[6:0]` (R91). -/
def addrLow7 (addr : BitVec 10) : BitVec 7 := addr.extractLsb' 0 7

/-- `ADDR[9:8]` (R92). -/
def addrTop2 (addr : BitVec 10) : BitVec 2 := addr.extractLsb' 8 2

/-- `ADDR[7:0]` (R92). -/
def addrLow8 (addr : BitVec 10) : Byte := addr.extractLsb' 0 8

/-- `REGIDX[8*k+7 : 8*k]` for k = 0 to 3 (R94, R157). Above byte 3 `REGIDX` has no bits and the byte is a free
value (log 15). -/
def regidxByteAt (regidx : Word) (k : Nat) : Byte :=
  if k < 4 then regidx.extractLsb' (8 * k) 8 else Config.regidxBeyond k

/-- `SHREG[6:0] ++ x`, the shift of a byte by one place (R150, R152). -/
def shiftIn (v : Byte) (x : Bit) : Byte := (v.extractLsb' 0 7).concat x

/-- The low seven bits of `SCAN_ADDR`, the address of a probe (43_transactions.md R184). -/
def probeAddress (scanAddr : BitVec 8) : BitVec 7 := scanAddr.extractLsb' 0 7

/-- The addresses a scan with `SKIP` = 1 leaves out (44_scanner.md R200, R201). -/
def isReservedAddress (a : BitVec 8) : Bool :=
  a.ule Config.reservedLowLast || Config.reservedHighFirst.ule a

/-- The bit a `WRITE_ACK` writes: ack pulls the line low, nack releases it (40_bus_signalling.md R125). -/
def ackBit : Ack → Bit
  | .ack => false
  | .nack => true

/-! ### Operation codes and legality -/

/-- `OP` of INIT (30_encoding.md R86). -/
def opInit : BitVec 4 := 1
/-- `OP` of WRREG (R86). -/
def opWrreg : BitVec 4 := 2
/-- `OP` of RDREG (R86). -/
def opRdreg : BitVec 4 := 3
/-- `OP` of SCAN (R86). -/
def opScan : BitVec 4 := 4

/-- The six legality checks, in the order of 30_encoding.md R88. -/
inductive Check where
  /-- 1: `OP` is 1, 2, 3 or 4 -/
  | opcode
  /-- 2: W0[19] = 0 -/
  | reservedBit
  /-- 3: `CLK_MIN` <= `CLK` <= `CLK_MAX` -/
  | clockRate
  /-- 4: `RIW` <= 4, not for SCAN -/
  | indexWidth
  /-- 5: a 7-bit `ADDR` fits 7 bits, not for SCAN -/
  | address
  /-- 6: 1 <= `LEN` <= `MAX_LEN`, WRREG and RDREG -/
  | length
  deriving DecidableEq, Repr

/-- Check 3. -/
def clockRateOk (clk : Word) : Bool := Config.clkMin.ule clk && clk.ule Config.clkMax

/-- Check 4. -/
def indexWidthOk (riw : BitVec 3) : Bool := riw.ule Config.riwMax

/-- Check 5. -/
def addressOk (am : AddrMode) (addr : BitVec 10) : Bool :=
  match am with
  | .seven => addr.ule Config.addr7Max
  | .ten => true

/-- Check 6. -/
def lengthOk (maxLen len : BitVec 12) : Bool := (1#12).ule len && len.ule maxLen

/-- Checks 3 to 5, the invariants of the descriptor, in order. -/
def descriptorCheck (p : Packet) : Option Check :=
  if !clockRateOk p.clk then some .clockRate
  else if !indexWidthOk p.riw then some .indexWidth
  else if !addressOk p.am p.addr then some .address
  else none

/-- Checks 3 to 6, those of a transfer with a byte count. -/
def transferCheck (maxLen : BitVec 12) (p : Packet) : Option Check :=
  match descriptorCheck p with
  | some c => some c
  | none => if !lengthOk maxLen p.len then some .length else none

/-- The first check that a decoded instruction fails, none where it is legal (R88). Checks 1 and 2 are the decoder's;
an internal operation or a wire byte has no check. -/
def failedCheck (maxLen : BitVec 12) : Instr → Option Check
  | .init p => descriptorCheck p
  | .wrreg p => transferCheck maxLen p
  | .rdreg p => transferCheck maxLen p
  | .scan p => if !clockRateOk p.clk then some .clockRate else none
  | .guardReleaseScl | .start | .stop | .writeBit _ | .readBit | .writeAck _ | .readAck | .writeByte _
  | .readByte _ _ | .sendAddress _ | .sendRegidx | .probe | .addr7 _ _ | .addr10Hi _ _ | .addr10Lo _
  | .addr10Re _ | .regidxByte _ | .dataByte _ | .probeAddr _ => none

end Sys2Proof.Machine
end

