-- ==== Sys2Proof/WellFormed.lean ====
section
/-! DEFINITION. Well-formed instructions: those the legality checks of 30_encoding.md R88 let through, for the block with
the spec's default `MAX_LEN`, and, of the internal operations, a buffer index the block has. An ill-formed command has a
meaning too: it answers `IllegalCommand` (60_exceptions.md R215). -/

namespace Sys2Proof

/-- The static checks of an instruction (30_encoding.md R88; 20_memory.md R60 for the index of READ_BYTE). -/
def wellFormed (i : Instr) : Bool :=
  match i with
  | .readByte _ idx => idx.ult Config.maxLenDefault
  | .init _ | .wrreg _ | .rdreg _ | .scan _ | .guardReleaseScl | .start | .stop | .writeBit _ | .readBit
  | .writeAck _ | .readAck | .writeByte _ | .sendAddress _ | .sendRegidx | .probe | .addr7 _ _ | .addr10Hi _ _
  | .addr10Lo _ | .addr10Re _ | .regidxByte _ | .dataByte _ | .probeAddr _ =>
    (Machine.failedCheck Config.maxLenDefault i).isNone

end Sys2Proof
end

