-- ==== Sys2Proof/Decode.lean ====
section
/-! DEFINITION. The decoder, total on every encoded word and rejecting by name (30_encoding.md R82 to R94, R102), and the
encoder, written from the same tables. -/

namespace Sys2Proof

open Machine

/-- Why a word is no instruction. -/
inductive DecodeError where
  /-- `OP` is 0 or 5 to 15 (30_encoding.md R86, check 1 of R88) -/
  | reservedOpcode
  /-- W0[19] is 1 (check 2 of R88) -/
  | reservedBit
  /-- an internal operation's number is 12 to 15 (R102) -/
  | reservedNumber
  /-- a bit of the operand word that the internal operation does not use is 1 (log 8) -/
  | operandBits
  /-- the fixed bits of the wire byte are not those of its place (R92, R93, R96) -/
  | framePattern
  deriving DecidableEq, Repr

/-! ### Decoding -/

/-- The fields of a packet (30_encoding.md R82, R83; 20_memory.md R78). -/
def packetFields (p : BitVec 128) : Packet where
  am := if p.getLsbD 4 then .ten else .seven
  riw := p.extractLsb' 5 3
  addr := p.extractLsb' 8 10
  skip := p.getLsbD 18
  len := p.extractLsb' 20 12
  clk := p.extractLsb' 32 32
  tmo := p.extractLsb' 64 32
  regidx := p.extractLsb' 96 32

/-- `OP`, W0[3:0] (R82). -/
def packetOp (p : BitVec 128) : BitVec 4 := p.extractLsb' 0 4

/-- The reserved bit W0[19] (R82). -/
def packetReserved (p : BitVec 128) : Bool := p.getLsbD 19

/-- The packet of four words, W3 in the high bits (20_memory.md R78). -/
def packetWords (w0 w1 w2 w3 : Word) : BitVec 128 := w3 ++ w2 ++ w1 ++ w0

/-- A packet: the opcode first, then the reserved bit (R86, R88 checks 1 and 2). The other checks are made at
acceptance, since a packet that fails one is still latched. -/
def decodePacket (p : BitVec 128) : Except DecodeError Instr :=
  let named : Option (Packet → Instr) :=
    if packetOp p = opInit then some .init
    else if packetOp p = opWrreg then some .wrreg
    else if packetOp p = opRdreg then some .rdreg
    else if packetOp p = opScan then some .scan
    else none
  match named with
  | none => .error .reservedOpcode
  | some make => if packetReserved p then .error .reservedBit else .ok (make (packetFields p))

/-- An instruction whose unused operand bits must be 0. -/
def whenZero {n : Nat} (unused : BitVec n) (i : Instr) : Except DecodeError Instr :=
  if unused = 0 then .ok i else .error .operandBits

/-- Operand bit 0 of WRITE_ACK and bit 12 of READ_BYTE: 0 is ack, 1 is nack (log 8). -/
def ackOfBit (b : Bit) : Ack := if b then .nack else .ack

/-- An internal operation by its number (30_encoding.md R102). -/
def decodeInternal (num : BitVec 4) (x : BitVec 16) : Except DecodeError Instr :=
  match num.toNat with
  | 0 => whenZero x .guardReleaseScl
  | 1 => whenZero x .start
  | 2 => whenZero x .stop
  | 3 => whenZero (x.extractLsb' 1 15) (.writeBit (x.getLsbD 0))
  | 4 => whenZero x .readBit
  | 5 => whenZero (x.extractLsb' 1 15) (.writeAck (ackOfBit (x.getLsbD 0)))
  | 6 => whenZero x .readAck
  | 7 => whenZero (x.extractLsb' 8 8) (.writeByte (x.extractLsb' 0 8))
  | 8 => whenZero (x.extractLsb' 13 3) (.readByte (ackOfBit (x.getLsbD 12)) (x.extractLsb' 0 12))
  | 9 => whenZero (x.extractLsb' 1 15) (.sendAddress (x.getLsbD 0))
  | 10 => whenZero x .sendRegidx
  | 11 => whenZero x .probe
  | _ => .error .reservedNumber

/-- The fixed bits 7:3 of a 10-bit address's first byte (30_encoding.md R92). -/
def hasTenBitMark (b : Byte) : Bool := b.extractLsb' 3 5 = 0b11110#5

/-- A wire byte at its place in the frame (R91 to R96). -/
def decodeWire (place : FramePlace) (b : Byte) : Except DecodeError Instr :=
  match place with
  | .address7 => .ok (.addr7 (b.extractLsb' 1 7) (b.getLsbD 0))
  | .address10First =>
    if hasTenBitMark b then .ok (.addr10Hi (b.extractLsb' 1 2) (b.getLsbD 0)) else .error .framePattern
  | .address10Second => .ok (.addr10Lo b)
  | .reAddress10 =>
    if hasTenBitMark b && b.getLsbD 0 then .ok (.addr10Re (b.extractLsb' 1 2)) else .error .framePattern
  | .registerIndex => .ok (.regidxByte b)
  | .data => .ok (.dataByte b)
  | .probe => if b.getLsbD 0 then .error .framePattern else .ok (.probeAddr (b.extractLsb' 1 7))

/-- The decoder. -/
def decode (c : Code) : Except DecodeError Instr :=
  match c with
  | .packet p => decodePacket p
  | .internal num x => decodeInternal num x
  | .wire place b => decodeWire place b

/-! ### Encoding -/

/-- The packet of an operation code and its fields, W3 in the high bits (R82, R83). -/
def packetOf (op : BitVec 4) (f : Packet) : BitVec 128 :=
  f.regidx ++ f.tmo ++ f.clk ++ f.len ++ BitVec.ofBool false ++ BitVec.ofBool f.skip ++ f.addr ++ f.riw
    ++ BitVec.ofBool (f.am = .ten) ++ op

/-- The operand word of READ_BYTE (log 8). -/
def readByteOperand (k : Ack) (i : BitVec 12) : BitVec 16 := 0#3 ++ BitVec.ofBool (ackBit k) ++ i

/-- The encoder: R82 and R83 for a command, R102 for an internal operation, R91 to R95 for a wire byte. -/
def encode (i : Instr) : Code :=
  match i with
  | .init p => .packet (packetOf opInit p)
  | .wrreg p => .packet (packetOf opWrreg p)
  | .rdreg p => .packet (packetOf opRdreg p)
  | .scan p => .packet (packetOf opScan p)
  | .guardReleaseScl => .internal 0 0
  | .start => .internal 1 0
  | .stop => .internal 2 0
  | .writeBit b => .internal 3 (0#15 ++ BitVec.ofBool b)
  | .readBit => .internal 4 0
  | .writeAck k => .internal 5 (0#15 ++ BitVec.ofBool (ackBit k))
  | .readAck => .internal 6 0
  | .writeByte v => .internal 7 (0#8 ++ v)
  | .readByte k idx => .internal 8 (readByteOperand k idx)
  | .sendAddress rw => .internal 9 (0#15 ++ BitVec.ofBool rw)
  | .sendRegidx => .internal 10 0
  | .probe => .internal 11 0
  | .addr7 a r => .wire .address7 (addr7Byte a r)
  | .addr10Hi a r => .wire .address10First (addr10Byte a r)
  | .addr10Lo a => .wire .address10Second a
  | .addr10Re a => .wire .reAddress10 (addr10Byte a true)
  | .regidxByte v => .wire .registerIndex v
  | .dataByte v => .wire .data v
  | .probeAddr a => .wire .probe (addr7Byte a false)

/-! ### Words numbered as the opcode table numbers them -/

/-- The place a lone wire byte is read at: the pattern with the most fixed bits that it fits (log 8). -/
def lonePlace (b : Byte) : FramePlace :=
  if hasTenBitMark b then (if b.getLsbD 0 then .reAddress10 else .address10First)
  else if b.getLsbD 0 then .address7
  else .probe

/-- The encoded form of a table word: 4 bits are an internal operation's number, a byte is a wire byte, anything
longer is W0 of a packet whose further bits are 0 (log 8). -/
def tableCode (nbits w : Nat) : Code :=
  if nbits ≤ 4 then .internal (BitVec.ofNat 4 w) 0
  else if nbits ≤ 8 then .wire (lonePlace (BitVec.ofNat 8 w)) (BitVec.ofNat 8 w)
  else .packet (BitVec.ofNat 128 w)

/-- The instruction the decoder reads from a table word, none where it refuses. -/
def decodeTableWord (nbits w : Nat) : Option Instr := (decode (tableCode nbits w)).toOption

end Sys2Proof
end

