-- ==== Sys2Proof/Machine/State.lean ====
section
/-! DEFINITION. The state of the block (10_state.md), plain data, and the state after reset. -/

namespace Sys2Proof.Machine

/-- The transaction state machine (10_state.md R28). -/
inductive Fsm where
  | idle
  | started
  | addressSent
  | registerIndexSent
  | dataTransfer
  | stopped
  | aborted
  deriving DecidableEq, Repr

/-- The first-failure latch and the status of a response (R32). -/
inductive Status where
  | ok
  | timeout
  | noResponse
  | protocolError
  | initError
  | illegalCommand
  deriving DecidableEq, Repr

/-- The failures an operation can raise (60_exceptions.md R220). -/
inductive Failure where
  | timeout
  | noResponse
  | protocolError
  deriving DecidableEq, Repr

/-- What an operation hands to its caller: nothing yet, a normal return with its value, or a `raise`
(00_scope.md R15; log 7). The model's own: the spec calls these wires. -/
inductive OpResult where
  | none
  | done
  | bit (b : Bit)
  | byte (v : Byte)
  | raised (f : Failure)
  deriving DecidableEq, Repr

/-- The observable events of a run, in the notation of 00_scope.md R16, with the buffer accesses and emissions of R9. -/
inductive Event where
  /-- `C0`, `C1`: a write of `SCL_OUT` -/
  | scl (b : Bit)
  /-- `D0`, `D1`: a write of `SDA_OUT` -/
  | sda (b : Bit)
  /-- `c=b`: a `PinRead(SCL)` -/
  | readScl (b : Bit)
  /-- `d=b`: a `PinRead(SDA)` -/
  | readSda (b : Bit)
  /-- `.`: a `Delay(1)` -/
  | delay
  /-- `<settle>`: the `Delay(SETTLE)` of INIT -/
  | settle
  /-- a `MemRead(i, 1)` that answered v -/
  | memRead (i : Nat) (v : Byte)
  /-- a `MemWrite(i, 1, v)` -/
  | memWrite (i : Nat) (v : Byte)
  /-- `EmitFound(a)` -/
  | found (a : BitVec 7)
  /-- `Respond(s)` -/
  | respond (s : Status)
  deriving DecidableEq, Repr

/-- Where a guard's expiry goes: it is raised (41_clock_stretch_guard.md R141) or reported (STOP, R122; INIT, R172). -/
inductive GuardKind where
  | raising
  | reporting
  deriving DecidableEq, Repr

/-- Who takes a `raise`: the command (60_exceptions.md R220) or PROBE (43_transactions.md R184). -/
inductive Handler where
  | command
  | probe
  deriving DecidableEq, Repr

/-- One item of the sequencer's remaining list of steps (10_state.md R27): a pin event, a buffer access, an emission
or a `Delay` (00_scope.md R9), the call of an operation, or a step that touches no pin and no buffer. -/
inductive Task where
  /-- call an operation: its own steps come first -/
  | op (i : Instr)
  /-- `SCL_OUT <- b` -/
  | setScl (b : Bit)
  /-- `SDA_OUT <- b` -/
  | setSda (b : Bit)
  /-- `Delay(1)` -/
  | delay
  /-- `Delay(SETTLE)` -/
  | settle
  /-- `SCL_OUT <- 1; STRETCH_CNT <- TMO`, the head of every guarded release -/
  | release
  /-- one poll of a guard's loop -/
  | poll (g : GuardKind)
  /-- `d <- PinRead(SDA)`, the sample of READ_BIT -/
  | sample
  /-- `ACKF <- (d = 0)` -/
  | ackFlag
  /-- `SHREG <- v; BITCNT <- 8` -/
  | loadShift (v : Byte)
  /-- the head of WRITE_BYTE's loop -/
  | writeBits
  /-- the tail of WRITE_BYTE's loop -/
  | shiftOut
  /-- the head of READ_BYTE's loop -/
  | readBits
  /-- the tail of READ_BYTE's loop -/
  | shiftIn
  /-- `MemWrite(i, 1, SHREG)` -/
  | store (i : BitVec 12)
  /-- READ_BYTE's `return SHREG` -/
  | returnByte
  /-- `if a = 0: raise f` after a written byte -/
  | check (f : Failure)
  /-- `FSM <- f` -/
  | setFsm (f : Fsm)
  /-- `PH2 <- 1` -/
  | secondPhase
  /-- `BYTECNT <- 0` -/
  | clearCount
  /-- `BYTECNT <- BYTECNT + 1` -/
  | incCount
  /-- the head of SEND_REGIDX's loop -/
  | indexLoop
  /-- `if RIW > 0: call SEND_REGIDX` -/
  | indexPhase
  /-- the head of WRREG's data loop -/
  | writeLoop
  /-- `v <- MemRead(BYTECNT, 1)` and the sending of v -/
  | load
  /-- the head of RDREG's data loop -/
  | readLoop
  /-- what follows the final STOP: `Stopped`, or Timeout and `Aborted` (60_exceptions.md R224) -/
  | close
  /-- INIT's sample of the data line and its decision -/
  | initDecide
  /-- PROBE's first line: `ERR <- Ok; PH2 <- 0; FSM <- Idle` -/
  | probeBegin
  /-- PROBE's end after a failure: `FSM <- Idle; return 0` -/
  | probeFailed
  /-- `SCAN_ADDR <- 0x00` -/
  | scanBegin
  /-- the head of SCAN's loop -/
  | scanLoop
  /-- `if f = 1: EmitFound(SCAN_ADDR[6:0])` -/
  | emitFound
  /-- `SCAN_ADDR <- SCAN_ADDR + 1` -/
  | scanNext
  /-- the mark a `raise` goes to; reached normally it ends the command's or the probe's attempt -/
  | onRaise (h : Handler)
  /-- `Respond(ERR)`: present the response -/
  | respond
  /-- `Respond(ERR)`: wait until the host takes it -/
  | awaitTaken
  deriving DecidableEq, Repr

/-- A move of the host, between two steps of the block (00_scope.md R8, R9; log 22). -/
inductive HostMove where
  /-- the host leaves this step to the block -/
  | pass
  /-- it offers a command packet, behind those it has offered already (R42) -/
  | offer (p : BitVec 128)
  /-- `rsp_ready <- b` (R43) -/
  | ready (b : Bool)
  /-- `BUF[i] <- v`, while the host owns `BUF` (20_memory.md R61) -/
  | write (i : BitVec 12) (v : Byte)
  /-- `rst <- b`, which resets the block where b is 1 (70_reset_and_hazards.md R240) -/
  | reset (b : Bool)
  deriving DecidableEq, Repr

/-- `BUF` as address and byte pairs in canonical form: addresses strictly rising, no byte equal to what an unlisted
address reads as. -/
abbrev Memory := List Host.Cell

/-- The whole state. -/
structure State where
  /-- `SCL_OUT` (R40): 0 pulls the clock line low, 1 releases it -/
  sclOut : Bit
  /-- `SDA_OUT` (R40) -/
  sdaOut : Bit
  /-- `FSM` (R28) -/
  fsm : Fsm
  /-- `PH2` (R30) -/
  ph2 : Bool
  /-- `BITCNT` (R23) -/
  bitCnt : BitVec 4
  /-- `BYTECNT` (R24) -/
  byteCnt : BitVec 12
  /-- `SCAN_ADDR` (R26) -/
  scanAddr : BitVec 8
  /-- the place inside the running operation: the remaining list of steps (R27) -/
  place : List Task
  /-- `SHREG` (R22) -/
  shreg : Byte
  /-- `STRETCH_CNT` (R25) -/
  stretchCnt : Word
  /-- `ACKF` (R31) -/
  ackf : Bool
  /-- `ERR` (R32) -/
  err : Status
  /-- `BUSY` (R50) -/
  busy : Bool
  /-- `OP` (R39) -/
  op : BitVec 4
  /-- `CLK` (R34) -/
  clk : Word
  /-- `AM` (R35) -/
  am : AddrMode
  /-- `ADDR` (R36) -/
  addr : BitVec 10
  /-- `RIW` (R37) -/
  riw : BitVec 3
  /-- `TMO` (R38) -/
  tmo : Word
  /-- `REGIDX` (R39) -/
  regidx : Word
  /-- `LEN` (R39) -/
  len : BitVec 12
  /-- `SKIP` (R39) -/
  skip : Bool
  /-- the packets the host offers, one after the other: `cmd_valid` says there is one, `cmd_packet` is the first (R42) -/
  cmds : List (BitVec 128)
  /-- `rsp_valid` (R43) -/
  rspValid : Bool
  /-- `rsp_ready` (R43), the host's input -/
  rspReady : Bool
  /-- `rsp_word` (R43, 30_encoding.md R84); kept after the response is taken (log 21) -/
  rspWord : Word
  /-- `found_valid` (R43) -/
  foundValid : Bool
  /-- `found_addr` (R43); kept after the pulse of `found_valid` (log 21) -/
  foundAddr : BitVec 7
  /-- `rst` (70_reset_and_hazards.md R240), an input -/
  rst : Bool
  /-- `BUF` (R44) -/
  buf : Memory
  /-- `MAX_LEN` (00_scope.md R7), never written by the block -/
  maxLen : BitVec 12
  /-- the moves the host makes from here on, the next one first; once it is empty the host makes none (00_scope.md R8;
  log 22) -/
  hostMoves : List HostMove
  /-- what the bus answers at the next reads of the released clock line (R12; log 2) -/
  sclAnswers : List Bit
  /-- what the bus answers at the next reads of the released data line (R12; log 2) -/
  sdaAnswers : List Bit
  /-- free values drawn for the clock line so far (log 2) -/
  sclDraws : Nat
  /-- free values drawn for the data line so far (log 2) -/
  sdaDraws : Nat
  /-- the wire from an operation to its caller (log 7) -/
  ret : OpResult
  /-- the operation slot (log 6) -/
  fetch : Option Code
  /-- the events of the running command, the latest first (log 12) -/
  trace : List Event
  /-- the found events of the running command, in emission order (R43) -/
  found : List (BitVec 7)
  deriving DecidableEq, Repr

/-- `cmd_valid` (R42). -/
def State.cmdValid (s : State) : Bool := !s.cmds.isEmpty

/-- `cmd_ready`, not `BUSY` (R42). -/
def State.cmdReady (s : State) : Bool := !s.busy

/-- The state after reset (10_state.md R48, 70_reset_and_hazards.md R240). The registers R48 leaves unspecified are 0
(DESIGN CHOICE, log 3), the host's inputs and the model's own fields as logs 2, 4 to 7, 11 to 13 and 22 say. -/
def State.reset : State where
  sclOut := true
  sdaOut := true
  fsm := .idle
  ph2 := false
  bitCnt := 0
  byteCnt := 0
  scanAddr := 0
  place := []
  shreg := 0
  stretchCnt := 0
  ackf := false
  err := .ok
  busy := false
  op := 0
  clk := 0
  am := .seven
  addr := 0
  riw := 0
  tmo := 0
  regidx := 0
  len := 0
  skip := false
  cmds := []
  rspValid := false
  rspReady := true
  rspWord := 0
  foundValid := false
  foundAddr := 0
  rst := false
  buf := []
  maxLen := Config.maxLenDefault
  hostMoves := []
  sclAnswers := []
  sdaAnswers := []
  sclDraws := 0
  sdaDraws := 0
  ret := .none
  fetch := none
  trace := []
  found := []

/-- Why a step stops. -/
inductive Fault where
  /-- Raised by READ_BYTE, and by a received DATA_BYTE, standing alone, and by a host's write, for a buffer index at or
  beyond `MAX_LEN`: `BUF` has no such byte (R44, R60). Safe: the model stops, and no command reaches it (log 14,
  log 22). -/
  | bufferIndex
  deriving DecidableEq, Repr

/-- Why an instruction has no meaning. -/
inductive Refusal where
  /-- Raised by exec for an instruction without a meaning yet. Safe: no claim about it can be proved. No arm uses it. -/
  | notModelled (mnemonic : String)
  /-- Raised by step where the operation slot holds a word that encodes no internal operation and no wire byte
  (30_encoding.md R102 has no numbers 12 to 15). Safe: the block has no such slot (log 16). -/
  | noOperation (why : DecodeError)
  deriving DecidableEq, Repr

end Sys2Proof.Machine
end

