-- ==== Sys2Proof/Machine/Flags.lean ====
section
/-! DEFINITION. The flags and codes: `ACKF`, the first-failure latch `ERR`, the codes of `FSM` and `ERR`, the response
word, INIT's decision, the address conditions of the loops. -/

namespace Sys2Proof.Machine

/-- `ACKF <- (d = 0)`: an acknowledge is a data line held low (10_state.md R31, 40_bus_signalling.md R126). -/
def ackOfSample (d : Bit) : Bool := !d

/-- The first-failure latch: `ERR` is written only while it holds `Ok` (R32, 60_exceptions.md R219). -/
def firstFailure (held new : Status) : Status := if held = .ok then new else held

/-- The status of a raised failure (60_exceptions.md R210). -/
def Failure.status : Failure → Status
  | .timeout => .timeout
  | .noResponse => .noResponse
  | .protocolError => .protocolError

/-- The codes of R32. -/
def Status.code : Status → BitVec 3
  | .ok => 0
  | .timeout => 1
  | .noResponse => 2
  | .protocolError => 3
  | .initError => 4
  | .illegalCommand => 5

/-- The codes of R28. -/
def Fsm.code : Fsm → BitVec 3
  | .idle => 0
  | .started => 1
  | .addressSent => 2
  | .registerIndexSent => 3
  | .dataTransfer => 4
  | .stopped => 5
  | .aborted => 6

/-- The response word: status in bits 2:0, bits 31:3 zero (30_encoding.md R84). -/
def responseWord (st : Status) : Word := st.code.setWidth 32

/-- `if expired = 1 or d = 0: ERR <- InitError` (43_transactions.md R172). -/
def initStatus (expired d : Bit) (held : Status) : Status :=
  if expired || !d then firstFailure held .initError else held

/-- `k <- nack` for the last byte of a read, `ack` for every other (43_transactions.md R180). -/
def ackForByte (byteCnt len : BitVec 12) : Ack :=
  if byteCnt.toNat + 1 = len.toNat then .nack else .ack

/-- Whether a scan leaves the address out (44_scanner.md R200). -/
def scanSkips (skip : Bool) (a : BitVec 8) : Bool := skip && isReservedAddress a

end Sys2Proof.Machine
end

