-- ==== Sys2Proof/Machine/Memory.lean ====
section
/-! DEFINITION. The data buffer `BUF` (20_memory.md): reading and writing one byte, and its canonical form. -/

namespace Sys2Proof.Machine

/-- The byte at index a (R62). -/
def Memory.get : Memory → Nat → Byte
  | [], _ => Config.bufUnwritten
  | (b, v) :: m, a => if a = b then v else Memory.get m a

/-- Put a cell in front, unless it says what an unlisted address reads as. -/
def Memory.keep (c : Host.Cell) (m : Memory) : Memory := if c.2 = Config.bufUnwritten then m else c :: m

/-- Set the byte at index a (R63), keeping the canonical form. -/
def Memory.put (a : Nat) (v : Byte) : Memory → Memory
  | [] => Memory.keep (a, v) []
  | (b, w) :: m =>
    if a < b then Memory.keep (a, v) ((b, w) :: m)
    else if a = b then Memory.keep (a, v) m
    else (b, w) :: Memory.put a v m

/-- The canonical form: addresses strictly rising, no byte equal to what an unlisted address reads as. -/
abbrev Memory.wf (m : Memory) : Prop :=
  m.Pairwise (fun c d => c.1 < d.1) ∧ ∀ c ∈ m, c.2 ≠ Config.bufUnwritten

end Sys2Proof.Machine
end

