-- ==== Sys2Proof/Machine/Ops.lean ====
section
/-! DEFINITION. The shared operations: pins, buffer, the guarded clock release, `raise` and the abort, acceptance and
response. -/

namespace Sys2Proof.Machine

/-- What an operation comes to: a normal return with its value, or a `raise` that leaves its callers too
(00_scope.md R15). -/
inductive Run (α : Type) where
  | ok (a : α) (s : State)
  | raised (f : Failure) (s : State)

/-- Go on after a normal return; a `raise` skips what follows. -/
def Run.andThen {α β : Type} (r : Run α) (k : α → State → Run β) : Run β :=
  match r with
  | .ok a s => k a s
  | .raised f s => .raised f s

/-- The state an operation leaves, whichever way it ended. -/
def Run.state {α : Type} : Run α → State
  | .ok _ s => s
  | .raised _ s => s

/-- The state after an operation that stands alone: what it handed to its caller is in `ret` (log 7). -/
def Run.finish {α : Type} (value : α → OpResult) : Run α → State
  | .ok a s => { s with ret := value a }
  | .raised f s => { s with ret := .raised f }

/-! ### Pins (10_state.md R40, R41; 00_scope.md R12, R15) -/

/-- `SCL_OUT <- b`. -/
def setScl (b : Bit) (s : State) : State := { s with sclOut := b, trace := .scl b :: s.trace }

/-- `SDA_OUT <- b`. -/
def setSda (b : Bit) (s : State) : State := { s with sdaOut := b, trace := .sda b :: s.trace }

/-- `Delay(1)`: no state changes, the event is kept (R11). -/
def delay (s : State) : State := { s with trace := .delay :: s.trace }

/-- `Delay(SETTLE)` (R11). -/
def settle (s : State) : State := { s with trace := .settle :: s.trace }

/-- What the bus answers at the next read of the released clock line (R12, U10). -/
def sclAnswer (s : State) : Bit :=
  match s.sclAnswers with
  | a :: _ => a
  | [] => Config.sclLevel s.sclDraws

/-- What the bus answers at the next read of the released data line (R12, U10). -/
def sdaAnswer (s : State) : Bit :=
  match s.sdaAnswers with
  | a :: _ => a
  | [] => Config.sdaLevel s.sdaDraws

/-- The value of `PinRead(SCL)`: 0 while the block pulls the line low, else the bus's answer (R12). -/
def sclSample (s : State) : Bit := s.sclOut && sclAnswer s

/-- The value of `PinRead(SDA)` (R12). -/
def sdaSample (s : State) : Bit := s.sdaOut && sdaAnswer s

/-- `PinRead(SCL)`: no register of the block changes (20_memory.md R69); an answer is used up only where the line is
released (95_test_vectors.md, scripted environment). -/
def readScl (s : State) : State :=
  { s with
    sclAnswers := if s.sclOut then s.sclAnswers.tail else s.sclAnswers
    sclDraws := if s.sclOut && s.sclAnswers.isEmpty then s.sclDraws + 1 else s.sclDraws
    trace := .readScl (sclSample s) :: s.trace }

/-- `PinRead(SDA)`. -/
def readSda (s : State) : State :=
  { s with
    sdaAnswers := if s.sdaOut then s.sdaAnswers.tail else s.sdaAnswers
    sdaDraws := if s.sdaOut && s.sdaAnswers.isEmpty then s.sdaDraws + 1 else s.sdaDraws
    trace := .readSda (sdaSample s) :: s.trace }

/-! ### Buffer (20_memory.md R62, R63) -/

/-- `MemRead(i, 1)`: no side effect but the event; the value is `s.buf.get i`. -/
def memRead (i : Nat) (s : State) : State := { s with trace := .memRead i (s.buf.get i) :: s.trace }

/-- `MemWrite(i, 1, v)`. -/
def memWrite (i : Nat) (v : Byte) (s : State) : State :=
  { s with buf := s.buf.put i v, trace := .memWrite i v :: s.trace }

/-- Whether `BUF` has a byte at index i (R60). -/
def hasByte (s : State) (i : BitVec 12) : Bool := i.ult s.maxLen

/-! ### The guarded clock release (41_clock_stretch_guard.md R141) -/

/-- `SCL_OUT <- 1; STRETCH_CNT <- TMO`. -/
def release (s : State) : State := { setScl true s with stretchCnt := s.tmo }

/-- `STRETCH_CNT <- STRETCH_CNT - 1`. -/
def countPoll (s : State) : State := { s with stretchCnt := s.stretchCnt - 1 }

/-- The poll loop with n the value of `STRETCH_CNT`: whether the guard expired, and the state (R141, R142). -/
def pollLoop : Nat → State → Bool × State
  | 0, s => (!sclSample s, readScl s)
  | n + 1, s => if sclSample s then (false, readScl s) else pollLoop n (countPoll (readScl s))

/-- A whole guarded release, its expiry reported (R141, and inlined in R122 and R172). -/
def guardedRelease (s : State) : Bool × State := pollLoop s.tmo.toNat (release s)

/-- GUARD_RELEASE_SCL: its expiry is raised (R141). -/
def guardReleaseScl (s : State) : Run Unit :=
  if (guardedRelease s).1 then .raised .timeout (guardedRelease s).2 else .ok () (guardedRelease s).2

/-! ### Failures (60_exceptions.md) -/

/-- What a `raise E` records before the STOP: the first failure and `Aborted` (R219, R220). Nothing else is saved. -/
def enterAbort (f : Failure) (s : State) : State :=
  { s with err := firstFailure s.err f.status, fsm := .aborted }

/-- STOP (40_bus_signalling.md R122): never raises; whether its guard expired, and the state. -/
def stopBus (s : State) : Bool × State :=
  let r := guardedRelease (delay (setSda false (setScl false s)))
  (r.1, delay (setSda true (delay r.2)))

/-- What follows the final STOP of a transaction without failure (R224, 43_transactions.md R176). -/
def closeWith (expired : Bool) (s : State) : State :=
  if expired then { s with err := firstFailure s.err .timeout, fsm := .aborted } else { s with fsm := .stopped }

/-- Taking a failure: the abort entry and the forced STOP, whose own expiry is not used (R220, R223, R224). -/
def abort (f : Failure) (s : State) : State := (stopBus (enterAbort f s)).2

/-- The end of a transaction's attempt: the final STOP after a normal return, the abort after a `raise`. Either way
exactly one STOP runs (43_transactions.md R186). -/
def endTransaction : Run Unit → State
  | .ok _ s => closeWith (stopBus s).1 (stopBus s).2
  | .raised f s => abort f s

/-! ### Acceptance and response (10_state.md R33, R42, R43; 60_exceptions.md R226) -/

/-- Accept a command: latch every field, `BUSY <- 1`, `ERR <- Ok`, `PH2 <- 0`; `FSM` stays. The records of the
command before are dropped (log 12). -/
def accept (op : BitVec 4) (p : Packet) (s : State) : State :=
  { s with
    op := op, clk := p.clk, am := p.am, addr := p.addr, riw := p.riw, tmo := p.tmo, regidx := p.regidx
    len := p.len, skip := p.skip
    busy := true, err := .ok, ph2 := false
    ret := .none, trace := [], found := [] }

/-- `Respond(ERR)` up to the host's answer: `rsp_valid` and `rsp_word` (R43, 30_encoding.md R84). -/
def present (s : State) : State :=
  { s with rspValid := true, rspWord := responseWord s.err, ret := .none, trace := .respond s.err :: s.trace }

/-- The host takes the response: `BUSY <- 0`, `FSM <- Idle` (R43, R226). `rsp_word` keeps the word, on which R43 is silent
(DESIGN CHOICE, log 21). -/
def taken (s : State) : State := { s with rspValid := false, busy := false, fsm := .idle }

/-- `Respond(ERR)`: where the host is not ready the block waits, still `BUSY` (R43, 70_reset_and_hazards.md R256). -/
def respond (s : State) : State :=
  if s.rspReady then taken (present s) else { present s with place := [.awaitTaken] }

/-- A command that fails a check of R88: status `IllegalCommand`, no pin event, no buffer access
(43_transactions.md R170, 60_exceptions.md R215). -/
def rejectCommand (s : State) : State := respond { s with err := .illegalCommand }

/-- A command from acceptance to response (43_transactions.md R170). A packet offered while `BUSY` = 1 waits and
changes nothing (10_state.md R42). -/
def runCommand (op : BitVec 4) (p : Packet) (illegal : Option Check) (body : State → State) (s : State) : State :=
  if s.busy then s
  else
    match illegal with
    | some _ => rejectCommand (accept op p s)
    | none => respond (body (accept op p s))

end Sys2Proof.Machine
end

