-- ==== Sys2Proof/Machine/Bus.lean ====
section
/-! DEFINITION. Bus signalling (40_bus_signalling.md) and the guard as an operation (41_clock_stretch_guard.md). -/

namespace Sys2Proof.Machine

/-- START (R121). -/
def start (s : State) : Run Unit :=
  (guardReleaseScl (delay (setSda true s))).andThen fun _ t =>
    .ok () (setScl false (delay (setSda false (delay t))))

/-- WRITE_BIT(b) (R123). -/
def writeBit (b : Bit) (s : State) : Run Unit :=
  (guardReleaseScl (delay (setSda b s))).andThen fun _ t => .ok () (setScl false (delay t))

/-- READ_BIT (R124): one sample, taken while the clock latch is 1. -/
def readBit (s : State) : Run Bit :=
  (guardReleaseScl (delay (setSda true s))).andThen fun _ t =>
    .ok (sdaSample (delay t)) (setScl false (readSda (delay t)))

/-- WRITE_ACK(k) (R125). -/
def writeAck (k : Ack) (s : State) : Run Unit := writeBit (ackBit k) s

/-- `ACKF <- a`. -/
def setAckf (a : Bool) (s : State) : State := { s with ackf := a }

/-- READ_ACK (R126): the only operation that writes `ACKF`. -/
def readAck (s : State) : Run Bool :=
  (readBit s).andThen fun d t => .ok (ackOfSample d) (setAckf (ackOfSample d) t)

/-- GUARD_RELEASE_SCL. -/
def execGuardReleaseScl (s : State) : Host.Outcome State Fault Refusal :=
  .next ((guardReleaseScl s).finish fun _ => .done)

/-- START. -/
def execStart (s : State) : Host.Outcome State Fault Refusal := .next ((start s).finish fun _ => .done)

/-- STOP: it returns whether its guard expired. -/
def execStop (s : State) : Host.Outcome State Fault Refusal :=
  .next { (stopBus s).2 with ret := .bit (stopBus s).1 }

/-- WRITE_BIT. -/
def execWriteBit (b : Bit) (s : State) : Host.Outcome State Fault Refusal :=
  .next ((writeBit b s).finish fun _ => .done)

/-- READ_BIT: it returns the sampled bit. -/
def execReadBit (s : State) : Host.Outcome State Fault Refusal := .next ((readBit s).finish .bit)

/-- WRITE_ACK. -/
def execWriteAck (k : Ack) (s : State) : Host.Outcome State Fault Refusal :=
  .next ((writeAck k s).finish fun _ => .done)

/-- READ_ACK: it returns `ACKF`. -/
def execReadAck (s : State) : Host.Outcome State Fault Refusal := .next ((readAck s).finish .bit)

end Sys2Proof.Machine
end

