-- ==== Sys2Proof/Machine/Framing.lean ====
section
/-! DEFINITION. Byte transfer, the framers, and the wire bytes as operations (42_byte_and_framing.md,
30_encoding.md R90 to R95). -/

namespace Sys2Proof.Machine

/-! ### Byte transfer -/

/-- `SHREG <- v; BITCNT <- 8` (R150, R152). -/
def loadShift (v : Byte) (s : State) : State := { s with shreg := v, bitCnt := 8 }

/-- The tail of a byte loop: shift x in, `BITCNT <- BITCNT - 1` (R150, R152). -/
def shiftBit (x : Bit) (s : State) : State := { s with shreg := shiftIn s.shreg x, bitCnt := s.bitCnt - 1 }

/-- The loop of WRITE_BYTE for n more bits, most significant first (R150, 20_memory.md R66). -/
def sendBits : Nat → State → Run Unit
  | 0, s => .ok () s
  | n + 1, s => (writeBit (s.shreg.getLsbD 7) s).andThen fun _ t => sendBits n (shiftBit false t)

/-- WRITE_BYTE(v) (R150): it returns `ACKF`; a NACK is no failure of its own. -/
def writeByte (v : Byte) (s : State) : Run Bool :=
  (sendBits 8 (loadShift v s)).andThen fun _ t => readAck t

/-- The loop of READ_BYTE for n more bits (R152). -/
def receiveBits : Nat → State → Run Unit
  | 0, s => .ok () s
  | n + 1, s => (readBit s).andThen fun d t => receiveBits n (shiftBit d t)

/-- READ_BYTE(k, i) (R152): the byte is stored before its acknowledge slot (20_memory.md R63). -/
def readByte (k : Ack) (i : BitVec 12) (s : State) : Run Byte :=
  (receiveBits 8 (loadShift 0 s)).andThen fun _ t =>
    (writeAck k (memWrite i.toNat t.shreg t)).andThen fun _ u => .ok u.shreg u

/-- A written byte frame with the check of its acknowledge slot: a NACK raises f (R153, R156, 43_transactions.md
R176). -/
def sendFrame (f : Failure) (v : Byte) (s : State) : Run Unit :=
  (writeByte v s).andThen fun a t => if a then .ok () t else .raised f t

/-! ### The framers -/

/-- `FSM <- f`. -/
def enterFsm (f : Fsm) (s : State) : State := { s with fsm := f }

/-- The bytes of an address phase (R153; 30_encoding.md R91 to R93). -/
def addressBytes (am : AddrMode) (addr : BitVec 10) (rw : Bit) : List Byte :=
  match am, rw with
  | .seven, rw => [addr7Byte (addrLow7 addr) rw]
  | .ten, false => [addr10Byte (addrTop2 addr) false, addrLow8 addr]
  | .ten, true => [addr10Byte (addrTop2 addr) true]

/-- Send the frames in order, each checked. -/
def sendFrames (f : Failure) : List Byte → State → Run Unit
  | [], s => .ok () s
  | v :: vs, s => (sendFrame f v s).andThen fun _ t => sendFrames f vs t

/-- SEND_ADDRESS(rw) (R153). -/
def sendAddress (rw : Bit) (s : State) : Run Unit :=
  (sendFrames .noResponse (addressBytes s.am s.addr rw) s).andThen fun _ t => .ok () (enterFsm .addressSent t)

/-- `BYTECNT <- 0`. -/
def clearCount (s : State) : State := { s with byteCnt := 0 }

/-- `BYTECNT <- BYTECNT + 1`. -/
def incCount (s : State) : State := { s with byteCnt := s.byteCnt + 1 }

/-- The loop of SEND_REGIDX for n more bytes: the next is byte n - 1 of `REGIDX`, high byte first (R156). -/
def sendIndexBytes : Nat → State → Run Unit
  | 0, s => .ok () s
  | n + 1, s =>
    (sendFrame .protocolError (regidxByteAt s.regidx n) s).andThen fun _ t => sendIndexBytes n (incCount t)

/-- SEND_REGIDX (R156). -/
def sendRegidx (s : State) : Run Unit :=
  (sendIndexBytes s.riw.toNat (clearCount s)).andThen fun _ t => .ok () (enterFsm .registerIndexSent t)

/-! ### Meanings -/

/-- WRITE_BYTE: it returns `ACKF`. -/
def execWriteByte (v : Byte) (s : State) : Host.Outcome State Fault Refusal :=
  .next ((writeByte v s).finish .bit)

/-- READ_BYTE: it returns the byte. An index at or beyond `MAX_LEN` names no byte of `BUF` (R60; log 14). -/
def execReadByte (k : Ack) (i : BitVec 12) (s : State) : Host.Outcome State Fault Refusal :=
  if hasByte s i then .next ((readByte k i s).finish .byte) else .fault .bufferIndex

/-- SEND_ADDRESS. -/
def execSendAddress (rw : Bit) (s : State) : Host.Outcome State Fault Refusal :=
  .next ((sendAddress rw s).finish fun _ => .done)

/-- SEND_REGIDX. -/
def execSendRegidx (s : State) : Host.Outcome State Fault Refusal :=
  .next ((sendRegidx s).finish fun _ => .done)

/-- ADDR7: the 7-bit address byte, NoResponse when not acknowledged (30_encoding.md R91, R153). -/
def execAddr7 (a : BitVec 7) (r : Bit) (s : State) : Host.Outcome State Fault Refusal :=
  .next ((sendFrame .noResponse (addr7Byte a r) s).finish fun _ => .done)

/-- ADDR10_HI: the first byte of a 10-bit address (R92, R153). -/
def execAddr10Hi (a : BitVec 2) (r : Bit) (s : State) : Host.Outcome State Fault Refusal :=
  .next ((sendFrame .noResponse (addr10Byte a r) s).finish fun _ => .done)

/-- ADDR10_LO: the second byte of a 10-bit address (R92, R153). -/
def execAddr10Lo (a : Byte) (s : State) : Host.Outcome State Fault Refusal :=
  .next ((sendFrame .noResponse a s).finish fun _ => .done)

/-- ADDR10_RE: the one address byte after a repeated start in 10-bit mode (R93, R153). -/
def execAddr10Re (a : BitVec 2) (s : State) : Host.Outcome State Fault Refusal :=
  .next ((sendFrame .noResponse (addr10Byte a true) s).finish fun _ => .done)

/-- REGIDX_BYTE: a register-index byte, ProtocolError when not acknowledged (R94, R156). -/
def execRegidxByte (v : Byte) (s : State) : Host.Outcome State Fault Refusal :=
  .next ((sendFrame .protocolError v s).finish fun _ => .done)

/-- DATA_BYTE (R95). In a write (`PH2` = 0) the block sends v, ProtocolError when not acknowledged. In the data phase of
a read (`PH2` = 1) the byte is the slave's: READ_BYTE takes it into `BUF[BYTECNT]` (log 10). -/
def execDataByte (v : Byte) (s : State) : Host.Outcome State Fault Refusal :=
  if s.ph2 then
    if hasByte s s.byteCnt then .next ((readByte (ackForByte s.byteCnt s.len) s.byteCnt s).finish .byte)
    else .fault .bufferIndex
  else .next ((sendFrame .protocolError v s).finish fun _ => .done)

/-- PROBE_ADDR: the address byte of a probe, write direction (R184). -/
def execProbeAddr (a : BitVec 7) (s : State) : Host.Outcome State Fault Refusal :=
  .next ((sendFrame .noResponse (addr7Byte a false) s).finish fun _ => .done)

end Sys2Proof.Machine
end

