-- ==== Sys2Proof/Machine/Transactions.lean ====
section
/-! DEFINITION. The host commands INIT, WRREG and RDREG, and PROBE (43_transactions.md). -/

namespace Sys2Proof.Machine

/-! ### INIT (R172) -/

/-- INIT between acceptance and response. -/
def initBody (s : State) : State :=
  let r := guardedRelease (settle (setScl true (setSda true s)))
  { readSda r.2 with err := initStatus r.1 (sdaSample r.2) r.2.err }

/-- INIT. -/
def execInit (p : Packet) (s : State) : Host.Outcome State Fault Refusal :=
  .next (runCommand opInit p (failedCheck s.maxLen (.init p)) initBody s)

/-! ### The phases shared by WRREG and RDREG -/

/-- `if RIW > 0: call SEND_REGIDX` (R176 step 3, R182). -/
def indexPhase (s : State) : Run Unit := if s.riw = 0 then .ok () s else sendRegidx s

/-- Steps 1 to 3: start, the write-direction address phase, the register index (R176, R180). -/
def selectRegister (s : State) : Run Unit :=
  (start s).andThen fun _ t =>
    (sendAddress false (enterFsm .started t)).andThen fun _ u => indexPhase u

/-- `FSM <- DataTransfer; BYTECNT <- 0`. -/
def beginData (s : State) : State := clearCount (enterFsm .dataTransfer s)

/-! ### WRREG (R176) -/

/-- The data loop for n more bytes: each byte is read from `BUF` just before it is sent (20_memory.md R62). -/
def sendData : Nat → State → Run Unit
  | 0, s => .ok () s
  | n + 1, s =>
    (sendFrame .protocolError (s.buf.get s.byteCnt.toNat) (memRead s.byteCnt.toNat s)).andThen fun _ t =>
      sendData n (incCount t)

/-- WRREG up to its STOP. -/
def wrregAttempt (s : State) : Run Unit :=
  (selectRegister s).andThen fun _ t => sendData t.len.toNat (beginData t)

/-- WRREG. -/
def execWrreg (p : Packet) (s : State) : Host.Outcome State Fault Refusal :=
  .next (runCommand opWrreg p (failedCheck s.maxLen (.wrreg p)) (fun t => endTransaction (wrregAttempt t)) s)

/-! ### RDREG (R180) -/

/-- The data loop for n more bytes: ack for every byte but the last, nack for the last. -/
def receiveData : Nat → State → Run Unit
  | 0, s => .ok () s
  | n + 1, s =>
    (readByte (ackForByte s.byteCnt s.len) s.byteCnt s).andThen fun _ t => receiveData n (incCount t)

/-- `PH2 <- 1; FSM <- Started`, after the repeated START. -/
def secondPhase (s : State) : State := { s with ph2 := true, fsm := .started }

/-- RDREG up to its STOP. -/
def rdregAttempt (s : State) : Run Unit :=
  (selectRegister s).andThen fun _ t =>
    (start t).andThen fun _ u =>
      (sendAddress true (secondPhase u)).andThen fun _ v => receiveData v.len.toNat (beginData v)

/-- RDREG. -/
def execRdreg (p : Packet) (s : State) : Host.Outcome State Fault Refusal :=
  .next (runCommand opRdreg p (failedCheck s.maxLen (.rdreg p)) (fun t => endTransaction (rdregAttempt t)) s)

/-! ### PROBE (R184) -/

/-- `ERR <- Ok; PH2 <- 0; FSM <- Idle`. -/
def probeBegin (s : State) : State := { s with err := .ok, ph2 := false, fsm := .idle }

/-- The address phase of a probe; its normal return is `found` = 1. -/
def probeAddressPhase (s : State) : Run Unit :=
  (start s).andThen fun _ t =>
    (sendFrame .noResponse (addr7Byte (probeAddress t.scanAddr) false) (enterFsm .started t)).andThen fun _ u =>
      .ok () (enterFsm .addressSent u)

/-- Whether an operation returned normally. -/
def Run.isOk {α : Type} : Run α → Bool
  | .ok _ _ => true
  | .raised _ _ => false

/-- PROBE: `found`, and the state. Its failures are caught here (R184, 60_exceptions.md R225). -/
def probe (s : State) : Bool × State :=
  let r := probeAddressPhase (probeBegin s)
  (r.isOk, enterFsm .idle (endTransaction r))

/-- PROBE: it returns `found`. -/
def execProbe (s : State) : Host.Outcome State Fault Refusal :=
  .next { (probe s).2 with ret := .bit (probe s).1 }

end Sys2Proof.Machine
end

