-- ==== Sys2Proof/Machine/Scanner.lean ====
section
/-! DEFINITION. The bus scanner (44_scanner.md). -/

namespace Sys2Proof.Machine

/-- `EmitFound(a)` (10_state.md R43): the address on the port, the event in the list. The one-step pulse of
`found_valid` is over when a whole command has run. -/
def emitFound (a : BitVec 7) (s : State) : State :=
  { s with foundAddr := a, found := s.found ++ [a], trace := .found a :: s.trace }

/-- `SCAN_ADDR <- SCAN_ADDR + 1`. -/
def nextAddress (s : State) : State := { s with scanAddr := s.scanAddr + 1 }

/-- One address of a scan: skipped, or probed and reported when found (R200, R203). -/
def scanOne (s : State) : State :=
  if scanSkips s.skip s.scanAddr then s
  else if (probe s).1 then emitFound (probeAddress (probe s).2.scanAddr) (probe s).2
  else (probe s).2

/-- The loop of SCAN for n more addresses (R200). -/
def scanLoop : Nat → State → State
  | 0, s => s
  | n + 1, s => scanLoop n (nextAddress (scanOne s))

/-- SCAN between acceptance and response: the status is always `Ok` (R200, R202). -/
def scanBody (s : State) : State :=
  { scanLoop Config.scanEnd.toNat { s with scanAddr := 0 } with err := .ok }

/-- SCAN. -/
def execScan (p : Packet) (s : State) : Host.Outcome State Fault Refusal :=
  .next (runCommand opScan p (failedCheck s.maxLen (.scan p)) scanBody s)

end Sys2Proof.Machine
end

