-- ==== Sys2Proof/Machine/Dispatch.lean ====
section
/-! DEFINITION. Which meaning each instruction has: one arm per row of spec/opcode_table.json. -/

namespace Sys2Proof.Machine

def exec (i : Instr) (s : State) : Host.Outcome State Fault Refusal :=
  match i with
  -- host commands
  | .init p => Sys2Proof.Machine.execInit p s
  | .wrreg p => Sys2Proof.Machine.execWrreg p s
  | .rdreg p => Sys2Proof.Machine.execRdreg p s
  | .scan p => Sys2Proof.Machine.execScan p s
  -- internal operations
  | .guardReleaseScl => Sys2Proof.Machine.execGuardReleaseScl s
  | .start => Sys2Proof.Machine.execStart s
  | .stop => Sys2Proof.Machine.execStop s
  | .writeBit b => Sys2Proof.Machine.execWriteBit b s
  | .readBit => Sys2Proof.Machine.execReadBit s
  | .writeAck k => Sys2Proof.Machine.execWriteAck k s
  | .readAck => Sys2Proof.Machine.execReadAck s
  | .writeByte v => Sys2Proof.Machine.execWriteByte v s
  | .readByte k j => Sys2Proof.Machine.execReadByte k j s
  | .sendAddress rw => Sys2Proof.Machine.execSendAddress rw s
  | .sendRegidx => Sys2Proof.Machine.execSendRegidx s
  | .probe => Sys2Proof.Machine.execProbe s
  -- wire bytes
  | .addr7 a r => Sys2Proof.Machine.execAddr7 a r s
  | .addr10Hi a r => Sys2Proof.Machine.execAddr10Hi a r s
  | .addr10Lo a => Sys2Proof.Machine.execAddr10Lo a s
  | .addr10Re a => Sys2Proof.Machine.execAddr10Re a s
  | .regidxByte v => Sys2Proof.Machine.execRegidxByte v s
  | .dataByte v => Sys2Proof.Machine.execDataByte v s
  | .probeAddr a => Sys2Proof.Machine.execProbeAddr a s

end Sys2Proof.Machine
end

