-- ==== Sys2Proof/Machine/Sequencer.lean ====
section
/-! DEFINITION. The sequencer, one step at a time: `place` is "the remaining list of steps" (10_state.md R27), and one
step of the block is one pin event, one buffer access, one emission or one `Delay` (00_scope.md R9). The pseudocode of
every operation stands here as its list of steps; the meanings in the family files run the same operations to their end.
Both use the primitives of Ops.lean. -/

namespace Sys2Proof.Machine

/-- Put steps in front of the remaining ones. -/
def push (ts : List Task) (s : State) : State := { s with place := ts ++ s.place }

/-! ### Failures: where a `raise` goes -/

/-- The handler nearest in the remaining steps, and what remains after it: every operation in progress is abandoned
(60_exceptions.md R220). -/
def unwind : List Task → Option (Handler × List Task)
  | [] => none
  | .onRaise h :: k => some (h, k)
  | _ :: k => unwind k

/-- What a handler runs: the forced STOP, then the response that follows the mark, or PROBE's end (R220, R223,
43_transactions.md R184). -/
def handlerTasks : Handler → List Task
  | .command => [.op .stop]
  | .probe => [.op .stop, .probeFailed]

/-- `raise f`. Without a handler the operation stood alone, and its caller is told (log 7). -/
def raiseAt (f : Failure) (s : State) : State :=
  match unwind s.place with
  | none => { s with ret := .raised f, place := [] }
  | some (h, k) => { enterAbort f s with ret := .raised f, place := handlerTasks h ++ k }

/-! ### The operations as lists of steps -/

/-- The guarded release as GUARD_RELEASE_SCL does it, or with its expiry reported. -/
def releaseTasks (g : GuardKind) : List Task := [.release, .poll g]

/-- A written frame and the check of its acknowledge slot. -/
def frameTasks (f : Failure) (v : Byte) : List Task := [.op (.writeByte v), .check f]

/-- READ_BYTE's steps. -/
def readByteTasks (k : Ack) (i : BitVec 12) : List Task :=
  [.loadShift 0, .readBits, .store i, .op (.writeAck k), .returnByte]

/-- Steps 1 to 3 of WRREG and RDREG. -/
def selectTasks : List Task :=
  [.op .start, .setFsm .started, .op (.sendAddress false), .indexPhase]

/-- From the final STOP to the response. -/
def closingTasks : List Task := [.op .stop, .close, .onRaise .command, .respond, .awaitTaken]

/-- The address bytes of SEND_ADDRESS as wire operations (42_byte_and_framing.md R153). -/
def addressTasks (am : AddrMode) (addr : BitVec 10) (rw : Bit) : List Task :=
  match am, rw with
  | .seven, rw => [.op (.addr7 (addrLow7 addr) rw)]
  | .ten, false => [.op (.addr10Hi (addrTop2 addr) false), .op (.addr10Lo (addrLow8 addr))]
  | .ten, true => [.op (.addr10Re (addrTop2 addr))]

/-- The steps of an instruction, called in state s. -/
def steps (s : State) : Instr → List Task
  | .init _ => [.setSda true, .setScl true, .settle] ++ releaseTasks .reporting ++ [.initDecide, .respond, .awaitTaken]
  | .wrreg _ => selectTasks ++ [.setFsm .dataTransfer, .clearCount, .writeLoop] ++ closingTasks
  | .rdreg _ =>
    selectTasks ++ [.op .start, .secondPhase, .op (.sendAddress true), .setFsm .dataTransfer, .clearCount, .readLoop]
      ++ closingTasks
  | .scan _ => [.scanBegin, .scanLoop, .respond, .awaitTaken]
  | .guardReleaseScl => releaseTasks .raising
  | .start =>
    [.setSda true, .delay, .op .guardReleaseScl, .delay, .setSda false, .delay, .setScl false]
  | .stop =>
    [.setScl false, .setSda false, .delay] ++ releaseTasks .reporting ++ [.delay, .setSda true, .delay]
  | .writeBit b => [.setSda b, .delay, .op .guardReleaseScl, .delay, .setScl false]
  | .readBit => [.setSda true, .delay, .op .guardReleaseScl, .delay, .sample, .setScl false]
  | .writeAck k => [.op (.writeBit (ackBit k))]
  | .readAck => [.op .readBit, .ackFlag]
  | .writeByte v => [.loadShift v, .writeBits, .op .readAck]
  | .readByte k i => readByteTasks k i
  | .sendAddress rw => addressTasks s.am s.addr rw ++ [.setFsm .addressSent]
  | .sendRegidx => [.clearCount, .indexLoop]
  | .probe =>
    [.probeBegin, .op .start, .setFsm .started, .op (.probeAddr (probeAddress s.scanAddr)), .setFsm .addressSent,
      .op .stop, .close, .onRaise .probe]
  | .addr7 a r => frameTasks .noResponse (addr7Byte a r)
  | .addr10Hi a r => frameTasks .noResponse (addr10Byte a r)
  | .addr10Lo a => frameTasks .noResponse a
  | .addr10Re a => frameTasks .noResponse (addr10Byte a true)
  | .regidxByte v => frameTasks .protocolError v
  | .dataByte v =>
    if s.ph2 then readByteTasks (ackForByte s.byteCnt s.len) s.byteCnt else frameTasks .protocolError v
  | .probeAddr a => frameTasks .noResponse (addr7Byte a false)

/-- The buffer byte an instruction is called for, where `BUF` has none (R60; log 14). -/
def namesNoByte (s : State) : Instr → Bool
  | .readByte _ i => !hasByte s i
  | .dataByte _ => s.ph2 && !hasByte s s.byteCnt
  | .init _ | .wrreg _ | .rdreg _ | .scan _ | .guardReleaseScl | .start | .stop | .writeBit _ | .readBit
  | .writeAck _ | .readAck | .writeByte _ | .sendAddress _ | .sendRegidx | .probe | .addr7 _ _ | .addr10Hi _ _
  | .addr10Lo _ | .addr10Re _ | .regidxByte _ | .probeAddr _ => false

/-- Call an operation: its steps come first. -/
def callOp (i : Instr) (s : State) : Host.Outcome State Fault Refusal :=
  if namesNoByte s i then .fault .bufferIndex else .next (push (steps s i) s)

/-- One poll of a guard's loop (41_clock_stretch_guard.md R141). -/
def pollOnce (g : GuardKind) (s : State) : State :=
  if sclSample s then
    match g with
    | .raising => { readScl s with ret := .done }
    | .reporting => { readScl s with ret := .bit false }
  else if s.stretchCnt = 0 then
    match g with
    | .raising => raiseAt .timeout (readScl s)
    | .reporting => { readScl s with ret := .bit true }
  else push [.poll g] (countPoll (readScl s))

/-- The bit an operation returned, 0 where it returned none. -/
def returnedBit (s : State) : Bit :=
  match s.ret with
  | .bit b => b
  | .none | .done | .byte _ | .raised _ => false

/-- One step. `s.place` is what remains after it. -/
def runTask (t : Task) (s : State) : Host.Outcome State Fault Refusal :=
  match t with
  | .op i => callOp i s
  | .setScl b => .next (setScl b s)
  | .setSda b => .next (setSda b s)
  | .delay => .next (delay s)
  | .settle => .next (settle s)
  | .release => .next (release s)
  | .poll g => .next (pollOnce g s)
  | .sample => .next { readSda s with ret := .bit (sdaSample s) }
  | .ackFlag =>
    .next { setAckf (ackOfSample (returnedBit s)) s with ret := .bit (ackOfSample (returnedBit s)) }
  | .loadShift v => .next (loadShift v s)
  | .writeBits =>
    .next (if s.bitCnt = 0 then s else push [.op (.writeBit (s.shreg.getLsbD 7)), .shiftOut, .writeBits] s)
  | .shiftOut => .next (shiftBit false s)
  | .readBits => .next (if s.bitCnt = 0 then s else push [.op .readBit, .shiftIn, .readBits] s)
  | .shiftIn => .next (shiftBit (returnedBit s) s)
  | .store i => .next (memWrite i.toNat s.shreg s)
  | .returnByte => .next { s with ret := .byte s.shreg }
  | .check f => .next (if s.ackf then { s with ret := .done } else raiseAt f s)
  | .setFsm f => .next (enterFsm f s)
  | .secondPhase => .next (secondPhase s)
  | .clearCount => .next (clearCount s)
  | .incCount => .next (incCount s)
  | .indexLoop =>
    .next (if s.byteCnt.toNat < s.riw.toNat then
        push [.op (.regidxByte (regidxByteAt s.regidx (s.riw.toNat - 1 - s.byteCnt.toNat))), .incCount, .indexLoop] s
      else { enterFsm .registerIndexSent s with ret := .done })
  | .indexPhase => .next (if s.riw = 0 then s else push [.op .sendRegidx] s)
  | .writeLoop => .next (if s.byteCnt.toNat < s.len.toNat then push [.load, .incCount, .writeLoop] s else s)
  | .load =>
    .next (push (frameTasks .protocolError (s.buf.get s.byteCnt.toNat)) (memRead s.byteCnt.toNat s))
  | .readLoop =>
    .next (if s.byteCnt.toNat < s.len.toNat then
        push [.op (.readByte (ackForByte s.byteCnt s.len) s.byteCnt), .incCount, .readLoop] s
      else s)
  | .close => .next (closeWith (returnedBit s) s)
  | .initDecide =>
    .next { readSda s with err := initStatus (returnedBit s) (sdaSample s) s.err }
  | .probeBegin => .next (probeBegin s)
  | .probeFailed => .next { enterFsm .idle s with ret := .bit false }
  | .scanBegin => .next { s with scanAddr := 0 }
  | .scanLoop =>
    .next (if s.scanAddr.ult Config.scanEnd then
        (if scanSkips s.skip s.scanAddr then push [.scanNext, .scanLoop] s
          else push [.op .probe, .emitFound, .scanNext, .scanLoop] s)
      else { s with err := .ok })
  | .emitFound =>
    .next (if returnedBit s then { emitFound (probeAddress s.scanAddr) s with foundValid := true } else s)
  | .scanNext => .next (nextAddress s)
  | .onRaise .command => .next s
  | .onRaise .probe => .next { enterFsm .idle s with ret := .bit true }
  | .respond => .next (present s)
  | .awaitTaken => .next (if s.rspReady then taken s else push [.awaitTaken] s)

/-! ### Acceptance at the command port -/

/-- The accepting step (10_state.md R42): the packet is latched, the legality checks are made in that step (R88), and
the command's steps become the remaining ones. A packet that fails a check is answered `IllegalCommand`
(60_exceptions.md R215). -/
def acceptPacket (p : BitVec 128) (s : State) : State :=
  let t := accept (packetOp p) (packetFields p) s
  match decodePacket p with
  | .error _ => { t with err := .illegalCommand, place := [.respond, .awaitTaken] }
  | .ok i =>
    match failedCheck s.maxLen i with
    | some _ => { t with err := .illegalCommand, place := [.respond, .awaitTaken] }
    | none => { t with place := steps t i }

end Sys2Proof.Machine
end

