-- ==== Sys2Proof/Machine/Inputs.lean ====
section
/-! DEFINITION. What a step does with the inputs of the block: the reset input, the operation slot, the command port. -/

namespace Sys2Proof.Machine

/-- The block in reset (70_reset_and_hazards.md R240, R241): every register as `State.reset` has it. `BUF`, `MAX_LEN` and
the host's inputs are not the block's to reset (R242). Where a command was running it is lost without a response, and the
bus after it is unconstrained: the answers laid down for it are dropped, so every later read of a released line is a free
value (R242, D21; log 13). -/
def resetBlock (s : State) : State :=
  { State.reset with
    buf := s.buf
    maxLen := s.maxLen
    hostMoves := s.hostMoves
    cmds := s.cmds
    rspReady := s.rspReady
    rst := s.rst
    sclAnswers := if s.busy then [] else s.sclAnswers
    sdaAnswers := if s.busy then [] else s.sdaAnswers
    sclDraws := s.sclDraws
    sdaDraws := s.sdaDraws }

/-- The encoded instruction in the operation slot, run to its end (log 1, log 6). A packet waits while `BUSY` = 1
(10_state.md R42); one that decodes to nothing is an illegal command (60_exceptions.md R215). -/
def runSlot (c : Code) (s : State) : Host.Outcome State Fault Refusal :=
  match decode c with
  | .ok i => if i.isCommand && s.busy then .next s else exec i { s with fetch := none }
  | .error e =>
    match c with
    | .packet p =>
      if s.busy then .next s
      else .next (rejectCommand (accept (packetOp p) (packetFields p) { s with fetch := none }))
    | .internal _ _ => .refused (.noOperation e)
    | .wire _ _ => .refused (.noOperation e)

/-- The command port (R42): the first packet offered is accepted where `BUSY` = 0, and waits otherwise. Between commands,
and with nothing offered, the block is idle (60_exceptions.md R234). -/
def commandPort (s : State) : State :=
  match s.cmds with
  | [] => s
  | p :: rest => if s.busy then s else acceptPacket p { s with cmds := rest }

/-- One step of the block, `found_valid` apart: reset first, then the remaining steps of the running command, then the operation slot,
then the command port. -/
def stepCore (s : State) : Host.Outcome State Fault Refusal :=
  if s.rst then .next (resetBlock s)
  else
    match s.place with
    | t :: k => runTask t { s with place := k }
    | [] =>
      match s.fetch with
      | some c => runSlot c s
      | none => .next (commandPort s)

/-- `found_valid` is 1 for exactly one step (10_state.md R43): every step of the block ends the pulse of the step before.
`found_addr` keeps the address, on which R43 is silent (DESIGN CHOICE, log 21). -/
def endPulse (s : State) : State := { s with foundValid := false }

/-- A table word laid where step fetches its next instruction: the operation slot, with the block ready for it and no
move of the host before it. -/
def loadSlot (s : State) (nbits w : Nat) : State :=
  { s with
    fetch := some (tableCode nbits w), place := [], busy := false, rspValid := false, rst := false, hostMoves := [] }

/-! ### Whose turn it is (00_scope.md R8; log 22) -/

/-- The state in which the block takes its step, none where the next step is the host's. A host's write to `BUF` waits
while `BUSY` = 1, since the block owns `BUF` then (20_memory.md R61). -/
def blockTurn (s : State) : Option State :=
  match s.hostMoves with
  | [] => some s
  | .pass :: k => some { s with hostMoves := k }
  | .write _ _ :: _ => if s.busy then some s else none
  | .offer _ :: _ | .ready _ :: _ | .reset _ :: _ => none

/-- The host's reset input: the block is in reset from the move that asserts it on, and releasing it changes nothing else,
so that the first step after the release starts from the reset values (70_reset_and_hazards.md R240). -/
def setReset (b : Bool) (s : State) : State :=
  if b then resetBlock { s with rst := true } else { s with rst := false }

/-- The step of the host: its next move, on its own inputs and on `BUF`; asserting `rst` resets the block at once. -/
def hostTurn (s : State) : Host.Outcome State Fault Refusal :=
  match s.hostMoves with
  | .offer p :: k => .next { s with hostMoves := k, cmds := s.cmds ++ [p] }
  | .ready b :: k => .next { s with hostMoves := k, rspReady := b }
  | .reset b :: k => .next (setReset b { s with hostMoves := k })
  | .write i v :: k =>
    if hasByte s i then .next { s with hostMoves := k, buf := s.buf.put i.toNat v } else .fault .bufferIndex
  | .pass :: k => .next { s with hostMoves := k }
  | [] => .next s

end Sys2Proof.Machine
end

