-- ==== Sys2Proof/Machine/Step.lean ====
section
/-! DEFINITION. The step of the machine, and how an instruction is placed where it is fetched. -/

namespace Sys2Proof.Machine

/-- One step: of the block, or of the host where the next move is the host's. -/
def step (s : State) : Host.Outcome State Fault Refusal :=
  match blockTurn s with
  | some u => stepCore (endPulse u)
  | none => hostTurn s

/-- s with an instruction, its bits numbered as the opcode table numbers them, where step fetches its next one (log 6). -/
def State.withFetchWord (s : State) (nbits w : Nat) : State := loadSlot s nbits w

end Sys2Proof.Machine
end

