-- ==== Sys2Proof/Machine/Timing.lean ====
section
/-! DEFINITION. The timing figures of 70_reset_and_hazards.md, which no rule of the model depends on: the model has no
time (00_scope.md R11), and a `Delay` is an event of the trace. -/

namespace Sys2Proof.Machine

/-- T_half in cycles of the block's clock, ceil(`F_CLK` / (2 * `CLK`)) (R260, D24). -/
def halfPeriodCycles (clk : Word) : Nat := (Config.fClk + 2 * clk.toNat - 1) / (2 * clk.toNat)

/-- How many half-periods the events of a run wait (R261). -/
def halfPeriods (es : List Event) : Nat := es.count .delay

/-- The least time the delays of a run take, in cycles of the block's clock: its half-periods, and `T_SETTLE` for the
settle delay of INIT (R260, R262). Stretching and polling add to it. That `T_SETTLE` counts cycles is the model's choice:
R7 and R262 give it no unit (DESIGN CHOICE, log 19). -/
def delayCycles (clk : Word) (es : List Event) : Nat :=
  halfPeriods es * halfPeriodCycles clk + es.count .settle * Config.tSettle

end Sys2Proof.Machine
end

