-- ==== Sys2Proof/Safety.lean ====
section
/-! DEFINITION. What counts as a safe run, in the terms the claims use: the event lists of the wire frames, the start and
stop conditions of a run, what an operation may change, and the invariants. -/

namespace Sys2Proof.Machine

/-! ### Event lists, in the order of time (00_scope.md R16, 95_test_vectors.md) -/

/-- The bits of a byte, most significant first (20_memory.md R66). -/
def bitsOf (v : Byte) : List Bit :=
  [v.getLsbD 7, v.getLsbD 6, v.getLsbD 5, v.getLsbD 4, v.getLsbD 3, v.getLsbD 2, v.getLsbD 1, v.getLsbD 0]

/-- START without stretching: `D1 . C1 c=1 . D0 . C0`. -/
def startEvents : List Event :=
  [.sda true, .delay, .scl true, .readScl true, .delay, .sda false, .delay, .scl false]

/-- STOP without stretching: `C0 D0 . C1 c=1 . D1 .`. -/
def stopEvents : List Event :=
  [.scl false, .sda false, .delay, .scl true, .readScl true, .delay, .sda true, .delay]

/-- n polls of a clock line that reads low. -/
def lowPolls (n : Nat) : List Event := List.replicate n (.readScl false)

/-- INIT up to its first poll: `D1 C1 <settle> C1`. -/
def initEvents : List Event := [.sda true, .scl true, .settle, .scl true]

/-- WRITE_BIT(b) without stretching. -/
def writeCell (b : Bit) : List Event := [.sda b, .delay, .scl true, .readScl true, .delay, .scl false]

/-- READ_BIT without stretching, the line sampled d. -/
def readCell (d : Bit) : List Event :=
  [.sda true, .delay, .scl true, .readScl true, .delay, .readSda d, .scl false]

/-- A byte the block sends, its acknowledge slot sampled d (30_encoding.md R90). -/
def writeFrame (v : Byte) (d : Bit) : List Event := (bitsOf v).flatMap writeCell ++ readCell d

/-- A byte the block receives into `BUF[i]` and answers k (R90, R95). -/
def readFrame (i : Nat) (v : Byte) (k : Ack) : List Event :=
  (bitsOf v).flatMap readCell ++ [.memWrite i v] ++ writeCell (ackBit k)

/-- The register-index bytes in the order they are sent (30_encoding.md R94). -/
def indexBytes (riw : BitVec 3) (regidx : Word) : List Byte :=
  ((List.range riw.toNat).reverse).map (regidxByteAt regidx)

/-- The acknowledged frames of a list of bytes. -/
def ackedFrames (vs : List Byte) : List Event := vs.flatMap fun v => writeFrame v false

/-- The data phase of a write from index i on: each byte is read from `BUF`, then sent. -/
def dataEvents (m : Memory) : Nat → Nat → List Event
  | _, 0 => []
  | i, n + 1 => .memRead i (m.get i) :: writeFrame (m.get i) false ++ dataEvents m (i + 1) n

/-- The data phase of a read from index i on: ack for every byte but the last, nack for the last. -/
def readEvents : Nat → List Byte → List Event
  | _, [] => []
  | i, v :: vs => readFrame i v (if vs.isEmpty then .nack else .ack) ++ readEvents (i + 1) vs

/-! ### Start and stop conditions made by the block's own latches (30_encoding.md R97, 40_bus_signalling.md R127) -/

/-- The latches after the events of a trace, the latest event first, from the latches c, d. -/
def latchesAfter (c d : Bit) : List Event → Bit × Bit
  | [] => (c, d)
  | .scl b :: es => (b, (latchesAfter c d es).2)
  | .sda b :: es => ((latchesAfter c d es).1, b)
  | _ :: es => latchesAfter c d es

/-- How often the trace makes the data latch fall while the clock latch is 1. -/
def startEdges (c d : Bit) : List Event → Nat
  | [] => 0
  | .sda false :: es => (if latchesAfter c d es = (true, true) then 1 else 0) + startEdges c d es
  | _ :: es => startEdges c d es

/-- How often the trace makes the data latch rise while the clock latch is 1. -/
def stopEdges (c d : Bit) : List Event → Nat
  | [] => 0
  | .sda true :: es => (if latchesAfter c d es = (true, false) then 1 else 0) + stopEdges c d es
  | _ :: es => stopEdges c d es

/-- How often the clock is released. -/
def releases (es : List Event) : Nat := es.count (.scl true)

/-- The samples of the data line, in the order of time. -/
def samples (es : List Event) : List Bit :=
  es.filterMap fun
    | .readSda d => some d
    | _ => none

/-- The buffer writes, in the order of time. -/
def stores (es : List Event) : List (Nat × Byte) :=
  es.filterMap fun
    | .memWrite i v => some (i, v)
    | _ => none

/-- STOP with the clock line low through its whole guard of a budget of tmo polls:
`C0 D0 . C1 c=0 ... c=0 . D1 .`. -/
def expiredStopEvents (tmo : Word) : List Event :=
  ([.scl false, .sda false, .delay, .scl true] : List Event) ++ lowPolls (tmo.toNat + 1) ++
    ([.delay, .sda true, .delay] : List Event)

/-- The events up to the release of the clock numbered n, counted from 0, that release with them. -/
def cutAtRelease : Nat → List Event → List Event
  | _, [] => []
  | 0, .scl true :: _ => [.scl true]
  | n + 1, .scl true :: es => .scl true :: cutAtRelease n es
  | n, e :: es => e :: cutAtRelease n es

/-- A WRREG up to its STOP, without stretching and every slot acknowledged (30_encoding.md R96). -/
def wrregFrame (p : Packet) (m : Memory) : List Event :=
  startEvents ++ ackedFrames (addressBytes p.am p.addr false) ++ ackedFrames (indexBytes p.riw p.regidx) ++
    dataEvents m 0 p.len.toNat

/-- An RDREG up to its STOP, the same, the slave sending the bytes of vs (R96). -/
def rdregFrame (p : Packet) (vs : List Byte) : List Event :=
  startEvents ++ ackedFrames (addressBytes p.am p.addr false) ++ ackedFrames (indexBytes p.riw p.regidx) ++
    startEvents ++ ackedFrames (addressBytes p.am p.addr true) ++ readEvents 0 vs

/-- The probe of an address in a scan without stretching, its slot sampled d, and its found event (44_scanner.md R200,
R203). -/
def probeEvents (a : Nat) (d : Bit) : List Event :=
  startEvents ++ writeFrame (BitVec.ofNat 7 a ++ 0#1) d ++ stopEvents ++
    (if d then [] else [.found (BitVec.ofNat 7 a)])

/-! ### What an operation may change -/

/-- Only the pins, the stretch counter, the answers used up, and the model's records `trace` and `ret`. -/
def changesOnlyBus (s t : State) : Prop :=
  t = { s with
    sclOut := t.sclOut, sdaOut := t.sdaOut, stretchCnt := t.stretchCnt
    sclAnswers := t.sclAnswers, sdaAnswers := t.sdaAnswers, sclDraws := t.sclDraws, sdaDraws := t.sdaDraws
    trace := t.trace, ret := t.ret }

/-- These, and the byte registers `SHREG`, `BITCNT` and the flag `ACKF`. -/
def changesOnlyByte (s t : State) : Prop :=
  t = { s with
    sclOut := t.sclOut, sdaOut := t.sdaOut, stretchCnt := t.stretchCnt
    sclAnswers := t.sclAnswers, sdaAnswers := t.sdaAnswers, sclDraws := t.sclDraws, sdaDraws := t.sdaDraws
    trace := t.trace, ret := t.ret
    shreg := t.shreg, bitCnt := t.bitCnt, ackf := t.ackf }

/-- These, and the sequencer's `FSM`, `PH2`, `BYTECNT` and the latch `ERR`. -/
def changesOnlyPhase (s t : State) : Prop :=
  t = { s with
    sclOut := t.sclOut, sdaOut := t.sdaOut, stretchCnt := t.stretchCnt
    sclAnswers := t.sclAnswers, sdaAnswers := t.sdaAnswers, sclDraws := t.sclDraws, sdaDraws := t.sdaDraws
    trace := t.trace, ret := t.ret
    shreg := t.shreg, bitCnt := t.bitCnt, ackf := t.ackf
    fsm := t.fsm, ph2 := t.ph2, byteCnt := t.byteCnt, err := t.err }

/-- What every command leaves alone: the host's inputs and moves, `MAX_LEN`, `found_valid` and the operation slot. -/
def keepsHostSide (s t : State) : Prop :=
  t.cmds = s.cmds ∧ t.rspReady = s.rspReady ∧ t.rst = s.rst ∧ t.maxLen = s.maxLen ∧ t.foundValid = s.foundValid ∧
    t.fetch = s.fetch ∧ t.hostMoves = s.hostMoves

/-- The latched command is the packet (10_state.md R33). -/
def latched (op : BitVec 4) (p : Packet) (t : State) : Prop :=
  t.op = op ∧ t.clk = p.clk ∧ t.am = p.am ∧ t.addr = p.addr ∧ t.riw = p.riw ∧ t.tmo = p.tmo ∧
    t.regidx = p.regidx ∧ t.len = p.len ∧ t.skip = p.skip

/-! ### Between commands (10_state.md R49) -/

/-- Both lines released, `FSM` Idle. -/
def busReleased (s : State) : Prop := s.sclOut = true ∧ s.sdaOut = true ∧ s.fsm = .idle

/-- No command running and no response waiting. -/
def quiet (s : State) : Prop := s.busy = false ∧ s.place = [] ∧ s.rspValid = false

/-- The state of R49 in which a command is accepted, with no reset and an empty operation slot. -/
def readyForCommand (s : State) : Prop := quiet s ∧ busReleased s ∧ s.rst = false ∧ s.fetch = none

/-! ### Invariants -/

/-- What the remaining steps say of a pin latch before they run: its value, or nothing. -/
structure PinView where
  scl : Option Bit
  sda : Option Bit
  deriving DecidableEq, Repr

/-- Both latches known to be 1. -/
def PinView.released : PinView := { scl := some true, sda := some true }

/-- Nothing known. -/
def PinView.unknown : PinView := { scl := none, sda := none }

/-- What a step that returns normally makes of the view. -/
def PinView.after (v : PinView) : Task → PinView
  | .setScl b => { v with scl := some b }
  | .setSda b => { v with sda := some b }
  | .release => { v with scl := some true }
  | .op .stop => .released
  | .op .probe => .released
  | .op _ => .unknown
  | .writeBits | .readBits | .indexLoop | .indexPhase | .writeLoop | .load | .readLoop => .unknown
  | .scanLoop => if v = .released then .released else .unknown
  | _ => v

/-- Whether a `raise` among the steps before would find a handler in k. -/
def hasHandler (k : List Task) : Bool := k.any fun t => t = .onRaise .command || t = .onRaise .probe

/-- The steps that can raise stand before a handler, and no command is called from inside another. -/
def raiseCaught (k : List Task) : Task → Bool
  | .op .stop => true
  | .op .probe => true
  | .op i => !i.isCommand && hasHandler k
  | .poll .raising | .check _ | .writeBits | .readBits | .indexLoop | .indexPhase | .writeLoop | .load | .readLoop =>
    hasHandler k
  | _ => true

/-- Every mark a `raise` can go to, and the response, is reached with both latches 1; the wait for the host is the last
step. -/
def endsReleased : PinView → List Task → Bool
  | v, [] => v = .released
  | v, .onRaise _ :: k => v = .released && endsReleased v k
  | v, .respond :: k => v = .released && endsReleased v k
  | v, .awaitTaken :: k => v = .released && k.isEmpty
  | v, t :: k => raiseCaught k t && endsReleased (v.after t) k

/-- The operation slot holds no operation that could leave the lines pulled low. -/
def slotHoldsCommand (s : State) : Prop :=
  match s.fetch with
  | none => True
  | some (.packet _) => True
  | some _ => False

/-- The invariant of R49: between commands both lines are released and `FSM` is Idle; while a command runs its remaining
steps end that way, with the response as the last step. -/
def BusInv (s : State) : Prop :=
  slotHoldsCommand s ∧
    (s.place = [] → s.busy = false ∧ busReleased s) ∧
    (s.place ≠ [] → s.busy = true ∧ .awaitTaken ∈ s.place ∧
      endsReleased { scl := some s.sclOut, sda := some s.sdaOut } s.place = true)

/-! ### The transaction state machine (10_state.md R29) -/

/-- The rows of R29. A failure of the first START leaves `Idle` for `Aborted`: R29 is a summary, R220 governs, and
10_state.md R49 and V-TXN-5 have that failure. -/
def fsmEdges : List (Fsm × Fsm) :=
  [(.idle, .started), (.started, .addressSent), (.addressSent, .registerIndexSent), (.addressSent, .dataTransfer),
    (.registerIndexSent, .dataTransfer), (.registerIndexSent, .started), (.addressSent, .started),
    (.addressSent, .stopped), (.dataTransfer, .stopped), (.idle, .aborted), (.started, .aborted),
    (.addressSent, .aborted), (.registerIndexSent, .aborted), (.dataTransfer, .aborted), (.stopped, .idle),
    (.aborted, .idle)]

/-- `FSM` stays, or moves along an edge. -/
def fsmMoves (f g : Fsm) : Bool := f = g || fsmEdges.contains (f, g)

/-- Whether a step can raise, or calls what can. -/
def canRaise : Task → Bool
  | .op .stop | .op .probe => false
  | .op _ | .poll .raising | .check _ | .writeBits | .readBits | .indexLoop | .indexPhase | .writeLoop | .load
  | .readLoop => true
  | _ => false

/-- From `FSM` = f the remaining steps move along the edges of R29 whatever happens in them, and end in `Idle`. -/
def fsmFollows : Fsm → List Task → Bool
  | f, [] => f = .idle
  | f, t :: k =>
    raiseCaught k t && (!canRaise t || fsmMoves f .aborted) &&
      match t with
      | .setFsm g => fsmMoves f g && fsmFollows g k
      | .secondPhase => fsmMoves f .started && fsmFollows .started k
      | .op (.sendAddress _) => fsmMoves f .addressSent && fsmFollows .addressSent k
      | .op .sendRegidx | .indexLoop => fsmMoves f .registerIndexSent && fsmFollows .registerIndexSent k
      | .indexPhase => fsmMoves f .registerIndexSent && fsmFollows .registerIndexSent k && fsmFollows f k
      | .close => fsmMoves f .stopped && fsmMoves f .aborted && fsmFollows .stopped k && fsmFollows .aborted k
      | .op .probe | .probeBegin | .probeFailed | .onRaise .probe | .awaitTaken =>
        fsmMoves f .idle && fsmFollows .idle k
      | .scanLoop => f = .idle && fsmFollows f k
      | .onRaise .command => fsmFollows f k && fsmFollows .aborted k
      | _ => fsmFollows f k

/-- The invariant of R29: the operation slot is empty, as on the hardware, `FSM` is Idle where nothing is running, and
while a command runs its remaining steps follow the edges. -/
def FsmInv (s : State) : Prop := s.fetch = none ∧ fsmFollows s.fsm s.place = true

/-- The buffer keeps its canonical form, and the response word its reserved bits 31:3 zero with a status code that
exists (20_memory.md; 30_encoding.md R84; 10_state.md R32). -/
def DataInv (s : State) : Prop :=
  s.buf.wf ∧ s.rspWord.extractLsb' 3 29 = 0 ∧ ∃ st : Status, s.rspWord.extractLsb' 0 3 = st.code

end Sys2Proof.Machine
end

