-- ==== Sys2Proof/Certificates/Slice0/Obligations.lean ====
section
/-! DEFINITION. The statements for the provers. Each docstring names the rule of spec/ it formalises, or says that it is the
model's own choice and names the log entry. -/

open Sys2Proof Sys2Proof.Machine

/-! ### Encodings -/

/-- 30_encoding.md R103: the four worked command packets decode to their commands, and those commands encode to them. -/
def Obligations.WorkedPacketsDecodeToTheirCommands : Prop :=
  (decode (.packet (packetWords 0x00106822 0x000186A0 0x000003E8 0x00000000)) =
      .ok (.wrreg ⟨.seven, 1, 0x68, false, 1, 100000, 1000, 0⟩)) ∧
  (decode (.packet (packetWords 0x00206823 0x000186A0 0x000003E8 0x00000000)) =
      .ok (.rdreg ⟨.seven, 1, 0x68, false, 2, 100000, 1000, 0⟩)) ∧
  (decode (.packet (packetWords 0x00040004 0x000186A0 0x000003E8 0x00000000)) =
      .ok (.scan ⟨.seven, 0, 0, true, 0, 100000, 1000, 0⟩)) ∧
  (decode (.packet (packetWords 0x0002A551 0x00061A80 0x00000032 0x00000000)) =
      .ok (.init ⟨.ten, 2, 0x2A5, false, 0, 400000, 50, 0⟩)) ∧
  (encode (.wrreg ⟨.seven, 1, 0x68, false, 1, 100000, 1000, 0⟩) =
      .packet (packetWords 0x00106822 0x000186A0 0x000003E8 0x00000000)) ∧
  (encode (.rdreg ⟨.seven, 1, 0x68, false, 2, 100000, 1000, 0⟩) =
      .packet (packetWords 0x00206823 0x000186A0 0x000003E8 0x00000000)) ∧
  (encode (.scan ⟨.seven, 0, 0, true, 0, 100000, 1000, 0⟩) =
      .packet (packetWords 0x00040004 0x000186A0 0x000003E8 0x00000000)) ∧
  (encode (.init ⟨.ten, 2, 0x2A5, false, 0, 400000, 50, 0⟩) =
      .packet (packetWords 0x0002A551 0x00061A80 0x00000032 0x00000000))

/-- 30_encoding.md R91, R92 and R93: an address byte written out from its pattern (`aaaaaaar`, `11110aar`, `aaaaaaaa`,
`11110aa1`) decodes to it at every value of its fields; R94, R95 and 43_transactions.md R184 for the other wire bytes. -/
def Obligations.WireBytesDecodeByTheirPatterns : Prop :=
  (∀ (a : BitVec 7) (r : Bit), decode (.wire .address7 (a ++ BitVec.ofBool r)) = .ok (.addr7 a r)) ∧
  (∀ (a : BitVec 2) (r : Bit),
      decode (.wire .address10First (0b11110#5 ++ a ++ BitVec.ofBool r)) = .ok (.addr10Hi a r)) ∧
  (∀ a : Byte, decode (.wire .address10Second a) = .ok (.addr10Lo a)) ∧
  (∀ a : BitVec 2, decode (.wire .reAddress10 (0b11110#5 ++ a ++ 1#1)) = .ok (.addr10Re a)) ∧
  (∀ v : Byte, decode (.wire .registerIndex v) = .ok (.regidxByte v)) ∧
  (∀ v : Byte, decode (.wire .data v) = .ok (.dataByte v)) ∧
  (∀ a : BitVec 7, decode (.wire .probe (a ++ 0#1)) = .ok (.probeAddr a))

/-- 30_encoding.md R102: the internal operations have the numbers 0 to 11, and no other number is one. The places of the
operands in the operand word are the model's choice (log 8). -/
def Obligations.InternalNumbersDecodeToTheirOperations : Prop :=
  decode (.internal 0 0) = .ok .guardReleaseScl ∧ decode (.internal 1 0) = .ok .start ∧
  decode (.internal 2 0) = .ok .stop ∧ decode (.internal 3 1) = .ok (.writeBit true) ∧
  decode (.internal 4 0) = .ok .readBit ∧ decode (.internal 5 1) = .ok (.writeAck .nack) ∧
  decode (.internal 6 0) = .ok .readAck ∧ decode (.internal 7 0xD0) = .ok (.writeByte 0xD0) ∧
  decode (.internal 8 0x1ABC) = .ok (.readByte .nack 0xABC) ∧ decode (.internal 9 1) = .ok (.sendAddress true) ∧
  decode (.internal 10 0) = .ok .sendRegidx ∧ decode (.internal 11 0) = .ok .probe ∧
  ∀ (n : BitVec 4) (x : BitVec 16), 12 ≤ n.toNat → decode (.internal n x) = .error .reservedNumber

/-- 30_encoding.md R86: W0 under the mask 0x0008000F tells the command, and every other value of the masked bits is none. -/
def Obligations.MaskedWordTellsTheCommand : Prop :=
  ∀ w0 w1 w2 w3 : Word,
    let f := packetFields (packetWords w0 w1 w2 w3)
    (w0 &&& 0x0008000F = 1 → decode (.packet (packetWords w0 w1 w2 w3)) = .ok (.init f)) ∧
    (w0 &&& 0x0008000F = 2 → decode (.packet (packetWords w0 w1 w2 w3)) = .ok (.wrreg f)) ∧
    (w0 &&& 0x0008000F = 3 → decode (.packet (packetWords w0 w1 w2 w3)) = .ok (.rdreg f)) ∧
    (w0 &&& 0x0008000F = 4 → decode (.packet (packetWords w0 w1 w2 w3)) = .ok (.scan f)) ∧
    (w0 &&& 0x0008000F ≠ 1 → w0 &&& 0x0008000F ≠ 2 → w0 &&& 0x0008000F ≠ 3 → w0 &&& 0x0008000F ≠ 4 →
      ∃ e, decode (.packet (packetWords w0 w1 w2 w3)) = .error e)

/-- Decode and encode agree on every instruction, every operand at every value: no bit of an encoding is dropped. -/
def Obligations.DecodeOfEncodeIsTheInstruction : Prop :=
  ∀ i : Instr, decode (encode i) = .ok i

/-- Every word that decodes has one meaning: encoding what it decodes to gives the word back. For the operand word of an
internal operation this rests on the model's layout, under which an operand bit that is not used must be 0 (log 8). -/
def Obligations.EncodeOfDecodeIsTheWord : Prop :=
  ∀ (c : Code) (i : Instr), decode c = .ok i → encode i = c

/-- 42_byte_and_framing.md R153 with 30_encoding.md R91 to R93: the bytes of an address phase, bit by bit. -/
def Obligations.AddressPhaseSendsTheFramersBytes : Prop :=
  (∀ (addr : BitVec 10) (rw : Bit),
      addressBytes .seven addr rw = [addr.extractLsb' 0 7 ++ BitVec.ofBool rw]) ∧
  (∀ addr : BitVec 10,
      addressBytes .ten addr false = [0b11110#5 ++ addr.extractLsb' 8 2 ++ 0#1, addr.extractLsb' 0 8]) ∧
  (∀ addr : BitVec 10, addressBytes .ten addr true = [0b11110#5 ++ addr.extractLsb' 8 2 ++ 1#1])

/-- 30_encoding.md R94: the register-index bytes, most significant first, and none with `RIW` = 0. -/
def Obligations.RegisterIndexBytesAreMostSignificantFirst : Prop :=
  ∀ x : Word,
    indexBytes 0 x = [] ∧
    indexBytes 1 x = [x.extractLsb' 0 8] ∧
    indexBytes 2 x = [x.extractLsb' 8 8, x.extractLsb' 0 8] ∧
    indexBytes 3 x = [x.extractLsb' 16 8, x.extractLsb' 8 8, x.extractLsb' 0 8] ∧
    indexBytes 4 x = [x.extractLsb' 24 8, x.extractLsb' 16 8, x.extractLsb' 8 8, x.extractLsb' 0 8]

/-- 30_encoding.md R88: a packet decodes to a command that passes its checks exactly where the six checks hold of its bits,
read as R82 and R83 place them. -/
def Obligations.LegalityIsTheChecksOfTheSpec : Prop :=
  ∀ (maxLen : BitVec 12) (w0 w1 w2 w3 : Word),
    let op := (w0.extractLsb' 0 4).toNat
    let transfer := op = 2 ∨ op = 3
    (∃ i, decode (.packet (packetWords w0 w1 w2 w3)) = .ok i ∧ failedCheck maxLen i = none) ↔
      (1 ≤ op ∧ op ≤ 4) ∧ w0.getLsbD 19 = false ∧ (10000 ≤ w1.toNat ∧ w1.toNat ≤ 1000000) ∧
        (op = 1 ∨ transfer → (w0.extractLsb' 5 3).toNat ≤ 4) ∧
        (op = 1 ∨ transfer → w0.getLsbD 4 = false → (w0.extractLsb' 8 10).toNat ≤ 0x7F) ∧
        (transfer → 1 ≤ (w0.extractLsb' 20 12).toNat ∧ (w0.extractLsb' 20 12).toNat ≤ maxLen.toNat)

/-! ### Reset and the step -/

/-- 70_reset_and_hazards.md R240: the state after reset; the state from the move that asserts `rst` on and in every step
while it is asserted, kept by every step of block and host; and the release changes nothing else, so that the first step after it
starts from these values. `BUF` keeps what it holds (R242). -/
def Obligations.ResetLeavesTheStatedValues : Prop :=
  let stated (t : State) : Prop :=
    t.sclOut = true ∧ t.sdaOut = true ∧ t.fsm = .idle ∧ t.busy = false ∧ t.err = .ok ∧ t.ph2 = false ∧
      t.ackf = false ∧ t.rspValid = false ∧ t.foundValid = false ∧ t.cmdReady = true
  stated State.reset ∧
    (∀ s u : State, blockTurn s = some u → u.rst = true →
      ∃ t, step s = .next t ∧ stated t ∧ t.place = [] ∧ t.buf = s.buf ∧ t.rst = true) ∧
    (∀ (s : State) (k : List HostMove), s.hostMoves = .reset true :: k →
      ∃ t, step s = .next t ∧ stated t ∧ t.place = [] ∧ t.buf = s.buf ∧ t.rst = true) ∧
    (∀ (s : State) (k : List HostMove), s.hostMoves = .reset false :: k →
      step s = .next { s with hostMoves := k, rst := false }) ∧
    (∀ s t : State, (s.rst = true → stated s) → step s = .next t → t.rst = true → stated t)

/-- A step runs the decoded instruction: the word in the operation slot, where it is the block's turn, no reset is asserted
and nothing is running, is executed as exec says, the slot emptied and the pulse of `found_valid` over. A packet needs `BUSY` = 0. The
slot and the turns are the model's own (log 6, log 22). -/
def Obligations.StepRunsTheDecodedInstruction : Prop :=
  ∀ (s u : State) (c : Code) (i : Instr), blockTurn s = some u →
    u.rst = false → u.place = [] → u.fetch = some c → decode c = .ok i →
    (i.isCommand = true → u.busy = false) →
    step s = exec i { u with fetch := none, foundValid := false }

/-- A table word laid where step fetches is the instruction the decoder reads from it, and the next step runs it
(log 6, log 8). -/
def Obligations.FetchedTableWordRuns : Prop :=
  ∀ (s : State) (nbits w : Nat) (i : Instr), decodeTableWord nbits w = some i →
    step (s.withFetchWord nbits w) =
      exec i { s with
        fetch := none, place := [], busy := false, rspValid := false, rst := false, hostMoves := [], foundValid := false }

/-- 10_state.md R33: the step that accepts a packet copies every field into its register. -/
def Obligations.AcceptingStepLatchesThePacket : Prop :=
  ∀ (s u : State) (p : BitVec 128) (rest : List (BitVec 128)), blockTurn s = some u →
    s.rst = false → s.place = [] → s.fetch = none → s.busy = false → s.cmds = p :: rest →
    ∃ t, step s = .next t ∧ latched (p.extractLsb' 0 4) (packetFields p) t ∧ t.cmds = rest ∧
      t.busy = true ∧ t.ph2 = false ∧ t.fsm = s.fsm ∧
      (t.err = .ok ∨ t.err = .illegalCommand) ∧
      t.sclOut = s.sclOut ∧ t.sdaOut = s.sdaOut ∧ t.buf = s.buf ∧ t.trace = [] ∧
      (t.err = .illegalCommand ↔ ∀ i, decode (.packet p) = .ok i → failedCheck s.maxLen i ≠ none)

/-- 10_state.md R42: a packet offered while `BUSY` = 1 waits: no step of the block takes it or drops it, and while steps of
an operation remain, the block does the same whatever packets are offered. -/
def Obligations.BusyBlockLetsThePacketWait : Prop :=
  ∀ s u t : State, blockTurn s = some u → s.busy = true → step s = .next t →
    t.cmds = s.cmds ∧
      (s.place ≠ [] → ∀ q : List (BitVec 128), step { s with cmds := q } = .next { t with cmds := q })

/-- 60_exceptions.md R226, 10_state.md R43: the response is held until the host takes it; then `BUSY` and `rsp_valid` are
cleared and `FSM` is Idle. -/
def Obligations.ResponseIsHeldUntilTaken : Prop :=
  ∀ s u : State, blockTurn s = some u → s.rst = false → s.place = [.awaitTaken] →
    (s.rspReady = false → step s = .next { u with foundValid := false }) ∧
    (s.rspReady = true →
      step s = .next { u with foundValid := false, place := [], rspValid := false, busy := false, fsm := .idle })

/-- 10_state.md R43: a step of the block leaves `found_valid` 1 exactly where that step emitted a found event, and the
event's address is then on `found_addr` and last in the list of found events. A whole SCAN run from the operation slot is
one step here, in which the pulses are over (log 1, log 12). -/
def Obligations.FoundPulseMarksAnEmission : Prop :=
  ∀ s u t : State, blockTurn s = some u → step s = .next t →
    (t.foundValid = true ↔ ∃ a, t.trace = .found a :: s.trace) ∧
      ∀ a, t.trace = .found a :: s.trace → t.foundAddr = a ∧ t.found = s.found ++ [a]

/-- What the host and the block may write, the model's choice (00_scope.md R8 names the host's acts): no step of the block
writes an input, `MAX_LEN` (log 5), the operation slot (log 6), `rsp_ready` and the offered packets but the one it takes
(log 11) or `rst` (log 13); each move of the host does its own act and nothing else but that asserting `rst` resets
the block (ResetLeavesTheStatedValues has the values), and its write to `BUF` waits while
`BUSY` = 1 (20_memory.md R61; log 22). -/
def Obligations.StepNeverWritesTheInputs : Prop :=
  (∀ s u t : State, blockTurn s = some u → step s = .next t →
    t.maxLen = s.maxLen ∧ t.rst = s.rst ∧ t.rspReady = s.rspReady ∧ t.hostMoves = u.hostMoves ∧
      (s.fetch = none → t.fetch = none) ∧ (t.cmds = s.cmds ∨ ∃ p, s.cmds = p :: t.cmds)) ∧
  ∀ (s : State) (k : List HostMove),
    (∀ p, s.hostMoves = .offer p :: k → step s = .next { s with hostMoves := k, cmds := s.cmds ++ [p] }) ∧
    (∀ b, s.hostMoves = .ready b :: k → step s = .next { s with hostMoves := k, rspReady := b }) ∧
    (s.hostMoves = .reset false :: k → step s = .next { s with hostMoves := k, rst := false }) ∧
    (s.hostMoves = .reset true :: k → ∃ t, step s = .next t ∧ t.rst = true ∧ t.hostMoves = k ∧ t.buf = s.buf ∧
      t.maxLen = s.maxLen ∧ t.cmds = s.cmds ∧ t.rspReady = s.rspReady ∧ t.fetch = none) ∧
    (∀ i v, s.hostMoves = .write i v :: k → s.busy = false → i.toNat < s.maxLen.toNat →
      step s = .next { s with hostMoves := k, buf := s.buf.put i.toNat v }) ∧
    (∀ i v, s.hostMoves = .write i v :: k → s.busy = false → s.maxLen.toNat ≤ i.toNat →
      step s = .fault .bufferIndex) ∧
    (∀ i v, s.hostMoves = .write i v :: k → s.busy = true → blockTurn s = some s)

/-! ### The clock-stretch guard -/

/-- 41_clock_stretch_guard.md R142: the guard returns normally at the first poll that reads 1, if it is among the first
`TMO` + 1. -/
def Obligations.GuardReturnsAtTheFirstHighPoll : Prop :=
  ∀ (s : State) (n : Nat) (r : List Bit), n ≤ s.tmo.toNat →
    s.sclAnswers = List.replicate n false ++ true :: r →
    exec .guardReleaseScl s = .next { s with
      sclOut := true, stretchCnt := s.tmo - BitVec.ofNat 32 n, sclAnswers := r, ret := .done
      trace := .readScl true :: (lowPolls n ++ .scl true :: s.trace) }

/-- 41_clock_stretch_guard.md R142: the guard raises Timeout at the (`TMO` + 1)-th poll when the first `TMO` + 1 all read 0;
`SCL_OUT` stays 1 and `STRETCH_CNT` is 0 (R141). -/
def Obligations.GuardTimesOutAfterTheBudget : Prop :=
  ∀ (s : State) (r : List Bit),
    s.sclAnswers = List.replicate (s.tmo.toNat + 1) false ++ r →
    exec .guardReleaseScl s = .next { s with
      sclOut := true, stretchCnt := 0, sclAnswers := r, ret := .raised .timeout
      trace := lowPolls (s.tmo.toNat + 1) ++ .scl true :: s.trace }

/-- 41_clock_stretch_guard.md R141 and R142: whatever the clock line does, one call of the guard releases the clock and makes
at least 1 and at most `TMO` + 1 polls, all but the last of them low; it returns at a high one and raises only at the
(`TMO` + 1)-th, the counter counted down by the low polls before the last, and nothing else changes. -/
def Obligations.GuardMakesAtMostTheBudgetOfPolls : Prop :=
  ∀ s : State, ∃ t n, exec .guardReleaseScl s = .next t ∧ n ≤ s.tmo.toNat ∧
    t.stretchCnt.toNat = s.tmo.toNat - n ∧ changesOnlyBus s t ∧ t.sclOut = true ∧ t.sdaOut = s.sdaOut ∧
    ((t.ret = .done ∧ t.trace = .readScl true :: (lowPolls n ++ .scl true :: s.trace)) ∨
      (t.ret = .raised .timeout ∧ n = s.tmo.toNat ∧
        t.trace = .readScl false :: (lowPolls n ++ .scl true :: s.trace)))

/-! ### Bus signalling -/

/-- 40_bus_signalling.md R121: START without stretching, its pin events and its result. -/
def Obligations.StartMakesTheStartCondition : Prop :=
  ∀ (s : State) (r : List Bit), s.sclAnswers = true :: r →
    exec .start s = .next { s with
      sclOut := false, sdaOut := false, stretchCnt := s.tmo, sclAnswers := r, ret := .done
      trace := ([.scl false, .delay, .sda false, .delay, .readScl true, .scl true, .delay, .sda true] : List Event) ++ s.trace }

/-- 40_bus_signalling.md R122: STOP never raises, from any pin state; both latches end 1, no flag changes, and it returns
whether its guard expired. The first clause is STOP with n low polls within the budget, event by event; the second the
clock line low for the whole guard; the third every environment, the returned bit told by the polls. -/
def Obligations.StopAlwaysReleasesBothLines : Prop :=
  let opening : List Event := [.scl true, .delay, .sda false, .scl false]
  (∀ (s : State) (n : Nat) (r : List Bit), n ≤ s.tmo.toNat → s.sclAnswers = List.replicate n false ++ true :: r →
    exec .stop s = .next { s with
      sclOut := true, sdaOut := true, stretchCnt := s.tmo - BitVec.ofNat 32 n, sclAnswers := r, ret := .bit false
      trace := ([.delay, .sda true, .delay, .readScl true] : List Event) ++ lowPolls n ++ opening ++ s.trace }) ∧
  (∀ (s : State) (r : List Bit), s.sclAnswers = List.replicate (s.tmo.toNat + 1) false ++ r →
    exec .stop s = .next { s with
      sclOut := true, sdaOut := true, stretchCnt := 0, sclAnswers := r, ret := .bit true
      trace := ([.delay, .sda true, .delay] : List Event) ++ lowPolls (s.tmo.toNat + 1) ++ opening ++ s.trace }) ∧
  (∀ s : State, ∃ t n, exec .stop s = .next t ∧ t.sclOut = true ∧ t.sdaOut = true ∧ changesOnlyBus s t ∧
    n ≤ s.tmo.toNat ∧
    ((t.ret = .bit false ∧ t.trace = ([.delay, .sda true, .delay, .readScl true] : List Event) ++ lowPolls n ++ opening ++ s.trace) ∨
      (t.ret = .bit true ∧
        t.trace = ([.delay, .sda true, .delay] : List Event) ++ lowPolls (s.tmo.toNat + 1) ++ opening ++ s.trace)))

/-- 40_bus_signalling.md R123 and R125: WRITE_BIT and WRITE_ACK without stretching; ack is a 0, nack a 1. -/
def Obligations.WriteBitDrivesTheLineForOneCell : Prop :=
  (∀ (s : State) (b : Bit) (r : List Bit), s.sclAnswers = true :: r →
    exec (.writeBit b) s = .next { s with
      sclOut := false, sdaOut := b, stretchCnt := s.tmo, sclAnswers := r, ret := .done
      trace := ([.scl false, .delay, .readScl true, .scl true, .delay, .sda b] : List Event) ++ s.trace }) ∧
  (∀ s : State, exec (.writeAck .ack) s = exec (.writeBit false) s ∧ exec (.writeAck .nack) s = exec (.writeBit true) s)

/-- 40_bus_signalling.md R124 and R126: READ_BIT without stretching samples the data line once while the clock latch is 1;
READ_ACK sets `ACKF` to 1 for a line sampled low, 0 for one sampled high, and returns it. -/
def Obligations.ReadBitSamplesOnce : Prop :=
  ∀ (s : State) (d : Bit) (r q : List Bit), s.sclAnswers = true :: r → s.sdaAnswers = d :: q →
    exec .readBit s = .next { s with
      sclOut := false, sdaOut := true, stretchCnt := s.tmo, sclAnswers := r, sdaAnswers := q, ret := .bit d
      trace := ([.scl false, .readSda d, .delay, .readScl true, .scl true, .delay, .sda true] : List Event) ++ s.trace } ∧
    exec .readAck s = .next { s with
      sclOut := false, sdaOut := true, stretchCnt := s.tmo, sclAnswers := r, sdaAnswers := q
      ackf := !d, ret := .bit (!d)
      trace := ([.scl false, .readSda d, .delay, .readScl true, .scl true, .delay, .sda true] : List Event) ++ s.trace }

/-- 40_bus_signalling.md R128: the latches on exit of every bus operation, normal and by `raise Timeout`, STOP which
never raises among them, for every environment, with the frame: no register but the pins, `STRETCH_CNT` and, for READ_ACK, `ACKF` changes. -/
def Obligations.LatchesOnExitOfBusOperations : Prop :=
  ∀ s : State,
    (∃ t, exec .guardReleaseScl s = .next t ∧ changesOnlyBus s t ∧ t.sclOut = true ∧ t.sdaOut = s.sdaOut ∧
      (t.ret = .done ∨ t.ret = .raised .timeout ∧ t.stretchCnt = 0)) ∧
    (∃ t e, exec .stop s = .next t ∧ changesOnlyBus s t ∧ t.ret = .bit e ∧ t.sclOut = true ∧ t.sdaOut = true) ∧
    (∃ t, exec .start s = .next t ∧ changesOnlyBus s t ∧
      (t.ret = .done ∧ t.sclOut = false ∧ t.sdaOut = false ∨
        t.ret = .raised .timeout ∧ t.sclOut = true ∧ t.sdaOut = true)) ∧
    (∀ b, ∃ t, exec (.writeBit b) s = .next t ∧ changesOnlyBus s t ∧
      (t.ret = .done ∧ t.sclOut = false ∧ t.sdaOut = b ∨
        t.ret = .raised .timeout ∧ t.sclOut = true ∧ t.sdaOut = b)) ∧
    (∃ t, exec .readBit s = .next t ∧ changesOnlyBus s t ∧
      ((∃ d, t.ret = .bit d) ∧ t.sclOut = false ∧ t.sdaOut = true ∨
        t.ret = .raised .timeout ∧ t.sclOut = true ∧ t.sdaOut = true)) ∧
    (∀ k, ∃ t, exec (.writeAck k) s = .next t ∧ changesOnlyBus s t ∧
      (t.ret = .done ∧ t.sclOut = false ∧ t.sdaOut = ackBit k ∨
        t.ret = .raised .timeout ∧ t.sclOut = true ∧ t.sdaOut = ackBit k)) ∧
    (∃ t, exec .readAck s = .next t ∧ changesOnlyBus { s with ackf := t.ackf } t ∧
      (t.ret = .bit t.ackf ∧ t.sclOut = false ∧ t.sdaOut = true ∨
        t.ret = .raised .timeout ∧ t.ackf = s.ackf ∧ t.sclOut = true ∧ t.sdaOut = true))

/-- 60_exceptions.md R218: an acknowledge slot in which the clock is stretched past the budget reports Timeout whatever the
data line would have shown: no sample is taken and `ACKF` is not written. -/
def Obligations.StretchedSlotReportsTimeout : Prop :=
  ∀ (s : State) (r : List Bit), s.sclAnswers = List.replicate (s.tmo.toNat + 1) false ++ r →
    exec .readAck s = .next { s with
      sclOut := true, sdaOut := true, stretchCnt := 0, sclAnswers := r, ret := .raised .timeout
      trace := lowPolls (s.tmo.toNat + 1) ++ ([.scl true, .delay, .sda true] : List Event) ++ s.trace }

/-! ### Byte transfer, framers, wire bytes -/

/-- 42_byte_and_framing.md R150: WRITE_BYTE without stretching sends the eight bits, most significant first, then samples
the acknowledge slot; it returns `ACKF`. -/
def Obligations.WriteByteSendsItsBitsMostSignificantFirst : Prop :=
  ∀ (s : State) (v : Byte) (d : Bit) (r q : List Bit),
    s.sclAnswers = List.replicate 9 true ++ r → s.sdaAnswers = d :: q →
    exec (.writeByte v) s = .next { s with
      sclOut := false, sdaOut := true, stretchCnt := s.tmo, sclAnswers := r, sdaAnswers := q
      shreg := 0, bitCnt := 0, ackf := !d, ret := .bit (!d)
      trace := (writeFrame v d).reverse ++ s.trace }

/-- 42_byte_and_framing.md R152: READ_BYTE without stretching makes the byte of the eight samples, the first in bit 7,
stores it in `BUF[i]` before the acknowledge slot, answers k, and returns the byte. -/
def Obligations.ReadByteStoresTheSampledByte : Prop :=
  ∀ (s : State) (k : Ack) (i : BitVec 12) (v : Byte) (r q : List Bit),
    i.toNat < s.maxLen.toNat → s.sclAnswers = List.replicate 9 true ++ r → s.sdaAnswers = bitsOf v ++ q →
    exec (.readByte k i) s = .next { s with
      sclOut := false, sdaOut := ackBit k, stretchCnt := s.tmo, sclAnswers := r, sdaAnswers := q
      shreg := v, bitCnt := 0, buf := s.buf.put i.toNat v, ret := .byte v
      trace := (readFrame i.toNat v k).reverse ++ s.trace }

/-- 42_byte_and_framing.md R150 and R152 in every environment: WRITE_BYTE and READ_BYTE fail only by Timeout; the frame;
READ_BYTE changes no byte of `BUF` but the one at i, a Timeout in a data cell changes none, and one in the acknowledge
cell leaves the byte stored. -/
def Obligations.ByteOperationsFailOnlyByTimeout : Prop :=
  (∀ (s : State) (v : Byte), ∃ t, exec (.writeByte v) s = .next t ∧ changesOnlyByte s t ∧
    (t.ret = .bit t.ackf ∧ t.sclOut = false ∧ t.sdaOut = true ∧ t.bitCnt = 0 ∨
      t.ret = .raised .timeout ∧ t.ackf = s.ackf ∧ t.sclOut = true)) ∧
  (∀ (s : State) (k : Ack) (i : BitVec 12), s.buf.wf → i.toNat < s.maxLen.toNat →
    ∃ t, exec (.readByte k i) s = .next t ∧ changesOnlyByte { s with buf := t.buf } t ∧ t.ackf = s.ackf ∧
      (∀ a, a ≠ i.toNat → t.buf.get a = s.buf.get a) ∧
      (t.ret = .byte t.shreg ∧ t.buf.get i.toNat = t.shreg ∧ t.sclOut = false ∧ t.sdaOut = ackBit k ∨
        t.ret = .raised .timeout ∧ t.sclOut = true ∧ (t.bitCnt ≠ 0 → t.buf = s.buf) ∧
          (t.bitCnt = 0 → t.buf.get i.toNat = t.shreg)))

/-- The model's choice (log 14): READ_BYTE for an index `BUF` does not have stops. No command reaches it (20_memory.md
R60). -/
def Obligations.ReadByteOutsideTheBufferStops : Prop :=
  ∀ (s : State) (k : Ack) (i : BitVec 12), s.maxLen.toNat ≤ i.toNat → exec (.readByte k i) s = .fault .bufferIndex

/-- A wire byte standing alone is its byte frame with the check of its acknowledge slot: the model's reading of
30_encoding.md R90 to R94 (DEDUCED, log 9). Each sent wire byte is WRITE_BYTE of its pattern, then the check:
NoResponse for an address byte (42_byte_and_framing.md R153, 43_transactions.md R184), ProtocolError for a register-index
byte (R156) and for a written data byte (R176). DATA_BYTE stands here with `PH2` = 0, which the model reads as a write
(DEDUCED, log 10); ReceivedDataByteIsReadByte has `PH2` = 1. -/
def Obligations.WireBytesAreCheckedByteFrames : Prop :=
  let framed (i : Instr) (v : Byte) (f : Failure) (s : State) : Prop :=
    ∃ t u, exec (.writeByte v) s = .next t ∧ exec i s = .next u ∧
      ((t.ret = .raised .timeout ∧ u = t) ∨
        (t.ret = .bit true ∧ u = { t with ret := .done }) ∨
        (t.ret = .bit false ∧ u = { t with ret := .raised f }))
  ∀ s : State,
    (∀ (a : BitVec 7) (r : Bit), framed (.addr7 a r) (a ++ BitVec.ofBool r) .noResponse s) ∧
    (∀ (a : BitVec 2) (r : Bit), framed (.addr10Hi a r) (0b11110#5 ++ a ++ BitVec.ofBool r) .noResponse s) ∧
    (∀ a : Byte, framed (.addr10Lo a) a .noResponse s) ∧
    (∀ a : BitVec 2, framed (.addr10Re a) (0b11110#5 ++ a ++ 1#1) .noResponse s) ∧
    (∀ v : Byte, framed (.regidxByte v) v .protocolError s) ∧
    (∀ v : Byte, s.ph2 = false → framed (.dataByte v) v .protocolError s) ∧
    (∀ a : BitVec 7, framed (.probeAddr a) (a ++ 0#1) .noResponse s)

/-- 43_transactions.md R180 with 30_encoding.md R95: a DATA_BYTE in the data phase of a read is READ_BYTE into
`BUF[BYTECNT]`, answered nack for the last byte and ack for every other. That `PH2` tells the direction is the model's
reading (log 10). -/
def Obligations.ReceivedDataByteIsReadByte : Prop :=
  ∀ (s : State) (v : Byte), s.ph2 = true →
    (s.byteCnt.toNat + 1 = s.len.toNat → exec (.dataByte v) s = exec (.readByte .nack s.byteCnt) s) ∧
    (s.byteCnt.toNat + 1 ≠ s.len.toNat → exec (.dataByte v) s = exec (.readByte .ack s.byteCnt) s)

/-- 42_byte_and_framing.md R153: SEND_ADDRESS with every byte acknowledged puts its bytes on the wire in order and sets
`FSM` to AddressSent. -/
def Obligations.SendAddressPutsItsBytesOnTheWire : Prop :=
  ∀ (s : State) (rw : Bit) (r q : List Bit),
    s.sclAnswers = List.replicate (9 * (addressBytes s.am s.addr rw).length) true ++ r →
    s.sdaAnswers = List.replicate (addressBytes s.am s.addr rw).length false ++ q →
    exec (.sendAddress rw) s = .next { s with
      sclOut := false, sdaOut := true, stretchCnt := s.tmo, sclAnswers := r, sdaAnswers := q
      shreg := 0, bitCnt := 0, ackf := true, fsm := .addressSent, ret := .done
      trace := (ackedFrames (addressBytes s.am s.addr rw)).reverse ++ s.trace }

/-- 42_byte_and_framing.md R156: SEND_REGIDX with every byte acknowledged puts the `RIW` bytes on the wire, counts them, and
sets `FSM` to RegisterIndexSent. -/
def Obligations.SendRegidxPutsItsBytesOnTheWire : Prop :=
  ∀ (s : State) (r q : List Bit), 1 ≤ s.riw.toNat → s.riw.toNat ≤ 4 →
    s.sclAnswers = List.replicate (9 * s.riw.toNat) true ++ r →
    s.sdaAnswers = List.replicate s.riw.toNat false ++ q →
    exec .sendRegidx s = .next { s with
      sclOut := false, sdaOut := true, stretchCnt := s.tmo, sclAnswers := r, sdaAnswers := q
      shreg := 0, bitCnt := 0, ackf := true, fsm := .registerIndexSent, ret := .done
      byteCnt := s.riw.setWidth 12
      trace := (ackedFrames (indexBytes s.riw s.regidx)).reverse ++ s.trace }

/-- 42_byte_and_framing.md R153 and R156 in every environment: the framers' failures, `FSM` unmoved by a failure, and the
frame. SEND_ADDRESS never raises ProtocolError, SEND_REGIDX never NoResponse. -/
def Obligations.FramersRaiseTheirOwnFailures : Prop :=
  (∀ (s : State) (rw : Bit), ∃ t, exec (.sendAddress rw) s = .next t ∧ changesOnlyByte { s with fsm := t.fsm } t ∧
    (t.ret = .done ∧ t.ackf = true ∧ t.fsm = .addressSent ∧ t.sclOut = false ∧ t.sdaOut = true ∨
      t.ret = .raised .noResponse ∧ t.ackf = false ∧ t.fsm = s.fsm ∧ t.sclOut = false ∧ t.sdaOut = true ∨
      t.ret = .raised .timeout ∧ t.fsm = s.fsm ∧ t.sclOut = true)) ∧
  (∀ s : State, ∃ t, exec .sendRegidx s = .next t ∧ changesOnlyByte { s with fsm := t.fsm, byteCnt := t.byteCnt } t ∧
    (t.ret = .done ∧ t.fsm = .registerIndexSent ∧ t.byteCnt = s.riw.setWidth 12 ∨
      t.ret = .raised .protocolError ∧ t.ackf = false ∧ t.fsm = s.fsm ∧ t.sclOut = false ∧ t.sdaOut = true ∨
      t.ret = .raised .timeout ∧ t.fsm = s.fsm ∧ t.sclOut = true))

/-! ### Failures -/

/-- 60_exceptions.md R220 with R219 and R223: what taking a failure does: the first failure is latched, `FSM` is Aborted,
and then STOP runs as the operation it is and its result is not used, so that both latches end 1 and nothing else is saved
or changed. -/
def Obligations.TakingAFailureLatchesItAndStops : Prop :=
  ∀ (f : Failure) (s : State),
    let t := abort f s
    (∃ v, exec .stop { s with err := if s.err = .ok then f.status else s.err, fsm := .aborted } = .next v ∧
      t = { v with ret := s.ret }) ∧
    changesOnlyBus { s with err := t.err, fsm := t.fsm } t ∧ t.fsm = .aborted ∧ t.sclOut = true ∧ t.sdaOut = true ∧
      (s.err = .ok → t.err = f.status) ∧ (s.err ≠ .ok → t.err = s.err)

/-! ### Commands -/

/-- 10_state.md R49: from the between-commands state every command, legal or not and whatever the bus answers, ends in the
between-commands state once the host takes the response; a host that is not ready finds both lines released, the response
presented and the block still `BUSY` (70_reset_and_hazards.md R256). -/
def Obligations.EveryCommandEndsBetweenCommands : Prop :=
  ∀ (i : Instr) (s : State), i.isCommand = true → readyForCommand s →
    ∃ t, exec i s = .next t ∧ keepsHostSide s t ∧ t.rspWord = responseWord t.err ∧
      (s.rspReady = true → readyForCommand t) ∧
      (s.rspReady = false → t.busy = true ∧ t.rspValid = true ∧ t.place = [.awaitTaken] ∧ t.sclOut = true ∧
        t.sdaOut = true)

/-- 60_exceptions.md R215 with 30_encoding.md R88 and R89: an illegal command touches no pin and no buffer and responds
`IllegalCommand`, code 5. The first clause is a decoded command that fails one of the checks 3 to 6; the second a packet at
the command port that fails any of the six, a reserved `OP` and a set reserved bit among them, in its own steps; the third
a packet in the operation slot (log 6) that decodes to no command. -/
def Obligations.IllegalCommandOnlyResponds : Prop :=
  let untouched (s t : State) : Prop :=
    t.buf = s.buf ∧ t.sclOut = s.sclOut ∧ t.sdaOut = s.sdaOut ∧ t.ackf = s.ackf ∧ t.sclAnswers = s.sclAnswers ∧
      t.sdaAnswers = s.sdaAnswers ∧ t.shreg = s.shreg ∧ t.bitCnt = s.bitCnt ∧ t.byteCnt = s.byteCnt ∧
      t.scanAddr = s.scanAddr ∧ t.stretchCnt = s.stretchCnt ∧ t.foundAddr = s.foundAddr
  let answered (t : State) : Prop :=
    t.err = .illegalCommand ∧ t.rspWord = 5 ∧ t.trace = [.respond .illegalCommand] ∧ t.found = []
  (∀ (i : Instr) (s : State) (c : Check), i.isCommand = true → s.busy = false → failedCheck s.maxLen i = some c →
    ∃ t, exec i s = .next t ∧ answered t ∧ untouched s t ∧ keepsHostSide s t) ∧
  (∀ (s : State) (p : BitVec 128) (rest : List (BitVec 128)), s.hostMoves = [] →
    s.rst = false → s.place = [] → s.fetch = none → s.busy = false → s.cmds = p :: rest →
    (∀ i, decode (.packet p) = .ok i → failedCheck s.maxLen i ≠ none) →
    ∃ t v, Sys2Proof.core.run 2 s = .next t ∧ step t = .next v ∧
      answered t ∧ untouched s t ∧ latched (p.extractLsb' 0 4) (packetFields p) t ∧ t.cmds = rest ∧
      t.busy = true ∧ t.rspValid = true ∧ t.place = [.awaitTaken] ∧
      answered v ∧ untouched s v ∧ v.busy = !s.rspReady ∧ v.rspValid = !s.rspReady) ∧
  (∀ (s u : State) (p : BitVec 128) (e : DecodeError), blockTurn s = some u → s.rst = false → s.place = [] →
    s.fetch = some (.packet p) → s.busy = false → decode (.packet p) = .error e →
    ∃ t, step s = .next t ∧ answered t ∧ untouched s t)

/-- The model's choice (log 17): exec of a host command at `BUSY` = 1 answers the same state. 10_state.md R42 says of a
packet at the command port that it waits; step never calls exec of a command there. -/
def Obligations.CommandWaitsWhileBusy : Prop :=
  ∀ (i : Instr) (s : State), i.isCommand = true → s.busy = true → exec i s = .next s

/-- 43_transactions.md R172: INIT. With the clock line high within the budget the status is Ok or, with the data line low,
InitError; with the clock line low for `TMO` + 1 polls it is InitError, the data line still being sampled. Both latches are
released, no clock or data line is pulled low, and the trace is the rule's. -/
def Obligations.InitChecksTheIdleBus : Prop :=
  ∀ (p : Packet) (s : State), s.busy = false → s.rspReady = true → failedCheck s.maxLen (.init p) = none →
    (∀ (n : Nat) (d : Bit) (r q : List Bit), n ≤ p.tmo.toNat →
      s.sclAnswers = List.replicate n false ++ true :: r → s.sdaAnswers = d :: q →
      ∃ t, exec (.init p) s = .next t ∧ t.err = (if d then .ok else .initError) ∧ t.rspWord = (if d then 0 else 4) ∧
        t.trace.reverse = initEvents ++ lowPolls n ++ ([.readScl true, .readSda d, .respond t.err] : List Event) ∧
        latched 1 p t ∧ t.busy = false ∧ t.fsm = .idle ∧ t.sclOut = true ∧ t.sdaOut = true ∧ t.buf = s.buf ∧
        t.ackf = s.ackf ∧ t.found = [] ∧ keepsHostSide s t) ∧
    (∀ (d : Bit) (r q : List Bit),
      s.sclAnswers = List.replicate (p.tmo.toNat + 1) false ++ r → s.sdaAnswers = d :: q →
      ∃ t, exec (.init p) s = .next t ∧ t.err = .initError ∧ t.rspWord = 4 ∧
        t.trace.reverse = initEvents ++ lowPolls (p.tmo.toNat + 1) ++ ([.readSda d, .respond .initError] : List Event) ∧
        t.busy = false ∧ t.fsm = .idle ∧ t.sclOut = true ∧ t.sdaOut = true ∧ t.buf = s.buf ∧ keepsHostSide s t)

/-- 43_transactions.md R176 with 30_encoding.md R96: a legal WRREG with no stretching and every slot acknowledged puts the
whole frame on the wire, each data byte read from `BUF` just before it is sent, answers Ok and leaves `BUF` as it was. -/
def Obligations.WrregPutsTheWholeFrameOnTheWire : Prop :=
  ∀ (p : Packet) (s : State) (r q : List Bit),
    let na := (addressBytes p.am p.addr false).length
    s.busy = false → s.rspReady = true → failedCheck s.maxLen (.wrreg p) = none →
    s.sclAnswers = List.replicate (9 * (na + p.riw.toNat + p.len.toNat) + 2) true ++ r →
    s.sdaAnswers = List.replicate (na + p.riw.toNat + p.len.toNat) false ++ q →
    ∃ t, exec (.wrreg p) s = .next t ∧ t.err = .ok ∧ t.rspWord = 0 ∧
      t.trace.reverse = startEvents ++ ackedFrames (addressBytes p.am p.addr false) ++
        ackedFrames (indexBytes p.riw p.regidx) ++ dataEvents s.buf 0 p.len.toNat ++ stopEvents ++ ([.respond .ok] : List Event) ∧
      latched 2 p t ∧ t.buf = s.buf ∧ t.byteCnt = p.len ∧ t.ackf = true ∧ t.ph2 = false ∧
      t.sclOut = true ∧ t.sdaOut = true ∧ t.fsm = .idle ∧ t.busy = false ∧
      t.sclAnswers = r ∧ t.sdaAnswers = q ∧ t.found = [] ∧ t.scanAddr = s.scanAddr ∧ keepsHostSide s t

/-- 43_transactions.md R180 with 30_encoding.md R96: a legal RDREG with no stretching, every slot the slave drives
acknowledged and the slave sending the bytes of vs, puts the whole frame on the wire, ack for every byte but the last and
nack for the last, stores the bytes in `BUF[0 .. LEN-1]`, leaves the rest of `BUF`, and answers Ok. -/
def Obligations.RdregStoresTheSlavesBytes : Prop :=
  ∀ (p : Packet) (s : State) (vs : List Byte) (r q : List Bit),
    let na := (addressBytes p.am p.addr false).length
    s.busy = false → s.rspReady = true → s.buf.wf → failedCheck s.maxLen (.rdreg p) = none →
    vs.length = p.len.toNat →
    s.sclAnswers = List.replicate (9 * (na + p.riw.toNat + 1 + p.len.toNat) + 3) true ++ r →
    s.sdaAnswers = List.replicate (na + p.riw.toNat + 1) false ++ vs.flatMap bitsOf ++ q →
    ∃ t, exec (.rdreg p) s = .next t ∧ t.err = .ok ∧ t.rspWord = 0 ∧
      t.trace.reverse = startEvents ++ ackedFrames (addressBytes p.am p.addr false) ++
        ackedFrames (indexBytes p.riw p.regidx) ++ startEvents ++ ackedFrames (addressBytes p.am p.addr true) ++
        readEvents 0 vs ++ stopEvents ++ ([.respond .ok] : List Event) ∧
      (∀ j, t.buf.get j = (vs[j]?).getD (s.buf.get j)) ∧
      latched 3 p t ∧ t.byteCnt = p.len ∧ t.ackf = true ∧ t.ph2 = true ∧
      t.sclOut = true ∧ t.sdaOut = true ∧ t.fsm = .idle ∧ t.busy = false ∧
      t.sclAnswers = r ∧ t.sdaAnswers = q ∧ t.found = [] ∧ t.scanAddr = s.scanAddr ∧ keepsHostSide s t

/-- 60_exceptions.md R212 and R213 with R220: with no stretching, the first slot that is not acknowledged ends a WRREG and
an RDREG with one stop condition, nothing further sent or read from `BUF`, and `BUF` untouched: with NoResponse for an
address byte, either byte of a 10-bit address and the byte after the repeated start among them; with ProtocolError for a
register-index byte and for a data byte of a write. -/
def Obligations.UnacknowledgedByteEndsTheTransfer : Prop :=
  ∀ (p : Packet) (s : State) (v : Byte) (k : Nat) (r q : List Bit) (i : Instr),
    let address := addressBytes p.am p.addr false
    let na := address.length
    let index := indexBytes p.riw p.regidx
    let ends (n : Nat) (status : Status) (code : Word) (es : List Event) : Prop :=
      s.sclAnswers = List.replicate (9 * (n + 1) + 2) true ++ r → s.sdaAnswers = List.replicate n false ++ true :: q →
      ∃ t, exec i s = .next t ∧ t.err = status ∧ t.rspWord = code ∧
        t.trace.reverse = startEvents ++ es ++ writeFrame v true ++ stopEvents ++ ([.respond status] : List Event) ∧
        t.buf = s.buf ∧ t.ackf = false ∧ t.sclOut = true ∧ t.sdaOut = true ∧ t.fsm = .idle ∧ t.busy = false ∧
        t.sclAnswers = r ∧ t.sdaAnswers = q
    i = .wrreg p ∨ i = .rdreg p → s.busy = false → s.rspReady = true → failedCheck s.maxLen i = none →
    (address[k]? = some v → ends k .noResponse 2 (ackedFrames (address.take k))) ∧
    (index[k]? = some v →
      ends (na + k) .protocolError 3 (ackedFrames address ++ ackedFrames (index.take k))) ∧
    (i = .wrreg p → k < p.len.toNat → v = s.buf.get k →
      ends (na + p.riw.toNat + k) .protocolError 3
        (ackedFrames address ++ ackedFrames index ++ dataEvents s.buf 0 k ++ ([.memRead k v] : List Event))) ∧
    (i = .rdreg p → addressBytes p.am p.addr true = [v] →
      s.sclAnswers = List.replicate (9 * (na + p.riw.toNat + 1) + 3) true ++ r →
      s.sdaAnswers = List.replicate (na + p.riw.toNat) false ++ true :: q →
      ∃ t, exec i s = .next t ∧ t.err = .noResponse ∧ t.rspWord = 2 ∧
        t.trace.reverse = startEvents ++ ackedFrames address ++ ackedFrames index ++ startEvents ++ writeFrame v true ++
          stopEvents ++ ([.respond .noResponse] : List Event) ∧
        t.buf = s.buf ∧ t.ackf = false ∧ t.sclOut = true ∧ t.sdaOut = true ∧ t.fsm = .idle ∧ t.busy = false)

/-- 60_exceptions.md R211, R219 and R224 (a): a clock line held low for longer than the budget. From the first release on,
it makes a WRREG and an RDREG answer Timeout: the forced STOP runs once, its own expiry changes nothing, and both latches
end 1. From the final STOP on, the whole frame being on the wire, it makes them answer Timeout with that one STOP. From the
forced STOP of an abort on, it does not replace the NoResponse that was latched first. The last two clauses stretch the clock
past the budget at any one release before the final STOP, numbered n from 0 (43_transactions.md R176 step 6, R180 (c)): the
START, a repeated START, any cell of an address, index or data byte or of its slot. The frame is cut short there, one STOP
follows, its own guard expiring or not, the status is Timeout, and a read keeps the bytes whose store came before. -/
def Obligations.StuckClockAnswersTimeout : Prop :=
  ∀ (p : Packet) (s : State) (r q : List Bit),
    let address := addressBytes p.am p.addr false
    let na := address.length
    let ends (i : Instr) (status : Status) (code : Word) (es : List Event) (t : State) : Prop :=
      exec i s = .next t ∧ t.err = status ∧ t.rspWord = code ∧ t.trace.reverse = es ++ ([.respond status] : List Event) ∧
        t.sclOut = true ∧ t.sdaOut = true ∧ t.fsm = .idle ∧ t.busy = false ∧ t.sclAnswers = r
    s.busy = false → s.rspReady = true →
    (∀ i, i = .wrreg p ∨ i = .rdreg p → failedCheck s.maxLen i = none →
      (s.sclAnswers = List.replicate (2 * (p.tmo.toNat + 1)) false ++ r →
        ∃ t, t.buf = s.buf ∧ ends i .timeout 1
          (([.sda true, .delay, .scl true] : List Event) ++ lowPolls (p.tmo.toNat + 1) ++ expiredStopEvents p.tmo) t) ∧
      (∀ v, address.head? = some v →
        s.sclAnswers = List.replicate 10 true ++ List.replicate (p.tmo.toNat + 1) false ++ r →
        s.sdaAnswers = true :: q →
        ∃ t, t.buf = s.buf ∧ ends i .noResponse 2 (startEvents ++ writeFrame v true ++ expiredStopEvents p.tmo) t)) ∧
    (failedCheck s.maxLen (.wrreg p) = none →
      s.sclAnswers = List.replicate (9 * (na + p.riw.toNat + p.len.toNat) + 1) true ++
        List.replicate (p.tmo.toNat + 1) false ++ r →
      s.sdaAnswers = List.replicate (na + p.riw.toNat + p.len.toNat) false ++ q →
      ∃ t, t.buf = s.buf ∧ ends (.wrreg p) .timeout 1
        (wrregFrame p s.buf ++ expiredStopEvents p.tmo) t) ∧
    (∀ vs : List Byte, failedCheck s.maxLen (.rdreg p) = none → s.buf.wf → vs.length = p.len.toNat →
      s.sclAnswers = List.replicate (9 * (na + p.riw.toNat + 1 + p.len.toNat) + 2) true ++
        List.replicate (p.tmo.toNat + 1) false ++ r →
      s.sdaAnswers = List.replicate (na + p.riw.toNat + 1) false ++ vs.flatMap bitsOf ++ q →
      ∃ t, (∀ j, t.buf.get j = (vs[j]?).getD (s.buf.get j)) ∧ ends (.rdreg p) .timeout 1
        (rdregFrame p vs ++ expiredStopEvents p.tmo) t) ∧
    (∀ (n : Nat) (stuck : Bool),
      let answers (n : Nat) : List Bit := List.replicate n true ++ List.replicate (p.tmo.toNat + 1) false ++
        (if stuck then List.replicate (p.tmo.toNat + 1) false else [true]) ++ r
      let closing : List Event :=
        lowPolls (p.tmo.toNat + 1) ++ (if stuck then expiredStopEvents p.tmo else stopEvents)
      (failedCheck s.maxLen (.wrreg p) = none → n < 9 * (na + p.riw.toNat + p.len.toNat) + 1 →
        s.sclAnswers = answers n →
        s.sdaAnswers = List.replicate (na + p.riw.toNat + p.len.toNat) false ++ q →
        ∃ t, t.buf = s.buf ∧ ends (.wrreg p) .timeout 1 (cutAtRelease n (wrregFrame p s.buf) ++ closing) t) ∧
      (∀ vs : List Byte, failedCheck s.maxLen (.rdreg p) = none → s.buf.wf → vs.length = p.len.toNat →
        n < 9 * (na + p.riw.toNat + 1 + p.len.toNat) + 2 →
        s.sclAnswers = answers n →
        s.sdaAnswers = List.replicate (na + p.riw.toNat + 1) false ++ vs.flatMap bitsOf ++ q →
        ∃ t, (∀ j, t.buf.get j =
            ((vs.take (stores (cutAtRelease n (rdregFrame p vs))).length)[j]?).getD (s.buf.get j)) ∧
          ends (.rdreg p) .timeout 1 (cutAtRelease n (rdregFrame p vs) ++ closing) t))

/-- 60_exceptions.md R210: the statuses a legal command can answer, whatever the bus does. A raw read never answers
ProtocolError (R213). -/
def Obligations.StatusesEachCommandCanAnswer : Prop :=
  ∀ (p : Packet) (s : State), s.busy = false →
    (failedCheck s.maxLen (.init p) = none →
      ∃ t, exec (.init p) s = .next t ∧ (t.err = .ok ∨ t.err = .initError)) ∧
    (failedCheck s.maxLen (.wrreg p) = none →
      ∃ t, exec (.wrreg p) s = .next t ∧
        (t.err = .ok ∨ t.err = .timeout ∨ t.err = .noResponse ∨ t.err = .protocolError)) ∧
    (failedCheck s.maxLen (.rdreg p) = none →
      ∃ t, exec (.rdreg p) s = .next t ∧
        (t.err = .ok ∨ t.err = .timeout ∨ t.err = .noResponse ∨ (t.err = .protocolError ∧ p.riw ≠ 0))) ∧
    (failedCheck s.maxLen (.scan p) = none → ∃ t, exec (.scan p) s = .next t ∧ t.err = .ok)

/-- 20_memory.md R77: what the commands leave of `BUF`, whatever the bus does and however the command ends: INIT, WRREG and
SCAN all of it, RDREG every byte at or beyond `LEN`. A legal RDREG stores exactly the whole bytes vs it has received, in
rising order from index 0, however it ends: the samples of the data line after its m acknowledge slots, eight to a byte,
and there are too few samples for one byte more. -/
def Obligations.CommandsKeepTheRestOfTheBuffer : Prop :=
  ∀ (p : Packet) (s : State), s.buf.wf →
    (∃ t, exec (.init p) s = .next t ∧ t.buf = s.buf) ∧
    (∃ t, exec (.wrreg p) s = .next t ∧ t.buf = s.buf) ∧
    (∃ t, exec (.scan p) s = .next t ∧ t.buf = s.buf) ∧
    (∃ t, exec (.rdreg p) s = .next t ∧ t.buf.wf ∧ ∀ j, p.len.toNat ≤ j → t.buf.get j = s.buf.get j) ∧
    (s.busy = false → failedCheck s.maxLen (.rdreg p) = none →
      let m := (addressBytes p.am p.addr false).length + p.riw.toNat + 1
      ∃ (t : State) (vs : List Byte), exec (.rdreg p) s = .next t ∧ vs.length ≤ p.len.toNat ∧
        (t.err = .ok → vs.length = p.len.toNat) ∧
        (∀ j, t.buf.get j = (vs[j]?).getD (s.buf.get j)) ∧
        stores t.trace.reverse = (List.range vs.length).zip vs ∧
        (∀ j v, vs[j]? = some v → bitsOf v = ((samples t.trace.reverse).drop (m + 8 * j)).take 8) ∧
        (samples t.trace.reverse).length < m + 8 * (vs.length + 1))

/-- 43_transactions.md R192: a successful WRREG makes 9 * (na + `RIW` + `LEN`) + 2 guarded releases and a successful RDREG
9 * (na + `RIW` + 1 + `LEN`) + 3, however the clock was stretched. -/
def Obligations.SuccessfulTransfersReleaseTheClock : Prop :=
  ∀ (p : Packet) (s : State),
    let na := match p.am with
      | .seven => 1
      | .ten => 2
    s.busy = false →
    (failedCheck s.maxLen (.wrreg p) = none → ∃ t, exec (.wrreg p) s = .next t ∧
      (t.err = .ok → releases t.trace = 9 * (na + p.riw.toNat + p.len.toNat) + 2)) ∧
    (failedCheck s.maxLen (.rdreg p) = none → ∃ t, exec (.rdreg p) s = .next t ∧
      (t.err = .ok → releases t.trace = 9 * (na + p.riw.toNat + 1 + p.len.toNat) + 3))

/-- 43_transactions.md R186 with 40_bus_signalling.md R127: from released latches the block's own latches make exactly one
stop condition in every WRREG, RDREG and PROBE, at most one start condition in a WRREG and a PROBE and two in an RDREG,
and none of either in an INIT: the data latch changes while the clock latch is 1 nowhere else. -/
def Obligations.EveryTransactionMakesOneStop : Prop :=
  ∀ (p : Packet) (s : State), s.sclOut = true → s.sdaOut = true → s.busy = false →
    (failedCheck s.maxLen (.wrreg p) = none → ∃ t, exec (.wrreg p) s = .next t ∧
      stopEdges true true t.trace = 1 ∧ startEdges true true t.trace ≤ 1) ∧
    (failedCheck s.maxLen (.rdreg p) = none → ∃ t, exec (.rdreg p) s = .next t ∧
      stopEdges true true t.trace = 1 ∧ startEdges true true t.trace ≤ 2) ∧
    (failedCheck s.maxLen (.init p) = none → ∃ t, exec (.init p) s = .next t ∧
      stopEdges true true t.trace = 0 ∧ startEdges true true t.trace = 0) ∧
    (s.trace = [] → ∃ t, exec .probe s = .next t ∧
      stopEdges true true t.trace = 1 ∧ startEdges true true t.trace ≤ 1)

/-- 43_transactions.md R184: PROBE in every environment: both latches end 1, `FSM` is Idle, `found` exactly where the
acknowledge slot was sampled low, however the clock was stretched and even if its STOP expires, no failure leaves it, and
the frame; and, with no stretching, its events. -/
def Obligations.ProbeReportsTheAcknowledge : Prop :=
  (∀ s : State, ∃ t found es, exec .probe s = .next t ∧ t.ret = .bit found ∧ t.trace = es ++ s.trace ∧
    (found = true ↔ .readSda false ∈ es) ∧ (t.err = .noResponse ↔ .readSda true ∈ es) ∧
    (found = true → t.ackf = true ∧ (t.err = .ok ∨ t.err = .timeout)) ∧
    t.sclOut = true ∧ t.sdaOut = true ∧ t.fsm = .idle ∧ t.ph2 = false ∧
    (t.err = .ok ∨ t.err = .timeout ∨ t.err = .noResponse) ∧ changesOnlyPhase s t ∧ t.byteCnt = s.byteCnt) ∧
  (∀ (s : State) (d : Bit) (r q : List Bit),
    s.sclAnswers = List.replicate 11 true ++ r → s.sdaAnswers = d :: q →
    ∃ t, exec .probe s = .next t ∧ t.ret = .bit (!d) ∧ t.ackf = !d ∧ t.err = (if d then .noResponse else .ok) ∧
      t.trace = (startEvents ++ writeFrame (s.scanAddr.extractLsb' 0 7 ++ 0#1) d ++ stopEvents).reverse ++ s.trace)

/-- 44_scanner.md R202: whatever the bus does, a legal SCAN answers Ok; its found events rise in address order, lie in the
range `SKIP` allows (R201), and it touches no byte of `BUF`. -/
def Obligations.ScanSwallowsFailures : Prop :=
  ∀ (p : Packet) (s : State), s.busy = false → failedCheck s.maxLen (.scan p) = none →
    ∃ t, exec (.scan p) s = .next t ∧ t.err = .ok ∧ t.rspWord = 0 ∧ latched 4 p t ∧
      t.found.Pairwise (fun a b => a.toNat < b.toNat) ∧
      (p.skip = true → ∀ a ∈ t.found, 0x08 ≤ a.toNat ∧ a.toNat ≤ 0x77) ∧
      t.buf = s.buf ∧ t.byteCnt = s.byteCnt ∧ t.scanAddr = 0x80 ∧ keepsHostSide s t

/-- 44_scanner.md R200 and R201: with no stretching a SCAN probes every address, or with `SKIP` = 1 the addresses 0x08 to
0x77, in rising order: its events are their probes one after the other, each found event after its probe's STOP and before
the next START (R203), and its found events are exactly those whose address byte was acknowledged; ds are the data line's
answers in the acknowledge slots. -/
def Obligations.ScanFindsExactlyTheAcknowledged : Prop :=
  ∀ (p : Packet) (s : State) (ds r q : List Bit),
    let probed := if p.skip then List.range' 0x08 0x70 else List.range 0x80
    s.busy = false → s.rspReady = true → failedCheck s.maxLen (.scan p) = none →
    ds.length = probed.length →
    s.sclAnswers = List.replicate (11 * probed.length) true ++ r → s.sdaAnswers = ds ++ q →
    ∃ t, exec (.scan p) s = .next t ∧ t.err = .ok ∧
      t.trace.reverse = (probed.zip ds).flatMap (fun x => probeEvents x.1 x.2) ++ ([.respond .ok] : List Event) ∧
      t.found = (probed.zip ds).filterMap (fun x => if x.2 then none else some (BitVec.ofNat 7 x.1)) ∧
      t.sclAnswers = r ∧ t.sdaAnswers = q ∧ t.busy = false

/-- 43_transactions.md R188: no memory between commands. Two blocks between commands that agree on `BUF`, `MAX_LEN`, the
host's readiness and what the bus will answer, run a command with the same pin events, buffer writes, found events and
response, whatever every other register holds. -/
def Obligations.CommandsKeepNoMemory : Prop :=
  ∀ (i : Instr) (s u : State), i.isCommand = true → readyForCommand s → readyForCommand u →
    s.buf = u.buf → s.maxLen = u.maxLen → s.rspReady = u.rspReady →
    s.sclAnswers = u.sclAnswers → s.sdaAnswers = u.sdaAnswers →
    s.sclDraws = u.sclDraws → s.sdaDraws = u.sdaDraws →
    ∃ t v, exec i s = .next t ∧ exec i u = .next v ∧ t.trace = v.trace ∧ t.buf = v.buf ∧ t.found = v.found ∧
      t.rspWord = v.rspWord ∧ t.err = v.err ∧ t.sclOut = v.sclOut ∧ t.sdaOut = v.sdaOut ∧ t.fsm = v.fsm ∧
      t.busy = v.busy ∧ t.place = v.place ∧ t.sclAnswers = v.sclAnswers ∧ t.sdaAnswers = v.sdaAnswers ∧
      t.sclDraws = v.sclDraws ∧ t.sdaDraws = v.sdaDraws

/-- The frame of the host commands, whatever the bus does and however they end, legal or not: 10_state.md R21 and R31 name
the operations that write the working registers and `ACKF`, and R33 says what the accepting step latches. That INIT, WRREG
and RDREG leave `found_addr` is the model's choice (DESIGN CHOICE, log 21): R43 is silent on it outside its pulse. -/
def Obligations.CommandsLeaveTheOtherRegisters : Prop :=
  ∀ (p : Packet) (s : State),
    (∃ t, exec (.init p) s = .next t ∧ t.shreg = s.shreg ∧ t.bitCnt = s.bitCnt ∧ t.byteCnt = s.byteCnt ∧
      t.scanAddr = s.scanAddr ∧ t.ackf = s.ackf ∧ t.foundAddr = s.foundAddr ∧ keepsHostSide s t ∧
      (s.busy = false → latched 1 p t)) ∧
    (∃ t, exec (.wrreg p) s = .next t ∧ t.scanAddr = s.scanAddr ∧ t.foundAddr = s.foundAddr ∧ keepsHostSide s t ∧
      (s.busy = false → latched 2 p t)) ∧
    (∃ t, exec (.rdreg p) s = .next t ∧ t.scanAddr = s.scanAddr ∧ t.foundAddr = s.foundAddr ∧ keepsHostSide s t ∧
      (s.busy = false → latched 3 p t)) ∧
    (∃ t, exec (.scan p) s = .next t ∧ t.byteCnt = s.byteCnt ∧ keepsHostSide s t ∧
      (s.busy = false → latched 4 p t))

/-- 70_reset_and_hazards.md R261: the half-periods each operation waits, with no stretching. -/
def Obligations.DelaysPerOperation : Prop :=
  (∀ (s : State) (r : List Bit), s.sclAnswers = true :: r →
    (∃ t, exec .start s = .next t ∧ halfPeriods t.trace = halfPeriods s.trace + 3) ∧
    (∃ t, exec .stop s = .next t ∧ halfPeriods t.trace = halfPeriods s.trace + 3) ∧
    (∀ b, ∃ t, exec (.writeBit b) s = .next t ∧ halfPeriods t.trace = halfPeriods s.trace + 2) ∧
    (∃ t, exec .readBit s = .next t ∧ halfPeriods t.trace = halfPeriods s.trace + 2)) ∧
  (∀ (s : State) (r : List Bit), s.sclAnswers = List.replicate 9 true ++ r →
    (∀ v, ∃ t, exec (.writeByte v) s = .next t ∧ halfPeriods t.trace = halfPeriods s.trace + 18) ∧
    (∀ k i, i.toNat < s.maxLen.toNat →
      ∃ t, exec (.readByte k i) s = .next t ∧ halfPeriods t.trace = halfPeriods s.trace + 18))

/-! ### Invariants and refinement -/

/-- 00_scope.md R9 and R10 with 43_transactions.md R170: a command accepted at the command port and run one pin event, buffer access, emission
or delay at a time comes, after finitely many steps and whatever the bus answers, to exactly the state its meaning gives, where the
host makes no move meanwhile. Packets that decode to no command are IllegalCommandOnlyResponds'; that a step makes at most
one event is StepMakesAtMostOneEvent.
-/
def Obligations.PortRunReachesTheMeaning : Prop :=
  ∀ (s : State) (p : BitVec 128) (rest : List (BitVec 128)) (i : Instr), s.hostMoves = [] →
    s.rst = false → s.place = [] → s.fetch = none → s.busy = false → s.cmds = p :: rest →
    decode (.packet p) = .ok i →
    ∃ n t, exec i { s with cmds := rest, foundValid := false } = .next t ∧ Sys2Proof.core.run n s = .next t

/-- 10_state.md R49 as an invariant of every step, of the sequencer's single steps and of whole operations alike: between
commands both lines are released and `FSM` is Idle, and the remaining steps of a running command lead there. -/
def Obligations.StepKeepsTheBusInvariant : Prop :=
  ∀ s t : State, BusInv s → step s = .next t → BusInv t

/-- The invariants hold at reset: `BusInv` (10_state.md R49: "After reset this holds by rule R48"), `FsmInv` (R48), and
`DataInv`, which rests on the model's reset values: `rsp_word` = 0 (log 3) and nothing listed in `BUF` (log 4). -/
def Obligations.ResetMeetsTheInvariants : Prop :=
  BusInv State.reset ∧ FsmInv State.reset ∧ DataInv State.reset

/-- Every step keeps the canonical form of `BUF` and a response word with bits 31:3 zero and a status code of 10_state.md
R32 (30_encoding.md R84). -/
def Obligations.StepKeepsTheDataInvariant : Prop :=
  ∀ s t : State, DataInv s → step s = .next t → DataInv t

/-- 00_scope.md R9: while steps of an operation remain, a step of the block makes at most one event, and a pin latch or a
byte of `BUF` changes only in a step that makes that write and no other event. -/
def Obligations.StepMakesAtMostOneEvent : Prop :=
  ∀ s u t : State, blockTurn s = some u → s.rst = false → s.place ≠ [] → step s = .next t →
    (t.trace = s.trace ∨ ∃ e, t.trace = e :: s.trace) ∧
      (t.sclOut ≠ s.sclOut → t.trace = .scl t.sclOut :: s.trace) ∧
      (t.sdaOut ≠ s.sdaOut → t.trace = .sda t.sdaOut :: s.trace) ∧
      (t.buf ≠ s.buf → ∃ i v, t.trace = .memWrite i v :: s.trace ∧ t.buf = s.buf.put i v)

/-- 10_state.md R29: from a state in which nothing runs and `FSM` is Idle, or in which the remaining steps of a running
command follow the edges, every step leads to such a state, and where that state is not in reset `FSM` stays or moves along an
edge of R29. -/
def Obligations.FsmMovesAlongItsEdges : Prop :=
  ∀ s t : State, FsmInv s → step s = .next t → FsmInv t ∧ (t.rst = false → fsmMoves s.fsm t.fsm = true)
end

