-- ==== Sys2Proof/Laws/State.lean ====
section
/-! SUPPORT. One lemma per field of State for each named update: what the update makes of the field. -/

namespace Sys2Proof.Machine

variable (s : State)

/-! ### setScl -/

@[simp] theorem setScl_sclOut (b : Bit) : (setScl b s).sclOut = b := rfl
@[simp] theorem setScl_sdaOut (b : Bit) : (setScl b s).sdaOut = s.sdaOut := rfl
@[simp] theorem setScl_fsm (b : Bit) : (setScl b s).fsm = s.fsm := rfl
@[simp] theorem setScl_ph2 (b : Bit) : (setScl b s).ph2 = s.ph2 := rfl
@[simp] theorem setScl_bitCnt (b : Bit) : (setScl b s).bitCnt = s.bitCnt := rfl
@[simp] theorem setScl_byteCnt (b : Bit) : (setScl b s).byteCnt = s.byteCnt := rfl
@[simp] theorem setScl_scanAddr (b : Bit) : (setScl b s).scanAddr = s.scanAddr := rfl
@[simp] theorem setScl_place (b : Bit) : (setScl b s).place = s.place := rfl
@[simp] theorem setScl_shreg (b : Bit) : (setScl b s).shreg = s.shreg := rfl
@[simp] theorem setScl_stretchCnt (b : Bit) : (setScl b s).stretchCnt = s.stretchCnt := rfl
@[simp] theorem setScl_ackf (b : Bit) : (setScl b s).ackf = s.ackf := rfl
@[simp] theorem setScl_err (b : Bit) : (setScl b s).err = s.err := rfl
@[simp] theorem setScl_busy (b : Bit) : (setScl b s).busy = s.busy := rfl
@[simp] theorem setScl_op (b : Bit) : (setScl b s).op = s.op := rfl
@[simp] theorem setScl_clk (b : Bit) : (setScl b s).clk = s.clk := rfl
@[simp] theorem setScl_am (b : Bit) : (setScl b s).am = s.am := rfl
@[simp] theorem setScl_addr (b : Bit) : (setScl b s).addr = s.addr := rfl
@[simp] theorem setScl_riw (b : Bit) : (setScl b s).riw = s.riw := rfl
@[simp] theorem setScl_tmo (b : Bit) : (setScl b s).tmo = s.tmo := rfl
@[simp] theorem setScl_regidx (b : Bit) : (setScl b s).regidx = s.regidx := rfl
@[simp] theorem setScl_len (b : Bit) : (setScl b s).len = s.len := rfl
@[simp] theorem setScl_skip (b : Bit) : (setScl b s).skip = s.skip := rfl
@[simp] theorem setScl_cmds (b : Bit) : (setScl b s).cmds = s.cmds := rfl
@[simp] theorem setScl_rspValid (b : Bit) : (setScl b s).rspValid = s.rspValid := rfl
@[simp] theorem setScl_rspReady (b : Bit) : (setScl b s).rspReady = s.rspReady := rfl
@[simp] theorem setScl_rspWord (b : Bit) : (setScl b s).rspWord = s.rspWord := rfl
@[simp] theorem setScl_foundValid (b : Bit) : (setScl b s).foundValid = s.foundValid := rfl
@[simp] theorem setScl_foundAddr (b : Bit) : (setScl b s).foundAddr = s.foundAddr := rfl
@[simp] theorem setScl_rst (b : Bit) : (setScl b s).rst = s.rst := rfl
@[simp] theorem setScl_buf (b : Bit) : (setScl b s).buf = s.buf := rfl
@[simp] theorem setScl_maxLen (b : Bit) : (setScl b s).maxLen = s.maxLen := rfl
@[simp] theorem setScl_hostMoves (b : Bit) : (setScl b s).hostMoves = s.hostMoves := rfl
@[simp] theorem setScl_sclAnswers (b : Bit) : (setScl b s).sclAnswers = s.sclAnswers := rfl
@[simp] theorem setScl_sdaAnswers (b : Bit) : (setScl b s).sdaAnswers = s.sdaAnswers := rfl
@[simp] theorem setScl_sclDraws (b : Bit) : (setScl b s).sclDraws = s.sclDraws := rfl
@[simp] theorem setScl_sdaDraws (b : Bit) : (setScl b s).sdaDraws = s.sdaDraws := rfl
@[simp] theorem setScl_ret (b : Bit) : (setScl b s).ret = s.ret := rfl
@[simp] theorem setScl_fetch (b : Bit) : (setScl b s).fetch = s.fetch := rfl
@[simp] theorem setScl_trace (b : Bit) : (setScl b s).trace = .scl b :: s.trace := rfl
@[simp] theorem setScl_found (b : Bit) : (setScl b s).found = s.found := rfl

/-! ### setSda -/

@[simp] theorem setSda_sclOut (b : Bit) : (setSda b s).sclOut = s.sclOut := rfl
@[simp] theorem setSda_sdaOut (b : Bit) : (setSda b s).sdaOut = b := rfl
@[simp] theorem setSda_fsm (b : Bit) : (setSda b s).fsm = s.fsm := rfl
@[simp] theorem setSda_ph2 (b : Bit) : (setSda b s).ph2 = s.ph2 := rfl
@[simp] theorem setSda_bitCnt (b : Bit) : (setSda b s).bitCnt = s.bitCnt := rfl
@[simp] theorem setSda_byteCnt (b : Bit) : (setSda b s).byteCnt = s.byteCnt := rfl
@[simp] theorem setSda_scanAddr (b : Bit) : (setSda b s).scanAddr = s.scanAddr := rfl
@[simp] theorem setSda_place (b : Bit) : (setSda b s).place = s.place := rfl
@[simp] theorem setSda_shreg (b : Bit) : (setSda b s).shreg = s.shreg := rfl
@[simp] theorem setSda_stretchCnt (b : Bit) : (setSda b s).stretchCnt = s.stretchCnt := rfl
@[simp] theorem setSda_ackf (b : Bit) : (setSda b s).ackf = s.ackf := rfl
@[simp] theorem setSda_err (b : Bit) : (setSda b s).err = s.err := rfl
@[simp] theorem setSda_busy (b : Bit) : (setSda b s).busy = s.busy := rfl
@[simp] theorem setSda_op (b : Bit) : (setSda b s).op = s.op := rfl
@[simp] theorem setSda_clk (b : Bit) : (setSda b s).clk = s.clk := rfl
@[simp] theorem setSda_am (b : Bit) : (setSda b s).am = s.am := rfl
@[simp] theorem setSda_addr (b : Bit) : (setSda b s).addr = s.addr := rfl
@[simp] theorem setSda_riw (b : Bit) : (setSda b s).riw = s.riw := rfl
@[simp] theorem setSda_tmo (b : Bit) : (setSda b s).tmo = s.tmo := rfl
@[simp] theorem setSda_regidx (b : Bit) : (setSda b s).regidx = s.regidx := rfl
@[simp] theorem setSda_len (b : Bit) : (setSda b s).len = s.len := rfl
@[simp] theorem setSda_skip (b : Bit) : (setSda b s).skip = s.skip := rfl
@[simp] theorem setSda_cmds (b : Bit) : (setSda b s).cmds = s.cmds := rfl
@[simp] theorem setSda_rspValid (b : Bit) : (setSda b s).rspValid = s.rspValid := rfl
@[simp] theorem setSda_rspReady (b : Bit) : (setSda b s).rspReady = s.rspReady := rfl
@[simp] theorem setSda_rspWord (b : Bit) : (setSda b s).rspWord = s.rspWord := rfl
@[simp] theorem setSda_foundValid (b : Bit) : (setSda b s).foundValid = s.foundValid := rfl
@[simp] theorem setSda_foundAddr (b : Bit) : (setSda b s).foundAddr = s.foundAddr := rfl
@[simp] theorem setSda_rst (b : Bit) : (setSda b s).rst = s.rst := rfl
@[simp] theorem setSda_buf (b : Bit) : (setSda b s).buf = s.buf := rfl
@[simp] theorem setSda_maxLen (b : Bit) : (setSda b s).maxLen = s.maxLen := rfl
@[simp] theorem setSda_hostMoves (b : Bit) : (setSda b s).hostMoves = s.hostMoves := rfl
@[simp] theorem setSda_sclAnswers (b : Bit) : (setSda b s).sclAnswers = s.sclAnswers := rfl
@[simp] theorem setSda_sdaAnswers (b : Bit) : (setSda b s).sdaAnswers = s.sdaAnswers := rfl
@[simp] theorem setSda_sclDraws (b : Bit) : (setSda b s).sclDraws = s.sclDraws := rfl
@[simp] theorem setSda_sdaDraws (b : Bit) : (setSda b s).sdaDraws = s.sdaDraws := rfl
@[simp] theorem setSda_ret (b : Bit) : (setSda b s).ret = s.ret := rfl
@[simp] theorem setSda_fetch (b : Bit) : (setSda b s).fetch = s.fetch := rfl
@[simp] theorem setSda_trace (b : Bit) : (setSda b s).trace = .sda b :: s.trace := rfl
@[simp] theorem setSda_found (b : Bit) : (setSda b s).found = s.found := rfl

/-! ### delay -/

@[simp] theorem delay_sclOut : (delay s).sclOut = s.sclOut := rfl
@[simp] theorem delay_sdaOut : (delay s).sdaOut = s.sdaOut := rfl
@[simp] theorem delay_fsm : (delay s).fsm = s.fsm := rfl
@[simp] theorem delay_ph2 : (delay s).ph2 = s.ph2 := rfl
@[simp] theorem delay_bitCnt : (delay s).bitCnt = s.bitCnt := rfl
@[simp] theorem delay_byteCnt : (delay s).byteCnt = s.byteCnt := rfl
@[simp] theorem delay_scanAddr : (delay s).scanAddr = s.scanAddr := rfl
@[simp] theorem delay_place : (delay s).place = s.place := rfl
@[simp] theorem delay_shreg : (delay s).shreg = s.shreg := rfl
@[simp] theorem delay_stretchCnt : (delay s).stretchCnt = s.stretchCnt := rfl
@[simp] theorem delay_ackf : (delay s).ackf = s.ackf := rfl
@[simp] theorem delay_err : (delay s).err = s.err := rfl
@[simp] theorem delay_busy : (delay s).busy = s.busy := rfl
@[simp] theorem delay_op : (delay s).op = s.op := rfl
@[simp] theorem delay_clk : (delay s).clk = s.clk := rfl
@[simp] theorem delay_am : (delay s).am = s.am := rfl
@[simp] theorem delay_addr : (delay s).addr = s.addr := rfl
@[simp] theorem delay_riw : (delay s).riw = s.riw := rfl
@[simp] theorem delay_tmo : (delay s).tmo = s.tmo := rfl
@[simp] theorem delay_regidx : (delay s).regidx = s.regidx := rfl
@[simp] theorem delay_len : (delay s).len = s.len := rfl
@[simp] theorem delay_skip : (delay s).skip = s.skip := rfl
@[simp] theorem delay_cmds : (delay s).cmds = s.cmds := rfl
@[simp] theorem delay_rspValid : (delay s).rspValid = s.rspValid := rfl
@[simp] theorem delay_rspReady : (delay s).rspReady = s.rspReady := rfl
@[simp] theorem delay_rspWord : (delay s).rspWord = s.rspWord := rfl
@[simp] theorem delay_foundValid : (delay s).foundValid = s.foundValid := rfl
@[simp] theorem delay_foundAddr : (delay s).foundAddr = s.foundAddr := rfl
@[simp] theorem delay_rst : (delay s).rst = s.rst := rfl
@[simp] theorem delay_buf : (delay s).buf = s.buf := rfl
@[simp] theorem delay_maxLen : (delay s).maxLen = s.maxLen := rfl
@[simp] theorem delay_hostMoves : (delay s).hostMoves = s.hostMoves := rfl
@[simp] theorem delay_sclAnswers : (delay s).sclAnswers = s.sclAnswers := rfl
@[simp] theorem delay_sdaAnswers : (delay s).sdaAnswers = s.sdaAnswers := rfl
@[simp] theorem delay_sclDraws : (delay s).sclDraws = s.sclDraws := rfl
@[simp] theorem delay_sdaDraws : (delay s).sdaDraws = s.sdaDraws := rfl
@[simp] theorem delay_ret : (delay s).ret = s.ret := rfl
@[simp] theorem delay_fetch : (delay s).fetch = s.fetch := rfl
@[simp] theorem delay_trace : (delay s).trace = .delay :: s.trace := rfl
@[simp] theorem delay_found : (delay s).found = s.found := rfl

/-! ### settle -/

@[simp] theorem settle_sclOut : (settle s).sclOut = s.sclOut := rfl
@[simp] theorem settle_sdaOut : (settle s).sdaOut = s.sdaOut := rfl
@[simp] theorem settle_fsm : (settle s).fsm = s.fsm := rfl
@[simp] theorem settle_ph2 : (settle s).ph2 = s.ph2 := rfl
@[simp] theorem settle_bitCnt : (settle s).bitCnt = s.bitCnt := rfl
@[simp] theorem settle_byteCnt : (settle s).byteCnt = s.byteCnt := rfl
@[simp] theorem settle_scanAddr : (settle s).scanAddr = s.scanAddr := rfl
@[simp] theorem settle_place : (settle s).place = s.place := rfl
@[simp] theorem settle_shreg : (settle s).shreg = s.shreg := rfl
@[simp] theorem settle_stretchCnt : (settle s).stretchCnt = s.stretchCnt := rfl
@[simp] theorem settle_ackf : (settle s).ackf = s.ackf := rfl
@[simp] theorem settle_err : (settle s).err = s.err := rfl
@[simp] theorem settle_busy : (settle s).busy = s.busy := rfl
@[simp] theorem settle_op : (settle s).op = s.op := rfl
@[simp] theorem settle_clk : (settle s).clk = s.clk := rfl
@[simp] theorem settle_am : (settle s).am = s.am := rfl
@[simp] theorem settle_addr : (settle s).addr = s.addr := rfl
@[simp] theorem settle_riw : (settle s).riw = s.riw := rfl
@[simp] theorem settle_tmo : (settle s).tmo = s.tmo := rfl
@[simp] theorem settle_regidx : (settle s).regidx = s.regidx := rfl
@[simp] theorem settle_len : (settle s).len = s.len := rfl
@[simp] theorem settle_skip : (settle s).skip = s.skip := rfl
@[simp] theorem settle_cmds : (settle s).cmds = s.cmds := rfl
@[simp] theorem settle_rspValid : (settle s).rspValid = s.rspValid := rfl
@[simp] theorem settle_rspReady : (settle s).rspReady = s.rspReady := rfl
@[simp] theorem settle_rspWord : (settle s).rspWord = s.rspWord := rfl
@[simp] theorem settle_foundValid : (settle s).foundValid = s.foundValid := rfl
@[simp] theorem settle_foundAddr : (settle s).foundAddr = s.foundAddr := rfl
@[simp] theorem settle_rst : (settle s).rst = s.rst := rfl
@[simp] theorem settle_buf : (settle s).buf = s.buf := rfl
@[simp] theorem settle_maxLen : (settle s).maxLen = s.maxLen := rfl
@[simp] theorem settle_hostMoves : (settle s).hostMoves = s.hostMoves := rfl
@[simp] theorem settle_sclAnswers : (settle s).sclAnswers = s.sclAnswers := rfl
@[simp] theorem settle_sdaAnswers : (settle s).sdaAnswers = s.sdaAnswers := rfl
@[simp] theorem settle_sclDraws : (settle s).sclDraws = s.sclDraws := rfl
@[simp] theorem settle_sdaDraws : (settle s).sdaDraws = s.sdaDraws := rfl
@[simp] theorem settle_ret : (settle s).ret = s.ret := rfl
@[simp] theorem settle_fetch : (settle s).fetch = s.fetch := rfl
@[simp] theorem settle_trace : (settle s).trace = .settle :: s.trace := rfl
@[simp] theorem settle_found : (settle s).found = s.found := rfl

/-! ### readScl -/

@[simp] theorem readScl_sclOut : (readScl s).sclOut = s.sclOut := rfl
@[simp] theorem readScl_sdaOut : (readScl s).sdaOut = s.sdaOut := rfl
@[simp] theorem readScl_fsm : (readScl s).fsm = s.fsm := rfl
@[simp] theorem readScl_ph2 : (readScl s).ph2 = s.ph2 := rfl
@[simp] theorem readScl_bitCnt : (readScl s).bitCnt = s.bitCnt := rfl
@[simp] theorem readScl_byteCnt : (readScl s).byteCnt = s.byteCnt := rfl
@[simp] theorem readScl_scanAddr : (readScl s).scanAddr = s.scanAddr := rfl
@[simp] theorem readScl_place : (readScl s).place = s.place := rfl
@[simp] theorem readScl_shreg : (readScl s).shreg = s.shreg := rfl
@[simp] theorem readScl_stretchCnt : (readScl s).stretchCnt = s.stretchCnt := rfl
@[simp] theorem readScl_ackf : (readScl s).ackf = s.ackf := rfl
@[simp] theorem readScl_err : (readScl s).err = s.err := rfl
@[simp] theorem readScl_busy : (readScl s).busy = s.busy := rfl
@[simp] theorem readScl_op : (readScl s).op = s.op := rfl
@[simp] theorem readScl_clk : (readScl s).clk = s.clk := rfl
@[simp] theorem readScl_am : (readScl s).am = s.am := rfl
@[simp] theorem readScl_addr : (readScl s).addr = s.addr := rfl
@[simp] theorem readScl_riw : (readScl s).riw = s.riw := rfl
@[simp] theorem readScl_tmo : (readScl s).tmo = s.tmo := rfl
@[simp] theorem readScl_regidx : (readScl s).regidx = s.regidx := rfl
@[simp] theorem readScl_len : (readScl s).len = s.len := rfl
@[simp] theorem readScl_skip : (readScl s).skip = s.skip := rfl
@[simp] theorem readScl_cmds : (readScl s).cmds = s.cmds := rfl
@[simp] theorem readScl_rspValid : (readScl s).rspValid = s.rspValid := rfl
@[simp] theorem readScl_rspReady : (readScl s).rspReady = s.rspReady := rfl
@[simp] theorem readScl_rspWord : (readScl s).rspWord = s.rspWord := rfl
@[simp] theorem readScl_foundValid : (readScl s).foundValid = s.foundValid := rfl
@[simp] theorem readScl_foundAddr : (readScl s).foundAddr = s.foundAddr := rfl
@[simp] theorem readScl_rst : (readScl s).rst = s.rst := rfl
@[simp] theorem readScl_buf : (readScl s).buf = s.buf := rfl
@[simp] theorem readScl_maxLen : (readScl s).maxLen = s.maxLen := rfl
@[simp] theorem readScl_hostMoves : (readScl s).hostMoves = s.hostMoves := rfl
@[simp] theorem readScl_sclAnswers : (readScl s).sclAnswers = if s.sclOut then s.sclAnswers.tail else s.sclAnswers := rfl
@[simp] theorem readScl_sdaAnswers : (readScl s).sdaAnswers = s.sdaAnswers := rfl
@[simp] theorem readScl_sclDraws : (readScl s).sclDraws = if s.sclOut && s.sclAnswers.isEmpty then s.sclDraws + 1 else s.sclDraws := rfl
@[simp] theorem readScl_sdaDraws : (readScl s).sdaDraws = s.sdaDraws := rfl
@[simp] theorem readScl_ret : (readScl s).ret = s.ret := rfl
@[simp] theorem readScl_fetch : (readScl s).fetch = s.fetch := rfl
@[simp] theorem readScl_trace : (readScl s).trace = .readScl (sclSample s) :: s.trace := rfl
@[simp] theorem readScl_found : (readScl s).found = s.found := rfl

/-! ### readSda -/

@[simp] theorem readSda_sclOut : (readSda s).sclOut = s.sclOut := rfl
@[simp] theorem readSda_sdaOut : (readSda s).sdaOut = s.sdaOut := rfl
@[simp] theorem readSda_fsm : (readSda s).fsm = s.fsm := rfl
@[simp] theorem readSda_ph2 : (readSda s).ph2 = s.ph2 := rfl
@[simp] theorem readSda_bitCnt : (readSda s).bitCnt = s.bitCnt := rfl
@[simp] theorem readSda_byteCnt : (readSda s).byteCnt = s.byteCnt := rfl
@[simp] theorem readSda_scanAddr : (readSda s).scanAddr = s.scanAddr := rfl
@[simp] theorem readSda_place : (readSda s).place = s.place := rfl
@[simp] theorem readSda_shreg : (readSda s).shreg = s.shreg := rfl
@[simp] theorem readSda_stretchCnt : (readSda s).stretchCnt = s.stretchCnt := rfl
@[simp] theorem readSda_ackf : (readSda s).ackf = s.ackf := rfl
@[simp] theorem readSda_err : (readSda s).err = s.err := rfl
@[simp] theorem readSda_busy : (readSda s).busy = s.busy := rfl
@[simp] theorem readSda_op : (readSda s).op = s.op := rfl
@[simp] theorem readSda_clk : (readSda s).clk = s.clk := rfl
@[simp] theorem readSda_am : (readSda s).am = s.am := rfl
@[simp] theorem readSda_addr : (readSda s).addr = s.addr := rfl
@[simp] theorem readSda_riw : (readSda s).riw = s.riw := rfl
@[simp] theorem readSda_tmo : (readSda s).tmo = s.tmo := rfl
@[simp] theorem readSda_regidx : (readSda s).regidx = s.regidx := rfl
@[simp] theorem readSda_len : (readSda s).len = s.len := rfl
@[simp] theorem readSda_skip : (readSda s).skip = s.skip := rfl
@[simp] theorem readSda_cmds : (readSda s).cmds = s.cmds := rfl
@[simp] theorem readSda_rspValid : (readSda s).rspValid = s.rspValid := rfl
@[simp] theorem readSda_rspReady : (readSda s).rspReady = s.rspReady := rfl
@[simp] theorem readSda_rspWord : (readSda s).rspWord = s.rspWord := rfl
@[simp] theorem readSda_foundValid : (readSda s).foundValid = s.foundValid := rfl
@[simp] theorem readSda_foundAddr : (readSda s).foundAddr = s.foundAddr := rfl
@[simp] theorem readSda_rst : (readSda s).rst = s.rst := rfl
@[simp] theorem readSda_buf : (readSda s).buf = s.buf := rfl
@[simp] theorem readSda_maxLen : (readSda s).maxLen = s.maxLen := rfl
@[simp] theorem readSda_hostMoves : (readSda s).hostMoves = s.hostMoves := rfl
@[simp] theorem readSda_sclAnswers : (readSda s).sclAnswers = s.sclAnswers := rfl
@[simp] theorem readSda_sdaAnswers : (readSda s).sdaAnswers = if s.sdaOut then s.sdaAnswers.tail else s.sdaAnswers := rfl
@[simp] theorem readSda_sclDraws : (readSda s).sclDraws = s.sclDraws := rfl
@[simp] theorem readSda_sdaDraws : (readSda s).sdaDraws = if s.sdaOut && s.sdaAnswers.isEmpty then s.sdaDraws + 1 else s.sdaDraws := rfl
@[simp] theorem readSda_ret : (readSda s).ret = s.ret := rfl
@[simp] theorem readSda_fetch : (readSda s).fetch = s.fetch := rfl
@[simp] theorem readSda_trace : (readSda s).trace = .readSda (sdaSample s) :: s.trace := rfl
@[simp] theorem readSda_found : (readSda s).found = s.found := rfl

/-! ### memRead -/

@[simp] theorem memRead_sclOut (i : Nat) : (memRead i s).sclOut = s.sclOut := rfl
@[simp] theorem memRead_sdaOut (i : Nat) : (memRead i s).sdaOut = s.sdaOut := rfl
@[simp] theorem memRead_fsm (i : Nat) : (memRead i s).fsm = s.fsm := rfl
@[simp] theorem memRead_ph2 (i : Nat) : (memRead i s).ph2 = s.ph2 := rfl
@[simp] theorem memRead_bitCnt (i : Nat) : (memRead i s).bitCnt = s.bitCnt := rfl
@[simp] theorem memRead_byteCnt (i : Nat) : (memRead i s).byteCnt = s.byteCnt := rfl
@[simp] theorem memRead_scanAddr (i : Nat) : (memRead i s).scanAddr = s.scanAddr := rfl
@[simp] theorem memRead_place (i : Nat) : (memRead i s).place = s.place := rfl
@[simp] theorem memRead_shreg (i : Nat) : (memRead i s).shreg = s.shreg := rfl
@[simp] theorem memRead_stretchCnt (i : Nat) : (memRead i s).stretchCnt = s.stretchCnt := rfl
@[simp] theorem memRead_ackf (i : Nat) : (memRead i s).ackf = s.ackf := rfl
@[simp] theorem memRead_err (i : Nat) : (memRead i s).err = s.err := rfl
@[simp] theorem memRead_busy (i : Nat) : (memRead i s).busy = s.busy := rfl
@[simp] theorem memRead_op (i : Nat) : (memRead i s).op = s.op := rfl
@[simp] theorem memRead_clk (i : Nat) : (memRead i s).clk = s.clk := rfl
@[simp] theorem memRead_am (i : Nat) : (memRead i s).am = s.am := rfl
@[simp] theorem memRead_addr (i : Nat) : (memRead i s).addr = s.addr := rfl
@[simp] theorem memRead_riw (i : Nat) : (memRead i s).riw = s.riw := rfl
@[simp] theorem memRead_tmo (i : Nat) : (memRead i s).tmo = s.tmo := rfl
@[simp] theorem memRead_regidx (i : Nat) : (memRead i s).regidx = s.regidx := rfl
@[simp] theorem memRead_len (i : Nat) : (memRead i s).len = s.len := rfl
@[simp] theorem memRead_skip (i : Nat) : (memRead i s).skip = s.skip := rfl
@[simp] theorem memRead_cmds (i : Nat) : (memRead i s).cmds = s.cmds := rfl
@[simp] theorem memRead_rspValid (i : Nat) : (memRead i s).rspValid = s.rspValid := rfl
@[simp] theorem memRead_rspReady (i : Nat) : (memRead i s).rspReady = s.rspReady := rfl
@[simp] theorem memRead_rspWord (i : Nat) : (memRead i s).rspWord = s.rspWord := rfl
@[simp] theorem memRead_foundValid (i : Nat) : (memRead i s).foundValid = s.foundValid := rfl
@[simp] theorem memRead_foundAddr (i : Nat) : (memRead i s).foundAddr = s.foundAddr := rfl
@[simp] theorem memRead_rst (i : Nat) : (memRead i s).rst = s.rst := rfl
@[simp] theorem memRead_buf (i : Nat) : (memRead i s).buf = s.buf := rfl
@[simp] theorem memRead_maxLen (i : Nat) : (memRead i s).maxLen = s.maxLen := rfl
@[simp] theorem memRead_hostMoves (i : Nat) : (memRead i s).hostMoves = s.hostMoves := rfl
@[simp] theorem memRead_sclAnswers (i : Nat) : (memRead i s).sclAnswers = s.sclAnswers := rfl
@[simp] theorem memRead_sdaAnswers (i : Nat) : (memRead i s).sdaAnswers = s.sdaAnswers := rfl
@[simp] theorem memRead_sclDraws (i : Nat) : (memRead i s).sclDraws = s.sclDraws := rfl
@[simp] theorem memRead_sdaDraws (i : Nat) : (memRead i s).sdaDraws = s.sdaDraws := rfl
@[simp] theorem memRead_ret (i : Nat) : (memRead i s).ret = s.ret := rfl
@[simp] theorem memRead_fetch (i : Nat) : (memRead i s).fetch = s.fetch := rfl
@[simp] theorem memRead_trace (i : Nat) : (memRead i s).trace = .memRead i (s.buf.get i) :: s.trace := rfl
@[simp] theorem memRead_found (i : Nat) : (memRead i s).found = s.found := rfl

/-! ### memWrite -/

@[simp] theorem memWrite_sclOut (i : Nat) (v : Byte) : (memWrite i v s).sclOut = s.sclOut := rfl
@[simp] theorem memWrite_sdaOut (i : Nat) (v : Byte) : (memWrite i v s).sdaOut = s.sdaOut := rfl
@[simp] theorem memWrite_fsm (i : Nat) (v : Byte) : (memWrite i v s).fsm = s.fsm := rfl
@[simp] theorem memWrite_ph2 (i : Nat) (v : Byte) : (memWrite i v s).ph2 = s.ph2 := rfl
@[simp] theorem memWrite_bitCnt (i : Nat) (v : Byte) : (memWrite i v s).bitCnt = s.bitCnt := rfl
@[simp] theorem memWrite_byteCnt (i : Nat) (v : Byte) : (memWrite i v s).byteCnt = s.byteCnt := rfl
@[simp] theorem memWrite_scanAddr (i : Nat) (v : Byte) : (memWrite i v s).scanAddr = s.scanAddr := rfl
@[simp] theorem memWrite_place (i : Nat) (v : Byte) : (memWrite i v s).place = s.place := rfl
@[simp] theorem memWrite_shreg (i : Nat) (v : Byte) : (memWrite i v s).shreg = s.shreg := rfl
@[simp] theorem memWrite_stretchCnt (i : Nat) (v : Byte) : (memWrite i v s).stretchCnt = s.stretchCnt := rfl
@[simp] theorem memWrite_ackf (i : Nat) (v : Byte) : (memWrite i v s).ackf = s.ackf := rfl
@[simp] theorem memWrite_err (i : Nat) (v : Byte) : (memWrite i v s).err = s.err := rfl
@[simp] theorem memWrite_busy (i : Nat) (v : Byte) : (memWrite i v s).busy = s.busy := rfl
@[simp] theorem memWrite_op (i : Nat) (v : Byte) : (memWrite i v s).op = s.op := rfl
@[simp] theorem memWrite_clk (i : Nat) (v : Byte) : (memWrite i v s).clk = s.clk := rfl
@[simp] theorem memWrite_am (i : Nat) (v : Byte) : (memWrite i v s).am = s.am := rfl
@[simp] theorem memWrite_addr (i : Nat) (v : Byte) : (memWrite i v s).addr = s.addr := rfl
@[simp] theorem memWrite_riw (i : Nat) (v : Byte) : (memWrite i v s).riw = s.riw := rfl
@[simp] theorem memWrite_tmo (i : Nat) (v : Byte) : (memWrite i v s).tmo = s.tmo := rfl
@[simp] theorem memWrite_regidx (i : Nat) (v : Byte) : (memWrite i v s).regidx = s.regidx := rfl
@[simp] theorem memWrite_len (i : Nat) (v : Byte) : (memWrite i v s).len = s.len := rfl
@[simp] theorem memWrite_skip (i : Nat) (v : Byte) : (memWrite i v s).skip = s.skip := rfl
@[simp] theorem memWrite_cmds (i : Nat) (v : Byte) : (memWrite i v s).cmds = s.cmds := rfl
@[simp] theorem memWrite_rspValid (i : Nat) (v : Byte) : (memWrite i v s).rspValid = s.rspValid := rfl
@[simp] theorem memWrite_rspReady (i : Nat) (v : Byte) : (memWrite i v s).rspReady = s.rspReady := rfl
@[simp] theorem memWrite_rspWord (i : Nat) (v : Byte) : (memWrite i v s).rspWord = s.rspWord := rfl
@[simp] theorem memWrite_foundValid (i : Nat) (v : Byte) : (memWrite i v s).foundValid = s.foundValid := rfl
@[simp] theorem memWrite_foundAddr (i : Nat) (v : Byte) : (memWrite i v s).foundAddr = s.foundAddr := rfl
@[simp] theorem memWrite_rst (i : Nat) (v : Byte) : (memWrite i v s).rst = s.rst := rfl
@[simp] theorem memWrite_buf (i : Nat) (v : Byte) : (memWrite i v s).buf = s.buf.put i v := rfl
@[simp] theorem memWrite_maxLen (i : Nat) (v : Byte) : (memWrite i v s).maxLen = s.maxLen := rfl
@[simp] theorem memWrite_hostMoves (i : Nat) (v : Byte) : (memWrite i v s).hostMoves = s.hostMoves := rfl
@[simp] theorem memWrite_sclAnswers (i : Nat) (v : Byte) : (memWrite i v s).sclAnswers = s.sclAnswers := rfl
@[simp] theorem memWrite_sdaAnswers (i : Nat) (v : Byte) : (memWrite i v s).sdaAnswers = s.sdaAnswers := rfl
@[simp] theorem memWrite_sclDraws (i : Nat) (v : Byte) : (memWrite i v s).sclDraws = s.sclDraws := rfl
@[simp] theorem memWrite_sdaDraws (i : Nat) (v : Byte) : (memWrite i v s).sdaDraws = s.sdaDraws := rfl
@[simp] theorem memWrite_ret (i : Nat) (v : Byte) : (memWrite i v s).ret = s.ret := rfl
@[simp] theorem memWrite_fetch (i : Nat) (v : Byte) : (memWrite i v s).fetch = s.fetch := rfl
@[simp] theorem memWrite_trace (i : Nat) (v : Byte) : (memWrite i v s).trace = .memWrite i v :: s.trace := rfl
@[simp] theorem memWrite_found (i : Nat) (v : Byte) : (memWrite i v s).found = s.found := rfl

/-! ### release -/

@[simp] theorem release_sclOut : (release s).sclOut = true := rfl
@[simp] theorem release_sdaOut : (release s).sdaOut = s.sdaOut := rfl
@[simp] theorem release_fsm : (release s).fsm = s.fsm := rfl
@[simp] theorem release_ph2 : (release s).ph2 = s.ph2 := rfl
@[simp] theorem release_bitCnt : (release s).bitCnt = s.bitCnt := rfl
@[simp] theorem release_byteCnt : (release s).byteCnt = s.byteCnt := rfl
@[simp] theorem release_scanAddr : (release s).scanAddr = s.scanAddr := rfl
@[simp] theorem release_place : (release s).place = s.place := rfl
@[simp] theorem release_shreg : (release s).shreg = s.shreg := rfl
@[simp] theorem release_stretchCnt : (release s).stretchCnt = s.tmo := rfl
@[simp] theorem release_ackf : (release s).ackf = s.ackf := rfl
@[simp] theorem release_err : (release s).err = s.err := rfl
@[simp] theorem release_busy : (release s).busy = s.busy := rfl
@[simp] theorem release_op : (release s).op = s.op := rfl
@[simp] theorem release_clk : (release s).clk = s.clk := rfl
@[simp] theorem release_am : (release s).am = s.am := rfl
@[simp] theorem release_addr : (release s).addr = s.addr := rfl
@[simp] theorem release_riw : (release s).riw = s.riw := rfl
@[simp] theorem release_tmo : (release s).tmo = s.tmo := rfl
@[simp] theorem release_regidx : (release s).regidx = s.regidx := rfl
@[simp] theorem release_len : (release s).len = s.len := rfl
@[simp] theorem release_skip : (release s).skip = s.skip := rfl
@[simp] theorem release_cmds : (release s).cmds = s.cmds := rfl
@[simp] theorem release_rspValid : (release s).rspValid = s.rspValid := rfl
@[simp] theorem release_rspReady : (release s).rspReady = s.rspReady := rfl
@[simp] theorem release_rspWord : (release s).rspWord = s.rspWord := rfl
@[simp] theorem release_foundValid : (release s).foundValid = s.foundValid := rfl
@[simp] theorem release_foundAddr : (release s).foundAddr = s.foundAddr := rfl
@[simp] theorem release_rst : (release s).rst = s.rst := rfl
@[simp] theorem release_buf : (release s).buf = s.buf := rfl
@[simp] theorem release_maxLen : (release s).maxLen = s.maxLen := rfl
@[simp] theorem release_hostMoves : (release s).hostMoves = s.hostMoves := rfl
@[simp] theorem release_sclAnswers : (release s).sclAnswers = s.sclAnswers := rfl
@[simp] theorem release_sdaAnswers : (release s).sdaAnswers = s.sdaAnswers := rfl
@[simp] theorem release_sclDraws : (release s).sclDraws = s.sclDraws := rfl
@[simp] theorem release_sdaDraws : (release s).sdaDraws = s.sdaDraws := rfl
@[simp] theorem release_ret : (release s).ret = s.ret := rfl
@[simp] theorem release_fetch : (release s).fetch = s.fetch := rfl
@[simp] theorem release_trace : (release s).trace = .scl true :: s.trace := rfl
@[simp] theorem release_found : (release s).found = s.found := rfl

/-! ### countPoll -/

@[simp] theorem countPoll_sclOut : (countPoll s).sclOut = s.sclOut := rfl
@[simp] theorem countPoll_sdaOut : (countPoll s).sdaOut = s.sdaOut := rfl
@[simp] theorem countPoll_fsm : (countPoll s).fsm = s.fsm := rfl
@[simp] theorem countPoll_ph2 : (countPoll s).ph2 = s.ph2 := rfl
@[simp] theorem countPoll_bitCnt : (countPoll s).bitCnt = s.bitCnt := rfl
@[simp] theorem countPoll_byteCnt : (countPoll s).byteCnt = s.byteCnt := rfl
@[simp] theorem countPoll_scanAddr : (countPoll s).scanAddr = s.scanAddr := rfl
@[simp] theorem countPoll_place : (countPoll s).place = s.place := rfl
@[simp] theorem countPoll_shreg : (countPoll s).shreg = s.shreg := rfl
@[simp] theorem countPoll_stretchCnt : (countPoll s).stretchCnt = s.stretchCnt - 1 := rfl
@[simp] theorem countPoll_ackf : (countPoll s).ackf = s.ackf := rfl
@[simp] theorem countPoll_err : (countPoll s).err = s.err := rfl
@[simp] theorem countPoll_busy : (countPoll s).busy = s.busy := rfl
@[simp] theorem countPoll_op : (countPoll s).op = s.op := rfl
@[simp] theorem countPoll_clk : (countPoll s).clk = s.clk := rfl
@[simp] theorem countPoll_am : (countPoll s).am = s.am := rfl
@[simp] theorem countPoll_addr : (countPoll s).addr = s.addr := rfl
@[simp] theorem countPoll_riw : (countPoll s).riw = s.riw := rfl
@[simp] theorem countPoll_tmo : (countPoll s).tmo = s.tmo := rfl
@[simp] theorem countPoll_regidx : (countPoll s).regidx = s.regidx := rfl
@[simp] theorem countPoll_len : (countPoll s).len = s.len := rfl
@[simp] theorem countPoll_skip : (countPoll s).skip = s.skip := rfl
@[simp] theorem countPoll_cmds : (countPoll s).cmds = s.cmds := rfl
@[simp] theorem countPoll_rspValid : (countPoll s).rspValid = s.rspValid := rfl
@[simp] theorem countPoll_rspReady : (countPoll s).rspReady = s.rspReady := rfl
@[simp] theorem countPoll_rspWord : (countPoll s).rspWord = s.rspWord := rfl
@[simp] theorem countPoll_foundValid : (countPoll s).foundValid = s.foundValid := rfl
@[simp] theorem countPoll_foundAddr : (countPoll s).foundAddr = s.foundAddr := rfl
@[simp] theorem countPoll_rst : (countPoll s).rst = s.rst := rfl
@[simp] theorem countPoll_buf : (countPoll s).buf = s.buf := rfl
@[simp] theorem countPoll_maxLen : (countPoll s).maxLen = s.maxLen := rfl
@[simp] theorem countPoll_hostMoves : (countPoll s).hostMoves = s.hostMoves := rfl
@[simp] theorem countPoll_sclAnswers : (countPoll s).sclAnswers = s.sclAnswers := rfl
@[simp] theorem countPoll_sdaAnswers : (countPoll s).sdaAnswers = s.sdaAnswers := rfl
@[simp] theorem countPoll_sclDraws : (countPoll s).sclDraws = s.sclDraws := rfl
@[simp] theorem countPoll_sdaDraws : (countPoll s).sdaDraws = s.sdaDraws := rfl
@[simp] theorem countPoll_ret : (countPoll s).ret = s.ret := rfl
@[simp] theorem countPoll_fetch : (countPoll s).fetch = s.fetch := rfl
@[simp] theorem countPoll_trace : (countPoll s).trace = s.trace := rfl
@[simp] theorem countPoll_found : (countPoll s).found = s.found := rfl

/-! ### enterAbort -/

@[simp] theorem enterAbort_sclOut (f : Failure) : (enterAbort f s).sclOut = s.sclOut := rfl
@[simp] theorem enterAbort_sdaOut (f : Failure) : (enterAbort f s).sdaOut = s.sdaOut := rfl
@[simp] theorem enterAbort_fsm (f : Failure) : (enterAbort f s).fsm = .aborted := rfl
@[simp] theorem enterAbort_ph2 (f : Failure) : (enterAbort f s).ph2 = s.ph2 := rfl
@[simp] theorem enterAbort_bitCnt (f : Failure) : (enterAbort f s).bitCnt = s.bitCnt := rfl
@[simp] theorem enterAbort_byteCnt (f : Failure) : (enterAbort f s).byteCnt = s.byteCnt := rfl
@[simp] theorem enterAbort_scanAddr (f : Failure) : (enterAbort f s).scanAddr = s.scanAddr := rfl
@[simp] theorem enterAbort_place (f : Failure) : (enterAbort f s).place = s.place := rfl
@[simp] theorem enterAbort_shreg (f : Failure) : (enterAbort f s).shreg = s.shreg := rfl
@[simp] theorem enterAbort_stretchCnt (f : Failure) : (enterAbort f s).stretchCnt = s.stretchCnt := rfl
@[simp] theorem enterAbort_ackf (f : Failure) : (enterAbort f s).ackf = s.ackf := rfl
@[simp] theorem enterAbort_err (f : Failure) : (enterAbort f s).err = firstFailure s.err f.status := rfl
@[simp] theorem enterAbort_busy (f : Failure) : (enterAbort f s).busy = s.busy := rfl
@[simp] theorem enterAbort_op (f : Failure) : (enterAbort f s).op = s.op := rfl
@[simp] theorem enterAbort_clk (f : Failure) : (enterAbort f s).clk = s.clk := rfl
@[simp] theorem enterAbort_am (f : Failure) : (enterAbort f s).am = s.am := rfl
@[simp] theorem enterAbort_addr (f : Failure) : (enterAbort f s).addr = s.addr := rfl
@[simp] theorem enterAbort_riw (f : Failure) : (enterAbort f s).riw = s.riw := rfl
@[simp] theorem enterAbort_tmo (f : Failure) : (enterAbort f s).tmo = s.tmo := rfl
@[simp] theorem enterAbort_regidx (f : Failure) : (enterAbort f s).regidx = s.regidx := rfl
@[simp] theorem enterAbort_len (f : Failure) : (enterAbort f s).len = s.len := rfl
@[simp] theorem enterAbort_skip (f : Failure) : (enterAbort f s).skip = s.skip := rfl
@[simp] theorem enterAbort_cmds (f : Failure) : (enterAbort f s).cmds = s.cmds := rfl
@[simp] theorem enterAbort_rspValid (f : Failure) : (enterAbort f s).rspValid = s.rspValid := rfl
@[simp] theorem enterAbort_rspReady (f : Failure) : (enterAbort f s).rspReady = s.rspReady := rfl
@[simp] theorem enterAbort_rspWord (f : Failure) : (enterAbort f s).rspWord = s.rspWord := rfl
@[simp] theorem enterAbort_foundValid (f : Failure) : (enterAbort f s).foundValid = s.foundValid := rfl
@[simp] theorem enterAbort_foundAddr (f : Failure) : (enterAbort f s).foundAddr = s.foundAddr := rfl
@[simp] theorem enterAbort_rst (f : Failure) : (enterAbort f s).rst = s.rst := rfl
@[simp] theorem enterAbort_buf (f : Failure) : (enterAbort f s).buf = s.buf := rfl
@[simp] theorem enterAbort_maxLen (f : Failure) : (enterAbort f s).maxLen = s.maxLen := rfl
@[simp] theorem enterAbort_hostMoves (f : Failure) : (enterAbort f s).hostMoves = s.hostMoves := rfl
@[simp] theorem enterAbort_sclAnswers (f : Failure) : (enterAbort f s).sclAnswers = s.sclAnswers := rfl
@[simp] theorem enterAbort_sdaAnswers (f : Failure) : (enterAbort f s).sdaAnswers = s.sdaAnswers := rfl
@[simp] theorem enterAbort_sclDraws (f : Failure) : (enterAbort f s).sclDraws = s.sclDraws := rfl
@[simp] theorem enterAbort_sdaDraws (f : Failure) : (enterAbort f s).sdaDraws = s.sdaDraws := rfl
@[simp] theorem enterAbort_ret (f : Failure) : (enterAbort f s).ret = s.ret := rfl
@[simp] theorem enterAbort_fetch (f : Failure) : (enterAbort f s).fetch = s.fetch := rfl
@[simp] theorem enterAbort_trace (f : Failure) : (enterAbort f s).trace = s.trace := rfl
@[simp] theorem enterAbort_found (f : Failure) : (enterAbort f s).found = s.found := rfl

/-! ### present -/

@[simp] theorem present_sclOut : (present s).sclOut = s.sclOut := rfl
@[simp] theorem present_sdaOut : (present s).sdaOut = s.sdaOut := rfl
@[simp] theorem present_fsm : (present s).fsm = s.fsm := rfl
@[simp] theorem present_ph2 : (present s).ph2 = s.ph2 := rfl
@[simp] theorem present_bitCnt : (present s).bitCnt = s.bitCnt := rfl
@[simp] theorem present_byteCnt : (present s).byteCnt = s.byteCnt := rfl
@[simp] theorem present_scanAddr : (present s).scanAddr = s.scanAddr := rfl
@[simp] theorem present_place : (present s).place = s.place := rfl
@[simp] theorem present_shreg : (present s).shreg = s.shreg := rfl
@[simp] theorem present_stretchCnt : (present s).stretchCnt = s.stretchCnt := rfl
@[simp] theorem present_ackf : (present s).ackf = s.ackf := rfl
@[simp] theorem present_err : (present s).err = s.err := rfl
@[simp] theorem present_busy : (present s).busy = s.busy := rfl
@[simp] theorem present_op : (present s).op = s.op := rfl
@[simp] theorem present_clk : (present s).clk = s.clk := rfl
@[simp] theorem present_am : (present s).am = s.am := rfl
@[simp] theorem present_addr : (present s).addr = s.addr := rfl
@[simp] theorem present_riw : (present s).riw = s.riw := rfl
@[simp] theorem present_tmo : (present s).tmo = s.tmo := rfl
@[simp] theorem present_regidx : (present s).regidx = s.regidx := rfl
@[simp] theorem present_len : (present s).len = s.len := rfl
@[simp] theorem present_skip : (present s).skip = s.skip := rfl
@[simp] theorem present_cmds : (present s).cmds = s.cmds := rfl
@[simp] theorem present_rspValid : (present s).rspValid = true := rfl
@[simp] theorem present_rspReady : (present s).rspReady = s.rspReady := rfl
@[simp] theorem present_rspWord : (present s).rspWord = responseWord s.err := rfl
@[simp] theorem present_foundValid : (present s).foundValid = s.foundValid := rfl
@[simp] theorem present_foundAddr : (present s).foundAddr = s.foundAddr := rfl
@[simp] theorem present_rst : (present s).rst = s.rst := rfl
@[simp] theorem present_buf : (present s).buf = s.buf := rfl
@[simp] theorem present_maxLen : (present s).maxLen = s.maxLen := rfl
@[simp] theorem present_hostMoves : (present s).hostMoves = s.hostMoves := rfl
@[simp] theorem present_sclAnswers : (present s).sclAnswers = s.sclAnswers := rfl
@[simp] theorem present_sdaAnswers : (present s).sdaAnswers = s.sdaAnswers := rfl
@[simp] theorem present_sclDraws : (present s).sclDraws = s.sclDraws := rfl
@[simp] theorem present_sdaDraws : (present s).sdaDraws = s.sdaDraws := rfl
@[simp] theorem present_ret : (present s).ret = .none := rfl
@[simp] theorem present_fetch : (present s).fetch = s.fetch := rfl
@[simp] theorem present_trace : (present s).trace = .respond s.err :: s.trace := rfl
@[simp] theorem present_found : (present s).found = s.found := rfl

/-! ### taken -/

@[simp] theorem taken_sclOut : (taken s).sclOut = s.sclOut := rfl
@[simp] theorem taken_sdaOut : (taken s).sdaOut = s.sdaOut := rfl
@[simp] theorem taken_fsm : (taken s).fsm = .idle := rfl
@[simp] theorem taken_ph2 : (taken s).ph2 = s.ph2 := rfl
@[simp] theorem taken_bitCnt : (taken s).bitCnt = s.bitCnt := rfl
@[simp] theorem taken_byteCnt : (taken s).byteCnt = s.byteCnt := rfl
@[simp] theorem taken_scanAddr : (taken s).scanAddr = s.scanAddr := rfl
@[simp] theorem taken_place : (taken s).place = s.place := rfl
@[simp] theorem taken_shreg : (taken s).shreg = s.shreg := rfl
@[simp] theorem taken_stretchCnt : (taken s).stretchCnt = s.stretchCnt := rfl
@[simp] theorem taken_ackf : (taken s).ackf = s.ackf := rfl
@[simp] theorem taken_err : (taken s).err = s.err := rfl
@[simp] theorem taken_busy : (taken s).busy = false := rfl
@[simp] theorem taken_op : (taken s).op = s.op := rfl
@[simp] theorem taken_clk : (taken s).clk = s.clk := rfl
@[simp] theorem taken_am : (taken s).am = s.am := rfl
@[simp] theorem taken_addr : (taken s).addr = s.addr := rfl
@[simp] theorem taken_riw : (taken s).riw = s.riw := rfl
@[simp] theorem taken_tmo : (taken s).tmo = s.tmo := rfl
@[simp] theorem taken_regidx : (taken s).regidx = s.regidx := rfl
@[simp] theorem taken_len : (taken s).len = s.len := rfl
@[simp] theorem taken_skip : (taken s).skip = s.skip := rfl
@[simp] theorem taken_cmds : (taken s).cmds = s.cmds := rfl
@[simp] theorem taken_rspValid : (taken s).rspValid = false := rfl
@[simp] theorem taken_rspReady : (taken s).rspReady = s.rspReady := rfl
@[simp] theorem taken_rspWord : (taken s).rspWord = s.rspWord := rfl
@[simp] theorem taken_foundValid : (taken s).foundValid = s.foundValid := rfl
@[simp] theorem taken_foundAddr : (taken s).foundAddr = s.foundAddr := rfl
@[simp] theorem taken_rst : (taken s).rst = s.rst := rfl
@[simp] theorem taken_buf : (taken s).buf = s.buf := rfl
@[simp] theorem taken_maxLen : (taken s).maxLen = s.maxLen := rfl
@[simp] theorem taken_hostMoves : (taken s).hostMoves = s.hostMoves := rfl
@[simp] theorem taken_sclAnswers : (taken s).sclAnswers = s.sclAnswers := rfl
@[simp] theorem taken_sdaAnswers : (taken s).sdaAnswers = s.sdaAnswers := rfl
@[simp] theorem taken_sclDraws : (taken s).sclDraws = s.sclDraws := rfl
@[simp] theorem taken_sdaDraws : (taken s).sdaDraws = s.sdaDraws := rfl
@[simp] theorem taken_ret : (taken s).ret = s.ret := rfl
@[simp] theorem taken_fetch : (taken s).fetch = s.fetch := rfl
@[simp] theorem taken_trace : (taken s).trace = s.trace := rfl
@[simp] theorem taken_found : (taken s).found = s.found := rfl

/-! ### accept -/

@[simp] theorem accept_sclOut (c : BitVec 4) (p : Packet) : (accept c p s).sclOut = s.sclOut := rfl
@[simp] theorem accept_sdaOut (c : BitVec 4) (p : Packet) : (accept c p s).sdaOut = s.sdaOut := rfl
@[simp] theorem accept_fsm (c : BitVec 4) (p : Packet) : (accept c p s).fsm = s.fsm := rfl
@[simp] theorem accept_ph2 (c : BitVec 4) (p : Packet) : (accept c p s).ph2 = false := rfl
@[simp] theorem accept_bitCnt (c : BitVec 4) (p : Packet) : (accept c p s).bitCnt = s.bitCnt := rfl
@[simp] theorem accept_byteCnt (c : BitVec 4) (p : Packet) : (accept c p s).byteCnt = s.byteCnt := rfl
@[simp] theorem accept_scanAddr (c : BitVec 4) (p : Packet) : (accept c p s).scanAddr = s.scanAddr := rfl
@[simp] theorem accept_place (c : BitVec 4) (p : Packet) : (accept c p s).place = s.place := rfl
@[simp] theorem accept_shreg (c : BitVec 4) (p : Packet) : (accept c p s).shreg = s.shreg := rfl
@[simp] theorem accept_stretchCnt (c : BitVec 4) (p : Packet) : (accept c p s).stretchCnt = s.stretchCnt := rfl
@[simp] theorem accept_ackf (c : BitVec 4) (p : Packet) : (accept c p s).ackf = s.ackf := rfl
@[simp] theorem accept_err (c : BitVec 4) (p : Packet) : (accept c p s).err = .ok := rfl
@[simp] theorem accept_busy (c : BitVec 4) (p : Packet) : (accept c p s).busy = true := rfl
@[simp] theorem accept_op (c : BitVec 4) (p : Packet) : (accept c p s).op = c := rfl
@[simp] theorem accept_clk (c : BitVec 4) (p : Packet) : (accept c p s).clk = p.clk := rfl
@[simp] theorem accept_am (c : BitVec 4) (p : Packet) : (accept c p s).am = p.am := rfl
@[simp] theorem accept_addr (c : BitVec 4) (p : Packet) : (accept c p s).addr = p.addr := rfl
@[simp] theorem accept_riw (c : BitVec 4) (p : Packet) : (accept c p s).riw = p.riw := rfl
@[simp] theorem accept_tmo (c : BitVec 4) (p : Packet) : (accept c p s).tmo = p.tmo := rfl
@[simp] theorem accept_regidx (c : BitVec 4) (p : Packet) : (accept c p s).regidx = p.regidx := rfl
@[simp] theorem accept_len (c : BitVec 4) (p : Packet) : (accept c p s).len = p.len := rfl
@[simp] theorem accept_skip (c : BitVec 4) (p : Packet) : (accept c p s).skip = p.skip := rfl
@[simp] theorem accept_cmds (c : BitVec 4) (p : Packet) : (accept c p s).cmds = s.cmds := rfl
@[simp] theorem accept_rspValid (c : BitVec 4) (p : Packet) : (accept c p s).rspValid = s.rspValid := rfl
@[simp] theorem accept_rspReady (c : BitVec 4) (p : Packet) : (accept c p s).rspReady = s.rspReady := rfl
@[simp] theorem accept_rspWord (c : BitVec 4) (p : Packet) : (accept c p s).rspWord = s.rspWord := rfl
@[simp] theorem accept_foundValid (c : BitVec 4) (p : Packet) : (accept c p s).foundValid = s.foundValid := rfl
@[simp] theorem accept_foundAddr (c : BitVec 4) (p : Packet) : (accept c p s).foundAddr = s.foundAddr := rfl
@[simp] theorem accept_rst (c : BitVec 4) (p : Packet) : (accept c p s).rst = s.rst := rfl
@[simp] theorem accept_buf (c : BitVec 4) (p : Packet) : (accept c p s).buf = s.buf := rfl
@[simp] theorem accept_maxLen (c : BitVec 4) (p : Packet) : (accept c p s).maxLen = s.maxLen := rfl
@[simp] theorem accept_hostMoves (c : BitVec 4) (p : Packet) : (accept c p s).hostMoves = s.hostMoves := rfl
@[simp] theorem accept_sclAnswers (c : BitVec 4) (p : Packet) : (accept c p s).sclAnswers = s.sclAnswers := rfl
@[simp] theorem accept_sdaAnswers (c : BitVec 4) (p : Packet) : (accept c p s).sdaAnswers = s.sdaAnswers := rfl
@[simp] theorem accept_sclDraws (c : BitVec 4) (p : Packet) : (accept c p s).sclDraws = s.sclDraws := rfl
@[simp] theorem accept_sdaDraws (c : BitVec 4) (p : Packet) : (accept c p s).sdaDraws = s.sdaDraws := rfl
@[simp] theorem accept_ret (c : BitVec 4) (p : Packet) : (accept c p s).ret = .none := rfl
@[simp] theorem accept_fetch (c : BitVec 4) (p : Packet) : (accept c p s).fetch = s.fetch := rfl
@[simp] theorem accept_trace (c : BitVec 4) (p : Packet) : (accept c p s).trace = [] := rfl
@[simp] theorem accept_found (c : BitVec 4) (p : Packet) : (accept c p s).found = [] := rfl

/-! ### setAckf -/

@[simp] theorem setAckf_sclOut (a : Bool) : (setAckf a s).sclOut = s.sclOut := rfl
@[simp] theorem setAckf_sdaOut (a : Bool) : (setAckf a s).sdaOut = s.sdaOut := rfl
@[simp] theorem setAckf_fsm (a : Bool) : (setAckf a s).fsm = s.fsm := rfl
@[simp] theorem setAckf_ph2 (a : Bool) : (setAckf a s).ph2 = s.ph2 := rfl
@[simp] theorem setAckf_bitCnt (a : Bool) : (setAckf a s).bitCnt = s.bitCnt := rfl
@[simp] theorem setAckf_byteCnt (a : Bool) : (setAckf a s).byteCnt = s.byteCnt := rfl
@[simp] theorem setAckf_scanAddr (a : Bool) : (setAckf a s).scanAddr = s.scanAddr := rfl
@[simp] theorem setAckf_place (a : Bool) : (setAckf a s).place = s.place := rfl
@[simp] theorem setAckf_shreg (a : Bool) : (setAckf a s).shreg = s.shreg := rfl
@[simp] theorem setAckf_stretchCnt (a : Bool) : (setAckf a s).stretchCnt = s.stretchCnt := rfl
@[simp] theorem setAckf_ackf (a : Bool) : (setAckf a s).ackf = a := rfl
@[simp] theorem setAckf_err (a : Bool) : (setAckf a s).err = s.err := rfl
@[simp] theorem setAckf_busy (a : Bool) : (setAckf a s).busy = s.busy := rfl
@[simp] theorem setAckf_op (a : Bool) : (setAckf a s).op = s.op := rfl
@[simp] theorem setAckf_clk (a : Bool) : (setAckf a s).clk = s.clk := rfl
@[simp] theorem setAckf_am (a : Bool) : (setAckf a s).am = s.am := rfl
@[simp] theorem setAckf_addr (a : Bool) : (setAckf a s).addr = s.addr := rfl
@[simp] theorem setAckf_riw (a : Bool) : (setAckf a s).riw = s.riw := rfl
@[simp] theorem setAckf_tmo (a : Bool) : (setAckf a s).tmo = s.tmo := rfl
@[simp] theorem setAckf_regidx (a : Bool) : (setAckf a s).regidx = s.regidx := rfl
@[simp] theorem setAckf_len (a : Bool) : (setAckf a s).len = s.len := rfl
@[simp] theorem setAckf_skip (a : Bool) : (setAckf a s).skip = s.skip := rfl
@[simp] theorem setAckf_cmds (a : Bool) : (setAckf a s).cmds = s.cmds := rfl
@[simp] theorem setAckf_rspValid (a : Bool) : (setAckf a s).rspValid = s.rspValid := rfl
@[simp] theorem setAckf_rspReady (a : Bool) : (setAckf a s).rspReady = s.rspReady := rfl
@[simp] theorem setAckf_rspWord (a : Bool) : (setAckf a s).rspWord = s.rspWord := rfl
@[simp] theorem setAckf_foundValid (a : Bool) : (setAckf a s).foundValid = s.foundValid := rfl
@[simp] theorem setAckf_foundAddr (a : Bool) : (setAckf a s).foundAddr = s.foundAddr := rfl
@[simp] theorem setAckf_rst (a : Bool) : (setAckf a s).rst = s.rst := rfl
@[simp] theorem setAckf_buf (a : Bool) : (setAckf a s).buf = s.buf := rfl
@[simp] theorem setAckf_maxLen (a : Bool) : (setAckf a s).maxLen = s.maxLen := rfl
@[simp] theorem setAckf_hostMoves (a : Bool) : (setAckf a s).hostMoves = s.hostMoves := rfl
@[simp] theorem setAckf_sclAnswers (a : Bool) : (setAckf a s).sclAnswers = s.sclAnswers := rfl
@[simp] theorem setAckf_sdaAnswers (a : Bool) : (setAckf a s).sdaAnswers = s.sdaAnswers := rfl
@[simp] theorem setAckf_sclDraws (a : Bool) : (setAckf a s).sclDraws = s.sclDraws := rfl
@[simp] theorem setAckf_sdaDraws (a : Bool) : (setAckf a s).sdaDraws = s.sdaDraws := rfl
@[simp] theorem setAckf_ret (a : Bool) : (setAckf a s).ret = s.ret := rfl
@[simp] theorem setAckf_fetch (a : Bool) : (setAckf a s).fetch = s.fetch := rfl
@[simp] theorem setAckf_trace (a : Bool) : (setAckf a s).trace = s.trace := rfl
@[simp] theorem setAckf_found (a : Bool) : (setAckf a s).found = s.found := rfl

/-! ### loadShift -/

@[simp] theorem loadShift_sclOut (v : Byte) : (loadShift v s).sclOut = s.sclOut := rfl
@[simp] theorem loadShift_sdaOut (v : Byte) : (loadShift v s).sdaOut = s.sdaOut := rfl
@[simp] theorem loadShift_fsm (v : Byte) : (loadShift v s).fsm = s.fsm := rfl
@[simp] theorem loadShift_ph2 (v : Byte) : (loadShift v s).ph2 = s.ph2 := rfl
@[simp] theorem loadShift_bitCnt (v : Byte) : (loadShift v s).bitCnt = 8 := rfl
@[simp] theorem loadShift_byteCnt (v : Byte) : (loadShift v s).byteCnt = s.byteCnt := rfl
@[simp] theorem loadShift_scanAddr (v : Byte) : (loadShift v s).scanAddr = s.scanAddr := rfl
@[simp] theorem loadShift_place (v : Byte) : (loadShift v s).place = s.place := rfl
@[simp] theorem loadShift_shreg (v : Byte) : (loadShift v s).shreg = v := rfl
@[simp] theorem loadShift_stretchCnt (v : Byte) : (loadShift v s).stretchCnt = s.stretchCnt := rfl
@[simp] theorem loadShift_ackf (v : Byte) : (loadShift v s).ackf = s.ackf := rfl
@[simp] theorem loadShift_err (v : Byte) : (loadShift v s).err = s.err := rfl
@[simp] theorem loadShift_busy (v : Byte) : (loadShift v s).busy = s.busy := rfl
@[simp] theorem loadShift_op (v : Byte) : (loadShift v s).op = s.op := rfl
@[simp] theorem loadShift_clk (v : Byte) : (loadShift v s).clk = s.clk := rfl
@[simp] theorem loadShift_am (v : Byte) : (loadShift v s).am = s.am := rfl
@[simp] theorem loadShift_addr (v : Byte) : (loadShift v s).addr = s.addr := rfl
@[simp] theorem loadShift_riw (v : Byte) : (loadShift v s).riw = s.riw := rfl
@[simp] theorem loadShift_tmo (v : Byte) : (loadShift v s).tmo = s.tmo := rfl
@[simp] theorem loadShift_regidx (v : Byte) : (loadShift v s).regidx = s.regidx := rfl
@[simp] theorem loadShift_len (v : Byte) : (loadShift v s).len = s.len := rfl
@[simp] theorem loadShift_skip (v : Byte) : (loadShift v s).skip = s.skip := rfl
@[simp] theorem loadShift_cmds (v : Byte) : (loadShift v s).cmds = s.cmds := rfl
@[simp] theorem loadShift_rspValid (v : Byte) : (loadShift v s).rspValid = s.rspValid := rfl
@[simp] theorem loadShift_rspReady (v : Byte) : (loadShift v s).rspReady = s.rspReady := rfl
@[simp] theorem loadShift_rspWord (v : Byte) : (loadShift v s).rspWord = s.rspWord := rfl
@[simp] theorem loadShift_foundValid (v : Byte) : (loadShift v s).foundValid = s.foundValid := rfl
@[simp] theorem loadShift_foundAddr (v : Byte) : (loadShift v s).foundAddr = s.foundAddr := rfl
@[simp] theorem loadShift_rst (v : Byte) : (loadShift v s).rst = s.rst := rfl
@[simp] theorem loadShift_buf (v : Byte) : (loadShift v s).buf = s.buf := rfl
@[simp] theorem loadShift_maxLen (v : Byte) : (loadShift v s).maxLen = s.maxLen := rfl
@[simp] theorem loadShift_hostMoves (v : Byte) : (loadShift v s).hostMoves = s.hostMoves := rfl
@[simp] theorem loadShift_sclAnswers (v : Byte) : (loadShift v s).sclAnswers = s.sclAnswers := rfl
@[simp] theorem loadShift_sdaAnswers (v : Byte) : (loadShift v s).sdaAnswers = s.sdaAnswers := rfl
@[simp] theorem loadShift_sclDraws (v : Byte) : (loadShift v s).sclDraws = s.sclDraws := rfl
@[simp] theorem loadShift_sdaDraws (v : Byte) : (loadShift v s).sdaDraws = s.sdaDraws := rfl
@[simp] theorem loadShift_ret (v : Byte) : (loadShift v s).ret = s.ret := rfl
@[simp] theorem loadShift_fetch (v : Byte) : (loadShift v s).fetch = s.fetch := rfl
@[simp] theorem loadShift_trace (v : Byte) : (loadShift v s).trace = s.trace := rfl
@[simp] theorem loadShift_found (v : Byte) : (loadShift v s).found = s.found := rfl

/-! ### shiftBit -/

@[simp] theorem shiftBit_sclOut (x : Bit) : (shiftBit x s).sclOut = s.sclOut := rfl
@[simp] theorem shiftBit_sdaOut (x : Bit) : (shiftBit x s).sdaOut = s.sdaOut := rfl
@[simp] theorem shiftBit_fsm (x : Bit) : (shiftBit x s).fsm = s.fsm := rfl
@[simp] theorem shiftBit_ph2 (x : Bit) : (shiftBit x s).ph2 = s.ph2 := rfl
@[simp] theorem shiftBit_bitCnt (x : Bit) : (shiftBit x s).bitCnt = s.bitCnt - 1 := rfl
@[simp] theorem shiftBit_byteCnt (x : Bit) : (shiftBit x s).byteCnt = s.byteCnt := rfl
@[simp] theorem shiftBit_scanAddr (x : Bit) : (shiftBit x s).scanAddr = s.scanAddr := rfl
@[simp] theorem shiftBit_place (x : Bit) : (shiftBit x s).place = s.place := rfl
@[simp] theorem shiftBit_shreg (x : Bit) : (shiftBit x s).shreg = shiftIn s.shreg x := rfl
@[simp] theorem shiftBit_stretchCnt (x : Bit) : (shiftBit x s).stretchCnt = s.stretchCnt := rfl
@[simp] theorem shiftBit_ackf (x : Bit) : (shiftBit x s).ackf = s.ackf := rfl
@[simp] theorem shiftBit_err (x : Bit) : (shiftBit x s).err = s.err := rfl
@[simp] theorem shiftBit_busy (x : Bit) : (shiftBit x s).busy = s.busy := rfl
@[simp] theorem shiftBit_op (x : Bit) : (shiftBit x s).op = s.op := rfl
@[simp] theorem shiftBit_clk (x : Bit) : (shiftBit x s).clk = s.clk := rfl
@[simp] theorem shiftBit_am (x : Bit) : (shiftBit x s).am = s.am := rfl
@[simp] theorem shiftBit_addr (x : Bit) : (shiftBit x s).addr = s.addr := rfl
@[simp] theorem shiftBit_riw (x : Bit) : (shiftBit x s).riw = s.riw := rfl
@[simp] theorem shiftBit_tmo (x : Bit) : (shiftBit x s).tmo = s.tmo := rfl
@[simp] theorem shiftBit_regidx (x : Bit) : (shiftBit x s).regidx = s.regidx := rfl
@[simp] theorem shiftBit_len (x : Bit) : (shiftBit x s).len = s.len := rfl
@[simp] theorem shiftBit_skip (x : Bit) : (shiftBit x s).skip = s.skip := rfl
@[simp] theorem shiftBit_cmds (x : Bit) : (shiftBit x s).cmds = s.cmds := rfl
@[simp] theorem shiftBit_rspValid (x : Bit) : (shiftBit x s).rspValid = s.rspValid := rfl
@[simp] theorem shiftBit_rspReady (x : Bit) : (shiftBit x s).rspReady = s.rspReady := rfl
@[simp] theorem shiftBit_rspWord (x : Bit) : (shiftBit x s).rspWord = s.rspWord := rfl
@[simp] theorem shiftBit_foundValid (x : Bit) : (shiftBit x s).foundValid = s.foundValid := rfl
@[simp] theorem shiftBit_foundAddr (x : Bit) : (shiftBit x s).foundAddr = s.foundAddr := rfl
@[simp] theorem shiftBit_rst (x : Bit) : (shiftBit x s).rst = s.rst := rfl
@[simp] theorem shiftBit_buf (x : Bit) : (shiftBit x s).buf = s.buf := rfl
@[simp] theorem shiftBit_maxLen (x : Bit) : (shiftBit x s).maxLen = s.maxLen := rfl
@[simp] theorem shiftBit_hostMoves (x : Bit) : (shiftBit x s).hostMoves = s.hostMoves := rfl
@[simp] theorem shiftBit_sclAnswers (x : Bit) : (shiftBit x s).sclAnswers = s.sclAnswers := rfl
@[simp] theorem shiftBit_sdaAnswers (x : Bit) : (shiftBit x s).sdaAnswers = s.sdaAnswers := rfl
@[simp] theorem shiftBit_sclDraws (x : Bit) : (shiftBit x s).sclDraws = s.sclDraws := rfl
@[simp] theorem shiftBit_sdaDraws (x : Bit) : (shiftBit x s).sdaDraws = s.sdaDraws := rfl
@[simp] theorem shiftBit_ret (x : Bit) : (shiftBit x s).ret = s.ret := rfl
@[simp] theorem shiftBit_fetch (x : Bit) : (shiftBit x s).fetch = s.fetch := rfl
@[simp] theorem shiftBit_trace (x : Bit) : (shiftBit x s).trace = s.trace := rfl
@[simp] theorem shiftBit_found (x : Bit) : (shiftBit x s).found = s.found := rfl

/-! ### enterFsm -/

@[simp] theorem enterFsm_sclOut (f : Fsm) : (enterFsm f s).sclOut = s.sclOut := rfl
@[simp] theorem enterFsm_sdaOut (f : Fsm) : (enterFsm f s).sdaOut = s.sdaOut := rfl
@[simp] theorem enterFsm_fsm (f : Fsm) : (enterFsm f s).fsm = f := rfl
@[simp] theorem enterFsm_ph2 (f : Fsm) : (enterFsm f s).ph2 = s.ph2 := rfl
@[simp] theorem enterFsm_bitCnt (f : Fsm) : (enterFsm f s).bitCnt = s.bitCnt := rfl
@[simp] theorem enterFsm_byteCnt (f : Fsm) : (enterFsm f s).byteCnt = s.byteCnt := rfl
@[simp] theorem enterFsm_scanAddr (f : Fsm) : (enterFsm f s).scanAddr = s.scanAddr := rfl
@[simp] theorem enterFsm_place (f : Fsm) : (enterFsm f s).place = s.place := rfl
@[simp] theorem enterFsm_shreg (f : Fsm) : (enterFsm f s).shreg = s.shreg := rfl
@[simp] theorem enterFsm_stretchCnt (f : Fsm) : (enterFsm f s).stretchCnt = s.stretchCnt := rfl
@[simp] theorem enterFsm_ackf (f : Fsm) : (enterFsm f s).ackf = s.ackf := rfl
@[simp] theorem enterFsm_err (f : Fsm) : (enterFsm f s).err = s.err := rfl
@[simp] theorem enterFsm_busy (f : Fsm) : (enterFsm f s).busy = s.busy := rfl
@[simp] theorem enterFsm_op (f : Fsm) : (enterFsm f s).op = s.op := rfl
@[simp] theorem enterFsm_clk (f : Fsm) : (enterFsm f s).clk = s.clk := rfl
@[simp] theorem enterFsm_am (f : Fsm) : (enterFsm f s).am = s.am := rfl
@[simp] theorem enterFsm_addr (f : Fsm) : (enterFsm f s).addr = s.addr := rfl
@[simp] theorem enterFsm_riw (f : Fsm) : (enterFsm f s).riw = s.riw := rfl
@[simp] theorem enterFsm_tmo (f : Fsm) : (enterFsm f s).tmo = s.tmo := rfl
@[simp] theorem enterFsm_regidx (f : Fsm) : (enterFsm f s).regidx = s.regidx := rfl
@[simp] theorem enterFsm_len (f : Fsm) : (enterFsm f s).len = s.len := rfl
@[simp] theorem enterFsm_skip (f : Fsm) : (enterFsm f s).skip = s.skip := rfl
@[simp] theorem enterFsm_cmds (f : Fsm) : (enterFsm f s).cmds = s.cmds := rfl
@[simp] theorem enterFsm_rspValid (f : Fsm) : (enterFsm f s).rspValid = s.rspValid := rfl
@[simp] theorem enterFsm_rspReady (f : Fsm) : (enterFsm f s).rspReady = s.rspReady := rfl
@[simp] theorem enterFsm_rspWord (f : Fsm) : (enterFsm f s).rspWord = s.rspWord := rfl
@[simp] theorem enterFsm_foundValid (f : Fsm) : (enterFsm f s).foundValid = s.foundValid := rfl
@[simp] theorem enterFsm_foundAddr (f : Fsm) : (enterFsm f s).foundAddr = s.foundAddr := rfl
@[simp] theorem enterFsm_rst (f : Fsm) : (enterFsm f s).rst = s.rst := rfl
@[simp] theorem enterFsm_buf (f : Fsm) : (enterFsm f s).buf = s.buf := rfl
@[simp] theorem enterFsm_maxLen (f : Fsm) : (enterFsm f s).maxLen = s.maxLen := rfl
@[simp] theorem enterFsm_hostMoves (f : Fsm) : (enterFsm f s).hostMoves = s.hostMoves := rfl
@[simp] theorem enterFsm_sclAnswers (f : Fsm) : (enterFsm f s).sclAnswers = s.sclAnswers := rfl
@[simp] theorem enterFsm_sdaAnswers (f : Fsm) : (enterFsm f s).sdaAnswers = s.sdaAnswers := rfl
@[simp] theorem enterFsm_sclDraws (f : Fsm) : (enterFsm f s).sclDraws = s.sclDraws := rfl
@[simp] theorem enterFsm_sdaDraws (f : Fsm) : (enterFsm f s).sdaDraws = s.sdaDraws := rfl
@[simp] theorem enterFsm_ret (f : Fsm) : (enterFsm f s).ret = s.ret := rfl
@[simp] theorem enterFsm_fetch (f : Fsm) : (enterFsm f s).fetch = s.fetch := rfl
@[simp] theorem enterFsm_trace (f : Fsm) : (enterFsm f s).trace = s.trace := rfl
@[simp] theorem enterFsm_found (f : Fsm) : (enterFsm f s).found = s.found := rfl

/-! ### clearCount -/

@[simp] theorem clearCount_sclOut : (clearCount s).sclOut = s.sclOut := rfl
@[simp] theorem clearCount_sdaOut : (clearCount s).sdaOut = s.sdaOut := rfl
@[simp] theorem clearCount_fsm : (clearCount s).fsm = s.fsm := rfl
@[simp] theorem clearCount_ph2 : (clearCount s).ph2 = s.ph2 := rfl
@[simp] theorem clearCount_bitCnt : (clearCount s).bitCnt = s.bitCnt := rfl
@[simp] theorem clearCount_byteCnt : (clearCount s).byteCnt = 0 := rfl
@[simp] theorem clearCount_scanAddr : (clearCount s).scanAddr = s.scanAddr := rfl
@[simp] theorem clearCount_place : (clearCount s).place = s.place := rfl
@[simp] theorem clearCount_shreg : (clearCount s).shreg = s.shreg := rfl
@[simp] theorem clearCount_stretchCnt : (clearCount s).stretchCnt = s.stretchCnt := rfl
@[simp] theorem clearCount_ackf : (clearCount s).ackf = s.ackf := rfl
@[simp] theorem clearCount_err : (clearCount s).err = s.err := rfl
@[simp] theorem clearCount_busy : (clearCount s).busy = s.busy := rfl
@[simp] theorem clearCount_op : (clearCount s).op = s.op := rfl
@[simp] theorem clearCount_clk : (clearCount s).clk = s.clk := rfl
@[simp] theorem clearCount_am : (clearCount s).am = s.am := rfl
@[simp] theorem clearCount_addr : (clearCount s).addr = s.addr := rfl
@[simp] theorem clearCount_riw : (clearCount s).riw = s.riw := rfl
@[simp] theorem clearCount_tmo : (clearCount s).tmo = s.tmo := rfl
@[simp] theorem clearCount_regidx : (clearCount s).regidx = s.regidx := rfl
@[simp] theorem clearCount_len : (clearCount s).len = s.len := rfl
@[simp] theorem clearCount_skip : (clearCount s).skip = s.skip := rfl
@[simp] theorem clearCount_cmds : (clearCount s).cmds = s.cmds := rfl
@[simp] theorem clearCount_rspValid : (clearCount s).rspValid = s.rspValid := rfl
@[simp] theorem clearCount_rspReady : (clearCount s).rspReady = s.rspReady := rfl
@[simp] theorem clearCount_rspWord : (clearCount s).rspWord = s.rspWord := rfl
@[simp] theorem clearCount_foundValid : (clearCount s).foundValid = s.foundValid := rfl
@[simp] theorem clearCount_foundAddr : (clearCount s).foundAddr = s.foundAddr := rfl
@[simp] theorem clearCount_rst : (clearCount s).rst = s.rst := rfl
@[simp] theorem clearCount_buf : (clearCount s).buf = s.buf := rfl
@[simp] theorem clearCount_maxLen : (clearCount s).maxLen = s.maxLen := rfl
@[simp] theorem clearCount_hostMoves : (clearCount s).hostMoves = s.hostMoves := rfl
@[simp] theorem clearCount_sclAnswers : (clearCount s).sclAnswers = s.sclAnswers := rfl
@[simp] theorem clearCount_sdaAnswers : (clearCount s).sdaAnswers = s.sdaAnswers := rfl
@[simp] theorem clearCount_sclDraws : (clearCount s).sclDraws = s.sclDraws := rfl
@[simp] theorem clearCount_sdaDraws : (clearCount s).sdaDraws = s.sdaDraws := rfl
@[simp] theorem clearCount_ret : (clearCount s).ret = s.ret := rfl
@[simp] theorem clearCount_fetch : (clearCount s).fetch = s.fetch := rfl
@[simp] theorem clearCount_trace : (clearCount s).trace = s.trace := rfl
@[simp] theorem clearCount_found : (clearCount s).found = s.found := rfl

/-! ### incCount -/

@[simp] theorem incCount_sclOut : (incCount s).sclOut = s.sclOut := rfl
@[simp] theorem incCount_sdaOut : (incCount s).sdaOut = s.sdaOut := rfl
@[simp] theorem incCount_fsm : (incCount s).fsm = s.fsm := rfl
@[simp] theorem incCount_ph2 : (incCount s).ph2 = s.ph2 := rfl
@[simp] theorem incCount_bitCnt : (incCount s).bitCnt = s.bitCnt := rfl
@[simp] theorem incCount_byteCnt : (incCount s).byteCnt = s.byteCnt + 1 := rfl
@[simp] theorem incCount_scanAddr : (incCount s).scanAddr = s.scanAddr := rfl
@[simp] theorem incCount_place : (incCount s).place = s.place := rfl
@[simp] theorem incCount_shreg : (incCount s).shreg = s.shreg := rfl
@[simp] theorem incCount_stretchCnt : (incCount s).stretchCnt = s.stretchCnt := rfl
@[simp] theorem incCount_ackf : (incCount s).ackf = s.ackf := rfl
@[simp] theorem incCount_err : (incCount s).err = s.err := rfl
@[simp] theorem incCount_busy : (incCount s).busy = s.busy := rfl
@[simp] theorem incCount_op : (incCount s).op = s.op := rfl
@[simp] theorem incCount_clk : (incCount s).clk = s.clk := rfl
@[simp] theorem incCount_am : (incCount s).am = s.am := rfl
@[simp] theorem incCount_addr : (incCount s).addr = s.addr := rfl
@[simp] theorem incCount_riw : (incCount s).riw = s.riw := rfl
@[simp] theorem incCount_tmo : (incCount s).tmo = s.tmo := rfl
@[simp] theorem incCount_regidx : (incCount s).regidx = s.regidx := rfl
@[simp] theorem incCount_len : (incCount s).len = s.len := rfl
@[simp] theorem incCount_skip : (incCount s).skip = s.skip := rfl
@[simp] theorem incCount_cmds : (incCount s).cmds = s.cmds := rfl
@[simp] theorem incCount_rspValid : (incCount s).rspValid = s.rspValid := rfl
@[simp] theorem incCount_rspReady : (incCount s).rspReady = s.rspReady := rfl
@[simp] theorem incCount_rspWord : (incCount s).rspWord = s.rspWord := rfl
@[simp] theorem incCount_foundValid : (incCount s).foundValid = s.foundValid := rfl
@[simp] theorem incCount_foundAddr : (incCount s).foundAddr = s.foundAddr := rfl
@[simp] theorem incCount_rst : (incCount s).rst = s.rst := rfl
@[simp] theorem incCount_buf : (incCount s).buf = s.buf := rfl
@[simp] theorem incCount_maxLen : (incCount s).maxLen = s.maxLen := rfl
@[simp] theorem incCount_hostMoves : (incCount s).hostMoves = s.hostMoves := rfl
@[simp] theorem incCount_sclAnswers : (incCount s).sclAnswers = s.sclAnswers := rfl
@[simp] theorem incCount_sdaAnswers : (incCount s).sdaAnswers = s.sdaAnswers := rfl
@[simp] theorem incCount_sclDraws : (incCount s).sclDraws = s.sclDraws := rfl
@[simp] theorem incCount_sdaDraws : (incCount s).sdaDraws = s.sdaDraws := rfl
@[simp] theorem incCount_ret : (incCount s).ret = s.ret := rfl
@[simp] theorem incCount_fetch : (incCount s).fetch = s.fetch := rfl
@[simp] theorem incCount_trace : (incCount s).trace = s.trace := rfl
@[simp] theorem incCount_found : (incCount s).found = s.found := rfl

/-! ### beginData -/

@[simp] theorem beginData_sclOut : (beginData s).sclOut = s.sclOut := rfl
@[simp] theorem beginData_sdaOut : (beginData s).sdaOut = s.sdaOut := rfl
@[simp] theorem beginData_fsm : (beginData s).fsm = .dataTransfer := rfl
@[simp] theorem beginData_ph2 : (beginData s).ph2 = s.ph2 := rfl
@[simp] theorem beginData_bitCnt : (beginData s).bitCnt = s.bitCnt := rfl
@[simp] theorem beginData_byteCnt : (beginData s).byteCnt = 0 := rfl
@[simp] theorem beginData_scanAddr : (beginData s).scanAddr = s.scanAddr := rfl
@[simp] theorem beginData_place : (beginData s).place = s.place := rfl
@[simp] theorem beginData_shreg : (beginData s).shreg = s.shreg := rfl
@[simp] theorem beginData_stretchCnt : (beginData s).stretchCnt = s.stretchCnt := rfl
@[simp] theorem beginData_ackf : (beginData s).ackf = s.ackf := rfl
@[simp] theorem beginData_err : (beginData s).err = s.err := rfl
@[simp] theorem beginData_busy : (beginData s).busy = s.busy := rfl
@[simp] theorem beginData_op : (beginData s).op = s.op := rfl
@[simp] theorem beginData_clk : (beginData s).clk = s.clk := rfl
@[simp] theorem beginData_am : (beginData s).am = s.am := rfl
@[simp] theorem beginData_addr : (beginData s).addr = s.addr := rfl
@[simp] theorem beginData_riw : (beginData s).riw = s.riw := rfl
@[simp] theorem beginData_tmo : (beginData s).tmo = s.tmo := rfl
@[simp] theorem beginData_regidx : (beginData s).regidx = s.regidx := rfl
@[simp] theorem beginData_len : (beginData s).len = s.len := rfl
@[simp] theorem beginData_skip : (beginData s).skip = s.skip := rfl
@[simp] theorem beginData_cmds : (beginData s).cmds = s.cmds := rfl
@[simp] theorem beginData_rspValid : (beginData s).rspValid = s.rspValid := rfl
@[simp] theorem beginData_rspReady : (beginData s).rspReady = s.rspReady := rfl
@[simp] theorem beginData_rspWord : (beginData s).rspWord = s.rspWord := rfl
@[simp] theorem beginData_foundValid : (beginData s).foundValid = s.foundValid := rfl
@[simp] theorem beginData_foundAddr : (beginData s).foundAddr = s.foundAddr := rfl
@[simp] theorem beginData_rst : (beginData s).rst = s.rst := rfl
@[simp] theorem beginData_buf : (beginData s).buf = s.buf := rfl
@[simp] theorem beginData_maxLen : (beginData s).maxLen = s.maxLen := rfl
@[simp] theorem beginData_hostMoves : (beginData s).hostMoves = s.hostMoves := rfl
@[simp] theorem beginData_sclAnswers : (beginData s).sclAnswers = s.sclAnswers := rfl
@[simp] theorem beginData_sdaAnswers : (beginData s).sdaAnswers = s.sdaAnswers := rfl
@[simp] theorem beginData_sclDraws : (beginData s).sclDraws = s.sclDraws := rfl
@[simp] theorem beginData_sdaDraws : (beginData s).sdaDraws = s.sdaDraws := rfl
@[simp] theorem beginData_ret : (beginData s).ret = s.ret := rfl
@[simp] theorem beginData_fetch : (beginData s).fetch = s.fetch := rfl
@[simp] theorem beginData_trace : (beginData s).trace = s.trace := rfl
@[simp] theorem beginData_found : (beginData s).found = s.found := rfl

/-! ### secondPhase -/

@[simp] theorem secondPhase_sclOut : (secondPhase s).sclOut = s.sclOut := rfl
@[simp] theorem secondPhase_sdaOut : (secondPhase s).sdaOut = s.sdaOut := rfl
@[simp] theorem secondPhase_fsm : (secondPhase s).fsm = .started := rfl
@[simp] theorem secondPhase_ph2 : (secondPhase s).ph2 = true := rfl
@[simp] theorem secondPhase_bitCnt : (secondPhase s).bitCnt = s.bitCnt := rfl
@[simp] theorem secondPhase_byteCnt : (secondPhase s).byteCnt = s.byteCnt := rfl
@[simp] theorem secondPhase_scanAddr : (secondPhase s).scanAddr = s.scanAddr := rfl
@[simp] theorem secondPhase_place : (secondPhase s).place = s.place := rfl
@[simp] theorem secondPhase_shreg : (secondPhase s).shreg = s.shreg := rfl
@[simp] theorem secondPhase_stretchCnt : (secondPhase s).stretchCnt = s.stretchCnt := rfl
@[simp] theorem secondPhase_ackf : (secondPhase s).ackf = s.ackf := rfl
@[simp] theorem secondPhase_err : (secondPhase s).err = s.err := rfl
@[simp] theorem secondPhase_busy : (secondPhase s).busy = s.busy := rfl
@[simp] theorem secondPhase_op : (secondPhase s).op = s.op := rfl
@[simp] theorem secondPhase_clk : (secondPhase s).clk = s.clk := rfl
@[simp] theorem secondPhase_am : (secondPhase s).am = s.am := rfl
@[simp] theorem secondPhase_addr : (secondPhase s).addr = s.addr := rfl
@[simp] theorem secondPhase_riw : (secondPhase s).riw = s.riw := rfl
@[simp] theorem secondPhase_tmo : (secondPhase s).tmo = s.tmo := rfl
@[simp] theorem secondPhase_regidx : (secondPhase s).regidx = s.regidx := rfl
@[simp] theorem secondPhase_len : (secondPhase s).len = s.len := rfl
@[simp] theorem secondPhase_skip : (secondPhase s).skip = s.skip := rfl
@[simp] theorem secondPhase_cmds : (secondPhase s).cmds = s.cmds := rfl
@[simp] theorem secondPhase_rspValid : (secondPhase s).rspValid = s.rspValid := rfl
@[simp] theorem secondPhase_rspReady : (secondPhase s).rspReady = s.rspReady := rfl
@[simp] theorem secondPhase_rspWord : (secondPhase s).rspWord = s.rspWord := rfl
@[simp] theorem secondPhase_foundValid : (secondPhase s).foundValid = s.foundValid := rfl
@[simp] theorem secondPhase_foundAddr : (secondPhase s).foundAddr = s.foundAddr := rfl
@[simp] theorem secondPhase_rst : (secondPhase s).rst = s.rst := rfl
@[simp] theorem secondPhase_buf : (secondPhase s).buf = s.buf := rfl
@[simp] theorem secondPhase_maxLen : (secondPhase s).maxLen = s.maxLen := rfl
@[simp] theorem secondPhase_hostMoves : (secondPhase s).hostMoves = s.hostMoves := rfl
@[simp] theorem secondPhase_sclAnswers : (secondPhase s).sclAnswers = s.sclAnswers := rfl
@[simp] theorem secondPhase_sdaAnswers : (secondPhase s).sdaAnswers = s.sdaAnswers := rfl
@[simp] theorem secondPhase_sclDraws : (secondPhase s).sclDraws = s.sclDraws := rfl
@[simp] theorem secondPhase_sdaDraws : (secondPhase s).sdaDraws = s.sdaDraws := rfl
@[simp] theorem secondPhase_ret : (secondPhase s).ret = s.ret := rfl
@[simp] theorem secondPhase_fetch : (secondPhase s).fetch = s.fetch := rfl
@[simp] theorem secondPhase_trace : (secondPhase s).trace = s.trace := rfl
@[simp] theorem secondPhase_found : (secondPhase s).found = s.found := rfl

/-! ### probeBegin -/

@[simp] theorem probeBegin_sclOut : (probeBegin s).sclOut = s.sclOut := rfl
@[simp] theorem probeBegin_sdaOut : (probeBegin s).sdaOut = s.sdaOut := rfl
@[simp] theorem probeBegin_fsm : (probeBegin s).fsm = .idle := rfl
@[simp] theorem probeBegin_ph2 : (probeBegin s).ph2 = false := rfl
@[simp] theorem probeBegin_bitCnt : (probeBegin s).bitCnt = s.bitCnt := rfl
@[simp] theorem probeBegin_byteCnt : (probeBegin s).byteCnt = s.byteCnt := rfl
@[simp] theorem probeBegin_scanAddr : (probeBegin s).scanAddr = s.scanAddr := rfl
@[simp] theorem probeBegin_place : (probeBegin s).place = s.place := rfl
@[simp] theorem probeBegin_shreg : (probeBegin s).shreg = s.shreg := rfl
@[simp] theorem probeBegin_stretchCnt : (probeBegin s).stretchCnt = s.stretchCnt := rfl
@[simp] theorem probeBegin_ackf : (probeBegin s).ackf = s.ackf := rfl
@[simp] theorem probeBegin_err : (probeBegin s).err = .ok := rfl
@[simp] theorem probeBegin_busy : (probeBegin s).busy = s.busy := rfl
@[simp] theorem probeBegin_op : (probeBegin s).op = s.op := rfl
@[simp] theorem probeBegin_clk : (probeBegin s).clk = s.clk := rfl
@[simp] theorem probeBegin_am : (probeBegin s).am = s.am := rfl
@[simp] theorem probeBegin_addr : (probeBegin s).addr = s.addr := rfl
@[simp] theorem probeBegin_riw : (probeBegin s).riw = s.riw := rfl
@[simp] theorem probeBegin_tmo : (probeBegin s).tmo = s.tmo := rfl
@[simp] theorem probeBegin_regidx : (probeBegin s).regidx = s.regidx := rfl
@[simp] theorem probeBegin_len : (probeBegin s).len = s.len := rfl
@[simp] theorem probeBegin_skip : (probeBegin s).skip = s.skip := rfl
@[simp] theorem probeBegin_cmds : (probeBegin s).cmds = s.cmds := rfl
@[simp] theorem probeBegin_rspValid : (probeBegin s).rspValid = s.rspValid := rfl
@[simp] theorem probeBegin_rspReady : (probeBegin s).rspReady = s.rspReady := rfl
@[simp] theorem probeBegin_rspWord : (probeBegin s).rspWord = s.rspWord := rfl
@[simp] theorem probeBegin_foundValid : (probeBegin s).foundValid = s.foundValid := rfl
@[simp] theorem probeBegin_foundAddr : (probeBegin s).foundAddr = s.foundAddr := rfl
@[simp] theorem probeBegin_rst : (probeBegin s).rst = s.rst := rfl
@[simp] theorem probeBegin_buf : (probeBegin s).buf = s.buf := rfl
@[simp] theorem probeBegin_maxLen : (probeBegin s).maxLen = s.maxLen := rfl
@[simp] theorem probeBegin_hostMoves : (probeBegin s).hostMoves = s.hostMoves := rfl
@[simp] theorem probeBegin_sclAnswers : (probeBegin s).sclAnswers = s.sclAnswers := rfl
@[simp] theorem probeBegin_sdaAnswers : (probeBegin s).sdaAnswers = s.sdaAnswers := rfl
@[simp] theorem probeBegin_sclDraws : (probeBegin s).sclDraws = s.sclDraws := rfl
@[simp] theorem probeBegin_sdaDraws : (probeBegin s).sdaDraws = s.sdaDraws := rfl
@[simp] theorem probeBegin_ret : (probeBegin s).ret = s.ret := rfl
@[simp] theorem probeBegin_fetch : (probeBegin s).fetch = s.fetch := rfl
@[simp] theorem probeBegin_trace : (probeBegin s).trace = s.trace := rfl
@[simp] theorem probeBegin_found : (probeBegin s).found = s.found := rfl

/-! ### emitFound -/

@[simp] theorem emitFound_sclOut (a : BitVec 7) : (emitFound a s).sclOut = s.sclOut := rfl
@[simp] theorem emitFound_sdaOut (a : BitVec 7) : (emitFound a s).sdaOut = s.sdaOut := rfl
@[simp] theorem emitFound_fsm (a : BitVec 7) : (emitFound a s).fsm = s.fsm := rfl
@[simp] theorem emitFound_ph2 (a : BitVec 7) : (emitFound a s).ph2 = s.ph2 := rfl
@[simp] theorem emitFound_bitCnt (a : BitVec 7) : (emitFound a s).bitCnt = s.bitCnt := rfl
@[simp] theorem emitFound_byteCnt (a : BitVec 7) : (emitFound a s).byteCnt = s.byteCnt := rfl
@[simp] theorem emitFound_scanAddr (a : BitVec 7) : (emitFound a s).scanAddr = s.scanAddr := rfl
@[simp] theorem emitFound_place (a : BitVec 7) : (emitFound a s).place = s.place := rfl
@[simp] theorem emitFound_shreg (a : BitVec 7) : (emitFound a s).shreg = s.shreg := rfl
@[simp] theorem emitFound_stretchCnt (a : BitVec 7) : (emitFound a s).stretchCnt = s.stretchCnt := rfl
@[simp] theorem emitFound_ackf (a : BitVec 7) : (emitFound a s).ackf = s.ackf := rfl
@[simp] theorem emitFound_err (a : BitVec 7) : (emitFound a s).err = s.err := rfl
@[simp] theorem emitFound_busy (a : BitVec 7) : (emitFound a s).busy = s.busy := rfl
@[simp] theorem emitFound_op (a : BitVec 7) : (emitFound a s).op = s.op := rfl
@[simp] theorem emitFound_clk (a : BitVec 7) : (emitFound a s).clk = s.clk := rfl
@[simp] theorem emitFound_am (a : BitVec 7) : (emitFound a s).am = s.am := rfl
@[simp] theorem emitFound_addr (a : BitVec 7) : (emitFound a s).addr = s.addr := rfl
@[simp] theorem emitFound_riw (a : BitVec 7) : (emitFound a s).riw = s.riw := rfl
@[simp] theorem emitFound_tmo (a : BitVec 7) : (emitFound a s).tmo = s.tmo := rfl
@[simp] theorem emitFound_regidx (a : BitVec 7) : (emitFound a s).regidx = s.regidx := rfl
@[simp] theorem emitFound_len (a : BitVec 7) : (emitFound a s).len = s.len := rfl
@[simp] theorem emitFound_skip (a : BitVec 7) : (emitFound a s).skip = s.skip := rfl
@[simp] theorem emitFound_cmds (a : BitVec 7) : (emitFound a s).cmds = s.cmds := rfl
@[simp] theorem emitFound_rspValid (a : BitVec 7) : (emitFound a s).rspValid = s.rspValid := rfl
@[simp] theorem emitFound_rspReady (a : BitVec 7) : (emitFound a s).rspReady = s.rspReady := rfl
@[simp] theorem emitFound_rspWord (a : BitVec 7) : (emitFound a s).rspWord = s.rspWord := rfl
@[simp] theorem emitFound_foundValid (a : BitVec 7) : (emitFound a s).foundValid = s.foundValid := rfl
@[simp] theorem emitFound_foundAddr (a : BitVec 7) : (emitFound a s).foundAddr = a := rfl
@[simp] theorem emitFound_rst (a : BitVec 7) : (emitFound a s).rst = s.rst := rfl
@[simp] theorem emitFound_buf (a : BitVec 7) : (emitFound a s).buf = s.buf := rfl
@[simp] theorem emitFound_maxLen (a : BitVec 7) : (emitFound a s).maxLen = s.maxLen := rfl
@[simp] theorem emitFound_hostMoves (a : BitVec 7) : (emitFound a s).hostMoves = s.hostMoves := rfl
@[simp] theorem emitFound_sclAnswers (a : BitVec 7) : (emitFound a s).sclAnswers = s.sclAnswers := rfl
@[simp] theorem emitFound_sdaAnswers (a : BitVec 7) : (emitFound a s).sdaAnswers = s.sdaAnswers := rfl
@[simp] theorem emitFound_sclDraws (a : BitVec 7) : (emitFound a s).sclDraws = s.sclDraws := rfl
@[simp] theorem emitFound_sdaDraws (a : BitVec 7) : (emitFound a s).sdaDraws = s.sdaDraws := rfl
@[simp] theorem emitFound_ret (a : BitVec 7) : (emitFound a s).ret = s.ret := rfl
@[simp] theorem emitFound_fetch (a : BitVec 7) : (emitFound a s).fetch = s.fetch := rfl
@[simp] theorem emitFound_trace (a : BitVec 7) : (emitFound a s).trace = .found a :: s.trace := rfl
@[simp] theorem emitFound_found (a : BitVec 7) : (emitFound a s).found = s.found ++ [a] := rfl

/-! ### nextAddress -/

@[simp] theorem nextAddress_sclOut : (nextAddress s).sclOut = s.sclOut := rfl
@[simp] theorem nextAddress_sdaOut : (nextAddress s).sdaOut = s.sdaOut := rfl
@[simp] theorem nextAddress_fsm : (nextAddress s).fsm = s.fsm := rfl
@[simp] theorem nextAddress_ph2 : (nextAddress s).ph2 = s.ph2 := rfl
@[simp] theorem nextAddress_bitCnt : (nextAddress s).bitCnt = s.bitCnt := rfl
@[simp] theorem nextAddress_byteCnt : (nextAddress s).byteCnt = s.byteCnt := rfl
@[simp] theorem nextAddress_scanAddr : (nextAddress s).scanAddr = s.scanAddr + 1 := rfl
@[simp] theorem nextAddress_place : (nextAddress s).place = s.place := rfl
@[simp] theorem nextAddress_shreg : (nextAddress s).shreg = s.shreg := rfl
@[simp] theorem nextAddress_stretchCnt : (nextAddress s).stretchCnt = s.stretchCnt := rfl
@[simp] theorem nextAddress_ackf : (nextAddress s).ackf = s.ackf := rfl
@[simp] theorem nextAddress_err : (nextAddress s).err = s.err := rfl
@[simp] theorem nextAddress_busy : (nextAddress s).busy = s.busy := rfl
@[simp] theorem nextAddress_op : (nextAddress s).op = s.op := rfl
@[simp] theorem nextAddress_clk : (nextAddress s).clk = s.clk := rfl
@[simp] theorem nextAddress_am : (nextAddress s).am = s.am := rfl
@[simp] theorem nextAddress_addr : (nextAddress s).addr = s.addr := rfl
@[simp] theorem nextAddress_riw : (nextAddress s).riw = s.riw := rfl
@[simp] theorem nextAddress_tmo : (nextAddress s).tmo = s.tmo := rfl
@[simp] theorem nextAddress_regidx : (nextAddress s).regidx = s.regidx := rfl
@[simp] theorem nextAddress_len : (nextAddress s).len = s.len := rfl
@[simp] theorem nextAddress_skip : (nextAddress s).skip = s.skip := rfl
@[simp] theorem nextAddress_cmds : (nextAddress s).cmds = s.cmds := rfl
@[simp] theorem nextAddress_rspValid : (nextAddress s).rspValid = s.rspValid := rfl
@[simp] theorem nextAddress_rspReady : (nextAddress s).rspReady = s.rspReady := rfl
@[simp] theorem nextAddress_rspWord : (nextAddress s).rspWord = s.rspWord := rfl
@[simp] theorem nextAddress_foundValid : (nextAddress s).foundValid = s.foundValid := rfl
@[simp] theorem nextAddress_foundAddr : (nextAddress s).foundAddr = s.foundAddr := rfl
@[simp] theorem nextAddress_rst : (nextAddress s).rst = s.rst := rfl
@[simp] theorem nextAddress_buf : (nextAddress s).buf = s.buf := rfl
@[simp] theorem nextAddress_maxLen : (nextAddress s).maxLen = s.maxLen := rfl
@[simp] theorem nextAddress_hostMoves : (nextAddress s).hostMoves = s.hostMoves := rfl
@[simp] theorem nextAddress_sclAnswers : (nextAddress s).sclAnswers = s.sclAnswers := rfl
@[simp] theorem nextAddress_sdaAnswers : (nextAddress s).sdaAnswers = s.sdaAnswers := rfl
@[simp] theorem nextAddress_sclDraws : (nextAddress s).sclDraws = s.sclDraws := rfl
@[simp] theorem nextAddress_sdaDraws : (nextAddress s).sdaDraws = s.sdaDraws := rfl
@[simp] theorem nextAddress_ret : (nextAddress s).ret = s.ret := rfl
@[simp] theorem nextAddress_fetch : (nextAddress s).fetch = s.fetch := rfl
@[simp] theorem nextAddress_trace : (nextAddress s).trace = s.trace := rfl
@[simp] theorem nextAddress_found : (nextAddress s).found = s.found := rfl

end Sys2Proof.Machine
end

