-- ==== Sys2Proof/Laws/Memory.lean ====
section
/-! SUPPORT. The laws of the buffer: read after write, and that a write keeps the canonical form. -/

namespace Sys2Proof.Machine

theorem Memory.get_nil (a : Nat) : Memory.get [] a = Config.bufUnwritten := rfl

/-- Below every address it lists, a canonical memory reads as unwritten. -/
theorem Memory.get_below {m : Memory} {a : Nat} (h : ∀ c ∈ m, a < c.1) : m.get a = Config.bufUnwritten := by
  induction m with
  | nil => rfl
  | cons c m ih =>
    have hc : a ≠ c.1 := Nat.ne_of_lt (h c (by simp))
    simp only [Memory.get, if_neg hc]
    exact ih fun d hd => h d (by simp [hd])

theorem Memory.get_keep (c : Host.Cell) (m : Memory) (a : Nat) (h : ∀ d ∈ m, c.1 < d.1) :
    (Memory.keep c m).get a = if a = c.1 then c.2 else m.get a := by
  unfold Memory.keep
  split
  · rename_i hv
    split
    · rename_i ha
      rw [Memory.get_below (fun d hd => ha ▸ h d hd), hv]
    · rfl
  · rfl

/-- Read after write: the byte written, and every other byte as before (20_memory.md R63). -/
theorem Memory.get_put {m : Memory} (h : m.wf) (i : Nat) (v : Byte) (a : Nat) :
    (m.put i v).get a = if a = i then v else m.get a := by
  induction m with
  | nil => exact Memory.get_keep (i, v) [] a (by simp)
  | cons c m ih =>
    obtain ⟨b, w⟩ := c
    obtain ⟨hs, hn⟩ := h
    rw [List.pairwise_cons] at hs
    have hm : Memory.wf m := ⟨hs.2, fun d hd => hn d (by simp [hd])⟩
    unfold Memory.put
    split
    · rename_i hib
      refine Memory.get_keep (i, v) _ a ?_
      intro d hd
      rcases List.mem_cons.mp hd with rfl | hd
      · exact hib
      · exact Nat.lt_trans hib (hs.1 d hd)
    · split
      · rename_i _ hib
        subst hib
        rw [Memory.get_keep (i, v) m a hs.1]
        by_cases ha : a = i <;> simp [Memory.get, ha]
      · rename_i hlt hne
        simp only [Memory.get]
        by_cases hab : a = b
        · have : a ≠ i := fun h => hne (h ▸ hab)
          simp [hab]
          intro h
          exact absurd h.symm hne
        · rw [if_neg hab, if_neg hab]
          exact ih hm

theorem Memory.mem_keep {c d : Host.Cell} {m : Memory} (h : d ∈ Memory.keep c m) : d = c ∨ d ∈ m := by
  unfold Memory.keep at h
  split at h
  · exact .inr h
  · exact List.mem_cons.mp h

theorem Memory.keep_wf {c : Host.Cell} {m : Memory} (h : m.wf) (hc : ∀ d ∈ m, c.1 < d.1) :
    (Memory.keep c m).wf := by
  unfold Memory.keep
  split
  · exact h
  · rename_i hv
    refine ⟨List.pairwise_cons.mpr ⟨hc, h.1⟩, ?_⟩
    intro d hd
    rcases List.mem_cons.mp hd with rfl | hd
    · exact hv
    · exact h.2 d hd

theorem Memory.mem_put {m : Memory} {i : Nat} {v : Byte} {d : Host.Cell} (h : d ∈ m.put i v) :
    d.1 = i ∨ d ∈ m := by
  induction m with
  | nil =>
    rcases Memory.mem_keep h with rfl | h
    · exact .inl rfl
    · simp at h
  | cons c m ih =>
    obtain ⟨b, w⟩ := c
    unfold Memory.put at h
    split at h
    · rcases Memory.mem_keep h with rfl | h
      · exact .inl rfl
      · exact .inr h
    · split at h
      · rcases Memory.mem_keep h with rfl | h
        · exact .inl rfl
        · exact .inr (by simp [h])
      · rcases List.mem_cons.mp h with rfl | h
        · exact .inr (by simp)
        · rcases ih h with h | h
          · exact .inl h
          · exact .inr (by simp [h])

/-- A write keeps the canonical form. -/
theorem Memory.put_wf {m : Memory} (h : m.wf) (i : Nat) (v : Byte) : (m.put i v).wf := by
  induction m with
  | nil => exact Memory.keep_wf ⟨.nil, by simp⟩ (by simp)
  | cons c m ih =>
    obtain ⟨b, w⟩ := c
    have hs := List.pairwise_cons.mp h.1
    have hm : Memory.wf m := ⟨hs.2, fun d hd => h.2 d (by simp [hd])⟩
    unfold Memory.put
    split
    · rename_i hib
      refine Memory.keep_wf h ?_
      intro d hd
      rcases List.mem_cons.mp hd with rfl | hd
      · exact hib
      · exact Nat.lt_trans hib (hs.1 d hd)
    · split
      · rename_i _ hib
        subst hib
        exact Memory.keep_wf hm hs.1
      · rename_i hlt hne
        have hm' := ih hm
        refine ⟨List.pairwise_cons.mpr ⟨?_, hm'.1⟩, ?_⟩
        · intro d hd
          rcases Memory.mem_put hd with hd | hd
          · show b < d.1
            rw [hd]
            omega
          · exact hs.1 d hd
        · intro d hd
          rcases List.mem_cons.mp hd with rfl | hd
          · exact h.2 _ (by simp)
          · exact hm'.2 d hd

theorem memWrite_wf {s : State} (h : s.buf.wf) (i : Nat) (v : Byte) : (memWrite i v s).buf.wf :=
  Memory.put_wf h i v

theorem reset_wf : State.reset.buf.wf := ⟨.nil, by simp [State.reset]⟩

end Sys2Proof.Machine
end

