-- ==== Sys2Proof/Laws/Ops.lean ====
section
/-! SUPPORT. What each shared operation can do, said once: the cases it ends in and what it may change. -/

namespace Sys2Proof.Machine

/-! ### The change relations -/

theorem changesOnlyBus.refl (s : State) : changesOnlyBus s s := rfl

theorem changesOnlyBus.trans {s t u : State} (h : changesOnlyBus s t) (k : changesOnlyBus t u) :
    changesOnlyBus s u := by
  unfold changesOnlyBus at *
  exact k.trans (by rw [h])

theorem changesOnlyBus.toByte {s t : State} (h : changesOnlyBus s t) : changesOnlyByte s t := by
  unfold changesOnlyBus changesOnlyByte at *
  rw [h]

theorem changesOnlyByte.refl (s : State) : changesOnlyByte s s := rfl

theorem changesOnlyByte.trans {s t u : State} (h : changesOnlyByte s t) (k : changesOnlyByte t u) :
    changesOnlyByte s u := by
  unfold changesOnlyByte at *
  exact k.trans (by rw [h])

theorem changesOnlyByte.toPhase {s t : State} (h : changesOnlyByte s t) : changesOnlyPhase s t := by
  unfold changesOnlyByte changesOnlyPhase at *
  rw [h]

theorem changesOnlyPhase.refl (s : State) : changesOnlyPhase s s := rfl

theorem changesOnlyPhase.trans {s t u : State} (h : changesOnlyPhase s t) (k : changesOnlyPhase t u) :
    changesOnlyPhase s u := by
  unfold changesOnlyPhase at *
  exact k.trans (by rw [h])

/-- The fields a byte operation leaves, one by one. -/
theorem changesOnlyByte.fields {s t : State} (h : changesOnlyByte s t) :
    t.fsm = s.fsm ∧ t.ph2 = s.ph2 ∧ t.byteCnt = s.byteCnt ∧ t.scanAddr = s.scanAddr ∧ t.err = s.err ∧
      t.busy = s.busy ∧ t.am = s.am ∧ t.addr = s.addr ∧ t.riw = s.riw ∧ t.tmo = s.tmo ∧ t.regidx = s.regidx ∧
      t.len = s.len ∧ t.skip = s.skip ∧ t.buf = s.buf ∧ t.maxLen = s.maxLen ∧ t.found = s.found ∧
      t.place = s.place ∧ t.rspReady = s.rspReady := by
  unfold changesOnlyByte at h
  rw [h]
  simp

/-- The byte registers and the flag, which a bus operation leaves too. -/
theorem changesOnlyBus.fields {s t : State} (h : changesOnlyBus s t) :
    t.shreg = s.shreg ∧ t.bitCnt = s.bitCnt ∧ t.ackf = s.ackf ∧ t.buf = s.buf ∧ t.tmo = s.tmo ∧ t.err = s.err ∧
      t.fsm = s.fsm := by
  unfold changesOnlyBus at h
  rw [h]
  simp

theorem setScl_changes (b : Bit) (s : State) : changesOnlyBus s (setScl b s) := rfl
theorem setSda_changes (b : Bit) (s : State) : changesOnlyBus s (setSda b s) := rfl
theorem delay_changes (s : State) : changesOnlyBus s (delay s) := rfl
theorem readScl_changes (s : State) : changesOnlyBus s (readScl s) := rfl
theorem readSda_changes (s : State) : changesOnlyBus s (readSda s) := rfl
theorem release_changes (s : State) : changesOnlyBus s (release s) := rfl
theorem countPoll_changes (s : State) : changesOnlyBus s (countPoll s) := rfl
theorem loadShift_changes (v : Byte) (s : State) : changesOnlyByte s (loadShift v s) := rfl
theorem shiftBit_changes (x : Bit) (s : State) : changesOnlyByte s (shiftBit x s) := rfl
theorem memRead_changes (i : Nat) (s : State) : changesOnlyBus s (memRead i s) := rfl

/-! ### Reads -/

/-- The read of a line the block itself pulls low is 0 (00_scope.md R12). -/
theorem sclSample_low {s : State} (h : s.sclOut = false) : sclSample s = false := by simp [sclSample, h]

theorem sdaSample_low {s : State} (h : s.sdaOut = false) : sdaSample s = false := by simp [sdaSample, h]

theorem sclSample_released {s : State} {a : Bit} {r : List Bit} (h : s.sclOut = true) (ha : s.sclAnswers = a :: r) :
    sclSample s = a := by
  simp [sclSample, sclAnswer, h, ha]

theorem sdaSample_released {s : State} {a : Bit} {r : List Bit} (h : s.sdaOut = true) (ha : s.sdaAnswers = a :: r) :
    sdaSample s = a := by
  simp [sdaSample, sdaAnswer, h, ha]

theorem readScl_released {s : State} {a : Bit} {r : List Bit} (h : s.sclOut = true) (ha : s.sclAnswers = a :: r) :
    readScl s = { s with sclAnswers := r, trace := .readScl a :: s.trace } := by
  simp [readScl, sclSample_released h ha, h, ha]

theorem readSda_released {s : State} {a : Bit} {r : List Bit} (h : s.sdaOut = true) (ha : s.sdaAnswers = a :: r) :
    readSda s = { s with sdaAnswers := r, trace := .readSda a :: s.trace } := by
  simp [readSda, sdaSample_released h ha, h, ha]

/-! ### The guard -/

/-- What the poll loop leaves: everything but the counter, the answers and the trace; and the counter at 0 where it
expired. -/
theorem pollLoop_outcome (n : Nat) (s : State) (hn : s.stretchCnt.toNat = n) :
    changesOnlyBus s (pollLoop n s).2 ∧ (pollLoop n s).2.sclOut = s.sclOut ∧
      (pollLoop n s).2.sdaOut = s.sdaOut ∧ ((pollLoop n s).1 = true → (pollLoop n s).2.stretchCnt = 0) := by
  induction n generalizing s with
  | zero =>
    refine ⟨readScl_changes s, rfl, rfl, fun _ => ?_⟩
    exact BitVec.eq_of_toNat_eq (by simpa [pollLoop] using hn)
  | succ n ih =>
    unfold pollLoop
    split
    · exact ⟨readScl_changes s, rfl, rfl, by simp⟩
    · have hc : (countPoll (readScl s)).stretchCnt.toNat = n := by
        simp only [countPoll_stretchCnt, readScl_stretchCnt, BitVec.toNat_sub]
        have h1 : (1 : BitVec 32).toNat = 1 := rfl
        have := s.stretchCnt.isLt
        omega
      obtain ⟨hf, hs, hd, hz⟩ := ih _ hc
      exact ⟨((readScl_changes s).trans (countPoll_changes _)).trans hf, by simpa using hs, by simpa using hd, hz⟩

/-- A guarded release leaves the clock latch released, whichever way it ends. -/
theorem guardedRelease_outcome (s : State) :
    changesOnlyBus s (guardedRelease s).2 ∧ (guardedRelease s).2.sclOut = true ∧
      (guardedRelease s).2.sdaOut = s.sdaOut ∧
      ((guardedRelease s).1 = true → (guardedRelease s).2.stretchCnt = 0) := by
  obtain ⟨hf, hs, hd, hz⟩ := pollLoop_outcome s.tmo.toNat (release s) rfl
  exact ⟨(release_changes s).trans hf, hs, hd, hz⟩

/-- The two ends of GUARD_RELEASE_SCL (41_clock_stretch_guard.md R141). -/
theorem guardReleaseScl_cases (s : State) :
    (∃ t, guardReleaseScl s = .ok () t ∧ changesOnlyBus s t ∧ t.sclOut = true ∧ t.sdaOut = s.sdaOut) ∨
      (∃ t, guardReleaseScl s = .raised .timeout t ∧ changesOnlyBus s t ∧ t.sclOut = true ∧ t.sdaOut = s.sdaOut ∧
        t.stretchCnt = 0) := by
  obtain ⟨hf, hs, hd, hz⟩ := guardedRelease_outcome s
  unfold guardReleaseScl
  split
  · rename_i h
    exact .inr ⟨_, rfl, hf, hs, hd, hz h⟩
  · exact .inl ⟨_, rfl, hf, hs, hd⟩

/-- The poll loop on n low answers and a high one, within the budget. -/
theorem pollLoop_high (k n : Nat) (s : State) (r : List Bit) (hc : s.sclOut = true)
    (ha : s.sclAnswers = List.replicate n false ++ true :: r) (hn : n ≤ k) :
    pollLoop k s = (false, { s with
      stretchCnt := s.stretchCnt - BitVec.ofNat 32 n, sclAnswers := r
      trace := .readScl true :: (List.replicate n (.readScl false) ++ s.trace) }) := by
  induction n generalizing k s with
  | zero =>
    have ha' : s.sclAnswers = true :: r := ha
    cases k <;> simp [pollLoop, sclSample_released hc ha', readScl_released hc ha']
  | succ n ih =>
    have ha' : s.sclAnswers = false :: (List.replicate n false ++ true :: r) := by
      rw [ha, List.replicate_succ, List.cons_append]
    obtain ⟨k, rfl⟩ : ∃ m, k = m + 1 := ⟨k - 1, by omega⟩
    unfold pollLoop
    rw [sclSample_released hc ha', readScl_released hc ha', if_neg Bool.false_ne_true]
    have key := ih k (countPoll { s with
      sclAnswers := List.replicate n false ++ true :: r, trace := .readScl false :: s.trace }) hc rfl (by omega)
    rw [key]
    have e1 : s.stretchCnt - 1 - BitVec.ofNat 32 n = s.stretchCnt - BitVec.ofNat 32 (n + 1) := by
      rw [BitVec.sub_sub, BitVec.ofNat_add, BitVec.add_comm]
      rfl
    have e2 : List.replicate n (Event.readScl false) ++ Event.readScl false :: s.trace =
        List.replicate (n + 1) (Event.readScl false) ++ s.trace := by
      rw [List.replicate_succ', List.append_assoc]
      rfl
    simp only [countPoll, e1, e2]

/-- The poll loop on low answers for the whole budget: it expires with the counter at 0. -/
theorem pollLoop_low (k : Nat) (s : State) (r : List Bit) (hc : s.sclOut = true) (hk : s.stretchCnt.toNat = k)
    (ha : s.sclAnswers = List.replicate (k + 1) false ++ r) :
    pollLoop k s = (true, { s with
      stretchCnt := 0, sclAnswers := r, trace := List.replicate (k + 1) (.readScl false) ++ s.trace }) := by
  induction k generalizing s with
  | zero =>
    have ha' : s.sclAnswers = false :: r := ha
    have hz : s.stretchCnt = 0 := BitVec.eq_of_toNat_eq hk
    simp [pollLoop, sclSample_released hc ha', readScl_released hc ha', hz]
  | succ k ih =>
    have ha' : s.sclAnswers = false :: (List.replicate (k + 1) false ++ r) := by
      rw [ha, List.replicate_succ, List.cons_append]
    have hc1 : (s.stretchCnt - 1).toNat = k := by
      rw [BitVec.toNat_sub]
      have h1 : (1 : BitVec 32).toNat = 1 := rfl
      have := s.stretchCnt.isLt
      omega
    unfold pollLoop
    rw [sclSample_released hc ha', readScl_released hc ha', if_neg Bool.false_ne_true]
    have key := ih (countPoll { s with
      sclAnswers := List.replicate (k + 1) false ++ r, trace := .readScl false :: s.trace }) hc hc1 rfl
    rw [key]
    have e2 : List.replicate (k + 1) (Event.readScl false) ++ Event.readScl false :: s.trace =
        List.replicate (k + 1 + 1) (Event.readScl false) ++ s.trace := by
      rw [List.replicate_succ' (n := k + 1), List.append_assoc]
      rfl
    simp only [countPoll, e2]

/-- A guarded release whose first poll reads 1. -/
theorem guardReleaseScl_high {s : State} {r : List Bit} (ha : s.sclAnswers = true :: r) :
    guardReleaseScl s = .ok () { s with
      sclOut := true, stretchCnt := s.tmo, sclAnswers := r, trace := .readScl true :: .scl true :: s.trace } := by
  have h := pollLoop_high s.tmo.toNat 0 (release s) r rfl ha (Nat.zero_le _)
  unfold guardReleaseScl guardedRelease
  rw [h]
  simp [release, setScl]

/-! ### Bus operations -/

/-- The two ends of START (40_bus_signalling.md R121, R128). -/
theorem start_cases (s : State) :
    (∃ t, start s = .ok () t ∧ changesOnlyBus s t ∧ t.sclOut = false ∧ t.sdaOut = false) ∨
      (∃ t, start s = .raised .timeout t ∧ changesOnlyBus s t ∧ t.sclOut = true ∧ t.sdaOut = true) := by
  have h0 : changesOnlyBus s (delay (setSda true s)) := rfl
  rcases guardReleaseScl_cases (delay (setSda true s)) with ⟨t, e, hf, hs, hd⟩ | ⟨t, e, hf, hs, hd, -⟩
  · refine .inl ⟨setScl false (delay (setSda false (delay t))), by simp [start, e, Run.andThen], ?_, rfl, rfl⟩
    exact (h0.trans hf).trans rfl
  · exact .inr ⟨t, by simp [start, e, Run.andThen], h0.trans hf, hs, hd⟩

/-- The two ends of WRITE_BIT (R123, R128). -/
theorem writeBit_cases (b : Bit) (s : State) :
    (∃ t, writeBit b s = .ok () t ∧ changesOnlyBus s t ∧ t.sclOut = false ∧ t.sdaOut = b) ∨
      (∃ t, writeBit b s = .raised .timeout t ∧ changesOnlyBus s t ∧ t.sclOut = true ∧ t.sdaOut = b) := by
  have h0 : changesOnlyBus s (delay (setSda b s)) := rfl
  rcases guardReleaseScl_cases (delay (setSda b s)) with ⟨t, e, hf, hs, hd⟩ | ⟨t, e, hf, hs, hd, -⟩
  · refine .inl ⟨setScl false (delay t), by simp [writeBit, e, Run.andThen], ?_, rfl, hd⟩
    exact (h0.trans hf).trans rfl
  · exact .inr ⟨t, by simp [writeBit, e, Run.andThen], h0.trans hf, hs, hd⟩

/-- The two ends of READ_BIT (R124, R128). -/
theorem readBit_cases (s : State) :
    (∃ d t, readBit s = .ok d t ∧ changesOnlyBus s t ∧ t.sclOut = false ∧ t.sdaOut = true) ∨
      (∃ t, readBit s = .raised .timeout t ∧ changesOnlyBus s t ∧ t.sclOut = true ∧ t.sdaOut = true) := by
  have h0 : changesOnlyBus s (delay (setSda true s)) := rfl
  rcases guardReleaseScl_cases (delay (setSda true s)) with ⟨t, e, hf, hs, hd⟩ | ⟨t, e, hf, hs, hd, -⟩
  · refine .inl ⟨_, setScl false (readSda (delay t)), by rw [readBit, e]; rfl, ?_, rfl, hd⟩
    exact (h0.trans hf).trans rfl
  · exact .inr ⟨t, by simp [readBit, e, Run.andThen], h0.trans hf, hs, hd⟩

/-- The two ends of READ_ACK (R126, R128): `ACKF` is what it returns, and is not written on a Timeout. -/
theorem readAck_cases (s : State) :
    (∃ a t, readAck s = .ok a t ∧ changesOnlyByte s t ∧ t.ackf = a ∧ t.shreg = s.shreg ∧ t.bitCnt = s.bitCnt ∧
        t.sclOut = false ∧ t.sdaOut = true) ∨
      (∃ t, readAck s = .raised .timeout t ∧ changesOnlyBus s t ∧ t.sclOut = true ∧ t.sdaOut = true) := by
  rcases readBit_cases s with ⟨d, t, e, hf, hs, hd⟩ | ⟨t, e, hf, hs, hd⟩
  · refine .inl ⟨ackOfSample d, setAckf (ackOfSample d) t, by rw [readAck, e]; rfl, ?_, rfl, hf.fields.1, hf.fields.2.1, hs, hd⟩
    exact hf.toByte.trans rfl
  · exact .inr ⟨t, by simp [readAck, e, Run.andThen], hf, hs, hd⟩

/-- STOP never raises; both latches end 1 (R122). -/
theorem stopBus_outcome (s : State) :
    changesOnlyBus s (stopBus s).2 ∧ (stopBus s).2.sclOut = true ∧ (stopBus s).2.sdaOut = true := by
  obtain ⟨hf, hs, -, -⟩ := guardedRelease_outcome (delay (setSda false (setScl false s)))
  have h0 : changesOnlyBus s (delay (setSda false (setScl false s))) := rfl
  exact ⟨(h0.trans hf).trans rfl, hs, rfl⟩

/-! ### Bytes -/

/-- The ends of the sending loop: all n bits sent, or a Timeout with bits left. -/
theorem sendBits_cases (n : Nat) (s : State) (hn : n < 16) (hb : s.bitCnt = BitVec.ofNat 4 n) :
    (∃ t, sendBits n s = .ok () t ∧ changesOnlyByte s t ∧ t.ackf = s.ackf ∧ t.bitCnt = 0) ∨
      (∃ t, sendBits n s = .raised .timeout t ∧ changesOnlyByte s t ∧ t.ackf = s.ackf ∧ t.bitCnt ≠ 0 ∧
        t.sclOut = true) := by
  induction n generalizing s with
  | zero => exact .inl ⟨s, rfl, rfl, rfl, hb⟩
  | succ n ih =>
    have hne : s.bitCnt ≠ 0 := by
      rw [hb]
      intro h
      have := congrArg BitVec.toNat h
      simp [Nat.mod_eq_of_lt hn] at this
    rcases writeBit_cases (s.shreg.getLsbD 7) s with ⟨t, e, hf, -, -⟩ | ⟨t, e, hf, hs, -⟩
    · have hb' : (shiftBit false t).bitCnt = BitVec.ofNat 4 n := by
        rw [shiftBit_bitCnt, hf.fields.2.1, hb, BitVec.ofNat_add]
        exact BitVec.add_sub_cancel _ _
      have hc : changesOnlyByte s (shiftBit false t) := hf.toByte.trans (shiftBit_changes _ _)
      have ha : (shiftBit false t).ackf = s.ackf := hf.fields.2.2.1
      rcases ih _ (by omega) hb' with ⟨u, eu, hu, hau, h⟩ | ⟨u, eu, hu, hau, h⟩
      · exact .inl ⟨u, by rw [sendBits, e]; exact eu, hc.trans hu, hau.trans ha, h⟩
      · exact .inr ⟨u, by rw [sendBits, e]; exact eu, hc.trans hu, hau.trans ha, h⟩
    · exact .inr ⟨t, by rw [sendBits, e]; rfl, hf.toByte, hf.fields.2.2.1, by rw [hf.fields.2.1]; exact hne, hs⟩

/-- The ends of the receiving loop. -/
theorem receiveBits_cases (n : Nat) (s : State) (hn : n < 16) (hb : s.bitCnt = BitVec.ofNat 4 n) :
    (∃ t, receiveBits n s = .ok () t ∧ changesOnlyByte s t ∧ t.ackf = s.ackf ∧ t.bitCnt = 0) ∨
      (∃ t, receiveBits n s = .raised .timeout t ∧ changesOnlyByte s t ∧ t.ackf = s.ackf ∧ t.bitCnt ≠ 0 ∧
        t.sclOut = true) := by
  induction n generalizing s with
  | zero => exact .inl ⟨s, rfl, rfl, rfl, hb⟩
  | succ n ih =>
    have hne : s.bitCnt ≠ 0 := by
      rw [hb]
      intro h
      have := congrArg BitVec.toNat h
      simp [Nat.mod_eq_of_lt hn] at this
    rcases readBit_cases s with ⟨d, t, e, hf, -, -⟩ | ⟨t, e, hf, hs, -⟩
    · have hb' : (shiftBit d t).bitCnt = BitVec.ofNat 4 n := by
        rw [shiftBit_bitCnt, hf.fields.2.1, hb, BitVec.ofNat_add]
        exact BitVec.add_sub_cancel _ _
      have hc : changesOnlyByte s (shiftBit d t) := hf.toByte.trans (shiftBit_changes _ _)
      have ha : (shiftBit d t).ackf = s.ackf := hf.fields.2.2.1
      rcases ih _ (by omega) hb' with ⟨u, eu, hu, hau, h⟩ | ⟨u, eu, hu, hau, h⟩
      · exact .inl ⟨u, by rw [receiveBits, e]; exact eu, hc.trans hu, hau.trans ha, h⟩
      · exact .inr ⟨u, by rw [receiveBits, e]; exact eu, hc.trans hu, hau.trans ha, h⟩
    · exact .inr ⟨t, by rw [receiveBits, e]; rfl, hf.toByte, hf.fields.2.2.1, by rw [hf.fields.2.1]; exact hne, hs⟩

/-- The two ends of WRITE_BYTE (42_byte_and_framing.md R150): it fails only by Timeout, and then leaves `ACKF`. -/
theorem writeByte_cases (v : Byte) (s : State) :
    (∃ a t, writeByte v s = .ok a t ∧ changesOnlyByte s t ∧ t.ackf = a ∧ t.bitCnt = 0 ∧ t.sclOut = false ∧
        t.sdaOut = true) ∨
      (∃ t, writeByte v s = .raised .timeout t ∧ changesOnlyByte s t ∧ t.ackf = s.ackf ∧ t.sclOut = true) := by
  have h0 := loadShift_changes v s
  rcases sendBits_cases 8 (loadShift v s) (by omega) rfl with ⟨t, e, hf, ha, hb⟩ | ⟨t, e, hf, ha, -, hs⟩
  · rcases readAck_cases t with ⟨a, u, eu, hu, hau, -, hbu, hs, hd⟩ | ⟨u, eu, hu, hs, -⟩
    · exact .inl ⟨a, u, by simp [writeByte, e, Run.andThen, eu], (h0.trans hf).trans hu, hau, hbu.trans hb, hs, hd⟩
    · refine .inr ⟨u, by simp [writeByte, e, Run.andThen, eu], (h0.trans hf).trans hu.toByte, ?_, hs⟩
      rw [hu.fields.2.2.1, ha, loadShift_ackf]
  · exact .inr ⟨t, by simp [writeByte, e, Run.andThen], h0.trans hf, ha, hs⟩

/-- The ends of a checked frame: acknowledged, not acknowledged, or a Timeout (R153, R156). -/
theorem sendFrame_cases (f : Failure) (v : Byte) (s : State) :
    (∃ t, sendFrame f v s = .ok () t ∧ changesOnlyByte s t ∧ t.ackf = true ∧ t.sclOut = false ∧ t.sdaOut = true) ∨
      (∃ t, sendFrame f v s = .raised f t ∧ changesOnlyByte s t ∧ t.ackf = false ∧ t.sclOut = false ∧
        t.sdaOut = true) ∨
      (∃ t, sendFrame f v s = .raised .timeout t ∧ changesOnlyByte s t ∧ t.ackf = s.ackf ∧ t.sclOut = true) := by
  rcases writeByte_cases v s with ⟨a, t, e, hf, ha, -, hs, hd⟩ | ⟨t, e, hf, ha, hs⟩
  · cases a with
    | true => exact .inl ⟨t, by simp [sendFrame, e, Run.andThen], hf, ha, hs, hd⟩
    | false => exact .inr (.inl ⟨t, by simp [sendFrame, e, Run.andThen], hf, ha, hs, hd⟩)
  · exact .inr (.inr ⟨t, by simp [sendFrame, e, Run.andThen], hf, ha, hs⟩)

/-! ### Ending a transaction -/

/-- The abort: the failure latched, `Aborted`, both latches 1 (60_exceptions.md R220, R223). -/
theorem abort_outcome (f : Failure) (s : State) :
    changesOnlyBus (enterAbort f s) (abort f s) ∧ (abort f s).sclOut = true ∧ (abort f s).sdaOut = true :=
  stopBus_outcome (enterAbort f s)

theorem closeWith_latches (e : Bool) (s : State) :
    (closeWith e s).sclOut = s.sclOut ∧ (closeWith e s).sdaOut = s.sdaOut := by
  unfold closeWith
  split <;> exact ⟨rfl, rfl⟩

/-- However an attempt ended, its transaction ends with both latches 1 (43_transactions.md R186). -/
theorem endTransaction_latches (r : Run Unit) :
    (endTransaction r).sclOut = true ∧ (endTransaction r).sdaOut = true := by
  cases r with
  | ok a s =>
    obtain ⟨-, hs, hd⟩ := stopBus_outcome s
    obtain ⟨h1, h2⟩ := closeWith_latches (stopBus s).1 (stopBus s).2
    exact ⟨h1.trans hs, h2.trans hd⟩
  | raised f s => exact (abort_outcome f s).2

theorem probe_latches (s : State) : (probe s).2.sclOut = true ∧ (probe s).2.sdaOut = true ∧ (probe s).2.fsm = .idle := by
  obtain ⟨h1, h2⟩ := endTransaction_latches (probeAddressPhase (probeBegin s))
  exact ⟨h1, h2, rfl⟩

/-! ### Response -/

/-- `Respond` with the host ready: the between-commands registers (60_exceptions.md R226). -/
theorem respond_ready {s : State} (h : s.rspReady = true) : respond s = taken (present s) := by simp [respond, h]

/-- `Respond` with the host not ready: the block waits, still `BUSY`. -/
theorem respond_waits {s : State} (h : s.rspReady = false) :
    respond s = { present s with place := [.awaitTaken] } := by
  simp [respond, h]

end Sys2Proof.Machine
end

