-- ==== Sys2Proof/Laws/PerInstr.lean ====
section
/-! SUPPORT. One lemma per constructor for the statements about all instructions: the encoding space each instruction is
encoded in. -/

namespace Sys2Proof.Laws.CodeSpace

open Sys2Proof Sys2Proof.Machine

/-- A host command is encoded as a packet with a legal `OP` and the reserved bit 0 (30_encoding.md R82, R86), any other
instruction as an internal operation with a number below 12 (R102) or as a wire byte. -/
def Statement (i : Instr) : Prop :=
  match encode i with
  | .packet p =>
    i.isCommand = true ∧ packetReserved p = false ∧ 1 ≤ (packetOp p).toNat ∧ (packetOp p).toNat ≤ 4
  | .internal n _ => i.isCommand = false ∧ n.toNat < 12
  | .wire _ _ => i.isCommand = false

/-- The reserved bit of an encoded packet is 0. -/
theorem packetOf_reserved (op : BitVec 4) (f : Packet) : packetReserved (packetOf op f) = false := by
  unfold packetReserved packetOf
  change BitVec.getLsbD (w := 32 + 32 + 32 + 12 + 1 + 1 + 10 + 3 + 1 + 4) _ 19 = false
  simp only [BitVec.getLsbD_append]
  simp

/-- The operation code of an encoded packet. -/
theorem packetOf_op (op : BitVec 4) (f : Packet) : packetOp (packetOf op f) = op := by
  unfold packetOp packetOf
  change BitVec.extractLsb' (n := 32 + 32 + 32 + 12 + 1 + 1 + 10 + 3 + 1 + 4) 0 4 _ = op
  apply BitVec.eq_of_getLsbD_eq
  intro j hj
  simp only [BitVec.getLsbD_extractLsb', BitVec.getLsbD_append]
  simp [hj]

theorem init (p : Packet) : Statement (.init p) := by
  simp [Statement, encode, Instr.isCommand, packetOf_reserved, packetOf_op, opInit]

theorem wrreg (p : Packet) : Statement (.wrreg p) := by
  simp [Statement, encode, Instr.isCommand, packetOf_reserved, packetOf_op, opWrreg]

theorem rdreg (p : Packet) : Statement (.rdreg p) := by
  simp [Statement, encode, Instr.isCommand, packetOf_reserved, packetOf_op, opRdreg]

theorem scan (p : Packet) : Statement (.scan p) := by
  simp [Statement, encode, Instr.isCommand, packetOf_reserved, packetOf_op, opScan]

theorem guardReleaseScl : Statement .guardReleaseScl := by simp [Statement, encode, Instr.isCommand]

theorem start : Statement .start := by simp [Statement, encode, Instr.isCommand]

theorem stop : Statement .stop := by simp [Statement, encode, Instr.isCommand]

theorem writeBit (b : Bit) : Statement (.writeBit b) := by simp [Statement, encode, Instr.isCommand]

theorem readBit : Statement .readBit := by simp [Statement, encode, Instr.isCommand]

theorem writeAck (k : Ack) : Statement (.writeAck k) := by simp [Statement, encode, Instr.isCommand]

theorem readAck : Statement .readAck := by simp [Statement, encode, Instr.isCommand]

theorem writeByte (v : Byte) : Statement (.writeByte v) := by simp [Statement, encode, Instr.isCommand]

theorem readByte (k : Ack) (i : BitVec 12) : Statement (.readByte k i) := by
  simp [Statement, encode, Instr.isCommand]

theorem sendAddress (rw : Bit) : Statement (.sendAddress rw) := by simp [Statement, encode, Instr.isCommand]

theorem sendRegidx : Statement .sendRegidx := by simp [Statement, encode, Instr.isCommand]

theorem probe : Statement .probe := by simp [Statement, encode, Instr.isCommand]

theorem addr7 (a : BitVec 7) (r : Bit) : Statement (.addr7 a r) := rfl

theorem addr10Hi (a : BitVec 2) (r : Bit) : Statement (.addr10Hi a r) := rfl

theorem addr10Lo (a : Byte) : Statement (.addr10Lo a) := rfl

theorem addr10Re (a : BitVec 2) : Statement (.addr10Re a) := rfl

theorem regidxByte (v : Byte) : Statement (.regidxByte v) := rfl

theorem dataByte (v : Byte) : Statement (.dataByte v) := rfl

theorem probeAddr (a : BitVec 7) : Statement (.probeAddr a) := rfl

end Sys2Proof.Laws.CodeSpace
end

