-- ==== Sys2Proof/Laws/Step.lean ====
section
/-! SUPPORT. Whose turn a step is, and what the host's turn can do, said once. -/

namespace Sys2Proof.Machine

/-- A host that makes no move leaves every step to the block. -/
@[simp] theorem blockTurn_silent {s : State} (h : s.hostMoves = []) : blockTurn s = some s := by
  simp [blockTurn, h]

/-- The block's turn changes nothing but the moves the host has left. -/
theorem blockTurn_changes {s u : State} (h : blockTurn s = some u) : u = { s with hostMoves := u.hostMoves } := by
  unfold blockTurn at h
  split at h
  · cases h; rfl
  · cases h; rfl
  · split at h
    · cases h; rfl
    · cases h
  all_goals cases h

/-- A reset block, whoever reset it, has the values of 70_reset_and_hazards.md R240. -/
theorem resetBlock_values (s : State) :
    (resetBlock s).sclOut = true ∧ (resetBlock s).sdaOut = true ∧ (resetBlock s).fsm = .idle ∧
      (resetBlock s).busy = false ∧ (resetBlock s).err = .ok ∧ (resetBlock s).ph2 = false ∧
      (resetBlock s).ackf = false ∧ (resetBlock s).rspValid = false ∧ (resetBlock s).foundValid = false ∧
      (resetBlock s).place = [] ∧ (resetBlock s).fetch = none :=
  ⟨rfl, rfl, rfl, rfl, rfl, rfl, rfl, rfl, rfl, rfl, rfl⟩

/-- What a reset keeps: `BUF`, `MAX_LEN`, the host's inputs and its further moves. -/
theorem resetBlock_keeps (s : State) :
    (resetBlock s).buf = s.buf ∧ (resetBlock s).maxLen = s.maxLen ∧ (resetBlock s).cmds = s.cmds ∧
      (resetBlock s).rspReady = s.rspReady ∧ (resetBlock s).rst = s.rst ∧ (resetBlock s).hostMoves = s.hostMoves :=
  ⟨rfl, rfl, rfl, rfl, rfl, rfl⟩

@[simp] theorem setReset_true (s : State) : setReset true s = resetBlock { s with rst := true } := rfl

@[simp] theorem setReset_false (s : State) : setReset false s = { s with rst := false } := rfl

theorem step_block {s u : State} (h : blockTurn s = some u) : step s = stepCore (endPulse u) := by simp [step, h]

theorem step_host {s : State} (h : blockTurn s = none) : step s = hostTurn s := by simp [step, h]

/-- The host's turn is one of its four acts, each on its own side; a write to `BUF` only while `BUSY` = 0. -/
theorem hostTurn_cases {s t : State} (h : blockTurn s = none) (ht : hostTurn s = .next t) :
    (∃ p k, s.hostMoves = .offer p :: k ∧ t = { s with hostMoves := k, cmds := s.cmds ++ [p] }) ∨
    (∃ b k, s.hostMoves = .ready b :: k ∧ t = { s with hostMoves := k, rspReady := b }) ∨
    (∃ b k, s.hostMoves = .reset b :: k ∧ t = setReset b { s with hostMoves := k }) ∨
    (∃ i v k, s.hostMoves = .write i v :: k ∧ s.busy = false ∧ hasByte s i = true ∧
      t = { s with hostMoves := k, buf := s.buf.put i.toNat v }) := by
  unfold blockTurn at h
  unfold hostTurn at ht
  cases hm : s.hostMoves with
  | nil => simp [hm] at h
  | cons m k =>
    rw [hm] at h ht
    cases m with
    | pass => simp at h
    | offer p => exact .inl ⟨p, k, rfl, by simpa using ht.symm⟩
    | ready b => exact .inr (.inl ⟨b, k, rfl, by simpa using ht.symm⟩)
    | reset b => exact .inr (.inr (.inl ⟨b, k, rfl, by simpa using ht.symm⟩))
    | write i v =>
      have hb : s.busy = false := by simpa using h
      cases hi : hasByte s i with
      | false => simp [hi] at ht
      | true => exact .inr (.inr (.inr ⟨i, v, k, rfl, hb, hi, by simpa [hi] using ht.symm⟩))

end Sys2Proof.Machine
end

