-- ==== Sys2Proof/Tests/Slice0.lean ====
section
/-! SUPPORT. The model's own tests: ill-formed terms refused, words written out from the spec decoded, one step of every
instruction with the results of 95_test_vectors.md and the worked examples of the rules, and for every statement with
hypotheses a named witness that meets them. -/

namespace Sys2Proof.Tests.Slice0

open Sys2Proof Sys2Proof.Machine

/-! ### A small state -/

/-- The block after reset with a descriptor latched: a 7-bit device 0x68, one index byte 0x2A, a budget of 2 polls. -/
def device : State :=
  { State.reset with tmo := 2, addr := 0x68, riw := 1, regidx := 0x2A, len := 2, scanAddr := 0x50, buf := [(0, 0x12)] }

/-- The same, with what the bus answers. -/
def bus (cs ds : List Bit) : State := { device with sclAnswers := cs, sdaAnswers := ds }

/-- n polls that read high: no stretching. -/
def high (n : Nat) : List Bit := List.replicate n true

/-- n polls that read low. -/
def low (n : Nat) : List Bit := List.replicate n false

/-- What a run leaves, seen through f. -/
def after {α : Type} (o : Host.Outcome State Fault Refusal) (f : State → α) : Option α :=
  match o with
  | .next t => some (f t)
  | .fault _ => none
  | .refused _ => none

/-- The events of a run in the order of time. -/
def events (i : Instr) (s : State) : Option (List Event) := after (exec i s) fun t => t.trace.reverse

/-- The packet of the vectors V-TXN: device 0x68, one index byte 0, one data byte, a budget of 2 polls. -/
def packet1 : Packet := ⟨.seven, 1, 0x68, false, 1, 100000, 2, 0⟩

/-- The same with two data bytes. -/
def packet2 : Packet := { packet1 with len := 2 }

/-! ### WellFormed: one ill-formed term for each check (95_test_vectors.md, illegal commands) -/

theorem test_clock_too_slow_refused : wellFormed (.init { packet1 with clk := 9999 }) = false := by decide
theorem test_clock_too_fast_refused : wellFormed (.scan { packet1 with clk := 1000001 }) = false := by decide
theorem test_index_width_five_refused : wellFormed (.rdreg { packet1 with riw := 5 }) = false := by decide
theorem test_address_of_eight_bits_refused : wellFormed (.wrreg { packet1 with addr := 0x80 }) = false := by decide
theorem test_length_zero_refused : wellFormed (.wrreg { packet1 with len := 0 }) = false := by decide
theorem test_index_outside_refused : wellFormed (.readByte .ack 4095) = false := by decide
theorem test_legal_neighbours_accepted :
    wellFormed (.init { packet1 with clk := 10000, riw := 4, len := 0 }) = true ∧
      wellFormed (.init { packet1 with clk := 1000000 }) = true ∧
      wellFormed (.wrreg { packet1 with am := .ten, addr := 0x080 }) = true ∧
      wellFormed (.scan { packet1 with addr := 0x3FF, riw := 7, len := 0 }) = true ∧
      wellFormed (.rdreg { packet1 with len := 4095 }) = true := by decide

/-! ### Decoding: words written out from the spec's encodings -/

/-- 30_encoding.md R82, R83: `LEN` 1, reserved 0, `SKIP` 0, `ADDR` 0x68, `RIW` 1, `AM` 0, `OP` 2. -/
theorem test_decode_wrreg :
    decode (.packet (0#32 ++ 1000#32 ++ 100000#32 ++ 0b000000000001_0_0_0001101000_001_0_0010#32)) =
      .ok (.wrreg ⟨.seven, 1, 0x68, false, 1, 100000, 1000, 0⟩) := by decide
/-- R82, R83: `LEN` 0xFFF, `ADDR` 0x50, `OP` 3 (95_test_vectors.md, the last row of the encodings). -/
theorem test_decode_rdreg :
    decode (.packet (packetWords 0xFFF05003 0x00002710 0 0)) = .ok (.rdreg ⟨.seven, 0, 0x50, false, 4095, 10000, 0, 0⟩) := by
  decide
/-- R82: `SKIP` 1, `OP` 4. -/
theorem test_decode_scan :
    decode (.packet (0#32 ++ 1000#32 ++ 100000#32 ++ 0b000000000000_0_1_0000000000_000_0_0100#32)) =
      .ok (.scan ⟨.seven, 0, 0, true, 0, 100000, 1000, 0⟩) := by decide
/-- R82: `ADDR` 0x2A5, `RIW` 2, `AM` 1, `OP` 1. -/
theorem test_decode_init :
    decode (.packet (0#32 ++ 50#32 ++ 400000#32 ++ 0b000000000000_0_0_1010100101_010_1_0001#32)) =
      .ok (.init ⟨.ten, 2, 0x2A5, false, 0, 400000, 50, 0⟩) := by decide
/-- R86, R88 check 1: `OP` 0 and 5. -/
theorem test_reserved_opcodes_refused :
    decode (.packet 0) = .error .reservedOpcode ∧ decode (.packet (packetWords 5 100000 0 0)) = .error .reservedOpcode := by
  decide
/-- R88 check 2: W0[19] = 1. -/
theorem test_reserved_bit_refused : decode (.packet (packetWords 0x00080004 100000 0 0)) = .error .reservedBit := by decide
/-- R102: there is no internal operation 12. -/
theorem test_reserved_number_refused : decode (.internal 12 0) = .error .reservedNumber := by decide
/-- R102: the numbers of the bus and byte operations. -/
theorem test_decode_internal :
    decode (.internal 0b0000 0) = .ok .guardReleaseScl ∧ decode (.internal 0b0001 0) = .ok .start ∧
      decode (.internal 0b0010 0) = .ok .stop ∧ decode (.internal 0b0011 0) = .ok (.writeBit false) ∧
      decode (.internal 0b0100 0) = .ok .readBit ∧ decode (.internal 0b0101 0) = .ok (.writeAck .ack) ∧
      decode (.internal 0b0110 0) = .ok .readAck ∧ decode (.internal 0b0111 0) = .ok (.writeByte 0) ∧
      decode (.internal 0b1000 0) = .ok (.readByte .ack 0) ∧ decode (.internal 0b1001 0) = .ok (.sendAddress false) ∧
      decode (.internal 0b1010 0) = .ok .sendRegidx ∧ decode (.internal 0b1011 0) = .ok .probe := by decide
/-- R91: 0x68 gives 0xD0 and 0xD1. R92, R93: 0x2A5 gives F4, A5 and F5. R94, R95, R184. -/
theorem test_decode_wire :
    decode (.wire .address7 0b11010000) = .ok (.addr7 0x68 false) ∧
      decode (.wire .address7 0b11010001) = .ok (.addr7 0x68 true) ∧
      decode (.wire .address10First 0b11110100) = .ok (.addr10Hi 0b10 false) ∧
      decode (.wire .address10Second 0b10100101) = .ok (.addr10Lo 0xA5) ∧
      decode (.wire .reAddress10 0b11110101) = .ok (.addr10Re 0b10) ∧
      decode (.wire .registerIndex 0b00101010) = .ok (.regidxByte 0x2A) ∧
      decode (.wire .data 0b00010010) = .ok (.dataByte 0x12) ∧
      decode (.wire .probe 0b10100000) = .ok (.probeAddr 0x50) := by decide
/-- R92, R93, R96: bytes that are not of the pattern of their place. -/
theorem test_frame_patterns_refused :
    decode (.wire .address10First 0b11010000) = .error .framePattern ∧
      decode (.wire .reAddress10 0b11110100) = .error .framePattern ∧
      decode (.wire .probe 0b10100001) = .error .framePattern := by decide
/-- A table word of each width (log 8). -/
theorem test_decode_table_words :
    decodeTableWord 4 0b0001 = some .start ∧ decodeTableWord 8 0b11110100 = some (.addr10Hi 0b10 false) ∧
      decodeTableWord 8 0b11110101 = some (.addr10Re 0b10) ∧ decodeTableWord 8 0b11010001 = some (.addr7 0x68 true) ∧
      decodeTableWord 8 0b11010000 = some (.probeAddr 0x68) ∧
      decodeTableWord 32 4 = some (.scan ⟨.seven, 0, 0, false, 0, 0, 0, 0⟩) ∧ decodeTableWord 4 12 = none := by decide

/-! ### One step of each operation -/

/-- 41_clock_stretch_guard.md R141: `TMO` = 2, polls 0 0 1 return after three polls with `STRETCH_CNT` = 0. -/
theorem test_guard_tolerates_the_budget :
    after (exec .guardReleaseScl (bus [false, false, true] [])) (fun t => (t.stretchCnt, t.ret, t.trace.length)) =
      some (0, .done, 4) := by decide
/-- R141: polls 0 0 0 raise Timeout at the third, `SCL_OUT` 1, `STRETCH_CNT` 0. -/
theorem test_guard_times_out :
    after (exec .guardReleaseScl (bus [false, false, false] [])) (fun t => (t.sclOut, t.stretchCnt, t.ret)) =
      some (true, 0, .raised .timeout) := by decide
/-- 40_bus_signalling.md R121: `D1 . C1 c=1 . D0 . C0`. -/
theorem test_start : events .start (bus [true] []) =
    some [.sda true, .delay, .scl true, .readScl true, .delay, .sda false, .delay, .scl false] := by decide
/-- R122: `C0 D0 . C1 c=1 . D1 .`. -/
theorem test_stop : events .stop { bus [true] [] with sclOut := false } =
    some [.scl false, .sda false, .delay, .scl true, .readScl true, .delay, .sda true, .delay] := by decide
/-- R122: the guard of STOP expires, and both latches still end released. -/
theorem test_stop_expires :
    after (exec .stop (bus (low 3) [])) (fun t => (t.ret, t.sclOut, t.sdaOut, t.err)) =
      some (.bit true, true, true, .ok) := by decide
/-- R123: b = 1, the clock read low twice then high: `D1 . C1 c=0 c=0 c=1 . C0`. -/
theorem test_write_bit : events (.writeBit true) { bus [false, false, true] [] with sclOut := false } =
    some [.sda true, .delay, .scl true, .readScl false, .readScl false, .readScl true, .delay, .scl false] := by decide
/-- R124: `D1 . C1 c=1 . d=0 C0`. -/
theorem test_read_bit : events .readBit { bus [true] [false] with sclOut := false, sdaOut := false } =
    some [.sda true, .delay, .scl true, .readScl true, .delay, .readSda false, .scl false] := by decide
/-- R125: WRITE_ACK(ack) is `D0 . C1 c=1 . C0`. -/
theorem test_write_ack : events (.writeAck .ack) { bus [true] [] with sclOut := false } =
    some [.sda false, .delay, .scl true, .readScl true, .delay, .scl false] := by decide
/-- R126: a line sampled low is an acknowledge. -/
theorem test_read_ack :
    after (exec .readAck (bus [true] [false])) (fun t => (t.ackf, t.ret)) = some (true, .bit true) := by decide
/-- 95_test_vectors.md: WRITE_BYTE(0xD0) acknowledged makes 55 events and returns `ACKF` = 1. -/
theorem test_write_byte :
    after (exec (.writeByte 0xD0) (bus (high 9) [false])) (fun t => (t.ret, t.trace.length)) = some (.bit true, 55) := by
  decide
/-- 95_test_vectors.md: the data line of WRITE_BYTE(0xD0), most significant bit first. -/
theorem test_write_byte_order :
    after (exec (.writeByte 0xD0) (bus (high 9) [false])) (fun t => t.trace.reverse.filterMap fun
      | .sda b => some b
      | _ => none) = some [true, true, false, true, false, false, false, false, true] := by decide
/-- 95_test_vectors.md: READ_BYTE(nack, 3), samples 0 1 1 1 1 1 1 0: `BUF[3]` = 0x7E, 62 events. -/
theorem test_read_byte :
    after (exec (.readByte .nack 3) (bus (high 9) [false, true, true, true, true, true, true, false]))
      (fun t => (t.buf.get 3, t.ret, t.sdaOut, t.trace.length)) = some (0x7E, .byte 0x7E, true, 62 + 1) := by decide
/-- 20_memory.md R60: `BUF` has no byte 4095 (log 14). -/
theorem test_read_byte_outside : exec (.readByte .ack 4095) device = .fault .bufferIndex := by rfl
/-- 42_byte_and_framing.md R153: `AM` = 1, `ADDR` = 0x2A5 sends F4 then A5. -/
theorem test_send_address :
    events (.sendAddress false) { bus (high 18) (low 2) with am := .ten, addr := 0x2A5 } =
      some (writeFrame 0xF4 false ++ writeFrame 0xA5 false) := by decide
/-- 30_encoding.md R94: `RIW` = 2, `REGIDX` = 0xABCD1234 sends 12 34. -/
theorem test_send_regidx :
    events .sendRegidx { bus (high 18) (low 2) with riw := 2, regidx := 0xABCD1234 } =
      some (writeFrame 0x12 false ++ writeFrame 0x34 false) := by decide
/-- 42_byte_and_framing.md R156: an index byte not acknowledged is a ProtocolError. -/
theorem test_send_regidx_refused :
    after (exec .sendRegidx (bus (high 9) [true])) (fun t => (t.ret, t.fsm)) = some (.raised .protocolError, .idle) := by
  decide
/-- 43_transactions.md R184: a device at 0x50, `S A0 A P`. -/
theorem test_probe :
    events .probe (bus (high 11) [false]) = some (startEvents ++ writeFrame 0xA0 false ++ stopEvents) := by decide
/-- R184: no device, `found` = 0. -/
theorem test_probe_absent :
    after (exec .probe (bus (high 11) [true])) (fun t => (t.ret, t.fsm)) = some (.bit false, .idle) := by decide

/-! ### Wire bytes -/

/-- 30_encoding.md R91, R153: byte D1, not acknowledged. -/
theorem test_addr7 : events (.addr7 0x68 true) (bus (high 9) [true]) = some (writeFrame 0xD1 true) ∧
    after (exec (.addr7 0x68 true) (bus (high 9) [true])) (·.ret) = some (.raised .noResponse) := by decide
/-- R92: F4. -/
theorem test_addr10_hi : events (.addr10Hi 0b10 false) (bus (high 9) [false]) = some (writeFrame 0xF4 false) := by decide
/-- R92: A5. -/
theorem test_addr10_lo : events (.addr10Lo 0xA5) (bus (high 9) [false]) = some (writeFrame 0xA5 false) := by decide
/-- R93: F5. -/
theorem test_addr10_re : events (.addr10Re 0b10) (bus (high 9) [false]) = some (writeFrame 0xF5 false) := by decide
/-- R94, R156: not acknowledged. -/
theorem test_regidx_byte : events (.regidxByte 0x2A) (bus (high 9) [true]) = some (writeFrame 0x2A true) ∧
    after (exec (.regidxByte 0x2A) (bus (high 9) [true])) (·.ret) = some (.raised .protocolError) := by decide
/-- R95: a data byte sent. -/
theorem test_data_byte : events (.dataByte 0x12) (bus (high 9) [false]) = some (writeFrame 0x12 false) := by decide
/-- R95, 43_transactions.md R180: the last byte of a read goes to `BUF[1]` and is answered with NACK. -/
theorem test_data_byte_received :
    events (.dataByte 0) { bus (high 9) (bitsOf 0x34) with ph2 := true, byteCnt := 1 } = some (readFrame 1 0x34 .nack) := by
  decide
/-- R184: A0. -/
theorem test_probe_addr : events (.probeAddr 0x50) (bus (high 9) [false]) = some (writeFrame 0xA0 false) := by decide

/-! ### Commands -/

/-- 95_test_vectors.md INIT, row 2: `D1 C1 <settle> C1 c=1 d=0`, InitError. -/
theorem test_init : events (.init packet1) (bus [true] [false]) =
    some [.sda true, .scl true, .settle, .scl true, .readScl true, .readSda false, .respond .initError] := by decide
/-- INIT, row 3: `D1 C1 <settle> C1 c=0 c=0 c=0 d=1`, InitError. -/
theorem test_init_stuck : events (.init packet1) (bus (low 3) [true]) =
    some [.sda true, .scl true, .settle, .scl true, .readScl false, .readScl false, .readScl false, .readSda true,
      .respond .initError] := by decide
/-- V-TXN-1: `S D0 A 00 A 12 A P`, Ok; 181 events, the buffer read and the response. -/
theorem test_wrreg :
    after (exec (.wrreg packet1) (bus (high 29) (low 3))) (fun t => (t.err, t.rspWord, t.trace.length)) =
      some (.ok, 0, 181 + 2) := by decide +kernel
/-- V-TXN-5: the clock line low for ever, Timeout: `D1 . C1 c=0 c=0 c=0 C0 D0 . C1 c=0 c=0 c=0 . D1 .`. V-TXN-4: low in the
third bit cell of the address byte. -/
theorem test_wrreg_stuck :
    events (.wrreg packet1) (bus (low 6) []) =
      some [.sda true, .delay, .scl true, .readScl false, .readScl false, .readScl false, .scl false, .sda false, .delay,
        .scl true, .readScl false, .readScl false, .readScl false, .delay, .sda true, .delay, .respond .timeout] ∧
    events (.wrreg packet1) (bus [true, true, true, false, false, false, true] []) =
      some (startEvents ++ writeCell true ++ writeCell true ++
        ([.sda false, .delay, .scl true, .readScl false, .readScl false, .readScl false] : List Event) ++ stopEvents ++
        ([.respond .timeout] : List Event)) := by decide
/-- V-TXN-2: `BUF` = [0x12, 0x34], Ok, 313 events, two buffer writes and the response. -/
theorem test_rdreg :
    after (exec (.rdreg packet2) (bus (high 48) (low 3 ++ bitsOf 0x12 ++ bitsOf 0x34)))
      (fun t => (t.err, t.buf, t.trace.length)) = some (.ok, [(0, 0x12), (1, 0x34)], 313 + 3) := by decide +kernel
/-- V-TXN-9: the address byte after the repeated start not acknowledged: NoResponse, `BUF` unchanged. V-TXN-17: Timeout in
the acknowledge cell of byte 0, which is stored; 249 events, one buffer write and the response. -/
theorem test_rdreg_fails :
    after (exec (.rdreg packet1) (bus (high 30) [false, false, true])) (fun t => (t.err, t.buf, t.trace.length)) =
      some (.noResponse, [(0, 0x12)], 189 + 1) ∧
    after (exec (.rdreg { packet2 with tmo := 0 }) (bus (high 37 ++ low 2) (low 3 ++ bitsOf 0xA5)))
      (fun t => (t.err, t.buf, t.trace.length)) = some (.timeout, [(0, 0xA5)], 249 + 2) := by decide +kernel
/-- 95_test_vectors.md, illegal commands: code 5 and nothing but the response. -/
theorem test_illegal_scan :
    after (exec (.scan { packet1 with clk := 9999 }) device) (fun t => (t.rspWord, t.trace)) =
      some (5, [.respond .illegalCommand]) := by decide

/-- 44_scanner.md R200: the probe of 0x50 in a scan, acknowledged. -/
theorem test_scan_one_address :
    (scanOne (bus (high 11) [false])).found = [0x50] ∧ (scanOne (bus (high 11) [false])).foundAddr = 0x50 := by decide

/-! ### The step -/

/-- The first step after reset runs the word in the operation slot: operation 1 is START. -/
theorem test_step_runs_start :
    after (step (({ State.reset with sclAnswers := [true] } : State).withFetchWord 4 1))
      (fun t => (t.sclOut, t.sdaOut, t.ret, t.fetch)) = some (false, false, .done, none) := by decide
/-- A packet whose other words are 0 has `CLK` = 0: illegal (30_encoding.md R88 check 3). -/
theorem test_step_runs_init :
    after (step (State.reset.withFetchWord 32 1)) (fun t => (t.err, t.busy, t.fsm)) =
      some (.illegalCommand, false, .idle) := by decide
/-- 10_state.md R42: the accepting step. -/
theorem test_step_accepts :
    after (step { device with cmds := [packetWords 0x00106822 0x000186A0 0x000003E8 0] })
      (fun t => (t.busy, t.op, t.tmo, t.cmds, t.fsm)) = some (true, 2, 1000, [], .idle) := by decide
/-- 70_reset_and_hazards.md R240, R242: reset during a command. -/
theorem test_step_resets :
    after (step { bus [false] [] with rst := true, busy := true, sclOut := false, place := [.delay], fsm := .started })
      (fun t => (t.busy, t.sclOut, t.fsm, t.buf)) = some (false, true, .idle, [(0, 0x12)]) := by rfl

/-! ### The host's turn (log 22) -/

/-- 00_scope.md R8, 10_state.md R42: the host offers a packet between two steps. -/
theorem test_host_offers :
    after (step { device with cmds := [1], hostMoves := [.offer 2, .pass] }) (fun t => (t.cmds, t.hostMoves.length)) =
      some ([1, 2], 1) := by decide
/-- 20_memory.md R61: the host's write to `BUF` is done while `BUSY` = 0, and waits while the block owns `BUF`. -/
theorem test_host_write_waits :
    after (step { device with hostMoves := [.write 1 0x34] }) (·.buf) = some [(0, 0x12), (1, 0x34)] ∧
      after (step { device with hostMoves := [.write 1 0x34], busy := true, place := [.delay] })
        (fun t => (t.buf, t.hostMoves.length, t.trace)) = some ([(0, 0x12)], 1, [.delay]) := by decide
/-- 10_state.md R43: the response waits until the host is ready. -/
theorem test_host_becomes_ready :
    after (Sys2Proof.core.run 3 { device with
        busy := true, rspValid := true, rspReady := false, place := [.awaitTaken], hostMoves := [.pass, .ready true] })
      (fun t => (t.busy, t.rspValid, t.place.isEmpty)) = some (false, false, true) := by decide

/-- 70_reset_and_hazards.md R240: asserting `rst` resets a running block at once, and the release keeps the reset values. -/
theorem test_host_resets :
    after (Sys2Proof.core.run 2 { device with
        busy := true, sclOut := false, place := [.delay], fsm := .started, hostMoves := [.reset true, .reset false] })
      (fun t => (t.busy, t.sclOut, t.fsm, t.rst)) = some (false, true, .idle, false) := by decide

/-! ### Witnesses: for each statement with hypotheses, a concrete input that meets them, at the edges of its ranges -/

theorem witness_InternalNumbers_reserved : 12 ≤ (12#4).toNat ∧ 12 ≤ (15#4).toNat := by decide

theorem witness_MaskedWord :
    (0x00106821#32) &&& 0x0008000F = 1 ∧ (0x00106822#32) &&& 0x0008000F = 2 ∧ (0xFFF05003#32) &&& 0x0008000F = 3 ∧
      (0x00040004#32) &&& 0x0008000F = 4 ∧
      ([0#32, 0x00080004#32, 0x0000000F#32].all fun w =>
        w &&& 0x0008000F ≠ 1 && w &&& 0x0008000F ≠ 2 && w &&& 0x0008000F ≠ 3 && w &&& 0x0008000F ≠ 4) = true := by decide

theorem witness_EncodeOfDecode : decode (.internal 1 0) = .ok .start := by decide

/-- Each check of R88 at both sides of its bound; the rows of 95_test_vectors.md, illegal commands and legal neighbours. -/
theorem witness_Legality :
    (∃ i, decode (.packet (packetWords 0xFFF05003 10000 0 0)) = .ok i ∧ failedCheck 4095 i = none) ∧
      (∃ i, decode (.packet (packetWords 0x00008082 1000000 0 0)) = .ok i ∧ failedCheck 4095 i ≠ none) ∧
      (∃ i, decode (.packet (packetWords 0x000000A1 10000 0 0)) = .ok i ∧ failedCheck 4095 i ≠ none) ∧
      (∃ i, decode (.packet (packetWords 0x0003FFE4 1000000 0 0)) = .ok i ∧ failedCheck 4095 i = none) :=
  ⟨⟨_, rfl, by decide⟩, ⟨_, rfl, by decide⟩, ⟨_, rfl, by decide⟩, ⟨_, rfl, by decide⟩⟩

theorem witness_ResetLeavesTheStatedValues :
    (let s : State := { device with rst := true, hostMoves := [.pass] };
      blockTurn s = some { s with hostMoves := [] } ∧ s.rst = true ∧
        after (step s) (fun t => (t.rst, t.busy)) = some (true, false)) ∧
    (let s : State := { device with busy := true, hostMoves := [.reset true] };
      s.hostMoves = .reset true :: [] ∧ (s.rst = true → s.busy = false) ∧ after (step s) (·.rst) = some true) ∧
    (let s : State := { device with rst := true, hostMoves := [.reset false] };
      s.hostMoves = .reset false :: []) :=
  ⟨⟨rfl, rfl, by decide⟩, ⟨rfl, by decide, by decide⟩, rfl⟩

/-- A step of an internal operation, and one of a packet. -/
theorem witness_StepRunsTheDecodedInstruction :
    (let s : State := { device with fetch := some (.internal 1 0) };
      blockTurn s = some s ∧ s.rst = false ∧ s.place = [] ∧ s.fetch = some (.internal 1 0) ∧
        decode (.internal 1 0) = .ok .start ∧ (Instr.start.isCommand = true → s.busy = false)) ∧
    (let s : State := { device with fetch := some (encode (.wrreg packet1)) };
      blockTurn s = some s ∧ s.rst = false ∧ s.place = [] ∧ s.fetch = some (encode (.wrreg packet1)) ∧
        decode (encode (.wrreg packet1)) = .ok (.wrreg packet1) ∧
        ((Instr.wrreg packet1).isCommand = true → s.busy = false)) :=
  ⟨⟨rfl, rfl, rfl, rfl, rfl, fun _ => rfl⟩, ⟨rfl, rfl, rfl, rfl, by decide, fun _ => rfl⟩⟩

theorem witness_FetchedTableWordRuns : decodeTableWord 4 1 = some .start ∧ decodeTableWord 8 0xF4 ≠ none := by decide

theorem witness_AcceptingStepLatchesThePacket :
    let s : State := { device with cmds := [0] }
    blockTurn s = some s ∧ s.rst = false ∧ s.place = [] ∧ s.fetch = none ∧ s.busy = false ∧ s.cmds = 0 :: [] :=
  ⟨rfl, rfl, rfl, rfl, rfl, rfl⟩

/-- A command that runs with a packet offered, and a block that waits for the host with a write of the host waiting. -/
theorem witness_BusyBlockLetsThePacketWait :
    (let s : State := { device with busy := true, cmds := [0], place := [.delay] ++ closingTasks };
      blockTurn s = some s ∧ s.busy = true ∧ s.place ≠ [] ∧ after (step s) (·.cmds) = some [0]) ∧
    (let s : State := { device with busy := true, cmds := [0], place := [.awaitTaken], hostMoves := [.write 0 1] };
      blockTurn s = some s ∧ s.busy = true ∧ s.place ≠ [] ∧ after (step s) (·.cmds) = some [0]) :=
  ⟨⟨rfl, rfl, List.cons_ne_nil _ _, by decide⟩, ⟨rfl, rfl, List.cons_ne_nil _ _, by decide⟩⟩

theorem witness_ResponseIsHeldUntilTaken (b : Bool) :
    let s : State := { device with busy := true, place := [.awaitTaken], rspReady := b }
    blockTurn s = some s ∧ s.rst = false ∧ s.place = [.awaitTaken] ∧ s.rspReady = b := ⟨rfl, rfl, rfl, rfl⟩

theorem witness_FoundPulseMarksAnEmission :
    let s : State := { device with place := [.emitFound], ret := .bit true }
    blockTurn s = some s ∧ after (step s) (fun t => (t.foundValid, t.trace)) = some (true, .found 0x50 :: s.trace) :=
  ⟨rfl, by decide⟩

/-- The block takes a packet; the host writes the last byte of `BUF`, one beyond it, and one that waits. -/
theorem witness_StepNeverWritesTheInputs :
    (blockTurn { device with cmds := [0] } = some { device with cmds := [0] } ∧
      after (step { device with cmds := [0] }) (fun t => (t.cmds, t.fetch.isNone)) = some ([], true)) ∧
    (let s : State := { device with hostMoves := [.write 4094 1] };
      s.hostMoves = .write 4094 1 :: [] ∧ s.busy = false ∧ (4094#12).toNat < s.maxLen.toNat) ∧
    (let s : State := { device with hostMoves := [.write 4095 1] };
      s.hostMoves = .write 4095 1 :: [] ∧ s.busy = false ∧ s.maxLen.toNat ≤ (4095#12).toNat) ∧
    (let s : State := { device with hostMoves := [.write 0 1], busy := true };
      s.hostMoves = .write 0 1 :: [] ∧ s.busy = true) :=
  ⟨⟨rfl, by decide⟩, by decide, by decide, by decide⟩

/-- A high poll at once, and one after the whole budget; the hypotheses of STOP's first clause too. -/
theorem witness_GuardReturnsAtTheFirstHighPoll :
    (0 ≤ (bus [true] []).tmo.toNat ∧ (bus [true] []).sclAnswers = List.replicate 0 false ++ true :: []) ∧
      (2 ≤ (bus (low 2 ++ [true]) []).tmo.toNat ∧
        (bus (low 2 ++ [true]) []).sclAnswers = List.replicate 2 false ++ true :: []) := by decide

/-- The hypothesis of GuardTimesOutAfterTheBudget, and of STOP with its guard expiring. -/
theorem witness_GuardTimesOutAfterTheBudget :
    (bus (low 3) []).sclAnswers = List.replicate ((bus (low 3) []).tmo.toNat + 1) false ++ [] := by decide

theorem witness_OneHighPoll : (bus [true] [false]).sclAnswers = true :: [] ∧ (bus [true] [false]).sdaAnswers = false :: [] :=
  by decide

theorem witness_StretchedSlotReportsTimeout :
    (bus (low 3) [true]).sclAnswers = List.replicate ((bus (low 3) [true]).tmo.toNat + 1) false ++ [] := by decide

theorem witness_WriteByteSendsItsBits :
    (bus (high 9) [true]).sclAnswers = List.replicate 9 true ++ [] ∧ (bus (high 9) [true]).sdaAnswers = true :: [] := by
  decide

theorem witness_ReadByteStoresTheSampledByte :
    let s := bus (high 9) (bitsOf 0x7E)
    (4094#12).toNat < s.maxLen.toNat ∧ s.sclAnswers = List.replicate 9 true ++ [] ∧ s.sdaAnswers = bitsOf 0x7E ++ [] := by
  decide

theorem witness_ByteOperationsFailOnlyByTimeout : device.buf.wf ∧ (4094#12).toNat < device.maxLen.toNat := by decide

theorem witness_ReadByteOutsideTheBufferStops : device.maxLen.toNat ≤ (4095#12).toNat := by decide

theorem witness_WireBytes_dataByte_sent : device.ph2 = false := rfl

/-- The last byte of a read and the one before it. -/
theorem witness_ReceivedDataByteIsReadByte :
    let s : State := { device with ph2 := true, byteCnt := 1 }
    let u : State := { device with ph2 := true, byteCnt := 0 }
    (s.ph2 = true ∧ s.byteCnt.toNat + 1 = s.len.toNat) ∧ (u.ph2 = true ∧ u.byteCnt.toNat + 1 ≠ u.len.toNat) := by decide

theorem witness_SendAddressPutsItsBytesOnTheWire :
    let s : State := { bus (high 18) (low 2) with am := .ten }
    s.sclAnswers = List.replicate (9 * (addressBytes s.am s.addr false).length) true ++ [] ∧
      s.sdaAnswers = List.replicate (addressBytes s.am s.addr false).length false ++ [] := by decide

/-- One index byte, and four. -/
theorem witness_SendRegidxPutsItsBytesOnTheWire : ∀ w ∈ [1#3, 4#3],
    let s : State := { bus (high (9 * w.toNat)) (low w.toNat) with riw := w }
    1 ≤ s.riw.toNat ∧ s.riw.toNat ≤ 4 ∧ s.sclAnswers = List.replicate (9 * s.riw.toNat) true ++ [] ∧
      s.sdaAnswers = List.replicate s.riw.toNat false ++ [] := by decide

theorem witness_TakingAFailure : device.err = .ok ∧ ({ device with err := .noResponse } : State).err ≠ .ok := by decide

theorem device_ready : readyForCommand device := ⟨⟨rfl, rfl, rfl⟩, ⟨rfl, rfl, rfl⟩, rfl, rfl⟩

theorem witness_EveryCommandEndsBetweenCommands :
    (Instr.wrreg packet1).isCommand = true ∧ readyForCommand device ∧ device.rspReady = true ∧
      readyForCommand { device with rspReady := false } :=
  ⟨rfl, device_ready, rfl, ⟨rfl, rfl, rfl⟩, ⟨rfl, rfl, rfl⟩, rfl, rfl⟩

/-- Check 6; at the port checks 1 (`OP` = 5) and 2 (W0[19] = 1); a packet of neither in the slot. -/
theorem witness_IllegalCommandOnlyResponds :
    ((Instr.wrreg { packet1 with len := 0 }).isCommand = true ∧ device.busy = false ∧
      failedCheck device.maxLen (.wrreg { packet1 with len := 0 }) = some .length) ∧
    (∀ p ∈ [packetWords 5 100000 0 0, packetWords 0x00080004 100000 0 0],
      let s : State := { device with cmds := [p] }
      s.hostMoves = [] ∧ s.rst = false ∧ s.place = [] ∧ s.fetch = none ∧ s.busy = false ∧ s.cmds = p :: [] ∧
        (decode (.packet p)).toOption = none) ∧
    (let s : State := { device with fetch := some (.packet 0) };
      blockTurn s = some s ∧ s.fetch = some (.packet 0) ∧ decode (.packet 0) = .error .reservedOpcode) := by
  refine ⟨by decide, ?_, rfl, rfl, by decide⟩
  intro p hp
  rcases List.mem_cons.1 hp with rfl | hp
  · exact ⟨rfl, rfl, rfl, rfl, rfl, rfl, by decide⟩
  · rcases List.mem_singleton.1 hp with rfl
    exact ⟨rfl, rfl, rfl, rfl, rfl, rfl, by decide⟩

theorem witness_CommandWaitsWhileBusy :
    (Instr.scan packet1).isCommand = true ∧ ({ device with busy := true } : State).busy = true := by decide

/-- The state and packet of every statement about a legal command. -/
theorem witness_legal_commands :
    device.busy = false ∧ device.rspReady = true ∧ device.sclOut = true ∧ device.sdaOut = true ∧ device.trace = [] ∧
      device.buf.wf ∧ ∀ i ∈ [Instr.init packet1, .wrreg packet1, .rdreg packet1, .scan packet1],
        failedCheck device.maxLen i = none := by decide

/-- A clock line high after the whole budget, and one low beyond it. -/
theorem witness_InitChecksTheIdleBus :
    (let s := bus (low 2 ++ [true]) [false];
      s.busy = false ∧ s.rspReady = true ∧ failedCheck s.maxLen (.init packet1) = none ∧ 2 ≤ packet1.tmo.toNat ∧
        s.sclAnswers = List.replicate 2 false ++ true :: [] ∧ s.sdaAnswers = false :: []) ∧
    (let s := bus (low 3) [true];
      s.busy = false ∧ s.rspReady = true ∧ failedCheck s.maxLen (.init packet1) = none ∧
        s.sclAnswers = List.replicate (packet1.tmo.toNat + 1) false ++ [] ∧ s.sdaAnswers = true :: []) := by decide

theorem witness_WrregPutsTheWholeFrameOnTheWire :
    let s := bus (high 29) (low 3)
    let na := (addressBytes packet1.am packet1.addr false).length
    s.busy = false ∧ s.rspReady = true ∧ failedCheck s.maxLen (.wrreg packet1) = none ∧
      s.sclAnswers = List.replicate (9 * (na + packet1.riw.toNat + packet1.len.toNat) + 2) true ++ [] ∧
      s.sdaAnswers = List.replicate (na + packet1.riw.toNat + packet1.len.toNat) false ++ [] := by decide

theorem witness_RdregStoresTheSlavesBytes :
    let s := bus (high 48) (low 3 ++ [0x12, 0x34].flatMap bitsOf)
    let na := (addressBytes packet2.am packet2.addr false).length
    s.busy = false ∧ s.rspReady = true ∧ s.buf.wf ∧ failedCheck s.maxLen (.rdreg packet2) = none ∧
      ([0x12, 0x34] : List Byte).length = packet2.len.toNat ∧
      s.sclAnswers = List.replicate (9 * (na + packet2.riw.toNat + 1 + packet2.len.toNat) + 3) true ++ [] ∧
      s.sdaAnswers =
        List.replicate (na + packet2.riw.toNat + 1) false ++ [0x12, 0x34].flatMap bitsOf ++ [] := by
  decide +kernel

/-- The address byte, the index byte, the data byte and the byte after the repeated start not acknowledged. -/
theorem witness_UnacknowledgedByteEndsTheTransfer :
    (device.busy = false ∧ device.rspReady = true ∧ failedCheck device.maxLen (.wrreg packet1) = none ∧
      failedCheck device.maxLen (.rdreg packet1) = none) ∧
    ((addressBytes .seven 0x68 false)[0]? = some 0xD0 ∧ (bus (high 11) [true]).sclAnswers = high (9 * (0 + 1) + 2) ++ []
      ∧ (bus (high 11) [true]).sdaAnswers = low 0 ++ true :: []) ∧
    ((indexBytes packet1.riw packet1.regidx)[0]? = some 0 ∧
      (bus (high 20) [false, true]).sclAnswers = high (9 * (1 + 0 + 1) + 2) ++ [] ∧
      (bus (high 20) [false, true]).sdaAnswers = low (1 + 0) ++ true :: []) ∧
    (0 < packet1.len.toNat ∧ 0x12 = device.buf.get 0 ∧
      (bus (high 29) [false, false, true]).sclAnswers = high (9 * (1 + packet1.riw.toNat + 0 + 1) + 2) ++ [] ∧
      (bus (high 29) [false, false, true]).sdaAnswers = low (1 + packet1.riw.toNat + 0) ++ true :: []) ∧
    (addressBytes packet1.am packet1.addr true = [0xD1] ∧
      (bus (high 30) [false, false, true]).sclAnswers = high (9 * (1 + packet1.riw.toNat + 1) + 3) ++ [] ∧
      (bus (high 30) [false, false, true]).sdaAnswers = low (1 + packet1.riw.toNat) ++ true :: []) := by
  decide +kernel

/-- The clock stuck from the start, from the forced STOP of an unanswered address, from the final STOP of a write (V-TXN-15),
and of a read. -/
theorem witness_StuckClockAnswersTimeout :
    (device.busy = false ∧ device.rspReady = true ∧ device.buf.wf ∧ failedCheck device.maxLen (.wrreg packet1) = none ∧
      failedCheck device.maxLen (.rdreg packet2) = none ∧ (addressBytes .seven 0x68 false).head? = some 0xD0) ∧
    (bus (low 6) []).sclAnswers = low (2 * (packet1.tmo.toNat + 1)) ++ [] ∧
    (bus (high 10 ++ low 3) [true]).sclAnswers = high 10 ++ low (packet1.tmo.toNat + 1) ++ [] ∧
    (bus (high 28 ++ low 3) (low 3)).sclAnswers =
      high (9 * (1 + packet1.riw.toNat + packet1.len.toNat) + 1) ++ low (packet1.tmo.toNat + 1) ++ [] ∧
    (bus [] (low 3)).sdaAnswers = low (1 + packet1.riw.toNat + packet1.len.toNat) ++ [] ∧
    ([0x12, 0x34] : List Byte).length = packet2.len.toNat ∧
    (bus (high 47 ++ low 3) []).sclAnswers =
      high (9 * (1 + packet2.riw.toNat + 1 + packet2.len.toNat) + 2) ++ low (packet2.tmo.toNat + 1) ++ [] ∧
    (bus [] (low 3 ++ [0x12, 0x34].flatMap bitsOf)).sdaAnswers =
      low (1 + packet2.riw.toNat + 1) ++ [0x12, 0x34].flatMap bitsOf ++ [] := by
  decide +kernel

/-- The clock stretched past the budget in the third cell of an address byte (V-TXN-4), and, of a read, in the repeated
START, in the acknowledge cell of byte 0 and in the last cell before the STOP. -/
theorem witness_StuckClock_in_the_middle :
    (3 < 9 * (1 + packet1.riw.toNat + packet1.len.toNat) + 1 ∧
      (bus (high 3 ++ low 3 ++ [true]) (low 3)).sclAnswers = high 3 ++ low (packet1.tmo.toNat + 1) ++ [true] ++ []) ∧
    (∀ n ∈ [19, 37, 46], n < 9 * (1 + packet2.riw.toNat + 1 + packet2.len.toNat) + 2 ∧
      (bus (high n ++ low 3 ++ low 3) []).sclAnswers =
        high n ++ low (packet2.tmo.toNat + 1) ++ low (packet2.tmo.toNat + 1) ++ []) := by
  decide +kernel

theorem witness_CommandsKeepTheRestOfTheBuffer : device.buf.wf ∧ packet1.len.toNat ≤ 1 := by decide

theorem witness_ProbeReportsTheAcknowledge :
    (bus (high 11) [false]).sclAnswers = List.replicate 11 true ++ [] ∧
      (bus (high 11) [false]).sdaAnswers = false :: [] := by decide

/-- A scan of all addresses, and one that leaves out the reserved ones. -/
theorem witness_ScanFindsExactlyTheAcknowledged : ∀ b,
    let p := { packet1 with skip := b }
    let probed := if p.skip then List.range' 0x08 0x70 else List.range 0x80
    let ds := List.replicate probed.length true
    let s := bus (List.replicate (11 * probed.length) true) ds
    s.busy = false ∧ s.rspReady = true ∧ failedCheck s.maxLen (.scan p) = none ∧ ds.length = probed.length ∧
      s.sclAnswers = List.replicate (11 * probed.length) true ++ [] ∧ s.sdaAnswers = ds ++ [] := by
  decide +kernel

/-- Two blocks between commands that differ in every register the statement leaves open. -/
theorem witness_CommandsKeepNoMemory :
    let u : State := { device with shreg := 0xFF, ackf := true, err := .timeout, ph2 := true, scanAddr := 3, tmo := 9 }
    (Instr.rdreg packet1).isCommand = true ∧ readyForCommand device ∧ readyForCommand u ∧ device.buf = u.buf ∧
      device.maxLen = u.maxLen ∧ device.rspReady = u.rspReady ∧ device.sclAnswers = u.sclAnswers ∧
      device.sdaAnswers = u.sdaAnswers ∧ device.sclDraws = u.sclDraws ∧ device.sdaDraws = u.sdaDraws :=
  ⟨rfl, device_ready, ⟨⟨rfl, rfl, rfl⟩, ⟨rfl, rfl, rfl⟩, rfl, rfl⟩, rfl, rfl, rfl, rfl, rfl, rfl, rfl⟩

theorem witness_PortRunReachesTheMeaning :
    let p := packetWords 0x00106822 0x000186A0 0x000003E8 0
    let s : State := { device with cmds := [p] }
    s.hostMoves = [] ∧ s.rst = false ∧ s.place = [] ∧ s.fetch = none ∧ s.busy = false ∧ s.cmds = p :: [] ∧
      (decode (.packet p)).toOption ≠ none := by decide

/-- Between commands, and in the middle of a command that pulls both lines low. -/
theorem witness_StepKeepsTheBusInvariant :
    let s : State :=
      { device with busy := true, sclOut := false, sdaOut := false, place := [.delay] ++ closingTasks }
    BusInv device ∧ BusInv s ∧ (after (step s) (·.busy) = some true) := by
  refine ⟨⟨trivial, fun _ => ⟨rfl, rfl, rfl, rfl⟩, fun h => absurd rfl h⟩,
    ⟨trivial, fun h => absurd h (by decide), fun _ => ⟨rfl, by decide, by decide⟩⟩, by decide⟩

theorem witness_StepKeepsTheDataInvariant :
    DataInv device ∧ after (step { device with place := [.respond] }) (·.rspValid) = some true :=
  ⟨⟨by decide, by decide, .ok, by decide⟩, by decide⟩

theorem witness_DelaysPerOperation :
    (bus [true] []).sclAnswers = true :: [] ∧ (bus (high 9) []).sclAnswers = List.replicate 9 true ++ [] ∧
      (4094#12).toNat < (bus (high 9) []).maxLen.toNat := by decide

/-- A running command at a step that writes the clock latch. -/
theorem witness_StepMakesAtMostOneEvent :
    let s : State := { device with busy := true, place := [.setScl false, .delay] ++ closingTasks }
    blockTurn s = some s ∧ s.rst = false ∧ s.place ≠ [] ∧
      after (step s) (fun t => (t.sclOut, t.trace)) = some (false, [.scl false]) :=
  ⟨rfl, rfl, List.cons_ne_nil _ _, by decide⟩

/-- Between commands, and a WRREG accepted, whose first step is taken. -/
theorem witness_FsmMovesAlongItsEdges :
    let s : State := { device with busy := true, place := steps device (.wrreg packet1) }
    FsmInv device ∧ FsmInv s ∧ after (step s) (·.fsm) = some .idle :=
  ⟨⟨rfl, by decide⟩, ⟨rfl, by decide⟩, by decide⟩

end Sys2Proof.Tests.Slice0
end

/-! # One step of the block: what it writes and the event it makes (O11, O59) -/

namespace Sys2Proof.Machine

/-! ### What no step of the block writes -/

/-- `MAX_LEN`, the host's inputs and moves, the offered packets and the operation slot stay as they are. -/
def keepsInputs (s t : State) : Prop :=
  t.maxLen = s.maxLen ∧ t.rst = s.rst ∧ t.rspReady = s.rspReady ∧ t.hostMoves = s.hostMoves ∧ t.fetch = s.fetch ∧
    t.cmds = s.cmds

theorem keepsInputs.refl (s : State) : keepsInputs s s := ⟨rfl, rfl, rfl, rfl, rfl, rfl⟩

theorem keepsInputs.trans {s t u : State} (h : keepsInputs s t) (k : keepsInputs t u) : keepsInputs s u := by
  obtain ⟨h1, h2, h3, h4, h5, h6⟩ := h
  obtain ⟨k1, k2, k3, k4, k5, k6⟩ := k
  exact ⟨k1.trans h1, k2.trans h2, k3.trans h3, k4.trans h4, k5.trans h5, k6.trans h6⟩

/-! ### One step of the sequencer -/

/-- `BUF` after an event. -/
def bufAfter : Option Event → Memory → Memory
  | some (.memWrite i v), m => m.put i v
  | _, m => m

/-- One step makes the event e, or none: the latches and `BUF` change as that event says and not otherwise, and the
inputs stay. -/
def makesEvent (e : Option Event) (s t : State) : Prop :=
  t.trace = e.toList ++ s.trace ∧ (t.sclOut, t.sdaOut) = latchesAfter s.sclOut s.sdaOut e.toList ∧
    t.buf = bufAfter e s.buf ∧ keepsInputs s t

/-- Only a write of the clock latch changes it. -/
theorem scl_of_latch_changed {b c d : Bit} {e : Event} (h : b = (latchesAfter c d [e]).1) (hb : b ≠ c) :
    e = .scl b := by
  cases e with
  | scl b' => exact congrArg Event.scl h.symm
  | _ => exact absurd h hb

theorem sda_of_latch_changed {b c d : Bit} {e : Event} (h : b = (latchesAfter c d [e]).2) (hb : b ≠ d) :
    e = .sda b := by
  cases e with
  | sda b' => exact congrArg Event.sda h.symm
  | _ => exact absurd h hb

theorem memWrite_of_buf_changed {m : Memory} {e : Event} (h : bufAfter (some e) m ≠ m) :
    ∃ i v, e = .memWrite i v := by
  cases e with
  | memWrite i v => exact ⟨i, v, rfl⟩
  | _ => exact absurd rfl h

/-- A raise only moves the remaining steps, `ERR`, `FSM` and the result. -/
theorem raiseAt_makesEvent {e : Option Event} {s t : State} (f : Failure) (h : makesEvent e s t) :
    makesEvent e s (raiseAt f t) := by
  unfold raiseAt
  split <;> exact h

theorem closeWith_makesEvent (b : Bool) (s : State) : makesEvent none s (closeWith b s) := by
  unfold closeWith
  split <;> exact ⟨rfl, rfl, rfl, .refl s⟩

theorem pollOnce_makesEvent (g : GuardKind) (s : State) :
    makesEvent (some (.readScl (sclSample s))) s (pollOnce g s) := by
  have hread : makesEvent (some (.readScl (sclSample s))) s (readScl s) := ⟨rfl, rfl, rfl, .refl s⟩
  unfold pollOnce
  split
  · cases g <;> exact hread
  · split
    · cases g
      · exact raiseAt_makesEvent _ hread
      · exact hread
    · exact hread


theorem callOp_makesEvent {i : Instr} {s t : State} (h : callOp i s = .next t) : makesEvent none s t := by
  unfold callOp at h
  split at h
  · cases h
  · cases h
    exact ⟨rfl, rfl, rfl, .refl s⟩

/-- Two continuations that make the same event. -/
theorem makesEvent_ite {c : Prop} [Decidable c] {e : Option Event} {s t u : State} (ht : makesEvent e s t)
    (hu : makesEvent e s u) : makesEvent e s (if c then t else u) := by
  split <;> assumption

/-- One step of the sequencer makes at most one event and writes no input (00_scope.md R9). -/
theorem runTask_makesEvent {t : Task} {s u : State} (h : runTask t s = .next u) : ∃ e, makesEvent e s u := by
  have silent : makesEvent none s s := ⟨rfl, rfl, rfl, .refl s⟩
  cases t with
  | op i => exact ⟨_, callOp_makesEvent h⟩
  | onRaise k => cases k <;> cases h <;> exact ⟨none, silent⟩
  | poll g => cases h; exact ⟨_, pollOnce_makesEvent g s⟩
  | close => cases h; exact ⟨_, closeWith_makesEvent _ s⟩
  | check f => cases h; exact ⟨none, makesEvent_ite silent (raiseAt_makesEvent f silent)⟩
  | writeBits | readBits | indexLoop | indexPhase | writeLoop | readLoop | awaitTaken =>
    cases h; exact ⟨none, makesEvent_ite silent silent⟩
  | scanLoop => cases h; exact ⟨none, makesEvent_ite (makesEvent_ite silent silent) silent⟩
  | emitFound =>
    cases h
    split
    · exact ⟨some (.found _), rfl, rfl, rfl, .refl s⟩
    · exact ⟨none, silent⟩
  | setScl b | setSda b | delay | settle | release | sample | store i | load | initDecide | respond =>
    cases h; exact ⟨some _, rfl, rfl, rfl, .refl s⟩
  | ackFlag | loadShift v | shiftOut | shiftIn | returnByte | setFsm f | secondPhase | clearCount | incCount
  | probeBegin | probeFailed | scanBegin | scanNext => cases h; exact ⟨none, silent⟩

/-! ### The step of the block by its case -/

/-- The block's turn only takes a move of the host away. -/
theorem blockTurn_takes_moves {s u : State} (h : blockTurn s = some u) : ∃ k, u = { s with hostMoves := k } :=
  ⟨_, blockTurn_changes h⟩

section
variable {s u : State} (hturn : blockTurn s = some u)
include hturn

theorem step_reset (hr : u.rst = true) : step s = .next (resetBlock u) := by
  simp [step_block hturn, stepCore, endPulse, hr, resetBlock]

/-- While steps remain and no reset is asserted, the step is the first of them. -/
theorem step_task {t : Task} {k : List Task} (hr : u.rst = false) (hp : u.place = t :: k) :
    step s = runTask t { u with place := k, foundValid := false } := by
  simp [step_block hturn, stepCore, endPulse, hr, hp]

theorem step_slot {c : Code} (hr : u.rst = false) (hp : u.place = []) (hf : u.fetch = some c) :
    step s = runSlot c { u with foundValid := false } := by
  simp [step_block hturn, stepCore, endPulse, hr, hp, hf]

theorem step_port (hr : u.rst = false) (hp : u.place = []) (hf : u.fetch = none) :
    step s = .next (commandPort { u with foundValid := false }) := by
  simp [step_block hturn, stepCore, endPulse, hr, hp, hf]

end

/-- The slot runs what its word decodes to; a packet waits while `BUSY` = 1 (log 6, log 17). -/
theorem runSlot_decoded {c : Code} {i : Instr} {s : State} (hdec : decode c = .ok i)
    (hbusy : i.isCommand = true → s.busy = false) : runSlot c s = exec i { s with fetch := none } := by
  have hwait : (i.isCommand && s.busy) = false := by
    cases hi : i.isCommand
    · rfl
    · exact hbusy hi
  simp [runSlot, hdec, hwait]

/-- Settles O11: the block's turn leads to the operation slot, and the slot to exec. -/
theorem stepRunsTheDecodedInstruction : Obligations.StepRunsTheDecodedInstruction := by
  intro s u c i hturn hr hp hf hdec hbusy
  calc step s = runSlot c { u with foundValid := false } := step_slot hturn hr hp hf
    _ = exec i { u with fetch := none, foundValid := false } := runSlot_decoded hdec hbusy

/-- Settles O59: the step is one task of the sequencer, and a task makes at most one event. -/
theorem stepMakesAtMostOneEvent : Obligations.StepMakesAtMostOneEvent := by
  intro s u t hturn hr hp hstep
  obtain ⟨m, rfl⟩ := blockTurn_takes_moves hturn
  obtain ⟨a, k, hplace⟩ := List.exists_cons_of_ne_nil hp
  rw [step_task hturn hr hplace] at hstep
  obtain ⟨e, htrace, hpins, hbuf, -⟩ := runTask_makesEvent hstep
  obtain ⟨hc, hd⟩ := Prod.mk.inj hpins
  cases e with
  | none => exact ⟨.inl htrace, fun h => absurd hc h, fun h => absurd hd h, fun h => absurd hbuf h⟩
  | some e =>
    refine ⟨.inr ⟨e, htrace⟩, fun h => ?_, fun h => ?_, fun h => ?_⟩
    · exact scl_of_latch_changed hc h ▸ htrace
    · exact sda_of_latch_changed hd h ▸ htrace
    · obtain ⟨i, v, rfl⟩ := memWrite_of_buf_changed (hbuf ▸ h)
      exact ⟨i, v, htrace, hbuf⟩

end Sys2Proof.Machine


/-! # What the operations and the step leave unchanged (O17) -/

namespace Sys2Proof.Machine

/-! ### What an operation leaves unchanged -/

/-- What a command may change between acceptance and response: the registers of its phases, `BUF`, and the scanner's
address and found events. The latched command, the inputs, `BUSY` and the remaining steps stay. -/
def changesOnlyBody (s t : State) : Prop :=
  t = { s with
    sclOut := t.sclOut, sdaOut := t.sdaOut, stretchCnt := t.stretchCnt
    sclAnswers := t.sclAnswers, sdaAnswers := t.sdaAnswers, sclDraws := t.sclDraws, sdaDraws := t.sdaDraws
    trace := t.trace, ret := t.ret
    shreg := t.shreg, bitCnt := t.bitCnt, ackf := t.ackf
    fsm := t.fsm, ph2 := t.ph2, byteCnt := t.byteCnt, err := t.err
    buf := t.buf, scanAddr := t.scanAddr, foundAddr := t.foundAddr, found := t.found }

theorem changesOnlyBody.refl (s : State) : changesOnlyBody s s := rfl

theorem changesOnlyBody.trans {s t u : State} (h : changesOnlyBody s t) (k : changesOnlyBody t u) :
    changesOnlyBody s u := by
  unfold changesOnlyBody at *
  exact k.trans (by rw [h])

theorem changesOnlyPhase.toBody {s t : State} (h : changesOnlyPhase s t) : changesOnlyBody s t := by
  unfold changesOnlyPhase changesOnlyBody at *
  rw [h]

theorem changesOnlyBus.toPhase {s t : State} (h : changesOnlyBus s t) : changesOnlyPhase s t := h.toByte.toPhase

theorem changesOnlyBody.keepsInputs {s t : State} (h : changesOnlyBody s t) : keepsInputs s t := by
  unfold changesOnlyBody at h
  rw [h]
  exact .refl s

/-- The phases leave the scanner's address and the latched command. -/
theorem changesOnlyPhase.fields {s t : State} (h : changesOnlyPhase s t) :
    t.scanAddr = s.scanAddr ∧ t.skip = s.skip ∧ t.len = s.len ∧ t.maxLen = s.maxLen := by
  unfold changesOnlyPhase at h
  rw [h]
  simp

/-- A relation that the two parts of a run keep is kept by the run. -/
theorem Run.andThen_keeps {α β : Type} {R : State → State → Prop} (htrans : ∀ {s t u}, R s t → R t u → R s u)
    {s : State} {r : Run α} {f : α → State → Run β} (h : R s r.state) (hf : ∀ a t, R t (f a t).state) :
    R s (r.andThen f).state := by
  cases r with
  | ok a t => exact htrans h (hf a t)
  | raised g t => exact h

/-- What a run keeps holds of the state it returns in. -/
theorem Run.rel_of_ok {α : Type} {R : State → State → Prop} {s t : State} {r : Run α} {a : α} (h : R s r.state)
    (he : r = .ok a t) : R s t := by
  subst he
  exact h

theorem Run.finish_changes {α : Type} {s : State} {r : Run α} {value : α → OpResult}
    (h : changesOnlyBody s r.state) : changesOnlyBody s (r.finish value) := by
  cases r <;> exact h.trans rfl

theorem guardReleaseScl_changes (s : State) : changesOnlyBus s (guardReleaseScl s).state := by
  rcases guardReleaseScl_cases s with ⟨t, e, h, -⟩ | ⟨t, e, h, -⟩ <;> rw [e] <;> exact h

theorem start_changes (s : State) : changesOnlyBus s (start s).state := by
  rcases start_cases s with ⟨t, e, h, -⟩ | ⟨t, e, h, -⟩ <;> rw [e] <;> exact h

theorem writeBit_changes (b : Bit) (s : State) : changesOnlyBus s (writeBit b s).state := by
  rcases writeBit_cases b s with ⟨t, e, h, -⟩ | ⟨t, e, h, -⟩ <;> rw [e] <;> exact h

theorem readBit_changes (s : State) : changesOnlyBus s (readBit s).state := by
  rcases readBit_cases s with ⟨d, t, e, h, -⟩ | ⟨t, e, h, -⟩ <;> rw [e] <;> exact h

theorem readAck_changes (s : State) : changesOnlyByte s (readAck s).state :=
  Run.andThen_keeps .trans (readBit_changes s).toByte fun _ _ => rfl

theorem writeByte_changes (v : Byte) (s : State) : changesOnlyByte s (writeByte v s).state := by
  rcases writeByte_cases v s with ⟨a, t, e, h, -⟩ | ⟨t, e, h, -⟩ <;> rw [e] <;> exact h

theorem sendFrame_changes (f : Failure) (v : Byte) (s : State) : changesOnlyByte s (sendFrame f v s).state :=
  Run.andThen_keeps .trans (writeByte_changes v s) fun a t => by cases a <;> exact .refl t

theorem sendFrames_changes (f : Failure) (vs : List Byte) (s : State) :
    changesOnlyByte s (sendFrames f vs s).state := by
  induction vs generalizing s with
  | nil => exact .refl s
  | cons v vs ih => exact Run.andThen_keeps .trans (sendFrame_changes f v s) fun _ t => ih t

theorem sendAddress_changes (rw : Bit) (s : State) : changesOnlyPhase s (sendAddress rw s).state :=
  Run.andThen_keeps .trans (sendFrames_changes _ _ s).toPhase fun _ _ => rfl

theorem sendIndexBytes_changes (n : Nat) (s : State) : changesOnlyPhase s (sendIndexBytes n s).state := by
  induction n generalizing s with
  | zero => exact .refl s
  | succ n ih =>
    exact Run.andThen_keeps .trans (sendFrame_changes _ _ s).toPhase fun _ t =>
      changesOnlyPhase.trans (t := incCount t) rfl (ih _)

theorem sendRegidx_changes (s : State) : changesOnlyPhase s (sendRegidx s).state :=
  Run.andThen_keeps .trans (changesOnlyPhase.trans (t := clearCount s) rfl (sendIndexBytes_changes _ _)) fun _ _ => rfl

theorem indexPhase_changes (s : State) : changesOnlyPhase s (indexPhase s).state := by
  unfold indexPhase
  split
  · exact .refl s
  · exact sendRegidx_changes s

theorem selectRegister_changes (s : State) : changesOnlyPhase s (selectRegister s).state :=
  Run.andThen_keeps .trans (start_changes s).toPhase fun _ t =>
    Run.andThen_keeps .trans (changesOnlyPhase.trans (t := enterFsm .started t) rfl (sendAddress_changes _ _))
      fun _ u => indexPhase_changes u

theorem sendData_changes (n : Nat) (s : State) : changesOnlyPhase s (sendData n s).state := by
  induction n generalizing s with
  | zero => exact .refl s
  | succ n ih =>
    exact Run.andThen_keeps .trans
      (changesOnlyPhase.trans (memRead_changes _ s).toPhase (sendFrame_changes _ _ _).toPhase) fun _ t =>
        changesOnlyPhase.trans (t := incCount t) rfl (ih _)

theorem wrregAttempt_changes (s : State) : changesOnlyPhase s (wrregAttempt s).state :=
  Run.andThen_keeps .trans (selectRegister_changes s) fun _ t =>
    changesOnlyPhase.trans (t := beginData t) rfl (sendData_changes _ _)

/-- READ_BYTE changes the byte registers, and stores `SHREG` as the eight bits have left it. -/
theorem readByte_changes (k : Ack) (i : BitVec 12) (s : State) :
    ∃ u, changesOnlyByte s u ∧
      (changesOnlyByte s (readByte k i s).state ∨ changesOnlyBus (memWrite i.toNat u.shreg u) (readByte k i s).state) := by
  rcases receiveBits_cases 8 (loadShift 0 s) (by omega) rfl with ⟨u, e, h, -⟩ | ⟨u, e, h, -⟩
  · refine ⟨u, (loadShift_changes 0 s).trans h, .inr ?_⟩
    rw [readByte, e]
    exact Run.andThen_keeps (r := writeAck k (memWrite i.toNat u.shreg u)) .trans (writeBit_changes _ _) fun _ t => .refl t
  · refine ⟨u, (loadShift_changes 0 s).trans h, .inl ?_⟩
    rw [readByte, e]
    exact (loadShift_changes 0 s).trans h

theorem readByte_changesBody (k : Ack) (i : BitVec 12) (s : State) : changesOnlyBody s (readByte k i s).state := by
  obtain ⟨u, hu, h | h⟩ := readByte_changes k i s
  · exact h.toPhase.toBody
  · exact hu.toPhase.toBody.trans (changesOnlyBody.trans (t := memWrite i.toNat u.shreg u) rfl h.toPhase.toBody)

theorem receiveData_changes (n : Nat) (s : State) : changesOnlyBody s (receiveData n s).state := by
  induction n generalizing s with
  | zero => exact .refl s
  | succ n ih =>
    exact Run.andThen_keeps .trans (readByte_changesBody _ _ s) fun _ t =>
      changesOnlyBody.trans (t := incCount t) rfl (ih _)

theorem rdregAttempt_changes (s : State) : changesOnlyBody s (rdregAttempt s).state :=
  Run.andThen_keeps .trans (selectRegister_changes s).toBody fun _ t =>
    Run.andThen_keeps .trans (start_changes t).toPhase.toBody fun _ u =>
      Run.andThen_keeps .trans (changesOnlyBody.trans (t := secondPhase u) rfl (sendAddress_changes _ _).toBody)
        fun _ v => changesOnlyBody.trans (t := beginData v) rfl (receiveData_changes _ _)

theorem closeWith_changes (b : Bool) (s : State) : changesOnlyPhase s (closeWith b s) := by
  unfold closeWith
  split <;> rfl

/-- Ending a transaction changes the registers of the phases. -/
theorem endTransaction_changes (r : Run Unit) : changesOnlyPhase r.state (endTransaction r) := by
  cases r with
  | ok a s => exact (stopBus_outcome s).1.toPhase.trans (closeWith_changes _ _)
  | raised f s => exact changesOnlyPhase.trans (t := enterAbort f s) rfl (abort_outcome f s).1.toPhase

theorem probe_changes (s : State) : changesOnlyPhase s (probe s).2 := by
  have hphase : changesOnlyPhase (probeBegin s) (probeAddressPhase (probeBegin s)).state :=
    Run.andThen_keeps .trans (start_changes _).toPhase fun _ t =>
      Run.andThen_keeps .trans (changesOnlyPhase.trans (t := enterFsm .started t) rfl (sendFrame_changes _ _ _).toPhase)
        fun _ _ => rfl
  exact (changesOnlyPhase.trans (t := probeBegin s) rfl hphase).trans ((endTransaction_changes _).trans rfl)

theorem scanOne_changes (s : State) : changesOnlyBody s (scanOne s) := by
  unfold scanOne
  split
  · exact .refl s
  · split
    · exact (probe_changes s).toBody.trans rfl
    · exact (probe_changes s).toBody

theorem scanLoop_changes (n : Nat) (s : State) : changesOnlyBody s (scanLoop n s) := by
  induction n generalizing s with
  | zero => exact .refl s
  | succ n ih => exact (scanOne_changes s).trans (changesOnlyBody.trans (t := nextAddress (scanOne s)) rfl (ih _))

/-- A scan leaves its own address where it is at each probe. -/
theorem scanOne_fields (s : State) : (scanOne s).scanAddr = s.scanAddr := by
  obtain ⟨h, -⟩ := (probe_changes s).fields
  unfold scanOne
  split
  · rfl
  · split <;> exact h

/-! ### What the commands do between acceptance and response -/

/-- What a host command does between acceptance and response; nothing for another instruction. -/
def commandBody : Instr → State → State
  | .init _, s => initBody s
  | .wrreg _, s => endTransaction (wrregAttempt s)
  | .rdreg _, s => endTransaction (rdregAttempt s)
  | .scan _, s => scanBody s
  | _, s => s

theorem commandBody_changes (i : Instr) (s : State) : changesOnlyBody s (commandBody i s) := by
  cases i with
  | init p =>
    have h : changesOnlyBus s (guardedRelease (settle (setScl true (setSda true s)))).2 :=
      changesOnlyBus.trans (t := settle (setScl true (setSda true s))) rfl (guardedRelease_outcome _).1
    exact h.toPhase.toBody.trans rfl
  | wrreg p => exact ((wrregAttempt_changes s).trans (endTransaction_changes _)).toBody
  | rdreg p => exact (rdregAttempt_changes s).trans (endTransaction_changes _).toBody
  | scan p =>
    have hok : ∀ t : State, changesOnlyBody t { t with err := .ok } := fun _ => rfl
    exact (changesOnlyBody.trans (t := { s with scanAddr := 0 }) rfl (scanLoop_changes _ _)).trans (hok _)
  | _ => exact .refl s

/-- The meaning of a host command is its body between acceptance and response. -/
theorem exec_command {i : Instr} (hi : i.isCommand = true) (s : State) :
    ∃ op p, exec i s = .next (runCommand op p (failedCheck s.maxLen i) (commandBody i) s) := by
  cases i with
  | init p => exact ⟨opInit, p, rfl⟩
  | wrreg p => exact ⟨opWrreg, p, rfl⟩
  | rdreg p => exact ⟨opRdreg, p, rfl⟩
  | scan p => exact ⟨opScan, p, rfl⟩
  | _ => cases hi

theorem respond_keepsInputs (s : State) : keepsInputs s (respond s) := by
  unfold respond
  split <;> exact .refl s

theorem runCommand_keepsInputs {op : BitVec 4} {p : Packet} {c : Option Check} {body : State → State} {s : State}
    (h : ∀ t, keepsInputs t (body t)) : keepsInputs s (runCommand op p c body s) := by
  unfold runCommand
  split
  · exact .refl s
  · split
    · exact respond_keepsInputs { accept op p s with err := .illegalCommand }
    · exact (h (accept op p s)).trans (respond_keepsInputs _)

/-- No meaning writes an input. -/
theorem exec_keepsInputs {i : Instr} {s t : State} (h : exec i s = .next t) : keepsInputs s t := by
  by_cases hi : i.isCommand = true
  · obtain ⟨op, p, e⟩ := exec_command hi s
    rw [e] at h
    cases h
    exact runCommand_keepsInputs fun u => (commandBody_changes i u).keepsInputs
  · cases i with
    | init p | wrreg p | rdreg p | scan p => exact absurd rfl hi
    | guardReleaseScl => cases h; exact (Run.finish_changes (guardReleaseScl_changes s).toPhase.toBody).keepsInputs
    | start => cases h; exact (Run.finish_changes (start_changes s).toPhase.toBody).keepsInputs
    | stop => cases h; exact (stopBus_outcome s).1.toPhase.toBody.keepsInputs
    | writeBit b => cases h; exact (Run.finish_changes (writeBit_changes b s).toPhase.toBody).keepsInputs
    | readBit => cases h; exact (Run.finish_changes (readBit_changes s).toPhase.toBody).keepsInputs
    | writeAck k => cases h; exact (Run.finish_changes (writeBit_changes _ s).toPhase.toBody).keepsInputs
    | readAck => cases h; exact (Run.finish_changes (readAck_changes s).toPhase.toBody).keepsInputs
    | writeByte v => cases h; exact (Run.finish_changes (writeByte_changes v s).toPhase.toBody).keepsInputs
    | sendAddress rw => cases h; exact (Run.finish_changes (sendAddress_changes rw s).toBody).keepsInputs
    | sendRegidx => cases h; exact (Run.finish_changes (sendRegidx_changes s).toBody).keepsInputs
    | probe => cases h; exact (probe_changes s).toBody.keepsInputs
    | addr7 | addr10Hi | addr10Lo | addr10Re | regidxByte | probeAddr =>
      cases h; exact (Run.finish_changes (sendFrame_changes _ _ s).toPhase.toBody).keepsInputs
    | readByte k j =>
      replace h : execReadByte k j s = .next t := h
      unfold execReadByte at h
      split at h
      · cases h; exact (Run.finish_changes (readByte_changesBody k j s)).keepsInputs
      · cases h
    | dataByte v =>
      replace h : execDataByte v s = .next t := h
      unfold execDataByte at h
      split at h
      · split at h
        · cases h; exact (Run.finish_changes (readByte_changesBody _ _ s)).keepsInputs
        · cases h
      · cases h; exact (Run.finish_changes (sendFrame_changes _ _ s).toPhase.toBody).keepsInputs

theorem acceptPacket_keepsInputs (p : BitVec 128) (s : State) : keepsInputs s (acceptPacket p s) := by
  unfold acceptPacket
  split
  · exact .refl s
  · dsimp only
    split <;> exact .refl s

/-- The slot keeps a packet that waits and is emptied otherwise; no other input is written. -/
theorem runSlot_keepsInputs {c : Code} {s t : State} (h : runSlot c s = .next t) :
    keepsInputs s { t with fetch := s.fetch } := by
  unfold runSlot at h
  split at h
  · split at h
    · cases h
      exact .refl s
    · obtain ⟨h1, h2, h3, h4, -, h6⟩ := exec_keepsInputs h
      exact ⟨h1, h2, h3, h4, rfl, h6⟩
  · split at h
    · split at h
      · cases h
        exact .refl s
      · cases h
        obtain ⟨h1, h2, h3, h4, -, h6⟩ := respond_keepsInputs
          { accept (packetOp _) (packetFields _) { s with fetch := none } with err := .illegalCommand }
        exact ⟨h1, h2, h3, h4, rfl, h6⟩
    · cases h
    · cases h

/-- The port takes at most the first packet offered, and writes no other input. -/
theorem commandPort_inputs (s : State) :
    keepsInputs s { commandPort s with cmds := s.cmds } ∧
      ((commandPort s).cmds = s.cmds ∨ ∃ p, s.cmds = p :: (commandPort s).cmds) := by
  unfold commandPort
  split
  · exact ⟨.refl s, .inl rfl⟩
  · rename_i p rest hc
    split
    · exact ⟨.refl s, .inl rfl⟩
    · obtain ⟨h1, h2, h3, h4, h5, h6⟩ := acceptPacket_keepsInputs p { s with cmds := rest }
      exact ⟨⟨h1, h2, h3, h4, h5, rfl⟩, .inr ⟨p, by rw [hc, h6]⟩⟩

/-- What a step of the block writes of the host's side: nothing, but that it may empty the operation slot and take the
first packet. -/
theorem step_block_inputs {s u t : State} (hturn : blockTurn s = some u) (hstep : step s = .next t) :
    t.maxLen = s.maxLen ∧ t.rst = s.rst ∧ t.rspReady = s.rspReady ∧ t.hostMoves = u.hostMoves ∧
      (s.fetch = none → t.fetch = none) ∧ (t.cmds = s.cmds ∨ ∃ p, s.cmds = p :: t.cmds) := by
  obtain ⟨m, rfl⟩ := blockTurn_takes_moves hturn
  cases hr : s.rst with
  | true =>
    rw [step_reset hturn hr] at hstep
    cases hstep
    exact ⟨rfl, hr, rfl, rfl, fun _ => rfl, .inl rfl⟩
  | false =>
    cases hp : s.place with
    | cons a k =>
      rw [step_task hturn hr hp] at hstep
      obtain ⟨e, -, -, -, h1, h2, h3, h4, h5, h6⟩ := runTask_makesEvent hstep
      exact ⟨h1, h2.trans hr, h3, h4, fun hf => h5.trans hf, .inl h6⟩
    | nil =>
      cases hf : s.fetch with
      | some c =>
        rw [step_slot hturn hr hp hf] at hstep
        obtain ⟨h1, h2, h3, h4, -, h6⟩ := runSlot_keepsInputs hstep
        exact ⟨h1, h2.trans hr, h3, h4, fun h => (Option.some_ne_none c h).elim, .inl h6⟩
      | none =>
        rw [step_port hturn hr hp hf] at hstep
        cases hstep
        obtain ⟨⟨h1, h2, h3, h4, h5, -⟩, h6⟩ := commandPort_inputs { s with hostMoves := m, foundValid := false }
        exact ⟨h1, h2.trans hr, h3, h4, fun _ => h5.trans hf, h6⟩

/-- The step is the host's where its next move is neither to pass nor a write that waits. -/
theorem step_hostMove {s : State} {a : HostMove} {k : List HostMove} (hm : s.hostMoves = a :: k)
    (ha : a ≠ .pass) (hw : ∀ i v, a = .write i v → s.busy = false) : step s = hostTurn s := by
  apply step_host
  cases a with
  | pass => exact absurd rfl ha
  | write i v => simp [blockTurn, hm, hw i v rfl]
  | offer p | ready b | reset b => simp [blockTurn, hm]

/-- Settles O17: the block's step by its case, the host's by its move. -/
theorem stepNeverWritesTheInputs : Obligations.StepNeverWritesTheInputs := by
  refine ⟨fun s u t => step_block_inputs, fun s k => ⟨?_, ?_, ?_, ?_, ?_, ?_, ?_⟩⟩
  · exact fun p hm => (step_hostMove hm (by simp) (by simp)).trans (by simp [hostTurn, hm])
  · exact fun b hm => (step_hostMove hm (by simp) (by simp)).trans (by simp [hostTurn, hm])
  · exact fun hm => (step_hostMove hm (by simp) (by simp)).trans (by simp [hostTurn, hm])
  · intro hm
    obtain ⟨hbuf, hmax, hcmds, hready, hrst, hmoves⟩ := resetBlock_keeps { s with hostMoves := k, rst := true }
    exact ⟨_, (step_hostMove hm (by simp) (by simp)).trans (by simp [hostTurn, hm]), hrst, hmoves, hbuf, hmax, hcmds,
      hready, rfl⟩
  · intro i v hm hb hi
    have hbyte : hasByte s i = true := by simp [hasByte, BitVec.ult, hi]
    exact (step_hostMove hm (by simp) fun _ _ _ => hb).trans (by simp [hostTurn, hm, hbyte])
  · intro i v hm hb hi
    have hbyte : hasByte s i = false := by simp [hasByte, BitVec.ult, hi]
    exact (step_hostMove hm (by simp) fun _ _ _ => hb).trans (by simp [hostTurn, hm, hbyte])
  · intro i v hm hb
    simp [blockTurn, hm, hb]

end Sys2Proof.Machine


/-! # The sequencer performs the operations: their lists of steps come to their meanings -/

namespace Sys2Proof.Machine

/-! ### The sequencer between two steps -/

/-- The sequencer at s with the steps k left and x handed over by the operation before, the pulse of `found_valid`
over. -/
def seqAt (s : State) (k : List Task) (x : OpResult) : State := { s with place := k, ret := x, foundValid := false }

/-- One step of the running command, the pulse of `found_valid` put aside: the next step ends it. -/
def Tick (w v : State) : Prop :=
  ∃ t k u, w.place = t :: k ∧ runTask t { w with place := k } = .next u ∧ v = endPulse u

/-- Finitely many steps of the running command. -/
abbrev Ticks : State → State → Prop := Relation.ReflTransGen Tick

theorem tick_seqAt {t : Task} {k : List Task} {s u v : State} {x : OpResult}
    (h : runTask t (seqAt s k x) = .next u) (hv : endPulse u = v) : Tick (seqAt s (t :: k) x) v :=
  ⟨t, k, u, rfl, h, hv.symm⟩

/-- A step that asks a condition, where it holds. -/
theorem tick_if_pos {c : Prop} [Decidable c] {t : Task} {k : List Task} {s u u' v : State} {x : OpResult}
    (h : runTask t (seqAt s k x) = .next (if c then u else u')) (hc : c) (hv : endPulse u = v) :
    Tick (seqAt s (t :: k) x) v :=
  tick_seqAt (h.trans (by rw [if_pos hc])) hv

/-- A step that asks a condition, where it fails. -/
theorem tick_if_neg {c : Prop} [Decidable c] {t : Task} {k : List Task} {s u u' v : State} {x : OpResult}
    (h : runTask t (seqAt s k x) = .next (if c then u else u')) (hc : ¬ c) (hv : endPulse u' = v) :
    Tick (seqAt s (t :: k) x) v :=
  tick_seqAt (h.trans (by rw [if_neg hc])) hv

/-- A raise passes over steps without a mark. -/
theorem unwind_append {us : List Task} (h : hasHandler us = false) (k : List Task) : unwind (us ++ k) = unwind k := by
  induction us with
  | nil => rfl
  | cons t us ih =>
    obtain ⟨ht, hus⟩ : _ ∧ hasHandler us = false := by simpa [hasHandler] using h
    cases t with
    | onRaise g => cases g <;> simp at ht
    | _ => exact ih hus

/-- Nothing of the steps a raise abandons, or of what was handed over before it, is in the state it leads to. -/
theorem raiseAt_seqAt {us : List Task} (h : hasHandler us = false) (f : Failure) (s : State) (k : List Task)
    (x y : OpResult) : raiseAt f (seqAt s (us ++ k) x) = raiseAt f (seqAt s k y) := by
  have hu : unwind (seqAt s (us ++ k) x).place = unwind (seqAt s k y).place := unwind_append h k
  unfold raiseAt
  rw [hu]
  split <;> rfl

theorem endPulse_raiseAt (f : Failure) (s : State) (k : List Task) (x : OpResult) :
    endPulse (raiseAt f (seqAt s k x)) = raiseAt f (seqAt s k x) := by
  unfold raiseAt
  split <;> rfl

/-! ### When a list of steps performs an operation -/

/-- From w the sequencer comes to what a run says, the steps k following it: to its state with k left where it returns,
and to the raise where it raises. -/
def Arrives {α : Type} (w : State) (k : List Task) (Q : α → OpResult → Prop) : Run α → Prop
  | .ok a t => ∃ y, Q a y ∧ Ticks w (seqAt t k y)
  | .raised f t => ∃ y, Ticks w (raiseAt f (seqAt t k y))

theorem Arrives.head {α : Type} {w v : State} {k : List Task} {Q : α → OpResult → Prop} {r : Run α}
    (h : Ticks w v) (hr : Arrives v k Q r) : Arrives w k Q r := by
  cases r with
  | ok a t =>
    obtain ⟨y, hy, hv⟩ := hr
    exact ⟨y, hy, h.trans hv⟩
  | raised f t =>
    obtain ⟨y, hv⟩ := hr
    exact ⟨y, h.trans hv⟩

/-- The steps ts, begun at s with x handed over, come to what the run r says, whatever steps follow; Q tells what is
handed over. -/
def Performs {α : Type} (ts : List Task) (x : OpResult) (s : State) (r : Run α) (Q : α → OpResult → Prop) : Prop :=
  ∀ k : List Task, Arrives (seqAt s (ts ++ k) x) k Q r

/-- Whatever an operation hands over. -/
def anyResult {α : Type} (_ : α) (_ : OpResult) : Prop := True

/-- The operation hands over the bit it returns. -/
def returnsBit (b : Bit) (x : OpResult) : Prop := x = .bit b

namespace Performs

variable {α β : Type} {t : Task} {ts us : List Task} {x y : OpResult} {s s' : State} {r : Run α}
  {Q : α → OpResult → Prop} {Q' : β → OpResult → Prop}

/-- No step is left. -/
theorem nil {a : α} (h : Q a x) : Performs [] x s (.ok a s) Q := fun _ => ⟨x, h, .refl⟩

/-- No step is left and nothing is asked of the result. -/
theorem done {a : α} : Performs [] x s (.ok a s) anyResult := nil trivial

/-- A step that puts the steps us in front. -/
theorem expand (us : List Task) (h : ∀ k, Tick (seqAt s (t :: k) x) (seqAt s' (us ++ k) y))
    (hr : Performs (us ++ ts) y s' r Q) : Performs (t :: ts) x s r Q := fun k =>
  .head (.single (by rw [List.append_assoc]; exact h (ts ++ k))) (hr k)

/-- A step that only changes the state and what is handed over. -/
theorem step (h : ∀ k, Tick (seqAt s (t :: k) x) (seqAt s' k y)) (hr : Performs ts y s' r Q) :
    Performs (t :: ts) x s r Q :=
  expand [] h hr

/-- A step that raises. -/
theorem raise {f : Failure} (h : ∀ k, runTask t (seqAt s k x) = .next (raiseAt f (seqAt s' k y))) :
    Performs [t] x s (.raised f s') Q := fun k =>
  ⟨y, .single (tick_seqAt (h k) (endPulse_raiseAt f s' k y))⟩

/-- One operation after the other: a raise of the first abandons the steps of the second. -/
theorem append {f : α → State → Run β} (h : Performs ts x s r Q)
    (hf : ∀ a t z, r = .ok a t → Q a z → Performs us z t (f a t) Q') (hus : hasHandler us = false) :
    Performs (ts ++ us) x s (r.andThen f) Q' := by
  intro k
  have hk := h (us ++ k)
  rw [List.append_assoc]
  cases r with
  | ok a t =>
    obtain ⟨z, hz, hz'⟩ := hk
    exact .head hz' (hf a t z rfl hz k)
  | raised g t =>
    obtain ⟨z, hz⟩ := hk
    exact ⟨z, raiseAt_seqAt hus g t k z z ▸ hz⟩

/-- The same with a single step, a call or a loop, for the first operation. -/
theorem andThen {f : α → State → Run β} (h : Performs [t] x s r Q)
    (hf : ∀ a t z, r = .ok a t → Q a z → Performs us z t (f a t) Q') (hus : hasHandler us = false := by rfl) :
    Performs (t :: us) x s (r.andThen f) Q' :=
  append h hf hus

/-- The call of an operation: its own steps come first. -/
theorem call {i : Instr} (hi : namesNoByte s i = false) (h : Performs (steps s i) x s r Q) :
    Performs [.op i] x s r Q := by
  refine expand (steps s i) (fun k => tick_seqAt (u := seqAt s (steps s i ++ k) x) ?_ rfl) (by rwa [List.append_nil])
  have hn : namesNoByte (seqAt s k x) i = false := by rw [← hi]; cases i <;> rfl
  have hs : steps (seqAt s k x) i = steps s i := by cases i <;> rfl
  change callOp i (seqAt s k x) = _
  rw [callOp, hn, hs]
  rfl

end Performs

/-- What a step does that neither calls, loops, raises nor hands over a result. -/
def plainEffect : Task → Option (State → State)
  | .setScl b => some (setScl b)
  | .setSda b => some (setSda b)
  | .delay => some delay
  | .settle => some settle
  | .release => some release
  | .loadShift v => some (loadShift v)
  | .shiftOut => some (shiftBit false)
  | .store i => some fun s => memWrite i.toNat s.shreg s
  | .setFsm f => some (enterFsm f)
  | .secondPhase => some secondPhase
  | .clearCount => some clearCount
  | .incCount => some incCount
  | .probeBegin => some probeBegin
  | .scanBegin => some fun s => { s with scanAddr := 0 }
  | .scanNext => some nextAddress
  | _ => none

theorem tick_plain {t : Task} {f : State → State} (h : plainEffect t = some f) (s : State) (k : List Task)
    (x : OpResult) : Tick (seqAt s (t :: k) x) (seqAt (f s) k x) := by
  cases t <;> cases h <;> exact tick_seqAt rfl rfl

theorem Performs.plain {α : Type} {t : Task} {ts : List Task} {x : OpResult} {s : State} {r : Run α}
    {Q : α → OpResult → Prop} {f : State → State} (h : plainEffect t = some f) (hr : Performs ts x (f s) r Q) :
    Performs (t :: ts) x s r Q :=
  .step (tick_plain h s · x) hr

/-! ### The guard -/

/-- How a guard of either kind ends. -/
def guardRun : GuardKind → Bool × State → Run Bool
  | .raising, (true, t) => .raised .timeout t
  | .raising, (false, t) => .ok false t
  | .reporting, (b, t) => .ok b t

/-- What a guard hands over: its expiry where that is reported. -/
def guardReturns : GuardKind → Bit → OpResult → Prop
  | .raising => anyResult
  | .reporting => returnsBit

/-- A poll that reads 1 ends the guard. -/
theorem poll_high {s : State} (h : sclSample s = true) (g : GuardKind) (x : OpResult) :
    Performs [.poll g] x s (guardRun g (false, readScl s)) (guardReturns g) := by
  cases g with
  | raising => exact .step (y := .done) (fun _ => tick_if_pos rfl h rfl) .done
  | reporting => exact .step (y := .bit false) (fun _ => tick_if_pos rfl h rfl) (.nil rfl)

/-- A poll that reads 0 with the budget used up expires the guard. -/
theorem poll_expires {s : State} (h : sclSample s = false) (hz : s.stretchCnt = 0) (g : GuardKind) (x : OpResult) :
    Performs [.poll g] x s (guardRun g (true, readScl s)) (guardReturns g) := by
  have hs : ∀ k, sclSample (seqAt s k x) = false := fun _ => h
  have hc : ∀ k, (seqAt s k x).stretchCnt = 0 := fun _ => hz
  cases g with
  | raising =>
    refine .raise (y := x) fun k => ?_
    simp only [runTask, pollOnce, hs, hc]
    rfl
  | reporting =>
    exact .step (y := .bit true) (fun k => tick_seqAt rfl (by simp only [pollOnce, hs, hc]; rfl)) (.nil rfl)

/-- A poll that reads 0 within the budget is followed by the next. -/
theorem tick_poll_low {s : State} (h : sclSample s = false) (hz : s.stretchCnt ≠ 0) (g : GuardKind) (k : List Task)
    (x : OpResult) : Tick (seqAt s (.poll g :: k) x) (seqAt (countPoll (readScl s)) ([.poll g] ++ k) x) := by
  have hs : sclSample (seqAt s k x) = false := h
  have hc : (seqAt s k x).stretchCnt ≠ 0 := hz
  exact tick_seqAt rfl (by simp only [pollOnce, hs, hc]; rfl)

/-- A counter that is not 0 goes down by one. -/
theorem counter_down {w n : Nat} {b : BitVec w} (h : b.toNat = n + 1) : b ≠ 0 ∧ (b - 1).toNat = n := by
  have hw : 0 < w := by
    rcases Nat.eq_zero_or_pos w with rfl | hw
    · have := b.isLt
      omega
    · exact hw
  have hone : (1 : BitVec w).toNat = 1 := BitVec.toNat_one hw
  refine ⟨fun h0 => ?_, ?_⟩
  · rw [h0] at h
    simp at h
  · have hle : (1 : BitVec w) ≤ b := by rw [BitVec.le_def, hone]; omega
    rw [BitVec.toNat_sub_of_le hle, hone]
    omega

/-- The polls of a guard, one a step, make its poll loop. -/
theorem poll_performs (g : GuardKind) (n : Nat) (s : State) (x : OpResult) (hn : s.stretchCnt.toNat = n) :
    Performs [.poll g] x s (guardRun g (pollLoop n s)) (guardReturns g) := by
  induction n generalizing s with
  | zero =>
    have hz : s.stretchCnt = 0 := BitVec.eq_of_toNat_eq hn
    cases h : sclSample s with
    | true => simpa [pollLoop, h] using poll_high h g x
    | false => simpa [pollLoop, h] using poll_expires h hz g x
  | succ n ih =>
    obtain ⟨hz, hc⟩ := counter_down hn
    cases h : sclSample s with
    | true => simpa [pollLoop, h] using poll_high h g x
    | false =>
      have hloop : pollLoop (n + 1) s = pollLoop n (countPoll (readScl s)) := by simp [pollLoop, h]
      rw [hloop]
      exact .expand [.poll g] (tick_poll_low h hz g · x) (ih _ hc)

/-- The head of a guarded release and its polls. -/
theorem release_performs (g : GuardKind) (s : State) (x : OpResult) {α : Type} {us : List Task} {f : Bool → State → Run α}
    {Q : α → OpResult → Prop} (hus : hasHandler us = false)
    (hf : ∀ b t z, guardRun g (guardedRelease s) = .ok b t → guardReturns g b z → Performs us z t (f b t) Q) :
    Performs (releaseTasks g ++ us) x s ((guardRun g (guardedRelease s)).andThen f) Q :=
  .plain rfl (.andThen (poll_performs g _ (release s) x rfl) hf hus)

theorem guardReleaseScl_performs (s : State) (x : OpResult) :
    Performs [.op .guardReleaseScl] x s (guardReleaseScl s) anyResult := by
  have hrun : guardReleaseScl s = (guardRun .raising (guardedRelease s)).andThen fun _ t => .ok () t := by
    unfold guardReleaseScl
    rcases guardedRelease s with ⟨_ | _, t⟩ <;> rfl
  rw [hrun]
  exact .call rfl (release_performs (us := []) .raising s x rfl fun _ _ _ _ _ => .done)

/-! ### Bus operations -/

theorem start_performs (s : State) (x : OpResult) : Performs [.op .start] x s (start s) anyResult :=
  .call rfl <| .plain rfl <| .plain rfl <| .andThen (guardReleaseScl_performs _ x) fun _ _ _ _ _ =>
    .plain rfl <| .plain rfl <| .plain rfl <| .plain rfl .done

/-- STOP hands over whether its guard expired. -/
theorem stop_performs (s : State) (x : OpResult) :
    Performs [.op .stop] x s (.ok (stopBus s).1 (stopBus s).2) returnsBit :=
  .call rfl <| .plain rfl <| .plain rfl <| .plain rfl <|
    release_performs .reporting _ x (f := fun b t => .ok b (delay (setSda true (delay t)))) rfl fun _ _ _ _ hb =>
      .plain rfl <| .plain rfl <| .plain rfl <| .nil hb

theorem writeBit_performs (b : Bit) (s : State) (x : OpResult) :
    Performs [.op (.writeBit b)] x s (writeBit b s) anyResult :=
  .call rfl <| .plain rfl <| .plain rfl <| .andThen (guardReleaseScl_performs _ x) fun _ _ _ _ _ =>
    .plain rfl <| .plain rfl .done

/-- READ_BIT hands over the bit it sampled. -/
theorem readBit_performs (s : State) (x : OpResult) : Performs [.op .readBit] x s (readBit s) returnsBit :=
  .call rfl <| .plain rfl <| .plain rfl <| .andThen (guardReleaseScl_performs _ x) fun _ t _ _ _ =>
    .plain rfl <| .step (s' := readSda (delay t)) (y := .bit (sdaSample (delay t))) (fun _ => tick_seqAt rfl rfl) <|
      .plain rfl <| .nil rfl

theorem writeAck_performs (k : Ack) (s : State) (x : OpResult) :
    Performs [.op (.writeAck k)] x s (writeAck k s) anyResult :=
  .call rfl (writeBit_performs _ s x)

/-- READ_ACK hands over `ACKF`. -/
theorem readAck_performs (s : State) (x : OpResult) : Performs [.op .readAck] x s (readAck s) returnsBit :=
  .call rfl <| .andThen (readBit_performs s x) fun d t z _ hz => by
    obtain rfl : z = .bit d := hz
    exact .step (s' := setAckf (ackOfSample d) t) (y := .bit (ackOfSample d)) (fun _ => tick_seqAt rfl rfl) (.nil rfl)

/-! ### Bytes -/

theorem sendBits_performs (n : Nat) (s : State) (x : OpResult) (hn : s.bitCnt.toNat = n) :
    Performs [.writeBits] x s (sendBits n s) anyResult := by
  induction n generalizing s x with
  | zero =>
    exact .step (s' := s) (y := x) (fun _ => tick_if_pos rfl (BitVec.eq_of_toNat_eq hn) rfl) .done
  | succ n ih =>
    obtain ⟨hz, hc⟩ := counter_down hn
    refine .expand (s' := s) (y := x) [.op (.writeBit (s.shreg.getLsbD 7)), .shiftOut, .writeBits]
      (fun _ => tick_if_neg rfl hz rfl) ?_
    refine .andThen (writeBit_performs _ s x) fun _ t z he _ => .plain rfl (ih (shiftBit false t) z ?_)
    obtain ⟨-, hbit, -⟩ := (Run.rel_of_ok (writeBit_changes _ s) he).fields
    rw [shiftBit_bitCnt, hbit, hc]

theorem receiveBits_performs (n : Nat) (s : State) (x : OpResult) (hn : s.bitCnt.toNat = n) :
    Performs [.readBits] x s (receiveBits n s) anyResult := by
  induction n generalizing s x with
  | zero =>
    exact .step (s' := s) (y := x) (fun _ => tick_if_pos rfl (BitVec.eq_of_toNat_eq hn) rfl) .done
  | succ n ih =>
    obtain ⟨hz, hc⟩ := counter_down hn
    refine .expand (s' := s) (y := x) [.op .readBit, .shiftIn, .readBits]
      (fun _ => tick_if_neg rfl hz rfl) ?_
    refine .andThen (readBit_performs s x) fun d t z he hz => ?_
    obtain rfl : z = .bit d := hz
    refine .step (s' := shiftBit d t) (y := .bit d) (fun _ => tick_seqAt rfl rfl) (ih _ _ ?_)
    obtain ⟨-, hbit, -⟩ := (Run.rel_of_ok (readBit_changes s) he).fields
    rw [shiftBit_bitCnt, hbit, hc]

/-- WRITE_BYTE hands over `ACKF`. -/
theorem writeByte_performs (v : Byte) (s : State) (x : OpResult) :
    Performs [.op (.writeByte v)] x s (writeByte v s) returnsBit :=
  .call rfl <| .plain rfl <| .andThen (sendBits_performs 8 (loadShift v s) x rfl) fun _ t z _ _ => readAck_performs t z

theorem readByte_performs (k : Ack) (i : BitVec 12) (s : State) (x : OpResult) (hi : hasByte s i = true) :
    Performs [.op (.readByte k i)] x s (readByte k i s) anyResult :=
  .call (by simp [namesNoByte, hi]) <| .plain rfl <|
    .andThen (receiveBits_performs 8 (loadShift 0 s) x rfl) fun _ t z _ _ =>
      .plain rfl <| .andThen (writeAck_performs k _ z) fun _ u _ _ _ =>
        .step (s' := u) (y := .byte u.shreg) (fun _ => tick_seqAt rfl rfl) .done

/-- The check of an acknowledge slot. -/
theorem check_performs (f : Failure) (s : State) (x : OpResult) :
    Performs [.check f] x s (if s.ackf then .ok () s else .raised f s) anyResult := by
  cases ha : s.ackf with
  | true =>
    exact .step (s' := s) (y := .done) (fun _ => tick_if_pos rfl ha rfl) .done
  | false =>
    have hs : ∀ k, (seqAt s k x).ackf = false := fun _ => ha
    exact .raise (y := x) fun k => by simp only [runTask, hs]; rfl

/-- WRITE_BYTE returns the flag it leaves. -/
theorem writeByte_ok_ackf {v : Byte} {s t : State} {a : Bool} (h : writeByte v s = .ok a t) : t.ackf = a := by
  rcases writeByte_cases v s with ⟨b, u, e, -, hb, -⟩ | ⟨u, e, -⟩
  · rw [e] at h
    cases h
    exact hb
  · rw [e] at h
    cases h

theorem sendFrame_performs (f : Failure) (v : Byte) (s : State) (x : OpResult) :
    Performs (frameTasks f v) x s (sendFrame f v s) anyResult :=
  .andThen (writeByte_performs v s x) fun a t z he _ => by
    have ha : t.ackf = a := writeByte_ok_ackf he
    exact ha ▸ check_performs f t z

/-! ### The framers -/

/-- A wire byte that is sent: one checked frame. -/
theorem frameOp_performs {i : Instr} {f : Failure} {v : Byte} {s : State} (hi : namesNoByte s i = false)
    (hs : steps s i = frameTasks f v) (x : OpResult) : Performs [.op i] x s (sendFrame f v s) anyResult :=
  .call hi (hs ▸ sendFrame_performs f v s x)

theorem addressTasks_performs (am : AddrMode) (addr : BitVec 10) (rw : Bit) (s : State) (x : OpResult) :
    Performs (addressTasks am addr rw) x s (sendFrames .noResponse (addressBytes am addr rw) s) anyResult := by
  cases am with
  | seven => exact .andThen (frameOp_performs rfl rfl x) fun _ _ _ _ _ => .done
  | ten =>
    cases rw with
    | false =>
      exact .andThen (frameOp_performs rfl rfl x) fun _ _ z _ _ => .andThen (frameOp_performs rfl rfl z)
        fun _ _ _ _ _ => .done
    | true => exact .andThen (frameOp_performs rfl rfl x) fun _ _ _ _ _ => .done

theorem sendAddress_performs (rw : Bit) (s : State) (x : OpResult) :
    Performs [.op (.sendAddress rw)] x s (sendAddress rw s) anyResult :=
  .call rfl <| .append (addressTasks_performs s.am s.addr rw s x) (fun _ _ _ _ _ => .plain rfl .done) rfl

theorem Run.andThen_assoc {α β γ : Type} (r : Run α) (f : α → State → Run β) (g : β → State → Run γ) :
    (r.andThen f).andThen g = r.andThen fun a t => (f a t).andThen g := by
  cases r <;> rfl

/-- A byte counter below a 12-bit bound goes up by one. -/
theorem incCount_up {s : State} {b : BitVec 12} (h : s.byteCnt.toNat < b.toNat) :
    (incCount s).byteCnt.toNat = s.byteCnt.toNat + 1 := by
  have hone : (1 : BitVec 12).toNat = 1 := rfl
  have := b.isLt
  rw [incCount_byteCnt, BitVec.toNat_add, hone]
  omega

/-- The loop of SEND_REGIDX from the byte `BYTECNT` counts, to the operation's end. -/
theorem indexLoop_performs (n : Nat) (s : State) (x : OpResult) (hn : s.byteCnt.toNat + n = s.riw.toNat) :
    Performs [.indexLoop] x s
      ((sendIndexBytes n s).andThen fun _ t => .ok () (enterFsm .registerIndexSent t)) anyResult := by
  induction n generalizing s x with
  | zero =>
    have hend : ¬ s.byteCnt.toNat < s.riw.toNat := by omega
    exact .step (s' := enterFsm .registerIndexSent s) (y := .done) (fun _ => tick_if_neg rfl hend rfl) .done
  | succ n ih =>
    have hmore : s.byteCnt.toNat < s.riw.toNat := by omega
    have hbyte : s.riw.toNat - 1 - s.byteCnt.toNat = n := by omega
    rw [sendIndexBytes, Run.andThen_assoc]
    refine .expand (s' := s) (y := x) [.op (.regidxByte (regidxByteAt s.regidx n)), .incCount, .indexLoop]
      (fun _ => tick_if_pos rfl hmore (hbyte ▸ rfl)) ?_
    refine .andThen (frameOp_performs rfl rfl x) fun _ t z he _ => .plain rfl (ih (incCount t) z ?_)
    obtain ⟨-, -, hcnt, -, -, -, -, -, hriw, -⟩ := (Run.rel_of_ok (sendFrame_changes _ _ s) he).fields
    have hlt : t.byteCnt.toNat < (t.riw.setWidth 12).toNat := by
      rw [hcnt, hriw, BitVec.toNat_setWidth]
      have := s.riw.isLt
      omega
    rw [incCount_up hlt, incCount_riw, hcnt, hriw]
    omega

theorem sendRegidx_performs (s : State) (x : OpResult) : Performs [.op .sendRegidx] x s (sendRegidx s) anyResult :=
  .call rfl <| .plain rfl <| indexLoop_performs _ (clearCount s) x (Nat.zero_add _)

/-! ### The phases of WRREG and RDREG -/

theorem indexPhase_performs (s : State) (x : OpResult) : Performs [.indexPhase] x s (indexPhase s) anyResult := by
  unfold indexPhase
  split
  · rename_i h
    exact .step (s' := s) (y := x) (fun _ => tick_if_pos rfl h rfl) .done
  · rename_i h
    exact .expand (s' := s) (y := x) [.op .sendRegidx] (fun _ => tick_if_neg rfl h rfl) (sendRegidx_performs s x)

theorem selectRegister_performs (s : State) (x : OpResult) :
    Performs selectTasks x s (selectRegister s) anyResult :=
  .andThen (start_performs s x) fun _ t z _ _ => .plain rfl <| .andThen (sendAddress_performs false _ z)
    fun _ u z _ _ => indexPhase_performs u z

theorem sendData_performs (n : Nat) (s : State) (x : OpResult) (hn : s.byteCnt.toNat + n = s.len.toNat) :
    Performs [.writeLoop] x s (sendData n s) anyResult := by
  induction n generalizing s x with
  | zero =>
    have hend : ¬ s.byteCnt.toNat < s.len.toNat := by omega
    exact .step (s' := s) (y := x) (fun _ => tick_if_neg rfl hend rfl) .done
  | succ n ih =>
    have hmore : s.byteCnt.toNat < s.len.toNat := by omega
    refine .expand (s' := s) (y := x) [.load, .incCount, .writeLoop] (fun _ => tick_if_pos rfl hmore rfl) ?_
    refine .expand (s' := memRead s.byteCnt.toNat s) (y := x)
      (frameTasks .protocolError (s.buf.get s.byteCnt.toNat)) (fun _ => tick_seqAt rfl rfl) ?_
    refine .append (sendFrame_performs _ _ _ x) (fun _ t z he _ => .plain rfl (ih (incCount t) z ?_)) rfl
    obtain ⟨-, -, hcnt, -, -, -, -, -, -, -, -, hlen, -⟩ := (Run.rel_of_ok (sendFrame_changes _ _ _) he).fields
    rw [memRead_byteCnt] at hcnt
    rw [memRead_len] at hlen
    rw [incCount_up (b := s.len) (by rw [hcnt]; exact hmore), incCount_len, hcnt, hlen]
    omega

/-- READ_BYTE leaves the byte count and its bounds. -/
theorem readByte_fields (k : Ack) (i : BitVec 12) (s : State) :
    (readByte k i s).state.byteCnt = s.byteCnt ∧ (readByte k i s).state.len = s.len ∧
      (readByte k i s).state.maxLen = s.maxLen := by
  obtain ⟨u, hu, h | h⟩ := readByte_changes k i s
  · unfold changesOnlyByte at h
    rw [h]
    simp
  · unfold changesOnlyBus at h
    unfold changesOnlyByte at hu
    rw [h, hu]
    simp

theorem receiveData_performs (n : Nat) (s : State) (x : OpResult) (hn : s.byteCnt.toNat + n = s.len.toNat)
    (hmax : s.len.toNat ≤ s.maxLen.toNat) : Performs [.readLoop] x s (receiveData n s) anyResult := by
  induction n generalizing s x with
  | zero =>
    have hend : ¬ s.byteCnt.toNat < s.len.toNat := by omega
    exact .step (s' := s) (y := x) (fun _ => tick_if_neg rfl hend rfl) .done
  | succ n ih =>
    have hmore : s.byteCnt.toNat < s.len.toNat := by omega
    have hbyte : hasByte s s.byteCnt = true := by simp [hasByte, BitVec.ult]; omega
    refine .expand (s' := s) (y := x)
      [.op (.readByte (ackForByte s.byteCnt s.len) s.byteCnt), .incCount, .readLoop]
      (fun _ => tick_if_pos rfl hmore rfl) ?_
    refine .andThen (readByte_performs _ _ s x hbyte) fun _ t z he _ => ?_
    obtain ⟨hcnt, hlen, hml⟩ : t.byteCnt = s.byteCnt ∧ t.len = s.len ∧ t.maxLen = s.maxLen := by
      have h := readByte_fields (ackForByte s.byteCnt s.len) s.byteCnt s
      rwa [he] at h
    refine .plain rfl (ih (incCount t) z ?_ ?_)
    · rw [incCount_up (b := s.len) (by rw [hcnt]; exact hmore), incCount_len, hcnt, hlen]
      omega
    · rwa [incCount_len, incCount_maxLen, hlen, hml]

theorem wrregAttempt_performs (s : State) (x : OpResult) :
    Performs (selectTasks ++ ([.setFsm .dataTransfer, .clearCount, .writeLoop] : List Task)) x s (wrregAttempt s) anyResult :=
  .append (selectRegister_performs s x)
    (fun _ t z _ _ => .plain rfl <| .plain rfl <| sendData_performs _ (beginData t) z (Nat.zero_add _)) rfl

theorem rdregAttempt_performs (s : State) (x : OpResult) (hmax : s.len.toNat ≤ s.maxLen.toNat) :
    Performs (selectTasks ++ ([.op .start, .secondPhase, .op (.sendAddress true), .setFsm .dataTransfer, .clearCount,
      .readLoop] : List Task)) x s (rdregAttempt s) anyResult := by
  refine .append (selectRegister_performs s x) (fun _ t z ht _ => ?_) rfl
  refine .andThen (start_performs t z) fun _ u z hu _ => .plain rfl ?_
  refine .andThen (sendAddress_performs true _ z) fun _ v z hv _ => .plain rfl <| .plain rfl ?_
  refine receiveData_performs _ (beginData v) z (Nat.zero_add _) ?_
  obtain ⟨-, -, hlt, hmt⟩ := (Run.rel_of_ok (selectRegister_changes s) ht).fields
  obtain ⟨-, -, hlu, hmu⟩ := (Run.rel_of_ok (start_changes t) hu).toPhase.fields
  obtain ⟨-, -, hlv, hmv⟩ := (Run.rel_of_ok (sendAddress_changes true _) hv).fields
  rw [beginData_len, beginData_maxLen, hlv, hmv, secondPhase_len, secondPhase_maxLen, hlu, hmu, hlt, hmt]
  exact hmax

/-! ### The end of a transaction -/

theorem closeWith_seqAt (b : Bool) (s : State) (k : List Task) (x : OpResult) :
    closeWith b (seqAt s k x) = seqAt (closeWith b s) k x := by
  cases b <;> rfl

/-- However an attempt ended, exactly one STOP runs, and the mark comes next where it returned; the handler has taken
the mark away where it raised (60_exceptions.md R220, R223). -/
theorem attempt_ends {ts : List Task} {x : OpResult} {s : State} {r : Run Unit} (h : Performs ts x s r anyResult)
    (g : Handler) (k : List Task) :
    ∃ y, Ticks (seqAt s (ts ++ ([.op .stop, .close, .onRaise g] : List Task) ++ k) x)
      (seqAt (endTransaction r) (if r.isOk then .onRaise g :: k else (handlerTasks g).tail ++ k) y) := by
  have hr := h (([.op .stop, .close, .onRaise g] : List Task) ++ k)
  rw [List.append_assoc]
  cases r with
  | ok a t =>
    obtain ⟨z, -, hz⟩ := hr
    obtain ⟨y, hy, hstop⟩ := stop_performs t z (.close :: .onRaise g :: k)
    obtain rfl : y = .bit (stopBus t).1 := hy
    exact ⟨_, hz.trans (hstop.tail (tick_seqAt rfl (congrArg endPulse (closeWith_seqAt _ _ _ _))))⟩
  | raised f t =>
    obtain ⟨z, hz⟩ := hr
    obtain ⟨y, -, hstop⟩ := stop_performs (enterAbort f t) (.raised f) ((handlerTasks g).tail ++ k)
    have hraise : raiseAt f (seqAt t ([.op .stop, .close, .onRaise g] ++ k) z) =
        seqAt (enterAbort f t) (handlerTasks g ++ k) (.raised f) := rfl
    have hhead : handlerTasks g ++ k = [.op .stop] ++ ((handlerTasks g).tail ++ k) := by cases g <;> rfl
    rw [hraise, hhead] at hz
    exact ⟨y, hz.trans hstop⟩

/-- The attempt of a command, its STOP and the mark. -/
theorem transaction_performs {ts : List Task} {x : OpResult} {s : State} {r : Run Unit}
    (h : Performs ts x s r anyResult) :
    Performs (ts ++ ([.op .stop, .close, .onRaise .command] : List Task)) x s (.ok () (endTransaction r)) anyResult := by
  intro k
  obtain ⟨y, hy⟩ := attempt_ends h .command k
  cases r with
  | ok a t => exact ⟨y, trivial, hy.tail (tick_seqAt rfl rfl)⟩
  | raised f t => exact ⟨y, trivial, hy⟩

theorem probeAddressPhase_performs (s : State) (x : OpResult) :
    Performs [.op .start, .setFsm .started, .op (.probeAddr (probeAddress s.scanAddr)), .setFsm .addressSent] x s
      (probeAddressPhase s) anyResult := by
  refine .andThen (start_performs s x) fun _ t z he _ => ?_
  obtain ⟨haddr, -⟩ := (Run.rel_of_ok (start_changes s) he).toPhase.fields
  rw [← haddr]
  exact .plain rfl <| .andThen (frameOp_performs rfl rfl z) fun _ _ _ _ _ => .plain rfl .done

/-- PROBE ends Idle and says whether its attempt returned. -/
theorem tick_probe_ends (found : Bool) (s : State) (k : List Task) (x : OpResult) :
    Tick (seqAt s (if found then .onRaise .probe :: k else (handlerTasks .probe).tail ++ k) x)
      (seqAt (enterFsm .idle s) k (.bit found)) := by
  cases found <;> exact tick_seqAt rfl rfl

/-- PROBE hands over whether it found a device. -/
theorem probe_performs (s : State) (x : OpResult) : Performs [.op .probe] x s (.ok (probe s).1 (probe s).2) returnsBit := by
  refine .call rfl (.plain rfl fun k => ?_)
  obtain ⟨y, hy⟩ := attempt_ends (probeAddressPhase_performs (probeBegin s) x) .probe k
  exact ⟨_, rfl, hy.tail (tick_probe_ends _ _ k y)⟩

/-! ### The commands -/

theorem initBody_performs (s : State) (x : OpResult) :
    Performs (.setSda true :: .setScl true :: .settle :: releaseTasks .reporting ++ ([.initDecide] : List Task)) x s
      (.ok () (initBody s)) anyResult :=
  .plain rfl <| .plain rfl <| .plain rfl <|
    release_performs .reporting _ x
      (f := fun b t => .ok () { readSda t with err := initStatus b (sdaSample t) t.err }) rfl fun b t z _ hz => by
        obtain rfl : z = .bit b := hz
        exact .step (y := .bit b) (fun _ => tick_seqAt rfl rfl) .done

/-- The step after a probe: a device found is reported, and the pulse is over before the next step. -/
theorem emitFound_performs (b : Bit) (s : State) :
    Performs [.emitFound] (.bit b) s
      (.ok () (if b then emitFound (probeAddress s.scanAddr) s else s)) anyResult := by
  cases b with
  | true => exact .step (y := .bit true) (fun _ => tick_if_pos rfl rfl rfl) .done
  | false => exact .step (y := .bit false) (fun _ => tick_if_neg rfl Bool.false_ne_true rfl) .done

/-- One address of a scan with the move to the next, the loop's head following (44_scanner.md R200, R203). -/
theorem scanOne_performs (s : State) (x : OpResult) {α : Type} {r : Run α} {Q : α → OpResult → Prop}
    (hmore : s.scanAddr.ult Config.scanEnd = true)
    (hr : ∀ y, Performs [.scanLoop] y (nextAddress (scanOne s)) r Q) : Performs [.scanLoop] x s r Q := by
  by_cases hskip : scanSkips s.skip s.scanAddr = true
  · have hone : scanOne s = s := if_pos hskip
    rw [hone] at hr
    exact .expand (s' := s) (y := x) [.scanNext, .scanLoop]
      (fun _ => tick_if_pos rfl hmore ((congrArg endPulse (if_pos hskip)).trans rfl)) (.plain rfl (hr x))
  · have hone : scanOne s =
        if (probe s).1 then emitFound (probeAddress (probe s).2.scanAddr) (probe s).2 else (probe s).2 := if_neg hskip
    rw [hone] at hr
    refine .expand (s' := s) (y := x) [.op .probe, .emitFound, .scanNext, .scanLoop]
      (fun _ => tick_if_pos rfl hmore ((congrArg endPulse (if_neg hskip)).trans rfl)) ?_
    refine .andThen (f := fun _ _ => r) (probe_performs s x) fun b t z he hz => ?_
    obtain rfl : z = .bit b := hz
    cases he
    exact .andThen (f := fun _ _ => r) (emitFound_performs _ _) fun _ u z hu _ => by
      cases hu
      exact .plain rfl (hr z)

theorem scanLoop_performs (n : Nat) (s : State) (x : OpResult) (hn : s.scanAddr.toNat + n = 128) :
    Performs [.scanLoop] x s (.ok () { scanLoop n s with err := .ok }) anyResult := by
  induction n generalizing s x with
  | zero =>
    have hend : ¬ s.scanAddr.ult Config.scanEnd = true := by simp [BitVec.ult, Config.scanEnd]; omega
    exact .step (y := x) (fun _ => tick_if_neg rfl hend rfl) .done
  | succ n ih =>
    have hmore : s.scanAddr.ult Config.scanEnd = true := by simp [BitVec.ult, Config.scanEnd]; omega
    refine scanOne_performs s x hmore fun y => ih (nextAddress (scanOne s)) y ?_
    have hone : (1 : BitVec 8).toNat = 1 := rfl
    rw [nextAddress_scanAddr, scanOne_fields, BitVec.toNat_add, hone]
    omega

theorem scanBody_performs (s : State) (x : OpResult) :
    Performs [.scanBegin, .scanLoop] x s (.ok () (scanBody s)) anyResult :=
  .plain rfl (scanLoop_performs Config.scanEnd.toNat { s with scanAddr := 0 } x rfl)

end Sys2Proof.Machine


/-! # A command run step by step comes to its meaning (O55) -/

namespace Sys2Proof.Machine

/-- The steps of a host command perform its body, and then the response is left. RDREG counts its bytes within `BUF`,
as check 6 of 30_encoding.md R88 has it. -/
theorem command_performs {i : Instr} (hi : i.isCommand = true) (s : State) (x : OpResult)
    (hlen : ∀ p, i = .rdreg p → s.len.toNat ≤ s.maxLen.toNat) :
    ∃ ts, steps s i = ts ++ [.respond, .awaitTaken] ∧ Performs ts x s (.ok () (commandBody i s)) anyResult := by
  cases i with
  | init p => exact ⟨_, rfl, initBody_performs s x⟩
  | wrreg p => exact ⟨_, rfl, transaction_performs (wrregAttempt_performs s x)⟩
  | rdreg p => exact ⟨_, rfl, transaction_performs (rdregAttempt_performs s x (hlen p rfl))⟩
  | scan p => exact ⟨[.scanBegin, .scanLoop], rfl, scanBody_performs s x⟩
  | _ => cases hi

/-! ### Runs of the machine -/

/-- The machine comes to t after finitely many steps. -/
def Reaches (s t : State) : Prop := ∃ n, Sys2Proof.core.run n s = .next t

theorem Reaches.refl (s : State) : Reaches s s := ⟨0, rfl⟩

theorem Reaches.head {s t u : State} (h : step s = .next t) (ht : Reaches t u) : Reaches s u := by
  obtain ⟨n, hn⟩ := ht
  refine ⟨n + 1, ?_⟩
  have hs : Sys2Proof.core.step s = .next t := h
  simp only [Host.Core.run, hs]
  exact hn

/-- With a silent host and no reset, the machine takes the steps of the sequencer one by one; the pulse of
`found_valid` may be up between two of them. -/
theorem Reaches.of_ticks {w v t : State} (h : Ticks w v) {s : State} (hw : endPulse s = w) (hm : s.hostMoves = [])
    (hr : s.rst = false)
    (hv : ∀ u : State, endPulse u = v → u.hostMoves = [] → u.rst = false → Reaches u t) : Reaches s t := by
  induction h using Relation.ReflTransGen.head_induction_on generalizing s with
  | refl => exact hv s hw hm hr
  | head htick _ ih =>
    obtain ⟨a, k, u, hp, hrun, hu⟩ := htick
    subst hw
    have hstep : step s = .next u := (step_task (blockTurn_silent hm) hr hp).trans hrun
    obtain ⟨e, -, -, -, -, hrst, -, hmoves, -⟩ := runTask_makesEvent hrun
    exact .head hstep (ih hu.symm (hmoves.trans hm) (hrst.trans hr))

theorem step_seqAt {s u : State} {t : Task} {k : List Task} {x : OpResult} (hu : endPulse u = seqAt s (t :: k) x)
    (hm : u.hostMoves = []) (hr : u.rst = false) : step u = runTask t (seqAt s k x) :=
  (step_task (blockTurn_silent hm) hr (congrArg State.place hu)).trans
    (congrArg (fun v : State => runTask t { v with place := k }) hu)

theorem seqAt_eq {s : State} {k : List Task} {x : OpResult} (hp : s.place = k) (hx : s.ret = x)
    (hf : s.foundValid = false) : seqAt s k x = s := by
  subst hp hx
  rw [seqAt, ← hf]

/-- A host that is ready takes the response. -/
theorem step_awaitTaken {s u : State} {x : OpResult} (hu : endPulse u = seqAt s [.awaitTaken] x)
    (hm : u.hostMoves = []) (hr : u.rst = false) (hready : s.rspReady = true) (hp : s.place = []) (hx : s.ret = x)
    (hf : s.foundValid = false) : step u = .next (taken s) := by
  rw [step_seqAt hu hm hr, seqAt_eq hp hx hf, runTask, if_pos hready]

/-- The response presented at the port and, where the host is ready, taken is `Respond(ERR)` (10_state.md R43). -/
theorem reaches_respond {s u : State} {x : OpResult} (hu : endPulse u = seqAt s [.respond, .awaitTaken] x)
    (hm : u.hostMoves = []) (hr : u.rst = false) (hp : s.place = []) (hf : s.foundValid = false) :
    Reaches u (respond s) := by
  refine .head (t := seqAt (present s) [.awaitTaken] .none) (step_seqAt hu hm hr) ?_
  have hm' : s.hostMoves = [] := (congrArg State.hostMoves hu).symm.trans hm
  have hr' : s.rst = false := (congrArg State.rst hu).symm.trans hr
  cases hready : s.rspReady with
  | false =>
    rw [respond_waits hready, ← seqAt_eq (s := { present s with place := [.awaitTaken] }) rfl rfl hf]
    exact .refl _
  | true =>
    rw [respond_ready hready]
    exact .head (step_awaitTaken (s := present s) rfl hm' hr' hready hp rfl hf) (.refl _)

/-! ### Acceptance at the port -/

theorem ok_of_legal {c : Prop} [Decidable c] {e : DecodeError} {i j : Instr}
    (h : (if c then .error e else .ok j) = Except.ok i) : i = j := by
  split at h
  · cases h
  · exact (Except.ok.inj h).symm

/-- A packet that decodes is one of the four commands, with the operation code it is accepted with (30_encoding.md
R86). -/
theorem decodePacket_cases {p : BitVec 128} {i : Instr} (h : decode (.packet p) = .ok i) :
    (packetOp p = opInit ∧ i = .init (packetFields p)) ∨ (packetOp p = opWrreg ∧ i = .wrreg (packetFields p)) ∨
      (packetOp p = opRdreg ∧ i = .rdreg (packetFields p)) ∨ (packetOp p = opScan ∧ i = .scan (packetFields p)) := by
  change decodePacket p = .ok i at h
  unfold decodePacket at h
  by_cases hinit : packetOp p = opInit
  · rw [if_pos hinit] at h
    exact .inl ⟨hinit, ok_of_legal h⟩
  by_cases hwrreg : packetOp p = opWrreg
  · rw [if_neg hinit, if_pos hwrreg] at h
    exact .inr (.inl ⟨hwrreg, ok_of_legal h⟩)
  by_cases hrdreg : packetOp p = opRdreg
  · rw [if_neg hinit, if_neg hwrreg, if_pos hrdreg] at h
    exact .inr (.inr (.inl ⟨hrdreg, ok_of_legal h⟩))
  by_cases hscan : packetOp p = opScan
  · rw [if_neg hinit, if_neg hwrreg, if_neg hrdreg, if_pos hscan] at h
    exact .inr (.inr (.inr ⟨hscan, ok_of_legal h⟩))
  · rw [if_neg hinit, if_neg hwrreg, if_neg hrdreg, if_neg hscan] at h
    cases h

/-- The meaning of what a packet decodes to, with the operation code and the fields of the packet itself. -/
theorem exec_decoded {p : BitVec 128} {i : Instr} (h : decode (.packet p) = .ok i) (s : State) :
    exec i s = .next (runCommand (packetOp p) (packetFields p) (failedCheck s.maxLen i) (commandBody i) s) := by
  rcases decodePacket_cases h with ⟨ho, rfl⟩ | ⟨ho, rfl⟩ | ⟨ho, rfl⟩ | ⟨ho, rfl⟩ <;> rw [ho] <;> rfl

theorem decodePacket_isCommand {p : BitVec 128} {i : Instr} (h : decode (.packet p) = .ok i) : i.isCommand = true := by
  rcases decodePacket_cases h with ⟨-, rfl⟩ | ⟨-, rfl⟩ | ⟨-, rfl⟩ | ⟨-, rfl⟩ <;> rfl

/-- Check 6: a legal transfer stays within `MAX_LEN`. -/
theorem transferCheck_length {maxLen : BitVec 12} {p : Packet} (h : transferCheck maxLen p = none) :
    p.len.toNat ≤ maxLen.toNat := by
  unfold transferCheck at h
  split at h
  · cases h
  · have hok : lengthOk maxLen p.len = true := by simpa using h
    have hule : p.len.ule maxLen = true := (Bool.and_eq_true_iff.mp hok).2
    simpa [BitVec.ule] using hule

theorem legal_rdreg_length {p : BitVec 128} {i : Instr} {maxLen : BitVec 12} (h : decode (.packet p) = .ok i)
    (hc : failedCheck maxLen i = none) (q : Packet) (hq : i = .rdreg q) :
    (packetFields p).len.toNat ≤ maxLen.toNat := by
  rcases decodePacket_cases h with ⟨-, rfl⟩ | ⟨-, rfl⟩ | ⟨-, rfl⟩ | ⟨-, rfl⟩ <;> cases hq
  exact transferCheck_length hc

section
variable {op : BitVec 4} {q : Packet} {body : State → State} {s : State}

theorem runCommand_legal (hb : s.busy = false) :
    runCommand op q none body s = respond (body (accept op q s)) := by
  simp [runCommand, hb]

theorem runCommand_illegal {c : Check} (hb : s.busy = false) :
    runCommand op q (some c) body s = respond { accept op q s with err := .illegalCommand } := by
  simp [runCommand, rejectCommand, hb]

end

theorem acceptPacket_legal {p : BitVec 128} {i : Instr} {s : State} (h : decode (.packet p) = .ok i)
    (hc : failedCheck s.maxLen i = none) :
    endPulse (acceptPacket p s) = seqAt (accept (packetOp p) (packetFields p) s)
      (steps (accept (packetOp p) (packetFields p) s) i) .none := by
  have hdec : decodePacket p = .ok i := h
  simp only [acceptPacket, hdec, hc]
  rfl

theorem acceptPacket_illegal {p : BitVec 128} {i : Instr} {s : State} {c : Check} (h : decode (.packet p) = .ok i)
    (hc : failedCheck s.maxLen i = some c) :
    endPulse (acceptPacket p s) =
      seqAt { accept (packetOp p) (packetFields p) s with err := .illegalCommand } [.respond, .awaitTaken] .none := by
  have hdec : decodePacket p = .ok i := h
  simp only [acceptPacket, hdec, hc]
  rfl

/-- After acceptance the machine comes to the end of the command. -/
theorem accepted_reaches {p : BitVec 128} {i : Instr} {s : State} (hdec : decode (.packet p) = .ok i)
    (hm : s.hostMoves = []) (hr : s.rst = false) (hp : s.place = []) (hf : s.foundValid = false)
    (hb : s.busy = false) :
    Reaches (acceptPacket p s) (runCommand (packetOp p) (packetFields p) (failedCheck s.maxLen i) (commandBody i) s) := by
  obtain ⟨-, hrst, -, hmoves, -⟩ := acceptPacket_keepsInputs p s
  have hm' := hmoves.trans hm
  have hr' := hrst.trans hr
  cases hc : failedCheck s.maxLen i with
  | some c =>
    rw [runCommand_illegal hb]
    exact reaches_respond (acceptPacket_illegal hdec hc) hm' hr' hp hf
  | none =>
    rw [runCommand_legal hb]
    obtain ⟨ts, hts, hperf⟩ := command_performs (decodePacket_isCommand hdec)
      (accept (packetOp p) (packetFields p) s) .none fun q hq => legal_rdreg_length hdec hc q hq
    obtain ⟨y, -, hticks⟩ := hperf [.respond, .awaitTaken]
    rw [← hts] at hticks
    have hbody := commandBody_changes i (accept (packetOp p) (packetFields p) s)
    have hplace := congrArg State.place hbody
    have hpulse := congrArg State.foundValid hbody
    exact .of_ticks hticks (acceptPacket_legal hdec hc) hm' hr' fun u hu hmu hru =>
      reaches_respond hu hmu hru (hplace.trans hp) (hpulse.trans hf)

/-- Settles O55: the packet is accepted, its steps perform the command's body, and the response follows. -/
theorem portRunReachesTheMeaning : Obligations.PortRunReachesTheMeaning := by
  intro s p rest i hm hr hp hf hb hcmds hdec
  have haccept : step s = .next (acceptPacket p { s with cmds := rest, foundValid := false }) := by
    rw [step_port (blockTurn_silent hm) hr hp hf]
    simp [commandPort, hcmds, hb]
  obtain ⟨n, hn⟩ : Reaches s _ := .head haccept (accepted_reaches hdec hm hr hp rfl hb)
  exact ⟨n, _, exec_decoded hdec _, hn⟩

end Sys2Proof.Machine


/-! # A raise and its handler; the steps inside a transaction -/

namespace Sys2Proof.Machine

/-! ### Where a raise goes -/

@[simp] theorem hasHandler_append (us k : List Task) : hasHandler (us ++ k) = (hasHandler us || hasHandler k) :=
  List.any_append

theorem unwind_of_hasHandler {k : List Task} (h : hasHandler k = true) : ∃ g k', unwind k = some (g, k') := by
  induction k with
  | nil => cases h
  | cons t k ih =>
    cases t with
    | onRaise g => exact ⟨g, k, rfl⟩
    | _ => exact ih (by simpa [hasHandler] using h)

/-- A raise with a handler: what remains is the handler's steps and what follows the mark. -/
theorem raiseAt_handled {f : Failure} {s : State} {g : Handler} {k : List Task} (h : unwind s.place = some (g, k)) :
    raiseAt f s = { enterAbort f s with ret := .raised f, place := handlerTasks g ++ k } := by
  simp only [raiseAt, h]

/-! ### Steps inside a transaction -/

/-- A step that is no mark and no part of the response, and leaves `FSM` whatever it calls. -/
def inner : Task → Bool
  | .op (.sendAddress _) | .op .sendRegidx | .op .probe => false
  | .op i => !i.isCommand
  | .setFsm _ | .secondPhase | .indexLoop | .indexPhase | .close | .probeBegin | .probeFailed | .scanLoop
  | .onRaise _ | .respond | .awaitTaken => false
  | _ => true

/-- A step that is no command is caught where it cannot raise or a handler follows. -/
theorem raiseCaught_eq {k : List Task} {t : Task} (h : ∀ i, t = .op i → i.isCommand = false) :
    raiseCaught k t = (!canRaise t || hasHandler k) := by
  cases t with
  | op i =>
    have hi := h i rfl
    cases i with
    | init p | wrreg p | rdreg p | scan p => cases hi
    | _ => rfl
  | poll g => cases g <;> rfl
  | _ => rfl

theorem inner_not_command {t : Task} (h : inner t = true) (i : Instr) (ht : t = .op i) : i.isCommand = false := by
  subst ht
  cases i with
  | init p | wrreg p | rdreg p | scan p => cases h
  | _ => rfl

/-- What the remaining steps are told of the latches. -/
def pins (s : State) : PinView := { scl := some s.sclOut, sda := some s.sdaOut }

/-- v knows at least what w knows. -/
def PinView.refines (v w : PinView) : Prop :=
  (∀ b, w.scl = some b → v.scl = some b) ∧ (∀ b, w.sda = some b → v.sda = some b)

theorem PinView.refines.refl (v : PinView) : v.refines v := ⟨fun _ h => h, fun _ h => h⟩

theorem PinView.refines.unknown (v : PinView) : v.refines .unknown := ⟨nofun, nofun⟩

theorem PinView.eq_released {v : PinView} (h : v.refines .released) : v = .released := by
  obtain ⟨c, d⟩ := v
  obtain ⟨hc, hd⟩ := h
  obtain rfl : c = some true := hc true rfl
  obtain rfl : d = some true := hd true rfl
  rfl

theorem PinView.after_mono {v w : PinView} (h : v.refines w) (t : Task) : (v.after t).refines (w.after t) := by
  obtain ⟨hc, hd⟩ := h
  cases t with
  | setScl b => exact ⟨fun _ h => h, hd⟩
  | setSda b => exact ⟨hc, fun _ h => h⟩
  | release => exact ⟨fun _ h => h, hd⟩
  | op i => cases i <;> exact .refl _
  | writeBits | readBits | indexLoop | indexPhase | writeLoop | load | readLoop => exact .refl _
  | scanLoop =>
    by_cases hw : w = .released
    · have hv : v = .released := eq_released (hw ▸ ⟨hc, hd⟩)
      simp [after, hw, hv, refines.refl]
    · simp [after, hw, refines.unknown]
  | _ => exact ⟨hc, hd⟩

/-- The step goes on: it puts steps us of its own in front, which raise only where it may raise itself and leave the latches
as the step is said to leave them. -/
def goesOn (t : Task) (s u : State) : Prop :=
  ∃ us, u.place = us ++ s.place ∧ (∀ a ∈ us, inner a = true) ∧ (∀ a ∈ us, canRaise a = true → canRaise t = true) ∧
    u.fsm = s.fsm ∧ u.busy = s.busy ∧ (us.foldl PinView.after (pins u)).refines ((pins s).after t)

/-- The step raises, the remaining steps, `FSM` and `BUSY` being as they were. -/
def raises (t : Task) (s u : State) : Prop :=
  canRaise t = true ∧ ∃ f v, u = raiseAt f v ∧ v.place = s.place ∧ v.fsm = s.fsm ∧ v.busy = s.busy

theorem goesOn.stays {t : Task} {s u : State} (hp : u.place = s.place) (hf : u.fsm = s.fsm) (hb : u.busy = s.busy)
    (hv : (pins u).refines ((pins s).after t)) : goesOn t s u :=
  ⟨[], hp, nofun, nofun, hf, hb, hv⟩

/-- A step that may raise and says nothing of the latches puts steps us in front. -/
theorem goesOn.pushes {t : Task} {s u : State} (us : List Task) (hc : canRaise t = true)
    (ht : (pins s).after t = .unknown) (hin : ∀ a ∈ us, inner a = true) (hp : u.place = us ++ s.place)
    (hf : u.fsm = s.fsm) (hb : u.busy = s.busy) : goesOn t s u :=
  ⟨us, hp, hin, fun _ _ _ => hc, hf, hb, ht ▸ .unknown _⟩

theorem steps_inner {i : Instr} (h : inner (.op i) = true) (s : State) : ∀ a ∈ steps s i, inner a = true := by
  cases i with
  | init p | wrreg p | rdreg p | scan p | sendAddress rw | sendRegidx | probe => cases h
  | dataByte v =>
    simp only [steps]
    split <;> simp [readByteTasks, frameTasks, inner, Instr.isCommand]
  | _ => simp [steps, releaseTasks, readByteTasks, frameTasks, inner, Instr.isCommand]

/-- Of these operations only STOP cannot raise, and none of its steps can. -/
theorem steps_canRaise {i : Instr} (h : inner (.op i) = true) (s : State) :
    ∀ a ∈ steps s i, canRaise a = true → canRaise (.op i) = true := by
  cases i with
  | probe => cases h
  | stop => simp [steps, releaseTasks, canRaise]
  | _ => exact fun _ _ _ => rfl

/-- STOP ends with both latches 1; of another operation nothing is said. -/
theorem steps_latches {i : Instr} (h : inner (.op i) = true) (s : State) :
    ((steps s i).foldl PinView.after (pins s)).refines ((pins s).after (.op i)) := by
  cases i with
  | probe => cases h
  | stop => exact .refl _
  | _ => exact .unknown _

theorem addressTasks_inner (am : AddrMode) (addr : BitVec 10) (rw : Bit) :
    ∀ a ∈ addressTasks am addr rw, inner a = true := by
  cases am <;> cases rw <;> simp [addressTasks, inner, Instr.isCommand]

/-! ### The steps of the sequencer by their outcome -/

theorem callOp_next {i : Instr} {s u : State} (h : callOp i s = .next u) : u = push (steps s i) s := by
  unfold callOp at h
  split at h
  · cases h
  · cases h; rfl

/-- The two ends of a step that asks a condition. -/
theorem ite_next {c : Prop} [Decidable c] {a b u : State}
    (h : (Host.Outcome.next (if c then a else b) : Host.Outcome State Fault Refusal) = .next u) :
    c ∧ u = a ∨ ¬ c ∧ u = b := by
  cases h
  by_cases hc : c
  · exact .inl ⟨hc, if_pos hc⟩
  · exact .inr ⟨hc, if_neg hc⟩

theorem poll_inner (g : GuardKind) (s : State) : goesOn (.poll g) s (pollOnce g s) ∨ raises (.poll g) s (pollOnce g s) := by
  unfold pollOnce
  split
  · cases g <;> exact .inl (.stays rfl rfl rfl (.refl _))
  · split
    · cases g
      · exact .inr ⟨rfl, .timeout, readScl s, rfl, rfl, rfl, rfl⟩
      · exact .inl (.stays rfl rfl rfl (.refl _))
    · exact .inl ⟨[.poll g], rfl, by simp [inner], by simp, rfl, rfl, .refl _⟩

/-- A step inside a transaction goes on or raises. -/
theorem runTask_inner {t : Task} {s u : State} (ht : inner t = true) (h : runTask t s = .next u) :
    goesOn t s u ∨ raises t s u := by
  cases t with
  | op i =>
    cases callOp_next h
    exact .inl ⟨steps s i, rfl, steps_inner ht s, steps_canRaise ht s, rfl, rfl, steps_latches ht s⟩
  | poll g => cases h; exact poll_inner g s
  | check f =>
    rcases ite_next h with ⟨-, rfl⟩ | ⟨-, rfl⟩
    · exact .inl (.stays rfl rfl rfl (.refl _))
    · exact .inr ⟨rfl, f, s, rfl, rfl, rfl, rfl⟩
  | writeBits | readBits =>
    rcases ite_next h with ⟨-, rfl⟩ | ⟨-, rfl⟩
    · exact .inl (.stays rfl rfl rfl (.unknown _))
    · exact .inl (.pushes [_, _, _] rfl rfl (by simp [inner, Instr.isCommand]) rfl rfl rfl)
  | writeLoop | readLoop =>
    rcases ite_next h with ⟨-, rfl⟩ | ⟨-, rfl⟩
    · exact .inl (.pushes [_, _, _] rfl rfl (by simp [inner, Instr.isCommand]) rfl rfl rfl)
    · exact .inl (.stays rfl rfl rfl (.unknown _))
  | load => cases h; exact .inl (.pushes [_, _] rfl rfl (by simp [inner, Instr.isCommand]) rfl rfl rfl)
  | emitFound => rcases ite_next h with ⟨-, rfl⟩ | ⟨-, rfl⟩ <;> exact .inl (.stays rfl rfl rfl (.refl _))
  | setFsm f | secondPhase | indexLoop | indexPhase | close | probeBegin | probeFailed | scanLoop | onRaise h | respond
  | awaitTaken => cases ht
  | _ => cases h; exact .inl (.stays rfl rfl rfl (.refl _))

/-- The ports of the response and of the found events are not written, and no found event is emitted. -/
def keepsPorts (s u : State) : Prop :=
  u.rspWord = s.rspWord ∧ u.foundValid = s.foundValid ∧
    (u.trace = s.trace ∨ ∃ e, u.trace = e :: s.trace ∧ ∀ a, e ≠ .found a)

theorem keepsPorts.silent {s u : State} (hw : u.rspWord = s.rspWord) (hv : u.foundValid = s.foundValid)
    (ht : u.trace = s.trace) : keepsPorts s u := ⟨hw, hv, .inl ht⟩

theorem raiseAt_keepsPorts {s v : State} (f : Failure) (h : keepsPorts s v) : keepsPorts s (raiseAt f v) := by
  unfold raiseAt
  split <;> exact h

theorem pollOnce_keepsPorts (g : GuardKind) (s : State) : keepsPorts s (pollOnce g s) := by
  have hread : keepsPorts s (readScl s) := ⟨rfl, rfl, .inr ⟨_, rfl, nofun⟩⟩
  unfold pollOnce
  split
  · cases g <;> exact hread
  · split
    · cases g
      · exact raiseAt_keepsPorts .timeout hread
      · exact hread
    · exact hread

/-- A step of the sequencer presents a response, emits a found event, or leaves these ports. -/
theorem runTask_ports {t : Task} {s u : State} (h : runTask t s = .next u) :
    keepsPorts s u ∨ u = present s ∨ ∃ a, u = { emitFound a s with foundValid := true } := by
  have silent : keepsPorts s s := .silent rfl rfl rfl
  cases t with
  | respond => cases h; exact .inr (.inl rfl)
  | emitFound =>
    rcases ite_next h with ⟨-, rfl⟩ | ⟨-, rfl⟩
    · exact .inr (.inr ⟨_, rfl⟩)
    · exact .inl silent
  | op i => cases callOp_next h; exact .inl silent
  | poll g => cases h; exact .inl (pollOnce_keepsPorts g s)
  | check f =>
    rcases ite_next h with ⟨-, rfl⟩ | ⟨-, rfl⟩
    · exact .inl silent
    · exact .inl (raiseAt_keepsPorts f silent)
  | onRaise g => cases g <;> cases h <;> exact .inl silent
  | close => cases h; unfold closeWith; split <;> exact .inl silent
  | writeBits | readBits | indexLoop | indexPhase | writeLoop | readLoop | awaitTaken =>
    rcases ite_next h with ⟨-, rfl⟩ | ⟨-, rfl⟩ <;> exact .inl silent
  | scanLoop =>
    rcases ite_next h with ⟨-, rfl⟩ | ⟨-, rfl⟩
    · split <;> exact .inl silent
    · exact .inl silent
  | setScl b | setSda b | delay | settle | release | sample | store i | load | initDecide =>
    cases h; exact .inl ⟨rfl, rfl, .inr ⟨_, rfl, nofun⟩⟩
  | _ => cases h; exact .inl silent

end Sys2Proof.Machine

/-! # The cases of a step -/

namespace Sys2Proof.Machine

/-- What a step of the block is, by what it finds: a reset, a step of the running command, the operation slot, or the
command port. -/
inductive BlockStep (u : State) : State → Prop
  | reset (hr : u.rst = true) : BlockStep u (resetBlock u)
  | task {a : Task} {k : List Task} {t : State} (hr : u.rst = false) (hp : u.place = a :: k)
      (h : runTask a { u with place := k } = .next t) : BlockStep u t
  | slot {c : Code} {t : State} (hr : u.rst = false) (hp : u.place = []) (hf : u.fetch = some c)
      (h : runSlot c u = .next t) : BlockStep u t
  | port (hr : u.rst = false) (hp : u.place = []) (hf : u.fetch = none) : BlockStep u (commandPort u)

theorem blockStep_of_step {s u t : State} (hturn : blockTurn s = some u) (h : step s = .next t) :
    BlockStep (endPulse u) t := by
  cases hr : u.rst with
  | true =>
    rw [step_reset hturn hr] at h
    cases h
    exact .reset (u := endPulse u) hr
  | false =>
    cases hp : u.place with
    | cons a k => exact .task hr hp ((step_task hturn hr hp).symm.trans h)
    | nil =>
      cases hf : u.fetch with
      | some c => exact .slot hr hp hf ((step_slot hturn hr hp hf).symm.trans h)
      | none =>
        rw [step_port hturn hr hp hf] at h
        cases h
        exact .port (u := endPulse u) hr hp hf

/-- A step is the host's turn or the block's. -/
theorem step_cases {s t : State} (h : step s = .next t) :
    (blockTurn s = none ∧ hostTurn s = .next t) ∨ ∃ m, BlockStep { s with hostMoves := m, foundValid := false } t := by
  cases hturn : blockTurn s with
  | none => exact .inl ⟨rfl, (step_host hturn).symm.trans h⟩
  | some u =>
    obtain ⟨m, rfl⟩ := blockTurn_takes_moves hturn
    exact .inr ⟨m, blockStep_of_step hturn h⟩

/-- The port leaves the state as it is, or accepts the first packet offered. -/
theorem commandPort_cases (s : State) : commandPort s = s ∨
    ∃ p rest, s.cmds = p :: rest ∧ s.busy = false ∧ commandPort s = acceptPacket p { s with cmds := rest } := by
  unfold commandPort
  split
  · exact .inl rfl
  · rename_i p rest hc
    cases hb : s.busy with
    | true => exact .inl rfl
    | false => exact .inr ⟨p, rest, hc, rfl, rfl⟩

/-- A packet accepted at the port: its command's steps where it is legal, else the answer `IllegalCommand` (30_encoding.md
R88, 60_exceptions.md R215). -/
theorem acceptPacket_cases (p : BitVec 128) (s : State) :
    (∃ i, decode (.packet p) = .ok i ∧ failedCheck s.maxLen i = none ∧ acceptPacket p s =
      { accept (packetOp p) (packetFields p) s with place := steps (accept (packetOp p) (packetFields p) s) i }) ∨
    ((∀ i, decode (.packet p) = .ok i → failedCheck s.maxLen i ≠ none) ∧ acceptPacket p s =
      { accept (packetOp p) (packetFields p) s with err := .illegalCommand, place := [.respond, .awaitTaken] }) := by
  cases hdec : decodePacket p with
  | error e =>
    refine .inr ⟨fun i hi => ?_, by simp only [acceptPacket, hdec]⟩
    rw [show decodePacket p = .ok i from hi] at hdec
    cases hdec
  | ok i =>
    cases hc : failedCheck s.maxLen i with
    | none => exact .inl ⟨i, hdec, hc, by simp only [acceptPacket, hdec, hc]⟩
    | some c =>
      refine .inr ⟨fun j hj => ?_, by simp only [acceptPacket, hdec, hc]⟩
      rw [show decodePacket p = .ok j from hj] at hdec
      cases hdec
      rw [hc]
      exact nofun

end Sys2Proof.Machine


/-! # FSM moves along the edges (O60) -/

namespace Sys2Proof.Machine

theorem fsmMoves_self (f : Fsm) : fsmMoves f f = true := by simp [fsmMoves]

/-- A step from which a raise can come is one before a handler, and `Aborted` is an edge away. -/
theorem fsmFollows_head {f : Fsm} {t : Task} {k : List Task} (h : fsmFollows f (t :: k) = true) :
    raiseCaught k t = true ∧ (canRaise t = true → fsmMoves f .aborted = true) := by
  simp only [fsmFollows, Bool.and_eq_true, Bool.or_eq_true, Bool.not_eq_true'] at h
  obtain ⟨⟨hc, hr⟩, -⟩ := h
  exact ⟨hc, fun ht => by simpa [ht] using hr⟩

theorem fsmFollows_inner_cons {t : Task} (ht : inner t = true) (f : Fsm) (k : List Task) :
    fsmFollows f (t :: k) = (raiseCaught k t && (!canRaise t || fsmMoves f .aborted) && fsmFollows f k) := by
  cases t with
  | op i =>
    cases i with
    | sendAddress rw | sendRegidx | probe => cases ht
    | _ => rfl
  | setFsm g | secondPhase | indexLoop | indexPhase | close | probeBegin | probeFailed | scanLoop | onRaise g | respond
  | awaitTaken => cases ht
  | _ => rfl

/-- Steps inside a transaction may be put in front. -/
theorem fsmFollows_inner_append {f : Fsm} {us k : List Task} (hin : ∀ a ∈ us, inner a = true)
    (hr : ∀ a ∈ us, canRaise a = true → hasHandler k = true ∧ fsmMoves f .aborted = true)
    (hk : fsmFollows f k = true) : fsmFollows f (us ++ k) = true := by
  induction us with
  | nil => exact hk
  | cons a us ih =>
    have ha := hin a (by simp)
    have htail := ih (fun b hb => hin b (by simp [hb])) (fun b hb => hr b (by simp [hb]))
    have hhead := hr a (by simp)
    rw [List.cons_append, fsmFollows_inner_cons ha, raiseCaught_eq (inner_not_command ha), htail]
    cases hc : canRaise a with
    | false => rfl
    | true => simp [hhead hc]

theorem fsmFollows_tail {f : Fsm} {t : Task} {k : List Task} (h : fsmFollows f (t :: k) = true) :
    ∃ g, fsmFollows g k = true := by
  by_cases ht : inner t = true
  · rw [fsmFollows_inner_cons ht, Bool.and_eq_true] at h
    exact ⟨f, h.2⟩
  · simp only [fsmFollows, Bool.and_eq_true] at h
    obtain ⟨-, h⟩ := h
    split at h <;> grind

/-- From the mark a raise goes to, the handler's steps follow the edges from `Aborted`. -/
theorem fsmFollows_unwind {f : Fsm} {k r : List Task} {g : Handler} (h : fsmFollows f k = true)
    (hu : unwind k = some (g, r)) : fsmFollows .aborted (handlerTasks g ++ r) = true := by
  induction k generalizing f with
  | nil => cases hu
  | cons t k ih =>
    cases t with
    | onRaise g' =>
      cases hu
      cases g with
      | command =>
        obtain ⟨-, hk⟩ : fsmFollows f r = true ∧ fsmFollows .aborted r = true := by
          simpa [fsmFollows, raiseCaught, canRaise] using h
        exact hk
      | probe =>
        obtain ⟨-, hk⟩ : fsmMoves f .idle = true ∧ fsmFollows .idle r = true := by
          simpa [fsmFollows, raiseCaught, canRaise] using h
        exact hk
    | _ =>
      obtain ⟨f', hf'⟩ := fsmFollows_tail h
      exact ih hf' hu

/-! ### A step of the sequencer -/

/-- From s to u `FSM` stays or moves along an edge, and what remains at u follows the edges. -/
def staysOnEdges (s u : State) : Prop := fsmMoves s.fsm u.fsm = true ∧ fsmFollows u.fsm u.place = true

/-- A raise goes to `Aborted` along an edge, and what remains follows the edges from there. -/
theorem raises_staysOnEdges {t : Task} {s u : State} (hs : fsmFollows s.fsm (t :: s.place) = true)
    (ht : ∀ i, t = .op i → i.isCommand = false) (h : raises t s u) : staysOnEdges s u := by
  obtain ⟨hc, f, v, rfl, hp, -, -⟩ := h
  obtain ⟨hcaught, hedge⟩ := fsmFollows_head hs
  have hh : hasHandler s.place = true := by simpa [raiseCaught_eq ht, hc] using hcaught
  obtain ⟨g, k, hu⟩ := unwind_of_hasHandler hh
  obtain ⟨f', hk⟩ := fsmFollows_tail hs
  rw [raiseAt_handled (hp ▸ hu)]
  exact ⟨hedge hc, fsmFollows_unwind hk hu⟩

theorem inner_staysOnEdges {t : Task} {s u : State} (ht : inner t = true)
    (hs : fsmFollows s.fsm (t :: s.place) = true) (h : runTask t s = .next u) : staysOnEdges s u := by
  rcases runTask_inner ht h with ⟨us, hp, hin, hraise, hf, -, -⟩ | hraise
  · obtain ⟨hcaught, hedge⟩ := fsmFollows_head hs
    rw [raiseCaught_eq (inner_not_command ht)] at hcaught
    rw [fsmFollows_inner_cons ht, Bool.and_eq_true] at hs
    obtain ⟨-, hk⟩ := hs
    rw [staysOnEdges, hp, hf]
    refine ⟨fsmMoves_self _, fsmFollows_inner_append hin (fun a ha hc => ?_) hk⟩
    have hct := hraise a ha hc
    exact ⟨by simpa [hct] using hcaught, hedge hct⟩
  · exact raises_staysOnEdges hs (inner_not_command ht) hraise

/-- The call of SEND_ADDRESS, SEND_REGIDX and PROBE, which move `FSM`, puts steps in front that move it so. -/
theorem fsmFollows_call {i : Instr} {s : State} {f : Fsm} {k : List Task} (hi : inner (.op i) = false)
    (h : fsmFollows f (.op i :: k) = true) : fsmFollows f (steps s i ++ k) = true := by
  cases i with
  | init p | wrreg p | rdreg p | scan p => simp [fsmFollows, raiseCaught, Instr.isCommand] at h
  | sendAddress rw =>
    obtain ⟨⟨hh, hab⟩, hedge, hk⟩ : (hasHandler k = true ∧ fsmMoves f .aborted = true) ∧
        fsmMoves f .addressSent = true ∧ fsmFollows .addressSent k = true := by
      simpa [fsmFollows, raiseCaught, canRaise, Instr.isCommand] using h
    have hafter : fsmFollows f (.setFsm .addressSent :: k) = true := by
      simp [fsmFollows, raiseCaught, canRaise, hedge, hk]
    rw [steps, List.append_assoc]
    exact fsmFollows_inner_append (addressTasks_inner s.am s.addr rw) (fun _ _ _ => ⟨hh, hab⟩) hafter
  | sendRegidx => simpa [steps, fsmFollows, raiseCaught, canRaise, Instr.isCommand] using h
  | probe => simpa [steps, fsmFollows, raiseCaught, canRaise, Instr.isCommand, hasHandler, fsmMoves, fsmEdges] using h
  | _ => cases hi

theorem indexLoop_staysOnEdges {s u : State} (hs : fsmFollows s.fsm (.indexLoop :: s.place) = true)
    (h : runTask .indexLoop s = .next u) : staysOnEdges s u := by
  obtain ⟨⟨hh, hab⟩, hedge, hk⟩ : (hasHandler s.place = true ∧ fsmMoves s.fsm .aborted = true) ∧
      fsmMoves s.fsm .registerIndexSent = true ∧ fsmFollows .registerIndexSent s.place = true := by
    simpa [fsmFollows, raiseCaught, canRaise] using hs
  rcases ite_next h with ⟨-, rfl⟩ | ⟨-, rfl⟩
  · exact ⟨fsmMoves_self _, fsmFollows_inner_append (us := [_, _]) (k := .indexLoop :: s.place)
      (by simp [inner, Instr.isCommand]) (fun _ _ _ => ⟨hh, hab⟩) hs⟩
  · exact ⟨hedge, hk⟩

theorem indexPhase_staysOnEdges {s u : State} (hs : fsmFollows s.fsm (.indexPhase :: s.place) = true)
    (h : runTask .indexPhase s = .next u) : staysOnEdges s u := by
  obtain ⟨⟨hh, hab⟩, ⟨hedge, hk⟩, hskip⟩ : (hasHandler s.place = true ∧ fsmMoves s.fsm .aborted = true) ∧
      (fsmMoves s.fsm .registerIndexSent = true ∧ fsmFollows .registerIndexSent s.place = true) ∧
        fsmFollows s.fsm s.place = true := by
    simpa [fsmFollows, raiseCaught, canRaise] using hs
  rcases ite_next h with ⟨-, rfl⟩ | ⟨-, rfl⟩
  · exact ⟨fsmMoves_self _, hskip⟩
  · exact ⟨fsmMoves_self _, by simp [push, fsmFollows, raiseCaught, canRaise, Instr.isCommand, hh, hab, hedge, hk]⟩

theorem close_staysOnEdges {s u : State} (hs : fsmFollows s.fsm (.close :: s.place) = true)
    (h : runTask .close s = .next u) : staysOnEdges s u := by
  obtain ⟨⟨⟨hstop, habort⟩, hks⟩, hka⟩ : ((fsmMoves s.fsm .stopped = true ∧ fsmMoves s.fsm .aborted = true) ∧
      fsmFollows .stopped s.place = true) ∧ fsmFollows .aborted s.place = true := by
    simpa [fsmFollows, raiseCaught, canRaise] using hs
  cases h
  unfold closeWith
  split
  · exact ⟨habort, hka⟩
  · exact ⟨hstop, hks⟩

theorem scanLoop_staysOnEdges {s u : State} (hs : fsmFollows s.fsm (.scanLoop :: s.place) = true)
    (h : runTask .scanLoop s = .next u) : staysOnEdges s u := by
  obtain ⟨hidle, hk⟩ : s.fsm = .idle ∧ fsmFollows s.fsm s.place = true := by
    simpa [fsmFollows, raiseCaught, canRaise] using hs
  rw [hidle] at hk
  rcases ite_next h with ⟨-, rfl⟩ | ⟨-, rfl⟩
  · split <;> exact ⟨fsmMoves_self _, by simp [push, fsmFollows, raiseCaught, canRaise, fsmMoves_self, hidle, hk]⟩
  · exact ⟨fsmMoves_self _, hidle ▸ hk⟩

/-- A step of the sequencer moves `FSM` along an edge, or not, and what remains follows the edges. -/
theorem runTask_staysOnEdges {t : Task} {s u : State} (hs : fsmFollows s.fsm (t :: s.place) = true)
    (h : runTask t s = .next u) : staysOnEdges s u := by
  by_cases ht : inner t = true
  · exact inner_staysOnEdges ht hs h
  · cases t with
    | op i => cases callOp_next h; exact ⟨fsmMoves_self _, fsmFollows_call (by simpa using ht) hs⟩
    | indexLoop => exact indexLoop_staysOnEdges hs h
    | indexPhase => exact indexPhase_staysOnEdges hs h
    | close => exact close_staysOnEdges hs h
    | scanLoop => exact scanLoop_staysOnEdges hs h
    | setFsm g | secondPhase | probeBegin | probeFailed =>
      cases h
      simpa [staysOnEdges, fsmFollows, raiseCaught, canRaise] using hs
    | onRaise g =>
      cases g with
      | command =>
        cases h
        obtain ⟨hk, -⟩ : fsmFollows s.fsm s.place = true ∧ fsmFollows .aborted s.place = true := by
          simpa [fsmFollows, raiseCaught, canRaise] using hs
        exact ⟨fsmMoves_self _, hk⟩
      | probe =>
        cases h
        simpa [staysOnEdges, fsmFollows, raiseCaught, canRaise] using hs
    | respond =>
      cases h
      exact ⟨fsmMoves_self _, by simpa [fsmFollows, raiseCaught, canRaise] using hs⟩
    | awaitTaken =>
      rcases ite_next h with ⟨-, rfl⟩ | ⟨-, rfl⟩
      · simpa [staysOnEdges, fsmFollows, raiseCaught, canRaise] using hs
      · exact ⟨fsmMoves_self _, hs⟩
    | _ => exact absurd rfl ht

/-! ### The step -/

theorem fsmFollows_command {i : Instr} (hi : i.isCommand = true) (s : State) : fsmFollows .idle (steps s i) = true := by
  cases i with
  | init p | wrreg p | rdreg p | scan p => rfl
  | _ => cases hi

theorem commandPort_staysOnEdges {s : State} (hs : s.fsm = .idle) (hp : s.place = []) :
    staysOnEdges s (commandPort s) := by
  rcases commandPort_cases s with h | ⟨p, rest, -, -, h⟩
  · rw [h, staysOnEdges, hp, hs]
    exact ⟨rfl, rfl⟩
  · rcases acceptPacket_cases p { s with cmds := rest } with ⟨i, hdec, -, e⟩ | ⟨-, e⟩
    · rw [h, e]
      refine ⟨fsmMoves_self _, ?_⟩
      simp only [accept_fsm, hs]
      exact fsmFollows_command (decodePacket_isCommand hdec) _
    · rw [h, e]
      refine ⟨fsmMoves_self _, ?_⟩
      simp only [accept_fsm, hs]
      rfl

/-- Settles O60: by the case of the step; a step of the sequencer keeps what remains on the edges, a raise included. -/
theorem fsmMovesAlongItsEdges : Obligations.FsmMovesAlongItsEdges := by
  intro s t hs h
  rcases step_cases h with ⟨hturn, ht⟩ | ⟨m, hb⟩
  · rcases hostTurn_cases hturn ht with ⟨p, k, -, rfl⟩ | ⟨b, k, -, rfl⟩ | ⟨b, k, -, rfl⟩ | ⟨i, v, k, -, -, -, rfl⟩
    · exact ⟨hs, fun _ => fsmMoves_self _⟩
    · exact ⟨hs, fun _ => fsmMoves_self _⟩
    · cases b with
      | true => exact ⟨⟨rfl, rfl⟩, nofun⟩
      | false => exact ⟨hs, fun _ => fsmMoves_self _⟩
    · exact ⟨hs, fun _ => fsmMoves_self _⟩
  · obtain ⟨hfetch, hfollows⟩ := hs
    cases hb with
    | reset hr => exact ⟨⟨rfl, rfl⟩, fun h => absurd (hr.symm.trans h) nofun⟩
    | task hr hp hrun =>
      obtain ⟨e, -, -, -, -, -, -, -, hf, -⟩ := runTask_makesEvent hrun
      obtain ⟨hmoves, hk⟩ := runTask_staysOnEdges (hp ▸ hfollows) hrun
      exact ⟨⟨hf.trans hfetch, hk⟩, fun _ => hmoves⟩
    | slot hr hp hf hrun => exact absurd (hfetch.symm.trans hf) nofun
    | port hr hp hf =>
      have hidle : s.fsm = .idle := by
        have : fsmFollows s.fsm [] = true := hp ▸ hfollows
        simpa [fsmFollows] using this
      obtain ⟨⟨-, -, -, -, hf', -⟩, -⟩ := commandPort_inputs { s with hostMoves := m, foundValid := false }
      obtain ⟨hmoves, hk⟩ := commandPort_staysOnEdges (s := { s with hostMoves := m, foundValid := false }) hidle hp
      exact ⟨⟨hf'.trans hf, hk⟩, fun _ => hmoves⟩

end Sys2Proof.Machine


/-! # A command run whole, from acceptance to its response -/

namespace Sys2Proof.Machine

/-- A command accepted at s responds from v: illegal, or after its body. -/
def respondsFrom (s v : State) : Prop :=
  ∃ op p, v = { accept op p s with err := .illegalCommand } ∨ ∃ i, i.isCommand = true ∧ v = commandBody i (accept op p s)

theorem runCommand_responds {op : BitVec 4} {p : Packet} {c : Option Check} {i : Instr} {s : State}
    (hi : i.isCommand = true) (hb : s.busy = false) :
    ∃ v, respondsFrom s v ∧ runCommand op p c (commandBody i) s = respond v := by
  cases c with
  | some c => exact ⟨_, ⟨op, p, .inl rfl⟩, runCommand_illegal hb⟩
  | none => exact ⟨_, ⟨op, p, .inr ⟨i, hi, rfl⟩⟩, runCommand_legal hb⟩

theorem exec_command_responds {i : Instr} (hi : i.isCommand = true) {s : State} (hb : s.busy = false) :
    ∃ v, respondsFrom s v ∧ exec i s = .next (respond v) := by
  obtain ⟨op, p, e⟩ := exec_command hi s
  obtain ⟨v, hv, h⟩ := runCommand_responds (op := op) (p := p) (c := failedCheck s.maxLen i) hi hb
  exact ⟨v, hv, by rw [e, h]⟩

/-- A packet in the operation slot, legal or not, is taken out and answered. -/
theorem runSlot_packet_responds (p : BitVec 128) {s : State} (hb : s.busy = false) :
    ∃ v, respondsFrom { s with fetch := none } v ∧ runSlot (.packet p) s = .next (respond v) := by
  cases hdec : decode (.packet p) with
  | ok i =>
    have hi := decodePacket_isCommand hdec
    obtain ⟨v, hv, h⟩ := exec_command_responds (s := { s with fetch := none }) hi hb
    exact ⟨v, hv, (runSlot_decoded hdec fun _ => hb).trans h⟩
  | error e => exact ⟨_, ⟨packetOp p, packetFields p, .inl rfl⟩, by simp [runSlot, hdec, hb, rejectCommand]⟩

/-- Up to the response a command changes what its body may change, after the packet was latched. -/
theorem respondsFrom.changes {s v : State} (h : respondsFrom s v) : ∃ op p, changesOnlyBody (accept op p s) v := by
  obtain ⟨op, p, rfl | ⟨i, -, rfl⟩⟩ := h
  · exact ⟨op, p, rfl⟩
  · exact ⟨op, p, commandBody_changes i _⟩

theorem respondsFrom.fields {s v : State} (h : respondsFrom s v) :
    v.busy = true ∧ v.place = s.place ∧ v.rspReady = s.rspReady ∧ v.fetch = s.fetch ∧ v.foundValid = s.foundValid := by
  obtain ⟨op, p, hv⟩ := h.changes
  unfold changesOnlyBody at hv
  rw [hv]
  simp

theorem scanOne_latches {s : State} (hc : s.sclOut = true) (hd : s.sdaOut = true) :
    (scanOne s).sclOut = true ∧ (scanOne s).sdaOut = true := by
  obtain ⟨hpc, hpd, -⟩ := probe_latches s
  unfold scanOne
  split
  · exact ⟨hc, hd⟩
  · split <;> exact ⟨hpc, hpd⟩

theorem scanLoop_latches (n : Nat) {s : State} (hc : s.sclOut = true) (hd : s.sdaOut = true) :
    (scanLoop n s).sclOut = true ∧ (scanLoop n s).sdaOut = true := by
  induction n generalizing s with
  | zero => exact ⟨hc, hd⟩
  | succ n ih =>
    obtain ⟨hc', hd'⟩ := scanOne_latches hc hd
    exact ih hc' hd'

/-- Every command begun with both latches 1 comes to its response with both latches 1 (10_state.md R49). -/
theorem commandBody_latches (i : Instr) {s : State} (hc : s.sclOut = true) (hd : s.sdaOut = true) :
    (commandBody i s).sclOut = true ∧ (commandBody i s).sdaOut = true := by
  cases i with
  | init p =>
    obtain ⟨-, hc', hd', -⟩ := guardedRelease_outcome (settle (setScl true (setSda true s)))
    exact ⟨hc', hd'⟩
  | wrreg p | rdreg p => exact endTransaction_latches _
  | scan p =>
    simp only [commandBody, scanBody]
    exact scanLoop_latches _ hc hd
  | _ => exact ⟨hc, hd⟩

theorem respondsFrom.latches {s v : State} (h : respondsFrom s v) (hc : s.sclOut = true) (hd : s.sdaOut = true) :
    v.sclOut = true ∧ v.sdaOut = true := by
  obtain ⟨op, p, rfl | ⟨i, -, rfl⟩⟩ := h
  · exact ⟨hc, hd⟩
  · exact commandBody_latches i hc hd

/-- The response taken: the state between commands. -/
theorem respond_taken {v : State} (hr : v.rspReady = true) (hp : v.place = []) (hc : v.sclOut = true)
    (hd : v.sdaOut = true) : quiet (respond v) ∧ busReleased (respond v) := by
  rw [respond_ready hr]
  exact ⟨⟨rfl, hp, rfl⟩, hc, hd, rfl⟩

/-- The response shows the first failure, and keeps it. -/
theorem respond_word (v : State) : (respond v).rspWord = responseWord (respond v).err := by
  unfold respond
  split <;> rfl

theorem respond_keepsHostSide (v : State) : keepsHostSide v (respond v) := by
  unfold respond
  split <;> exact ⟨rfl, rfl, rfl, rfl, rfl, rfl, rfl⟩

theorem changesOnlyBody.keepsHostSide {s t : State} (h : changesOnlyBody s t) : keepsHostSide s t := by
  unfold changesOnlyBody at h
  rw [h]
  exact ⟨rfl, rfl, rfl, rfl, rfl, rfl, rfl⟩

theorem keepsHostSide.trans {s t u : State} (h : keepsHostSide s t) (k : keepsHostSide t u) : keepsHostSide s u := by
  obtain ⟨h1, h2, h3, h4, h5, h6, h7⟩ := h
  obtain ⟨k1, k2, k3, k4, k5, k6, k7⟩ := k
  exact ⟨k1.trans h1, k2.trans h2, k3.trans h3, k4.trans h4, k5.trans h5, k6.trans h6, k7.trans h7⟩

theorem accept_keepsHostSide (op : BitVec 4) (p : Packet) (s : State) : keepsHostSide s (accept op p s) :=
  ⟨rfl, rfl, rfl, rfl, rfl, rfl, rfl⟩

theorem respondsFrom.keepsHostSide {s v : State} (h : respondsFrom s v) : Machine.keepsHostSide s v := by
  obtain ⟨op, p, hv⟩ := h.changes
  exact (accept_keepsHostSide op p s).trans hv.keepsHostSide

/-- Settles O37: the body ends with both latches 1, and the response leads to the state between commands or waits. -/
theorem everyCommandEndsBetweenCommands : Obligations.EveryCommandEndsBetweenCommands := by
  rintro i s hi ⟨⟨hb, hp, -⟩, ⟨hc, hd, -⟩, hrst, hf⟩
  obtain ⟨v, hv, he⟩ := exec_command_responds hi hb
  obtain ⟨hbusy, hplace, hready, -, -⟩ := hv.fields
  obtain ⟨hvc, hvd⟩ := hv.latches hc hd
  have hside := hv.keepsHostSide.trans (respond_keepsHostSide v)
  refine ⟨respond v, he, hside, respond_word v, fun hr => ?_, fun hr => ?_⟩
  · obtain ⟨hq, hrel⟩ := respond_taken (hready.trans hr) (hplace.trans hp) hvc hvd
    obtain ⟨-, -, hrst', -, -, hf', -⟩ := hside
    exact ⟨hq, hrel, hrst'.trans hrst, hf'.trans hf⟩
  · rw [respond_waits (hready.trans hr)]
    exact ⟨hbusy, rfl, rfl, hvc, hvd⟩

end Sys2Proof.Machine

/-! # The remaining steps of a command end with both lines released (O56) -/

namespace Sys2Proof.Machine

/-! ### What the remaining steps say of the latches -/

theorem endsReleased_inner_cons {t : Task} (ht : inner t = true) (v : PinView) (k : List Task) :
    endsReleased v (t :: k) = (raiseCaught k t && endsReleased (v.after t) k) := by
  cases t with
  | onRaise g | respond | awaitTaken => cases ht
  | _ => rfl

theorem endsReleased_tail {v : PinView} {t : Task} {k : List Task} (ht : t ≠ .awaitTaken)
    (h : endsReleased v (t :: k) = true) : raiseCaught k t = true ∧ endsReleased (v.after t) k = true := by
  cases t with
  | awaitTaken => exact absurd rfl ht
  | onRaise g | respond => exact ⟨rfl, (Bool.and_eq_true_iff.mp h).2⟩
  | _ => exact Bool.and_eq_true_iff.mp h

/-- Knowing more of the latches loses nothing. -/
theorem endsReleased_mono {v w : PinView} {k : List Task} (h : endsReleased w k = true) (hv : v.refines w) :
    endsReleased v k = true := by
  induction k generalizing v w with
  | nil =>
    obtain rfl : w = .released := by simpa [endsReleased] using h
    simp [endsReleased, PinView.eq_released hv]
  | cons t k ih =>
    cases t with
    | onRaise g | respond =>
      obtain ⟨rfl, hk⟩ : w = .released ∧ endsReleased w k = true := by simpa [endsReleased] using h
      simp [endsReleased, PinView.eq_released hv, hk]
    | awaitTaken =>
      obtain ⟨rfl, hk⟩ : w = .released ∧ k = [] := by simpa [endsReleased] using h
      simp [endsReleased, PinView.eq_released hv, hk]
    | _ =>
      obtain ⟨hc, hk⟩ := Bool.and_eq_true_iff.mp h
      exact Bool.and_eq_true_iff.mpr ⟨hc, ih hk (PinView.after_mono hv _)⟩

/-- Steps inside a transaction may be put in front. -/
theorem endsReleased_inner_append {v w : PinView} {us k : List Task} (hin : ∀ a ∈ us, inner a = true)
    (hr : ∀ a ∈ us, canRaise a = true → hasHandler k = true) (hv : (us.foldl PinView.after v).refines w)
    (hk : endsReleased w k = true) : endsReleased v (us ++ k) = true := by
  induction us generalizing v with
  | nil => exact endsReleased_mono hk hv
  | cons a us ih =>
    have ha := hin a (by simp)
    have htail := ih (fun b hb => hin b (by simp [hb])) (fun b hb => hr b (by simp [hb])) hv
    have hhead := hr a (by simp)
    rw [List.cons_append, endsReleased_inner_cons ha, raiseCaught_eq (inner_not_command ha), htail]
    cases hc : canRaise a with
    | false => rfl
    | true => simp [hhead hc]

/-- From the mark a raise goes to, what follows it begins with both latches 1 and still ends with the response. -/
theorem endsReleased_unwind {v : PinView} {k r : List Task} {g : Handler} (h : endsReleased v k = true)
    (hmem : .awaitTaken ∈ k) (hu : unwind k = some (g, r)) : .awaitTaken ∈ r ∧ endsReleased .released r = true := by
  induction k generalizing v with
  | nil => cases hu
  | cons t k ih =>
    cases t with
    | onRaise g' =>
      cases hu
      obtain ⟨rfl, hk⟩ : v = .released ∧ endsReleased v r = true := by simpa [endsReleased] using h
      exact ⟨by simpa using hmem, hk⟩
    | awaitTaken =>
      obtain ⟨-, rfl⟩ : v = .released ∧ k = [] := by simpa [endsReleased] using h
      cases hu
    | _ => exact ih (endsReleased_tail (by simp) h).2 (by simpa using hmem) hu

/-- The loop of SCAN keeps released latches released, and says nothing of others. -/
theorem PinView.refines_scanLoop (v : PinView) : v.refines (v.after .scanLoop) := by
  simp only [after]
  split
  · rename_i h
    exact h ▸ .refl _
  · exact .unknown v

theorem PinView.released_refines_scanLoop (v : PinView) : released.refines (v.after .scanLoop) := by
  simp only [after]
  split
  · exact .refl _
  · exact .unknown _

/-! ### A step of the sequencer -/

/-- A command runs, and its remaining steps end with both latches 1 and the response. -/
def runsToRelease (s : State) : Prop :=
  s.busy = true ∧ .awaitTaken ∈ s.place ∧ endsReleased (pins s) s.place = true

theorem raises_runsToRelease {t : Task} {s u : State} (hb : s.busy = true) (hmem : .awaitTaken ∈ s.place)
    {v : PinView} (he : endsReleased v s.place = true) (hh : hasHandler s.place = true) (h : raises t s u) :
    runsToRelease u := by
  obtain ⟨hc, f, w, rfl, hp, -, hbw⟩ := h
  obtain ⟨g, k, hu⟩ := unwind_of_hasHandler hh
  obtain ⟨hk, hrel⟩ := endsReleased_unwind he hmem hu
  rw [raiseAt_handled (hp ▸ hu)]
  refine ⟨hbw.trans hb, by simp [hk], ?_⟩
  cases g <;> simpa [handlerTasks, endsReleased, raiseCaught, PinView.after] using hrel

/-- The step puts steps us in front, and these and the remaining ones end with both latches 1. -/
theorem runsToRelease.of_push {s u : State} (us : List Task) (hb : s.busy = true) (hmem : .awaitTaken ∈ s.place)
    (hp : u.place = us ++ s.place) (hbu : u.busy = s.busy) (he : endsReleased (pins u) (us ++ s.place) = true) :
    runsToRelease u :=
  ⟨hbu.trans hb, by simp [hp, hmem], by rwa [hp]⟩

theorem inner_runsToRelease {t : Task} {s u : State} (ht : inner t = true) (hb : s.busy = true)
    (hmem : .awaitTaken ∈ s.place) (hcaught : raiseCaught s.place t = true)
    (hk : endsReleased ((pins s).after t) s.place = true) (h : runTask t s = .next u) : runsToRelease u := by
  rw [raiseCaught_eq (inner_not_command ht)] at hcaught
  have hh (hc : canRaise t = true) : hasHandler s.place = true := by simpa [hc] using hcaught
  rcases runTask_inner ht h with ⟨us, hp, hin, hraise, -, hbu, hv⟩ | hraise
  · exact .of_push us hb hmem hp hbu (endsReleased_inner_append hin (fun a ha hc => hh (hraise a ha hc)) hv hk)
  · exact raises_runsToRelease hb hmem hk (hh hraise.1) hraise

/-- The call of SEND_ADDRESS, SEND_REGIDX and PROBE, which move `FSM`. -/
theorem endsReleased_call {i : Instr} {s : State} {v : PinView} {k : List Task} (hi : inner (.op i) = false)
    (hcaught : raiseCaught k (.op i) = true) (hk : endsReleased (v.after (.op i)) k = true) :
    endsReleased v (steps s i ++ k) = true := by
  cases i with
  | init p | wrreg p | rdreg p | scan p => simp [raiseCaught, Instr.isCommand] at hcaught
  | sendAddress rw =>
    have hh : hasHandler (.setFsm .addressSent :: k) = true := hcaught
    rw [steps, List.append_assoc]
    exact endsReleased_inner_append (addressTasks_inner _ _ _) (fun _ _ _ => hh) (.unknown _) hk
  | sendRegidx => exact Bool.and_eq_true_iff.mpr ⟨rfl, Bool.and_eq_true_iff.mpr ⟨hcaught, hk⟩⟩
  | probe => simpa [steps, endsReleased, raiseCaught, hasHandler, Instr.isCommand, PinView.after] using hk
  | _ => cases hi

theorem scanLoop_runsToRelease {s u : State} (hb : s.busy = true) (hmem : .awaitTaken ∈ s.place)
    (he : endsReleased (pins s) (.scanLoop :: s.place) = true) (h : runTask .scanLoop s = .next u) :
    runsToRelease u := by
  obtain ⟨-, hk⟩ := endsReleased_tail (by simp) he
  rcases ite_next h with ⟨-, rfl⟩ | ⟨-, rfl⟩
  · split
    · exact .of_push [.scanNext, .scanLoop] hb hmem rfl rfl he
    · have hprobed : endsReleased .released s.place = true :=
        endsReleased_mono hk (PinView.released_refines_scanLoop _)
      exact .of_push [.op .probe, .emitFound, .scanNext, .scanLoop] hb hmem rfl rfl
        (by simpa [endsReleased, raiseCaught, PinView.after] using hprobed)
  · exact .of_push [] hb hmem rfl rfl (endsReleased_mono hk (PinView.refines_scanLoop _))

theorem runTask_runsToRelease {t : Task} {s u : State} (ht : t ≠ .awaitTaken) (hb : s.busy = true)
    (hmem : .awaitTaken ∈ t :: s.place) (he : endsReleased (pins s) (t :: s.place) = true)
    (h : runTask t s = .next u) : runsToRelease u := by
  replace hmem : .awaitTaken ∈ s.place := by simpa [Ne.symm ht] using hmem
  obtain ⟨hcaught, hk⟩ := endsReleased_tail ht he
  by_cases hin : inner t = true
  · exact inner_runsToRelease hin hb hmem hcaught hk h
  · cases t with
    | setFsm g | secondPhase | probeBegin | probeFailed | respond => cases h; exact .of_push [] hb hmem rfl rfl hk
    | onRaise g => cases g <;> cases h <;> exact .of_push [] hb hmem rfl rfl hk
    | close => cases h; unfold closeWith; split <;> exact .of_push [] hb hmem rfl rfl hk
    | op i => cases callOp_next h; exact .of_push _ hb hmem rfl rfl (endsReleased_call (by simpa using hin) hcaught hk)
    | indexLoop =>
      rcases ite_next h with ⟨-, rfl⟩ | ⟨-, rfl⟩
      · exact .of_push [_, _, .indexLoop] hb hmem rfl rfl (endsReleased_inner_append (us := [_, _])
          (k := .indexLoop :: s.place) (by simp [inner, Instr.isCommand]) (fun _ _ _ => hcaught) (.unknown _) he)
      · exact .of_push [] hb hmem rfl rfl (endsReleased_mono hk (.unknown _))
    | indexPhase =>
      rcases ite_next h with ⟨-, rfl⟩ | ⟨-, rfl⟩
      · exact .of_push [] hb hmem rfl rfl (endsReleased_mono hk (.unknown _))
      · exact .of_push [.op .sendRegidx] hb hmem rfl rfl (Bool.and_eq_true_iff.mpr ⟨hcaught, hk⟩)
    | scanLoop => exact scanLoop_runsToRelease hb hmem he h
    | awaitTaken => exact absurd rfl ht
    | _ => exact absurd rfl hin

/-- The wait for the host is the last step: it goes on, or the block is between commands. -/
theorem awaitTaken_ends {s u : State} (hb : s.busy = true) (he : endsReleased (pins s) (.awaitTaken :: s.place) = true)
    (h : runTask .awaitTaken s = .next u) :
    runsToRelease u ∨ (u.place = [] ∧ u.busy = false ∧ busReleased u) := by
  obtain ⟨hpins, hp⟩ : pins s = .released ∧ s.place = [] := by simpa [endsReleased] using he
  rcases ite_next h with ⟨-, rfl⟩ | ⟨-, rfl⟩
  · obtain ⟨hc, hd⟩ : s.sclOut = true ∧ s.sdaOut = true := by simpa [pins, PinView.released] using hpins
    exact .inr ⟨hp, rfl, hc, hd, rfl⟩
  · exact .inl ⟨hb, by simp [push], he⟩

/-! ### The step -/

theorem BusInv.of_runs {s : State} (hf : slotHoldsCommand s) (h : runsToRelease s) : BusInv s := by
  obtain ⟨hb, hmem, he⟩ := h
  exact ⟨hf, fun hp => by simp [hp] at hmem, fun _ => ⟨hb, hmem, he⟩⟩

theorem BusInv.of_quiet {s : State} (hf : slotHoldsCommand s) (hp : s.place = []) (hb : s.busy = false)
    (hrel : busReleased s) : BusInv s := ⟨hf, fun _ => ⟨hb, hrel⟩, fun h => absurd hp h⟩

/-- A response given between commands, with both latches 1, ends the command or waits for the host. -/
theorem respond_busInv {v : State} (hf : v.fetch = none) (hb : v.busy = true) (hp : v.place = [])
    (hc : v.sclOut = true) (hd : v.sdaOut = true) : BusInv (respond v) := by
  obtain ⟨-, -, -, -, -, hf', -⟩ := respond_keepsHostSide v
  have hslot : slotHoldsCommand (respond v) := by simp [slotHoldsCommand, hf', hf]
  cases hr : v.rspReady with
  | true =>
    obtain ⟨⟨hb', hp', -⟩, hrel⟩ := respond_taken hr hp hc hd
    exact .of_quiet hslot hp' hb' hrel
  | false =>
    rw [respond_waits hr] at hslot ⊢
    exact .of_runs hslot ⟨hb, by simp, by simp [endsReleased, pins, PinView.released, hc, hd]⟩

/-- The steps of a command begun with both latches 1. -/
theorem steps_command_runs {i : Instr} (hi : i.isCommand = true) (s : State) :
    .awaitTaken ∈ steps s i ∧ endsReleased .released (steps s i) = true := by
  cases i with
  | init p | wrreg p | rdreg p | scan p => exact ⟨by simp [steps, selectTasks, closingTasks], rfl⟩
  | _ => cases hi

theorem acceptPacket_runs (p : BitVec 128) {s : State} (hc : s.sclOut = true) (hd : s.sdaOut = true) :
    runsToRelease (acceptPacket p s) := by
  have hpins : pins s = .released := by simp [pins, PinView.released, hc, hd]
  rcases acceptPacket_cases p s with ⟨i, hdec, -, e⟩ | ⟨-, e⟩
  · obtain ⟨hmem, hrun⟩ := steps_command_runs (decodePacket_isCommand hdec) (accept (packetOp p) (packetFields p) s)
    rw [e]
    exact ⟨rfl, hmem, hpins ▸ hrun⟩
  · rw [e]
    exact ⟨rfl, by simp, (congrArg (endsReleased · [.respond, .awaitTaken]) hpins).trans rfl⟩

theorem slotHoldsCommand.packet {s : State} {c : Code} (h : slotHoldsCommand s) (hf : s.fetch = some c) :
    ∃ p, c = .packet p := by
  rw [slotHoldsCommand, hf] at h
  cases c with
  | packet p => exact ⟨p, rfl⟩
  | internal n x | wire w b => exact h.elim

theorem runTask_busInv {t : Task} {s u : State} (hslot : slotHoldsCommand s) (hb : s.busy = true)
    (hmem : .awaitTaken ∈ t :: s.place) (he : endsReleased (pins s) (t :: s.place) = true)
    (h : runTask t s = .next u) : BusInv u := by
  have hslot' : slotHoldsCommand u := by
    obtain ⟨e, -, -, -, -, -, -, -, hf, -⟩ := runTask_makesEvent h
    rwa [slotHoldsCommand, hf]
  by_cases ht : t = .awaitTaken
  · subst ht
    rcases awaitTaken_ends hb he h with hrun | ⟨hp, hb', hrel⟩
    · exact .of_runs hslot' hrun
    · exact .of_quiet hslot' hp hb' hrel
  · exact .of_runs hslot' (runTask_runsToRelease ht hb hmem he h)

theorem blockStep_busInv {s t : State} (hs : BusInv s) (h : BlockStep s t) : BusInv t := by
  obtain ⟨hslot, hidle, hrun⟩ := hs
  cases h with
  | reset hr => exact .of_quiet trivial rfl rfl ⟨rfl, rfl, rfl⟩
  | @task a k t hr hp h =>
    obtain ⟨hb, hmem, he⟩ := hrun (by simp [hp])
    rw [hp] at hmem he
    exact runTask_busInv (s := { s with place := k }) hslot hb hmem he h
  | slot hr hp hf h =>
    obtain ⟨hb, hc, hd, -⟩ := hidle hp
    obtain ⟨p, rfl⟩ := hslot.packet hf
    obtain ⟨v, hv, he⟩ := runSlot_packet_responds p hb
    obtain ⟨hvb, hvp, -, hvf, -⟩ := hv.fields
    obtain ⟨hvc, hvd⟩ := hv.latches hc hd
    cases h.symm.trans he
    exact respond_busInv hvf hvb (hvp.trans hp) hvc hvd
  | port hr hp hf =>
    obtain ⟨hb, hc, hd, hidle⟩ := hidle hp
    rcases commandPort_cases s with e | ⟨p, rest, -, -, e⟩
    · rw [e]
      exact .of_quiet hslot hp hb ⟨hc, hd, hidle⟩
    · rw [e]
      obtain ⟨-, -, -, -, hf', -⟩ := acceptPacket_keepsInputs p { s with cmds := rest }
      exact .of_runs (by rwa [slotHoldsCommand, hf']) (acceptPacket_runs p hc hd)

/-- Settles O56: by the case of the step; the remaining steps of a command keep leading to released lines. -/
theorem stepKeepsTheBusInvariant : Obligations.StepKeepsTheBusInvariant := by
  intro s t hs h
  rcases step_cases h with ⟨hturn, ht⟩ | ⟨m, hb⟩
  · rcases hostTurn_cases hturn ht with ⟨p, k, -, rfl⟩ | ⟨b, k, -, rfl⟩ | ⟨b, k, -, rfl⟩ | ⟨i, v, k, -, -, -, rfl⟩
    · exact hs
    · exact hs
    · cases b with
      | true => exact .of_quiet trivial rfl rfl ⟨rfl, rfl, rfl⟩
      | false => exact hs
    · exact hs
  · exact blockStep_busInv (s := { s with hostMoves := m, foundValid := false }) hs hb

end Sys2Proof.Machine


/-! # What an operation samples, stores and finds -/

namespace Sys2Proof.Machine

/-! ### The notable events of a run -/

/-- A sample of the data line, a write of `BUF`, or a found event. -/
def notable : Event → Bool
  | .readSda _ | .memWrite _ _ | .found _ => true
  | _ => false

/-- The notable events so far, the latest first. -/
def notes (s : State) : List Event := s.trace.filter notable

/-- From s to t the data line gave the samples ds, in the order of time; `BUF` was not written and nothing was found. -/
def sampled (ds : List Bit) (s t : State) : Prop := notes t = (ds.map Event.readSda).reverse ++ notes s

theorem sampled.nil {s t : State} (h : notes t = notes s) : sampled [] s t := h

theorem sampled.trans {ds es : List Bit} {s t u : State} (h : sampled ds s t) (k : sampled es t u) :
    sampled (ds ++ es) s u := by
  unfold sampled at *
  rw [k, h]
  simp

/-- A run takes n samples where it returns, at most n where it raises. -/
def takesSamples {α : Type} (n : Nat) (s : State) (r : Run α) : Prop :=
  ∃ ds, sampled ds s r.state ∧ ds.length ≤ n ∧ (r.isOk = true → ds.length = n)

theorem takesSamples.none {α : Type} {s : State} {r : Run α} (h : notes r.state = notes s) : takesSamples 0 s r :=
  ⟨[], .nil h, Nat.zero_le _, fun _ => rfl⟩

theorem takesSamples.andThen {α β : Type} {k m n : Nat} {s : State} {r : Run α} {f : α → State → Run β}
    (h : takesSamples m s r) (hf : ∀ a t, r = .ok a t → takesSamples n t (f a t)) (hk : m + n = k := by omega) :
    takesSamples k s (r.andThen f) := by
  subst hk
  obtain ⟨ds, hs, hle, hok⟩ := h
  cases r with
  | ok a t =>
    obtain ⟨es, ht, hle', hok'⟩ := hf a t rfl
    have hlen : ds.length = m := hok rfl
    refine ⟨ds ++ es, hs.trans ht, ?_, fun h => ?_⟩
    · rw [List.length_append]
      omega
    · rw [List.length_append, hlen, hok' h]
  | raised g t => exact ⟨ds, hs, by omega, nofun⟩

/-- A change that notes nothing, before a run. -/
theorem takesSamples.after {α : Type} {n : Nat} {s t : State} {r : Run α} (hst : notes t = notes s)
    (h : takesSamples n t r) : takesSamples n s r := by
  obtain ⟨ds, hs, hle, hok⟩ := h
  exact ⟨ds, by rwa [sampled, ← hst], hle, hok⟩

/-! ### Bus operations -/

theorem notes_pollLoop (n : Nat) (s : State) : notes (pollLoop n s).2 = notes s := by
  induction n generalizing s with
  | zero => rfl
  | succ n ih =>
    unfold pollLoop
    split
    · rfl
    · exact ih _

theorem notes_guardedRelease (s : State) : notes (guardedRelease s).2 = notes s := notes_pollLoop _ (release s)

theorem notes_guardReleaseScl (s : State) : notes (guardReleaseScl s).state = notes s := by
  unfold guardReleaseScl
  split <;> exact notes_guardedRelease s

/-- What only notes nothing is kept by a run of two parts. -/
theorem notes_andThen {α β : Type} {s : State} {r : Run α} {f : α → State → Run β} (h : notes r.state = notes s)
    (hf : ∀ a t, notes (f a t).state = notes t) : notes (r.andThen f).state = notes s :=
  Run.andThen_keeps (R := fun s t => notes t = notes s) (fun h k => k.trans h) h hf

theorem notes_start (s : State) : notes (start s).state = notes s :=
  notes_andThen (notes_guardReleaseScl _) fun _ _ => rfl

theorem notes_writeBit (b : Bit) (s : State) : notes (writeBit b s).state = notes s :=
  notes_andThen (notes_guardReleaseScl _) fun _ _ => rfl

theorem notes_stopBus (s : State) : notes (stopBus s).2 = notes s :=
  notes_guardedRelease (delay (setSda false (setScl false s)))

theorem notes_endTransaction (r : Run Unit) : notes (endTransaction r) = notes r.state := by
  cases r with
  | ok a s =>
    have hclose : notes (closeWith (stopBus s).1 (stopBus s).2) = notes (stopBus s).2 := by
      unfold closeWith
      split <;> rfl
    exact hclose.trans (notes_stopBus s)
  | raised f s => exact notes_stopBus (enterAbort f s)

/-- READ_BIT samples the bit it returns, and nothing where it raises. -/
theorem readBit_sampled (s : State) :
    (∃ d t, readBit s = .ok d t ∧ sampled [d] s t) ∨ ∃ t, readBit s = .raised .timeout t ∧ sampled [] s t := by
  have hn := notes_guardReleaseScl (delay (setSda true s))
  rcases guardReleaseScl_cases (delay (setSda true s)) with ⟨t, e, -⟩ | ⟨t, e, -⟩ <;> rw [e] at hn
  · refine .inl ⟨_, _, by rw [readBit, e]; rfl, ?_⟩
    exact congrArg (Event.readSda _ :: ·) hn
  · exact .inr ⟨t, by rw [readBit, e]; rfl, hn⟩

theorem readBit_samples (s : State) : takesSamples 1 s (readBit s) := by
  rcases readBit_sampled s with ⟨d, t, e, h⟩ | ⟨t, e, h⟩ <;> rw [e]
  · exact ⟨[d], h, Nat.le_refl _, fun _ => rfl⟩
  · exact ⟨[], h, Nat.zero_le _, nofun⟩

theorem readAck_samples (s : State) : takesSamples 1 s (readAck s) :=
  .andThen (n := 0) (readBit_samples s) fun _ _ _ => .none rfl

/-! ### Bytes and framers -/

theorem notes_sendBits (n : Nat) (s : State) : notes (sendBits n s).state = notes s := by
  induction n generalizing s with
  | zero => rfl
  | succ n ih => exact notes_andThen (notes_writeBit _ s) fun _ t => ih (shiftBit false t)

/-- A written byte is sampled once, in its acknowledge slot. -/
theorem writeByte_samples (v : Byte) (s : State) : takesSamples 1 s (writeByte v s) :=
  .andThen (m := 0) (.none (notes_sendBits 8 (loadShift v s))) fun _ t _ => readAck_samples t

theorem sendFrame_samples (f : Failure) (v : Byte) (s : State) : takesSamples 1 s (sendFrame f v s) := by
  obtain ⟨ds, hs, hle, hok⟩ := writeByte_samples v s
  unfold sendFrame
  cases hw : writeByte v s with
  | ok a t =>
    rw [hw] at hs hok
    cases a with
    | true => exact ⟨ds, hs, hle, fun _ => hok rfl⟩
    | false => exact ⟨ds, hs, hle, nofun⟩
  | raised g t =>
    rw [hw] at hs
    exact ⟨ds, hs, hle, nofun⟩

theorem sendFrames_samples (f : Failure) (vs : List Byte) (s : State) :
    takesSamples vs.length s (sendFrames f vs s) := by
  induction vs generalizing s with
  | nil => exact .none rfl
  | cons v vs ih =>
    exact .andThen (sendFrame_samples f v s) (fun _ t _ => ih t) (by rw [List.length_cons, Nat.add_comm])

theorem sendAddress_samples (rw : Bit) (s : State) :
    takesSamples (addressBytes s.am s.addr rw).length s (sendAddress rw s) :=
  .andThen (n := 0) (sendFrames_samples _ _ s) fun _ _ _ => .none rfl

theorem sendIndexBytes_samples (n : Nat) (s : State) : takesSamples n s (sendIndexBytes n s) := by
  induction n generalizing s with
  | zero => exact .none rfl
  | succ n ih =>
    exact .andThen (sendFrame_samples _ _ s) fun _ t _ => .after (t := incCount t) rfl (ih _)

theorem sendRegidx_samples (s : State) : takesSamples s.riw.toNat s (sendRegidx s) :=
  .andThen (n := 0) (.after (t := clearCount s) rfl (sendIndexBytes_samples _ _)) fun _ _ _ => .none rfl

theorem indexPhase_samples (s : State) : takesSamples s.riw.toNat s (indexPhase s) := by
  unfold indexPhase
  split
  · rename_i h
    rw [h]
    exact .none rfl
  · exact sendRegidx_samples s

theorem changesOnlyPhase.packet {s t : State} (h : changesOnlyPhase s t) :
    t.am = s.am ∧ t.addr = s.addr ∧ t.riw = s.riw ∧ t.len = s.len := by
  unfold changesOnlyPhase at h
  rw [h]
  simp

theorem changesOnlyPhase.buf {s t : State} (h : changesOnlyPhase s t) : t.buf = s.buf := by
  unfold changesOnlyPhase at h
  rw [h]

theorem selectRegister_samples (s : State) :
    takesSamples ((addressBytes s.am s.addr false).length + s.riw.toNat) s (selectRegister s) := by
  refine .andThen (m := 0) (n := _ + _) (.none (notes_start s)) (fun _ t ht => ?_) (Nat.zero_add _)
  obtain ⟨ham, haddr, hriw, -⟩ := (Run.rel_of_ok (start_changes s) ht).toPhase.packet
  rw [← ham, ← haddr, ← hriw]
  refine .andThen (m := (addressBytes t.am t.addr false).length) (n := t.riw.toNat)
    (.after (t := enterFsm .started t) rfl (sendAddress_samples false _)) fun _ u hu => ?_
  obtain ⟨-, -, hriw', -⟩ := (Run.rel_of_ok (sendAddress_changes false (enterFsm .started t)) hu).packet
  have h := indexPhase_samples u
  rwa [hriw'] at h

/-- Nothing is stored and nothing found. -/
def samplesOnly (s t : State) : Prop := ∃ ds, sampled ds s t

theorem samplesOnly.of_notes {s t : State} (h : notes t = notes s) : samplesOnly s t := ⟨[], .nil h⟩

theorem takesSamples.only {α : Type} {n : Nat} {s : State} {r : Run α} (h : takesSamples n s r) :
    samplesOnly s r.state := by
  obtain ⟨ds, hs, -⟩ := h
  exact ⟨ds, hs⟩

theorem probe_samplesOnly (s : State) : samplesOnly s (probe s).2 := by
  have hphase : takesSamples 1 s (probeAddressPhase (probeBegin s)) :=
    .andThen (m := 0) (n := 1) (.after (t := probeBegin s) rfl (.none (notes_start _))) fun _ t _ =>
      .andThen (m := 1) (n := 0) (.after (t := enterFsm .started t) rfl (sendFrame_samples _ _ _)) fun _ _ _ => .none rfl
  obtain ⟨ds, hs⟩ := hphase.only
  exact ⟨ds, (notes_endTransaction _).trans hs⟩

/-! ### Bytes received -/

/-- The bits received are shifted into `SHREG`, the first bit leading; fewer than n where a bit is not received. -/
theorem receiveBits_sampled (n : Nat) (s : State) :
    (∃ xs t, receiveBits n s = .ok () t ∧ xs.length = n ∧ sampled xs s t ∧ t.shreg = xs.foldl shiftIn s.shreg) ∨
      ∃ xs t, receiveBits n s = .raised .timeout t ∧ xs.length < n ∧ sampled xs s t := by
  induction n generalizing s with
  | zero => exact .inl ⟨[], s, rfl, rfl, .nil rfl, rfl⟩
  | succ n ih =>
    rcases readBit_sampled s with ⟨d, t, e, h⟩ | ⟨t, e, h⟩
    · obtain ⟨hshreg, -⟩ := (Run.rel_of_ok (readBit_changes s) e).fields
      have hfirst : sampled [d] s (shiftBit d t) := h
      rcases ih (shiftBit d t) with ⟨xs, u, eu, hlen, hu, hsh⟩ | ⟨xs, u, eu, hlen, hu⟩
      · refine .inl ⟨d :: xs, u, by rw [receiveBits, e]; exact eu, by simp [hlen], hfirst.trans hu, ?_⟩
        rw [hsh, shiftBit_shreg, hshreg, List.foldl_cons]
      · exact .inr ⟨d :: xs, u, by rw [receiveBits, e]; exact eu, by simpa using hlen, hfirst.trans hu⟩
    · exact .inr ⟨[], t, by rw [receiveBits, e]; rfl, Nat.succ_pos n, h⟩

theorem receiveBits_changes (n : Nat) (s : State) : changesOnlyByte s (receiveBits n s).state := by
  induction n generalizing s with
  | zero => exact .refl s
  | succ n ih =>
    exact Run.andThen_keeps .trans (readBit_changes s).toByte fun d t => (shiftBit_changes d t).trans (ih _)

/-- Eight bits shifted in are the byte of these bits, the first leading (20_memory.md R66). -/
theorem bitsOf_shiftIn (v : Byte) (xs : List Bit) (h : xs.length = 8) : bitsOf (xs.foldl shiftIn v) = xs := by
  match xs, h with
  | [a, b, c, d, e, f, g, h], _ => simp [bitsOf, shiftIn]

/-- READ_BYTE samples fewer than eight bits and raises, or eight bits that it stores, whichever way it then ends. -/
theorem readByte_received (k : Ack) (i : BitVec 12) (s : State) :
    (∃ xs, xs.length < 8 ∧ sampled xs s (readByte k i s).state ∧ (readByte k i s).state.buf = s.buf ∧
        (readByte k i s).isOk = false) ∨
      ∃ v, notes (readByte k i s).state = .memWrite i.toNat v :: (((bitsOf v).map Event.readSda).reverse ++ notes s) ∧
        (readByte k i s).state.buf = s.buf.put i.toNat v := by
  have hch := receiveBits_changes 8 (loadShift 0 s)
  rcases receiveBits_sampled 8 (loadShift 0 s) with ⟨xs, t, e, hlen, hs, hsh⟩ | ⟨xs, t, e, hlen, hs⟩ <;> rw [e] at hch
  · refine .inr ⟨t.shreg, ?_⟩
    have hbits : bitsOf t.shreg = xs := by rw [hsh, bitsOf_shiftIn _ _ hlen]
    have hbuf : t.buf = s.buf := hch.toPhase.buf
    have hstate : ∃ u : State, (readByte k i s).state = u ∧ notes u = notes (memWrite i.toNat t.shreg t) ∧
        u.buf = (memWrite i.toNat t.shreg t).buf := by
      refine ⟨(writeAck k (memWrite i.toNat t.shreg t)).state, ?_, notes_writeBit _ _, (writeBit_changes _ _).toPhase.buf⟩
      rw [readByte, e]
      simp only [Run.andThen]
      cases writeAck k (memWrite i.toNat t.shreg t) <;> rfl
    obtain ⟨u, hu, hn, hb⟩ := hstate
    rw [hu, hn, hb, hbits, memWrite_buf, hbuf]
    exact ⟨congrArg (Event.memWrite i.toNat t.shreg :: ·) hs, rfl⟩
  · refine .inl ⟨xs, hlen, ?_⟩
    rw [readByte, e]
    exact ⟨hs, hch.toPhase.buf, rfl⟩

end Sys2Proof.Machine


/-! # Every step keeps the canonical buffer and a legal response word (O58) -/

namespace Sys2Proof.Machine

/-! ### What RDREG and SCAN are made of -/

/-- RDREG up to its data phase. -/
def addressedForRead (s : State) : Run Unit :=
  (selectRegister s).andThen fun _ t => (start t).andThen fun _ u => sendAddress true (secondPhase u)

theorem rdregAttempt_eq (s : State) :
    rdregAttempt s = (addressedForRead s).andThen fun _ v => receiveData v.len.toNat (beginData v) := by
  simp only [rdregAttempt, addressedForRead, Run.andThen_assoc]

theorem addressedForRead_changes (s : State) : changesOnlyPhase s (addressedForRead s).state :=
  Run.andThen_keeps .trans (selectRegister_changes s) fun _ t =>
    Run.andThen_keeps .trans (start_changes t).toPhase fun _ u =>
      changesOnlyPhase.trans (t := secondPhase u) rfl (sendAddress_changes _ _)

theorem incCount_changes (s : State) : changesOnlyPhase s (incCount s) := rfl

theorem beginData_changes (s : State) : changesOnlyPhase s (beginData s) := rfl

section
variable {R : State → State → Prop} (htrans : ∀ {s t u}, R s t → R t u → R s u)
  (hphase : ∀ {s t}, changesOnlyPhase s t → R s t) (hstore : ∀ i v s, R s (memWrite i v s))
include htrans hphase hstore

/-- What the registers of the phases and a store keep, READ_BYTE keeps. -/
theorem readByte_rel (k : Ack) (i : BitVec 12) (s : State) : R s (readByte k i s).state := by
  obtain ⟨u, hu, h | h⟩ := readByte_changes k i s
  · exact hphase h.toPhase
  · exact htrans (hphase hu.toPhase) (htrans (hstore _ _ u) (hphase h.toPhase))

theorem receiveData_rel (n : Nat) (s : State) : R s (receiveData n s).state := by
  induction n generalizing s with
  | zero => exact hphase (.refl s)
  | succ n ih =>
    exact Run.andThen_keeps (R := R) htrans (readByte_rel (R := R) htrans hphase hstore _ _ s) fun _ t =>
      htrans (hphase (incCount_changes t)) (ih _)

theorem rdregAttempt_rel (s : State) : R s (rdregAttempt s).state := by
  rw [rdregAttempt_eq]
  exact Run.andThen_keeps (R := R) htrans (hphase (addressedForRead_changes s)) fun _ v =>
    htrans (hphase (beginData_changes v)) (receiveData_rel (R := R) htrans hphase hstore _ _)

end

/-- What a probe, a found event and the move to the next address keep, a scan keeps. -/
theorem scanLoop_keeps {β : Type} {f : State → β} (hprobe : ∀ s, f (probe s).2 = f s)
    (hfound : ∀ a s, f (emitFound a s) = f s) (hnext : ∀ s, f (nextAddress s) = f s) (n : Nat) (s : State) :
    f (scanLoop n s) = f s := by
  have hone (s : State) : f (scanOne s) = f s := by
    unfold scanOne
    split
    · rfl
    · split
      · exact (hfound _ _).trans (hprobe s)
      · exact hprobe s
  induction n generalizing s with
  | zero => rfl
  | succ n ih => exact (ih _).trans ((hnext _).trans (hone s))

/-! ### The canonical form of BUF -/

/-- The canonical form of `BUF` is kept. -/
def keepsWf (s t : State) : Prop := s.buf.wf → t.buf.wf

theorem keepsWf.trans {s t u : State} (h : keepsWf s t) (k : keepsWf t u) : keepsWf s u := fun hs => k (h hs)

theorem keepsWf.of_eq {s t : State} (h : t.buf = s.buf) : keepsWf s t := fun hs => by rwa [h]

theorem changesOnlyPhase.keepsWf {s t : State} (h : changesOnlyPhase s t) : Machine.keepsWf s t := .of_eq h.buf

theorem readByte_keepsWf (k : Ack) (i : BitVec 12) (s : State) : keepsWf s (readByte k i s).state :=
  readByte_rel .trans changesOnlyPhase.keepsWf (fun i v _ hw => memWrite_wf hw i v) k i s

theorem rdregAttempt_keepsWf (s : State) : keepsWf s (rdregAttempt s).state :=
  rdregAttempt_rel .trans changesOnlyPhase.keepsWf (fun i v _ hw => memWrite_wf hw i v) s

/-- Only RDREG writes `BUF` (20_memory.md R77). -/
theorem commandBody_buf {i : Instr} (hi : ∀ p, i ≠ .rdreg p) (s : State) : (commandBody i s).buf = s.buf := by
  cases i with
  | init p =>
    exact (guardedRelease_outcome (settle (setScl true (setSda true s)))).1.toPhase.buf
  | wrreg p => exact ((wrregAttempt_changes s).trans (endTransaction_changes _)).buf
  | rdreg p => exact absurd rfl (hi p)
  | scan p =>
    simp only [commandBody, scanBody]
    exact scanLoop_keeps (f := State.buf) (fun s => (probe_changes s).buf) (fun _ _ => rfl) (fun _ => rfl) _ _
  | _ => rfl

theorem commandBody_keepsWf (i : Instr) (s : State) : keepsWf s (commandBody i s) := by
  cases i with
  | rdreg p => exact (rdregAttempt_keepsWf s).trans (endTransaction_changes _).keepsWf
  | _ => exact .of_eq (commandBody_buf (by simp) s)

theorem respondsFrom.keepsWf {s v : State} (h : respondsFrom s v) : Machine.keepsWf s v := by
  obtain ⟨op, p, rfl | ⟨i, -, rfl⟩⟩ := h
  · exact .of_eq rfl
  · exact commandBody_keepsWf i (accept op p s)

theorem Run.finish_eq {α : Type} (r : Run α) (value : α → OpResult) : ∃ x, r.finish value = { r.state with ret := x } := by
  cases r with
  | ok a s => exact ⟨value a, rfl⟩
  | raised f s => exact ⟨.raised f, rfl⟩

/-- An instruction that is no command hands over a result, and else changes the registers of the phases and samples the
data line, or is a READ_BYTE. -/
theorem exec_operation {i : Instr} (hi : i.isCommand = false) {s t : State} (h : exec i s = .next t) :
    ∃ u x, t = { u with ret := x } ∧
      (changesOnlyPhase s u ∧ samplesOnly s u ∨ ∃ k j, u = (readByte k j s).state) := by
  have run {α : Type} {r : Run α} {value : α → OpResult} (hr : changesOnlyPhase s r.state)
      (hs : samplesOnly s r.state) : ∃ u x, r.finish value = { u with ret := x } ∧
        (changesOnlyPhase s u ∧ samplesOnly s u ∨ ∃ k j, u = (readByte k j s).state) := by
    obtain ⟨x, e⟩ := r.finish_eq value
    exact ⟨_, x, e, .inl ⟨hr, hs⟩⟩
  have read (k : Ack) (j : BitVec 12) : ∃ u x, (readByte k j s).finish .byte = { u with ret := x } ∧
      (changesOnlyPhase s u ∧ samplesOnly s u ∨ ∃ k j, u = (readByte k j s).state) := by
    obtain ⟨x, e⟩ := (readByte k j s).finish_eq .byte
    exact ⟨_, x, e, .inr ⟨k, j, rfl⟩⟩
  cases i with
  | init p | wrreg p | rdreg p | scan p => cases hi
  | guardReleaseScl =>
    cases h; exact run (guardReleaseScl_changes s).toPhase (.of_notes (notes_guardReleaseScl s))
  | start => cases h; exact run (start_changes s).toPhase (.of_notes (notes_start s))
  | stop => cases h; exact ⟨_, _, rfl, .inl ⟨(stopBus_outcome s).1.toPhase, .of_notes (notes_stopBus s)⟩⟩
  | writeBit b => cases h; exact run (writeBit_changes b s).toPhase (.of_notes (notes_writeBit b s))
  | readBit => cases h; exact run (readBit_changes s).toPhase (readBit_samples s).only
  | writeAck k => cases h; exact run (writeBit_changes _ s).toPhase (.of_notes (notes_writeBit _ s))
  | readAck => cases h; exact run (readAck_changes s).toPhase (readAck_samples s).only
  | writeByte v => cases h; exact run (writeByte_changes v s).toPhase (writeByte_samples v s).only
  | sendAddress rw => cases h; exact run (sendAddress_changes rw s) (sendAddress_samples rw s).only
  | sendRegidx => cases h; exact run (sendRegidx_changes s) (sendRegidx_samples s).only
  | probe => cases h; exact ⟨_, _, rfl, .inl ⟨probe_changes s, probe_samplesOnly s⟩⟩
  | addr7 | addr10Hi | addr10Lo | addr10Re | regidxByte | probeAddr =>
    cases h; exact run (sendFrame_changes _ _ s).toPhase (sendFrame_samples _ _ s).only
  | readByte k j =>
    change execReadByte k j s = .next t at h
    unfold execReadByte at h
    split at h
    · cases h; exact read k j
    · cases h
  | dataByte v =>
    change execDataByte v s = .next t at h
    unfold execDataByte at h
    split at h
    · split at h
      · cases h; exact read _ _
      · cases h
    · cases h; exact run (sendFrame_changes _ _ s).toPhase (sendFrame_samples _ _ s).only

/-! ### The response word -/

/-- The word of a status that exists, its reserved bits 0 (30_encoding.md R84). -/
def legalWord (w : Word) : Prop := w.extractLsb' 3 29 = 0 ∧ ∃ st : Status, w.extractLsb' 0 3 = st.code

theorem responseWord_legal (st : Status) : legalWord (responseWord st) := by
  refine ⟨?_, st, ?_⟩ <;> cases st <;> decide

theorem legalWord_zero : legalWord 0 := ⟨by decide, .ok, by decide⟩

theorem changesOnlyBody.rspWord {s t : State} (h : changesOnlyBody s t) : t.rspWord = s.rspWord := by
  unfold changesOnlyBody at h
  rw [h]

theorem exec_operation_data {i : Instr} (hi : i.isCommand = false) {s t : State} (h : exec i s = .next t) :
    keepsWf s t ∧ t.rspWord = s.rspWord := by
  obtain ⟨u, x, rfl, ⟨hu, -⟩ | ⟨k, j, rfl⟩⟩ := exec_operation hi h
  · exact ⟨hu.keepsWf, hu.toBody.rspWord⟩
  · exact ⟨readByte_keepsWf k j s, (readByte_changesBody k j s).rspWord⟩

/-- Only the step that presents a response writes its word. -/
theorem runTask_rspWord {t : Task} {s u : State} (h : runTask t s = .next u) :
    u.rspWord = s.rspWord ∨ u.rspWord = responseWord s.err := by
  rcases runTask_ports h with ⟨hw, -⟩ | rfl | ⟨a, rfl⟩
  · exact .inl hw
  · exact .inr rfl
  · exact .inl rfl

theorem DataInv.of_keeps {s t : State} (hs : DataInv s) (hb : keepsWf s t) (hw : t.rspWord = s.rspWord) : DataInv t := by
  obtain ⟨hwf, hword⟩ := hs
  exact ⟨hb hwf, by rwa [hw]⟩

/-! ### The step -/

/-- The slot keeps a packet that waits, answers a command, or runs another instruction. -/
theorem runSlot_cases {c : Code} {s t : State} (h : runSlot c s = .next t) :
    t = s ∨ (∃ v, respondsFrom { s with fetch := none } v ∧ t = respond v) ∨
      ∃ i, i.isCommand = false ∧ exec i { s with fetch := none } = .next t := by
  cases hdec : decode c with
  | ok i =>
    by_cases hw : i.isCommand = true ∧ s.busy = true
    · exact .inl (by simpa [runSlot, hdec, hw] using h.symm)
    · rw [runSlot_decoded hdec fun hi => by simpa [hi] using hw] at h
      cases hi : i.isCommand with
      | false => exact .inr (.inr ⟨i, hi, h⟩)
      | true =>
        obtain ⟨v, hv, he⟩ := exec_command_responds (s := { s with fetch := none }) hi (by simpa [hi] using hw)
        cases h.symm.trans he
        exact .inr (.inl ⟨v, hv, rfl⟩)
  | error e =>
    cases c with
    | packet p =>
      cases hb : s.busy with
      | true => exact .inl (by simpa [runSlot, hdec, hb] using h.symm)
      | false =>
        obtain ⟨v, hv, he⟩ := runSlot_packet_responds p hb
        cases h.symm.trans he
        exact .inr (.inl ⟨v, hv, rfl⟩)
    | internal n x => simp [runSlot, hdec] at h
    | wire w b => simp [runSlot, hdec] at h

/-- A response leaves `BUF`, and shows the word of a status. -/
theorem respond_dataInv {v : State} (hw : v.buf.wf) : DataInv (respond v) := by
  have hb : (respond v).buf = v.buf := by unfold respond; split <;> rfl
  exact ⟨by rwa [hb], by rw [respond_word]; exact responseWord_legal _⟩

/-- Acceptance at the port leaves `BUF` and the response word. -/
theorem commandPort_data (s : State) : (commandPort s).buf = s.buf ∧ (commandPort s).rspWord = s.rspWord := by
  rcases commandPort_cases s with e | ⟨p, rest, -, -, e⟩
  · rw [e]
    exact ⟨rfl, rfl⟩
  · rcases acceptPacket_cases p { s with cmds := rest } with ⟨i, -, -, ha⟩ | ⟨-, ha⟩ <;> rw [e, ha] <;> exact ⟨rfl, rfl⟩

theorem runTask_dataInv {t : Task} {s u : State} (hs : DataInv s) (h : runTask t s = .next u) : DataInv u := by
  obtain ⟨hwf, hword⟩ := hs
  obtain ⟨e, -, -, hbuf, -⟩ := runTask_makesEvent h
  refine ⟨?_, ?_⟩
  · rw [hbuf]
    unfold bufAfter
    split
    · exact Memory.put_wf hwf _ _
    · exact hwf
  · rcases runTask_rspWord h with hw | hw <;> rw [hw]
    · exact hword
    · exact responseWord_legal _

theorem resetBlock_dataInv {s : State} (hs : s.buf.wf) : DataInv (resetBlock s) := ⟨hs, legalWord_zero⟩

theorem blockStep_dataInv {s t : State} (hs : DataInv s) (h : BlockStep s t) : DataInv t := by
  cases h with
  | reset hr => exact resetBlock_dataInv hs.1
  | @task a k t hr hp h => exact runTask_dataInv (s := { s with place := k }) hs h
  | slot hr hp hf h =>
    rcases runSlot_cases h with rfl | ⟨v, hv, rfl⟩ | ⟨i, hi, he⟩
    · exact hs
    · exact respond_dataInv (hv.keepsWf hs.1)
    · obtain ⟨hw, hword⟩ := exec_operation_data hi he
      exact DataInv.of_keeps (s := { s with fetch := none }) hs hw hword
  | port hr hp hf =>
    obtain ⟨hb, hword⟩ := commandPort_data s
    exact hs.of_keeps (.of_eq hb) hword

/-- Settles O58: by the case of the step; `BUF` changes by single stores, the response word by a response or a reset. -/
theorem stepKeepsTheDataInvariant : Obligations.StepKeepsTheDataInvariant := by
  intro s t hs h
  rcases step_cases h with ⟨hturn, ht⟩ | ⟨m, hb⟩
  · rcases hostTurn_cases hturn ht with ⟨p, k, -, rfl⟩ | ⟨b, k, -, rfl⟩ | ⟨b, k, -, rfl⟩ | ⟨i, v, k, -, -, -, rfl⟩
    · exact hs
    · exact hs
    · cases b with
      | true => exact resetBlock_dataInv (s := { s with hostMoves := k, rst := true }) hs.1
      | false => exact hs
    · exact ⟨Memory.put_wf hs.1 _ _, hs.2⟩
  · exact blockStep_dataInv (s := { s with hostMoves := m, foundValid := false }) hs hb

/-- Settles O57: each register at its reset value. -/
theorem resetMeetsTheInvariants : Obligations.ResetMeetsTheInvariants :=
  ⟨.of_quiet trivial rfl rfl ⟨rfl, rfl, rfl⟩, ⟨rfl, rfl⟩, reset_wf, legalWord_zero⟩

end Sys2Proof.Machine


/-! # What the commands leave of BUF, and what a read has stored (O46) -/

namespace Sys2Proof.Machine

/-! ### A run of stores -/

/-- `BUF` after the bytes vs were stored in rising order from index i. -/
def putAll : Nat → List Byte → Memory → Memory
  | _, [], m => m
  | i, v :: vs, m => putAll (i + 1) vs (m.put i v)

theorem putAll_wf {m : Memory} (hm : m.wf) (i : Nat) (vs : List Byte) : (putAll i vs m).wf := by
  induction vs generalizing i m with
  | nil => exact hm
  | cons v vs ih => exact ih (Memory.put_wf hm i v) (i + 1)

theorem get_putAll {m : Memory} (hm : m.wf) (i : Nat) (vs : List Byte) (j : Nat) :
    (putAll i vs m).get j = if i ≤ j then (vs[j - i]?).getD (m.get j) else m.get j := by
  induction vs generalizing i m with
  | nil => simp [putAll]
  | cons v vs ih =>
    rw [putAll, ih (Memory.put_wf hm i v), Memory.get_put hm]
    rcases Nat.lt_trichotomy i j with h | rfl | h
    · have hj : j - i = (j - (i + 1)) + 1 := by omega
      simp [hj, h, Nat.le_of_lt h, Nat.ne_of_gt h]
    · simp
    · simp [Nat.not_le_of_gt h, Nat.not_le_of_gt (Nat.lt_succ_of_lt h), Nat.ne_of_lt h]

/-- The notable events of a data phase that receives vs from index i on, in the order of time. -/
def readNotes : Nat → List Byte → List Event
  | _, [] => []
  | i, v :: vs => (bitsOf v).map Event.readSda ++ .memWrite i v :: readNotes (i + 1) vs

theorem samples_append (es fs : List Event) : samples (es ++ fs) = samples es ++ samples fs := List.filterMap_append

theorem stores_append (es fs : List Event) : stores (es ++ fs) = stores es ++ stores fs := List.filterMap_append

@[simp] theorem samples_readSda (ds : List Bit) : samples (ds.map Event.readSda) = ds := by
  induction ds with
  | nil => rfl
  | cons d ds ih => exact congrArg (d :: ·) ih

@[simp] theorem stores_readSda (ds : List Bit) : stores (ds.map Event.readSda) = [] := by
  induction ds with
  | nil => rfl
  | cons d ds ih => exact ih

theorem samples_readNotes (i : Nat) (vs : List Byte) : samples (readNotes i vs) = vs.flatMap bitsOf := by
  induction vs generalizing i with
  | nil => rfl
  | cons v vs ih =>
    rw [readNotes, samples_append, samples_readSda, List.flatMap_cons, ← ih (i + 1)]
    rfl

theorem stores_readNotes (i : Nat) (vs : List Byte) :
    stores (readNotes i vs) = (List.range' i vs.length).zip vs := by
  induction vs generalizing i with
  | nil => rfl
  | cons v vs ih =>
    rw [readNotes, stores_append, stores_readSda, List.length_cons, List.range'_succ, List.zip_cons_cons, ← ih (i + 1)]
    rfl

/-- Samples and stores are notable. -/
theorem samples_notable (es : List Event) : samples (es.filter notable) = samples es := by
  unfold samples
  rw [List.filterMap_filter]
  exact congrArg (List.filterMap · es) (funext fun e => by cases e <;> rfl)

theorem stores_notable (es : List Event) : stores (es.filter notable) = stores es := by
  unfold stores
  rw [List.filterMap_filter]
  exact congrArg (List.filterMap · es) (funext fun e => by cases e <;> rfl)

theorem samples_notes (s : State) : samples (notes s).reverse = samples s.trace.reverse := by
  rw [notes, ← List.filter_reverse, samples_notable]

theorem stores_notes (s : State) : stores (notes s).reverse = stores s.trace.reverse := by
  rw [notes, ← List.filter_reverse, stores_notable]

/-- The j-th byte of a run of bytes, in its bits. -/
theorem bits_of_byte {vs : List Byte} {j : Nat} {v : Byte} (h : vs[j]? = some v) (xs : List Bit) :
    ((vs.flatMap bitsOf ++ xs).drop (8 * j)).take 8 = bitsOf v := by
  induction j generalizing vs with
  | zero =>
    cases vs with
    | nil => simp at h
    | cons w vs =>
      obtain rfl : w = v := by simpa using h
      rfl
  | succ j ih =>
    cases vs with
    | nil => simp at h
    | cons w vs => exact ih (vs := vs) (by simpa using h)

/-! ### The data phase of a read -/

/-- From s to t the whole bytes vs were received and stored from index b on, and then the bits xs of one byte more. -/
def received (b : Nat) (vs : List Byte) (xs : List Bit) (s t : State) : Prop :=
  notes t = (readNotes b vs ++ xs.map Event.readSda).reverse ++ notes s ∧ t.buf = putAll b vs s.buf

theorem received.cons {b : Nat} {v : Byte} {vs : List Byte} {xs : List Bit} {s t u : State}
    (hn : notes t = .memWrite b v :: (((bitsOf v).map Event.readSda).reverse ++ notes s)) (hb : t.buf = s.buf.put b v)
    (h : received (b + 1) vs xs t u) : received b (v :: vs) xs s u := by
  obtain ⟨hn', hb'⟩ := h
  refine ⟨?_, by rw [hb', hb, putAll]⟩
  rw [hn', hn, readNotes]
  simp

/-- However the data loop ends, it has received whole bytes, all n of them where it returns, and fewer than eight bits of one
byte more. -/
theorem receiveData_received (n : Nat) (s : State) (hn : s.byteCnt.toNat + n ≤ s.len.toNat) :
    ∃ vs xs, received s.byteCnt.toNat vs xs s (receiveData n s).state ∧ vs.length ≤ n ∧ xs.length < 8 ∧
      ((receiveData n s).isOk = true → vs.length = n) := by
  induction n generalizing s with
  | zero => exact ⟨[], [], ⟨rfl, rfl⟩, Nat.le_refl _, by simp, fun _ => rfl⟩
  | succ n ih =>
    obtain ⟨hcnt, hlen, -⟩ := readByte_fields (ackForByte s.byteCnt s.len) s.byteCnt s
    have hbyte := readByte_received (ackForByte s.byteCnt s.len) s.byteCnt s
    rw [receiveData]
    cases hr : readByte (ackForByte s.byteCnt s.len) s.byteCnt s with
    | ok a t =>
      rw [hr] at hcnt hlen hbyte
      change t.byteCnt = s.byteCnt at hcnt
      change t.len = s.len at hlen
      have hup : (incCount t).byteCnt.toNat = s.byteCnt.toNat + 1 := by
        rw [incCount_up (b := t.len) (by rw [hcnt, hlen]; omega), hcnt]
      rcases hbyte with ⟨xs, -, -, -, hno⟩ | ⟨v, hnotes, hbuf⟩
      · cases hno
      · obtain ⟨vs, xs, hrec, hle, hxs, hok⟩ := ih (incCount t) (by rw [hup, incCount_len, hlen]; omega)
        rw [hup] at hrec
        exact ⟨v :: vs, xs, .cons hnotes hbuf hrec, by simpa using hle, hxs, fun h => by simp [hok h]⟩
    | raised f t =>
      rw [hr] at hbyte
      rcases hbyte with ⟨xs, hxs, hs, hbuf, -⟩ | ⟨v, hnotes, hbuf⟩
      · exact ⟨[], xs, ⟨hs, hbuf⟩, Nat.zero_le _, hxs, nofun⟩
      · exact ⟨[v], [], .cons hnotes hbuf ⟨rfl, rfl⟩, by simp, by simp, nofun⟩

/-! ### A whole read -/

theorem addressBytes_read_length (am : AddrMode) (addr : BitVec 10) : (addressBytes am addr true).length = 1 := by
  cases am <;> rfl

/-- The acknowledge slots before the first data byte of a read. -/
def slotsBeforeData (s : State) : Nat := (addressBytes s.am s.addr false).length + s.riw.toNat + 1

theorem addressedForRead_samples (s : State) : takesSamples (slotsBeforeData s) s (addressedForRead s) := by
  refine .andThen (n := 1) (selectRegister_samples s) (fun _ t _ => ?_) rfl
  refine .andThen (m := 0) (n := 1) (.none (notes_start t)) (fun _ u _ => ?_) rfl
  have h := sendAddress_samples true (secondPhase u)
  rw [addressBytes_read_length] at h
  exact .after (t := secondPhase u) rfl h

/-- What a read leaves on record: the samples ds of its acknowledge slots, m of them once data came, the whole bytes vs, stored
from index 0 on, and the bits xs of one byte more. -/
def readRecord (m : Nat) (ds : List Bit) (vs : List Byte) (xs : List Bit) (s t : State) : Prop :=
  notes t = (ds.map Event.readSda ++ (readNotes 0 vs ++ xs.map Event.readSda)).reverse ++ notes s ∧
    t.buf = putAll 0 vs s.buf ∧ ds.length ≤ m ∧ (vs ≠ [] → ds.length = m) ∧ xs.length < 8

theorem rdregAttempt_record (s : State) : ∃ ds vs xs,
    readRecord (slotsBeforeData s) ds vs xs s (rdregAttempt s).state ∧ vs.length ≤ s.len.toNat ∧
      ((rdregAttempt s).isOk = true → vs.length = s.len.toNat) := by
  have hch := addressedForRead_changes s
  obtain ⟨ds, hs, hle, hok⟩ := addressedForRead_samples s
  rw [rdregAttempt_eq]
  cases hr : addressedForRead s with
  | raised f t =>
    rw [hr] at hs hch
    exact ⟨ds, [], [], ⟨by simpa [readNotes, sampled, Run.state, Run.andThen] using hs, hch.buf, hle, nofun, by simp⟩, Nat.zero_le _, nofun⟩
  | ok a t =>
    rw [hr] at hs hok hch
    obtain ⟨vs, xs, ⟨hnotes, hbuf⟩, hlen, hxs, hall⟩ := receiveData_received t.len.toNat (beginData t) (by simp)
    obtain ⟨-, -, -, hl⟩ := hch.packet
    change t.len = s.len at hl
    refine ⟨ds, vs, xs, ⟨hnotes.trans ?_, hbuf.trans ?_, hle, fun _ => hok rfl, hxs⟩, hl ▸ hlen, fun h => hl ▸ hall h⟩
    · have hs' : notes (beginData t) = (ds.map Event.readSda).reverse ++ notes s := hs
      simp [hs']
    · exact congrArg (putAll 0 vs) hch.buf

theorem abort_failed (f : Failure) (s : State) : (abort f s).err ≠ .ok := by
  obtain ⟨-, -, -, -, -, herr, -⟩ := (abort_outcome f s).1.fields
  rw [herr, enterAbort_err, firstFailure]
  split
  · cases f <;> nofun
  · assumption

theorem endTransaction_ok {r : Run Unit} (h : (endTransaction r).err = .ok) : r.isOk = true := by
  cases r with
  | ok a s => rfl
  | raised f s => exact absurd h (abort_failed f s)

/-- The record of a read in the events of its command. -/
theorem readRecord.samples_stores {m : Nat} {ds : List Bit} {vs : List Byte} {xs : List Bit} {s t : State}
    (h : readRecord m ds vs xs s t) (h0 : notes s = []) :
    samples t.trace.reverse = ds ++ (vs.flatMap bitsOf ++ xs) ∧
      stores t.trace.reverse = (List.range vs.length).zip vs := by
  obtain ⟨hn, -⟩ := h
  have hev : (notes t).reverse = ds.map Event.readSda ++ (readNotes 0 vs ++ xs.map Event.readSda) := by
    rw [hn, h0, List.append_nil, List.reverse_reverse]
  rw [← samples_notes, ← stores_notes, hev]
  simp only [samples_append, stores_append, samples_readSda, stores_readSda, samples_readNotes, stores_readNotes,
    List.nil_append, List.append_nil, List.range_eq_range', and_self]

/-- What the samples of a read say: each byte stored is eight of them after the acknowledge slots, and fewer than eight
more follow. -/
theorem readRecord.bytes {m : Nat} {ds : List Bit} {vs : List Byte} {xs : List Bit} {s t : State}
    (h : readRecord m ds vs xs s t) (h0 : notes s = []) :
    (∀ j v, vs[j]? = some v → bitsOf v = ((samples t.trace.reverse).drop (m + 8 * j)).take 8) ∧
      (samples t.trace.reverse).length < m + 8 * (vs.length + 1) := by
  rw [(h.samples_stores h0).1]
  obtain ⟨-, -, hle, hall, hxs⟩ := h
  refine ⟨fun j v hv => ?_, ?_⟩
  · have hds : ds.length = m := hall (by rintro rfl; simp at hv)
    rw [← List.drop_drop, ← hds, List.drop_left, bits_of_byte hv]
  · have hbits : (vs.flatMap bitsOf).length = 8 * vs.length := by
      simp [List.length_flatMap, bitsOf, Nat.mul_comm]
    simp only [List.length_append, hbits]
    omega

/-! ### The commands -/

section
variable (op : BitVec 4) (p : Packet) (c : Option Check) (body : State → State) (s : State)

/-- A command waits while `BUSY` = 1, is answered `IllegalCommand`, or runs. -/
theorem runCommand_cases :
    (s.busy = true ∧ runCommand op p c body s = s) ∨
    (s.busy = false ∧ c ≠ none ∧ runCommand op p c body s = respond { accept op p s with err := .illegalCommand }) ∨
    (s.busy = false ∧ c = none ∧ runCommand op p c body s = respond (body (accept op p s))) := by
  cases hb : s.busy with
  | true => exact .inl ⟨rfl, by simp [runCommand, hb]⟩
  | false =>
    cases c with
    | some c => exact .inr (.inl ⟨rfl, nofun, runCommand_illegal hb⟩)
    | none => exact .inr (.inr ⟨rfl, rfl, runCommand_legal hb⟩)

end

/-- A response leaves `BUF`, `ERR` and the notable events. -/
theorem respond_record (v : State) : (respond v).buf = v.buf ∧ (respond v).err = v.err ∧ notes (respond v) = notes v := by
  unfold respond
  split <;> exact ⟨rfl, rfl, rfl⟩

/-- Only RDREG writes `BUF` (20_memory.md R77). -/
theorem exec_command_buf {i : Instr} (hi : i.isCommand = true) (hr : ∀ p, i ≠ .rdreg p) (s : State) :
    ∃ t, exec i s = .next t ∧ t.buf = s.buf := by
  obtain ⟨op, p, e⟩ := exec_command hi s
  refine ⟨_, e, ?_⟩
  rcases runCommand_cases op p (failedCheck s.maxLen i) (commandBody i) s with ⟨-, h⟩ | ⟨-, -, h⟩ | ⟨-, -, h⟩ <;> rw [h]
  · exact (respond_record _).1
  · exact (respond_record _).1.trans (commandBody_buf hr _)

/-- The events, the buffer and the status of a legal read. -/
theorem exec_rdreg_record {p : Packet} {s : State} (hb : s.busy = false) (hc : failedCheck s.maxLen (.rdreg p) = none) :
    ∃ t ds vs xs, exec (.rdreg p) s = .next t ∧
      readRecord ((addressBytes p.am p.addr false).length + p.riw.toNat + 1) ds vs xs (accept opRdreg p s) t ∧
      vs.length ≤ p.len.toNat ∧ (t.err = .ok → vs.length = p.len.toNat) := by
  obtain ⟨ds, vs, xs, ⟨hn, hbuf, hrest⟩, hle, hall⟩ := rdregAttempt_record (accept opRdreg p s)
  obtain ⟨hrb, hre, hrn⟩ := respond_record (endTransaction (rdregAttempt (accept opRdreg p s)))
  refine ⟨respond (endTransaction (rdregAttempt (accept opRdreg p s))), ds, vs, xs, ?_, ⟨?_, ?_, hrest⟩, hle, fun h => ?_⟩
  · change Host.Outcome.next (runCommand _ _ _ _ _) = _
    rw [hc, runCommand_legal hb]
  · rw [hrn, notes_endTransaction, hn]
  · rw [hrb, (endTransaction_changes _).buf, hbuf]
  · exact hall (endTransaction_ok (hre ▸ h))

/-- However it ends, an RDREG changes `BUF` by a run of at most `LEN` stores from index 0 on. -/
theorem exec_rdreg_buf (p : Packet) (s : State) :
    ∃ t vs, exec (.rdreg p) s = .next t ∧ t.buf = putAll 0 vs s.buf ∧ vs.length ≤ p.len.toNat := by
  rcases runCommand_cases opRdreg p (failedCheck s.maxLen (.rdreg p)) (commandBody (.rdreg p)) s
    with ⟨-, h⟩ | ⟨-, -, h⟩ | ⟨hb, hc, -⟩
  · exact ⟨s, [], congrArg Host.Outcome.next h, rfl, Nat.zero_le _⟩
  · exact ⟨_, [], congrArg Host.Outcome.next h, (respond_record _).1, Nat.zero_le _⟩
  · obtain ⟨t, ds, vs, xs, he, ⟨-, hbuf, -⟩, hle, -⟩ := exec_rdreg_record hb hc
    exact ⟨t, vs, he, hbuf, hle⟩

theorem exec_rdreg_frame (p : Packet) {s : State} (hw : s.buf.wf) :
    ∃ t, exec (.rdreg p) s = .next t ∧ t.buf.wf ∧ ∀ j, p.len.toNat ≤ j → t.buf.get j = s.buf.get j := by
  obtain ⟨t, vs, he, hbuf, hle⟩ := exec_rdreg_buf p s
  refine ⟨t, he, hbuf ▸ putAll_wf hw 0 vs, fun j hj => ?_⟩
  rw [hbuf, get_putAll hw]
  simp [List.getElem?_eq_none (Nat.le_trans hle hj)]

/-- Settles O46: only RDREG stores, and its record tells which bytes. -/
theorem commandsKeepTheRestOfTheBuffer : Obligations.CommandsKeepTheRestOfTheBuffer := by
  intro p s hw
  refine ⟨exec_command_buf rfl (by simp) s, exec_command_buf rfl (by simp) s, exec_command_buf rfl (by simp) s,
    exec_rdreg_frame p hw, fun hb hc => ?_⟩
  obtain ⟨t, ds, vs, xs, he, hrec, hle, hall⟩ := exec_rdreg_record hb hc
  obtain ⟨hbits, hfew⟩ := hrec.bytes rfl
  obtain ⟨-, hstores⟩ := hrec.samples_stores rfl
  obtain ⟨-, hbuf, -⟩ := hrec
  refine ⟨t, vs, he, hle, hall, fun j => ?_, hstores, hbits, hfew⟩
  replace hbuf : t.buf = putAll 0 vs s.buf := hbuf
  rw [hbuf, get_putAll hw]
  simp

end Sys2Proof.Machine


/-! # The command port, the wait for the host and the found pulse (O13, O14, O15, O16) -/

namespace Sys2Proof.Machine

/-! ### Acceptance -/

/-- Settles O13: the port accepts the first packet, legal or not. -/
theorem acceptingStepLatchesThePacket : Obligations.AcceptingStepLatchesThePacket := by
  intro s u p rest hturn hr hp hf hb hcmds
  obtain ⟨m, rfl⟩ := blockTurn_takes_moves hturn
  have hstep : step s = .next (acceptPacket p { s with hostMoves := m, foundValid := false, cmds := rest }) := by
    rw [step_port hturn hr hp hf]
    simp [commandPort, hcmds, hb]
  refine ⟨_, hstep, ?_⟩
  rcases acceptPacket_cases p { s with hostMoves := m, foundValid := false, cmds := rest }
    with ⟨i, hdec, hc, e⟩ | ⟨hno, e⟩
  · rw [e]
    exact ⟨⟨rfl, rfl, rfl, rfl, rfl, rfl, rfl, rfl, rfl⟩, rfl, rfl, rfl, rfl, .inl rfl, rfl, rfl, rfl, rfl, nofun,
      fun h => absurd hc (h i hdec)⟩
  · rw [e]
    exact ⟨⟨rfl, rfl, rfl, rfl, rfl, rfl, rfl, rfl, rfl⟩, rfl, rfl, rfl, rfl, .inr rfl, rfl, rfl, rfl, rfl,
      fun _ => hno, fun _ => rfl⟩

/-! ### A packet that waits -/

/-- The same state with the packets q offered. -/
def offering (q : List (BitVec 128)) (s : State) : State := { s with cmds := q }

theorem raiseAt_offering (f : Failure) (q : List (BitVec 128)) (s : State) :
    raiseAt f (offering q s) = offering q (raiseAt f s) := by
  have hp : (offering q s).place = s.place := rfl
  unfold raiseAt
  rw [hp]
  cases unwind s.place <;> rfl

theorem pollOnce_offering (g : GuardKind) (q : List (BitVec 128)) (s : State) :
    pollOnce g (offering q s) = offering q (pollOnce g s) := by
  have hlow : sclSample (offering q s) = sclSample s := rfl
  have hcount : (offering q s).stretchCnt = s.stretchCnt := rfl
  unfold pollOnce
  rw [hlow, hcount]
  split
  · cases g <;> rfl
  · split
    · cases g
      · exact raiseAt_offering .timeout q (readScl s)
      · rfl
    · rfl

theorem closeWith_offering (b : Bool) (q : List (BitVec 128)) (s : State) :
    closeWith b (offering q s) = offering q (closeWith b s) := by
  cases b <;> rfl

theorem callOp_offering {i : Instr} {s u : State} (h : callOp i s = .next u) (q : List (BitVec 128)) :
    callOp i (offering q s) = .next (offering q u) := by
  have hn : namesNoByte (offering q s) i = namesNoByte s i := by cases i <;> rfl
  have hs : steps (offering q s) i = steps s i := by cases i <;> rfl
  unfold callOp at h ⊢
  rw [hn, hs]
  split at h
  · cases h
  · cases h
    rename_i hc
    rw [if_neg hc]
    rfl

/-- A step of the running command does not look at the packets offered. -/
theorem runTask_offering {t : Task} {s u : State} (h : runTask t s = .next u) (q : List (BitVec 128)) :
    runTask t (offering q s) = .next (offering q u) := by
  cases t with
  | op i => exact callOp_offering h q
  | onRaise g => cases g <;> cases h <;> rfl
  | poll g => cases h; exact congrArg Host.Outcome.next (pollOnce_offering g q s)
  | check f =>
    rcases ite_next h with ⟨hc, rfl⟩ | ⟨hc, rfl⟩
    · exact congrArg Host.Outcome.next ((if_pos hc).trans rfl)
    · exact congrArg Host.Outcome.next ((if_neg hc).trans (raiseAt_offering f q s))
  | close => cases h; exact congrArg Host.Outcome.next (closeWith_offering _ q s)
  | writeBits | readBits | indexLoop | indexPhase | writeLoop | readLoop | awaitTaken | emitFound =>
    rcases ite_next h with ⟨hc, rfl⟩ | ⟨hc, rfl⟩
    · exact congrArg Host.Outcome.next ((if_pos hc).trans rfl)
    · exact congrArg Host.Outcome.next ((if_neg hc).trans rfl)
  | scanLoop =>
    rcases ite_next h with ⟨hc, rfl⟩ | ⟨hc, rfl⟩
    · refine congrArg Host.Outcome.next ((if_pos hc).trans ?_)
      by_cases hskip : scanSkips s.skip s.scanAddr = true
      · rw [if_pos hskip]
        exact (if_pos hskip).trans rfl
      · rw [if_neg hskip]
        exact (if_neg hskip).trans rfl
    · exact congrArg Host.Outcome.next ((if_neg hc).trans rfl)
  | _ => cases h; rfl

theorem blockTurn_offering {s u : State} (h : blockTurn s = some u) (q : List (BitVec 128)) :
    blockTurn (offering q s) = some (offering q u) := by
  have hmap : blockTurn (offering q s) = (blockTurn s).map (offering q) := by
    have hm : (offering q s).hostMoves = s.hostMoves := rfl
    have hb : (offering q s).busy = s.busy := rfl
    unfold blockTurn
    rw [hm, hb]
    split
    · rfl
    · rfl
    · split <;> rfl
    all_goals rfl
  rw [hmap, h]
  rfl

/-- With `BUSY` = 1 no step of the block takes a packet. -/
theorem blockStep_busy_cmds {s t : State} (hb : s.busy = true) (h : BlockStep s t) : t.cmds = s.cmds := by
  cases h with
  | reset hr => rfl
  | task hr hp h =>
    obtain ⟨e, -, -, -, -, -, -, -, -, hcmds⟩ := runTask_makesEvent h
    exact hcmds
  | slot hr hp hf h =>
    obtain ⟨-, -, -, -, -, hcmds⟩ := runSlot_keepsInputs h
    exact hcmds
  | port hr hp hf =>
    rcases commandPort_cases s with e | ⟨p, rest, -, hfree, -⟩
    · rw [e]
    · exact absurd (hb.symm.trans hfree) nofun

/-- Settles O14: with `BUSY` = 1 the port takes nothing, and no step of a running command looks at it. -/
theorem busyBlockLetsThePacketWait : Obligations.BusyBlockLetsThePacketWait := by
  intro s u t hturn hb hstep
  have hcmds := blockStep_of_step hturn hstep
  obtain ⟨m, rfl⟩ := blockTurn_takes_moves hturn
  refine ⟨blockStep_busy_cmds (s := { s with hostMoves := m, foundValid := false }) hb hcmds, fun hp q => ?_⟩
  have hturn' := blockTurn_offering hturn q
  change step (offering q s) = .next (offering q t)
  cases hr : s.rst with
  | true =>
    rw [step_reset hturn hr] at hstep
    cases hstep
    exact step_reset hturn' hr
  | false =>
    obtain ⟨a, k, hplace⟩ := List.exists_cons_of_ne_nil hp
    rw [step_task hturn hr hplace] at hstep
    exact (step_task hturn' hr hplace).trans (runTask_offering hstep q)

/-! ### The wait for the host -/

/-- Settles O15: the wait is the remaining step; it stays, or the response is taken. -/
theorem responseIsHeldUntilTaken : Obligations.ResponseIsHeldUntilTaken := by
  intro s u hturn hr hp
  obtain ⟨m, rfl⟩ := blockTurn_takes_moves hturn
  rw [step_task (t := .awaitTaken) (k := []) hturn hr hp]
  refine ⟨fun hready => ?_, fun hready => ?_⟩
  · simp [runTask, hready, push, hp]
  · simp [runTask, hready, taken]

/-! ### The pulse of found_valid -/

/-- The pulse of `found_valid` in a step from s to t: up exactly where the step emitted a found event, whose address it
shows. -/
def pulseMarks (s t : State) : Prop :=
  (t.foundValid = true ↔ ∃ a, t.trace = .found a :: s.trace) ∧
    ∀ a, t.trace = .found a :: s.trace → t.foundAddr = a ∧ t.found = s.found ++ [a]

theorem pulseMarks.of_none {s t : State} (hv : t.foundValid = false) (hn : ∀ a, t.trace ≠ .found a :: s.trace) :
    pulseMarks s t :=
  ⟨⟨fun h => absurd (hv.symm.trans h) nofun, fun ⟨a, h⟩ => absurd h (hn a)⟩, fun a h => absurd h (hn a)⟩

theorem pulseMarks.of_same {s t : State} (hv : t.foundValid = false) (h : t.trace = s.trace) : pulseMarks s t :=
  .of_none hv fun _ ha => List.cons_ne_self _ _ (ha.symm.trans h)

theorem pulseMarks.of_event {s t : State} {e : Event} {es : List Event} (hv : t.foundValid = false)
    (h : t.trace = e :: es) (he : ∀ a, e ≠ .found a) : pulseMarks s t :=
  .of_none hv fun a ha => he a (List.cons.inj (h.symm.trans ha)).1

/-- Samples and stores alone are no found event. -/
theorem pulseMarks.of_notes {s t : State} {es : List Event} (hv : t.foundValid = false) (h : notes t = es ++ notes s)
    (he : ∀ a, .found a ∉ es) : pulseMarks s t := by
  refine .of_none hv fun a ha => he a ?_
  have hfound : notes t = [.found a] ++ notes s := by rw [notes, ha]; rfl
  rw [List.append_cancel_right (h.symm.trans hfound)]
  exact List.mem_singleton_self _

/-- Of the steps of a running command only `EmitFound` raises the pulse. -/
theorem runTask_pulse {t : Task} {s u : State} (hv : s.foundValid = false) (h : runTask t s = .next u) :
    pulseMarks s u := by
  rcases runTask_ports h with ⟨-, hsame, ht | ⟨e, ht, he⟩⟩ | rfl | ⟨a, rfl⟩
  · exact .of_same (hsame.trans hv) ht
  · exact .of_event (hsame.trans hv) ht he
  · exact .of_event hv rfl nofun
  · refine ⟨⟨fun _ => ⟨a, rfl⟩, fun _ => rfl⟩, fun b hb => ?_⟩
    cases hb
    exact ⟨rfl, rfl⟩

theorem changesOnlyBody.foundValid {s t : State} (h : changesOnlyBody s t) : t.foundValid = s.foundValid := by
  unfold changesOnlyBody at h
  rw [h]

theorem readByte_notes (k : Ack) (i : BitVec 12) (s : State) :
    ∃ es, notes (readByte k i s).state = es ++ notes s ∧ ∀ a, .found a ∉ es := by
  rcases readByte_received k i s with ⟨xs, -, hs, -⟩ | ⟨v, hn, -⟩
  · exact ⟨_, hs, by simp⟩
  · exact ⟨.memWrite i.toNat v :: ((bitsOf v).map Event.readSda).reverse, hn, by simp⟩

/-- An instruction run whole from the slot leaves no pulse: a command ends with its response, another instruction finds
nothing. -/
theorem runSlot_pulse {c : Code} {s t : State} (hv : s.foundValid = false) (h : runSlot c s = .next t) :
    pulseMarks s t := by
  rcases runSlot_cases h with rfl | ⟨v, hr, rfl⟩ | ⟨i, hi, he⟩
  · exact .of_same hv rfl
  · obtain ⟨-, -, -, -, hvv⟩ := hr.fields
    obtain ⟨-, -, -, -, hside, -⟩ := respond_keepsHostSide v
    have htrace : (respond v).trace = .respond v.err :: v.trace := by unfold respond; split <;> rfl
    exact .of_event (hside.trans (hvv.trans hv)) htrace nofun
  · obtain ⟨u, x, rfl, ⟨hu, ds, hs⟩ | ⟨k, j, rfl⟩⟩ := exec_operation hi he
    · exact .of_notes (hu.toBody.foundValid.trans hv) hs (by simp)
    · obtain ⟨es, hn, hes⟩ := readByte_notes k j { s with fetch := none }
      exact .of_notes ((readByte_changesBody k j _).foundValid.trans hv) hn hes

theorem blockStep_pulse {s t : State} (hv : s.foundValid = false) (h : BlockStep s t) : pulseMarks s t := by
  cases h with
  | reset hr => exact .of_none rfl fun _ => (List.cons_ne_nil _ _).symm
  | @task a k t hr hp h => exact runTask_pulse (s := { s with place := k }) hv h
  | slot hr hp hf h => exact runSlot_pulse hv h
  | port hr hp hf =>
    rcases commandPort_cases s with e | ⟨p, rest, -, -, e⟩
    · rw [e]
      exact .of_same hv rfl
    · rcases acceptPacket_cases p { s with cmds := rest } with ⟨i, -, -, ha⟩ | ⟨-, ha⟩ <;> rw [e, ha] <;>
        exact .of_none hv nofun

/-- Settles O16: by the case of the block's step, which begins with the pulse over. -/
theorem foundPulseMarksAnEmission : Obligations.FoundPulseMarksAnEmission := by
  intro s u t hturn hstep
  have h := blockStep_of_step hturn hstep
  obtain ⟨m, rfl⟩ := blockTurn_takes_moves hturn
  exact blockStep_pulse (s := { s with hostMoves := m, foundValid := false }) rfl h

end Sys2Proof.Machine


/-! # Bus operations, the buffer's bound and the frame of the commands (O25, O30, O39, O53) -/

namespace Sys2Proof.Machine

/-! ### Bus operations -/

/-- Handing over a result changes only the bus state. -/
theorem changesOnlyBus.ret {s t : State} (h : changesOnlyBus s t) (x : OpResult) : changesOnlyBus s { t with ret := x } :=
  h.trans rfl

theorem readAck_ends (s : State) :
    (∃ a t, readAck s = .ok a t ∧ changesOnlyBus { s with ackf := a } t ∧ t.ackf = a ∧ t.sclOut = false ∧
        t.sdaOut = true) ∨
      (∃ t, readAck s = .raised .timeout t ∧ changesOnlyBus s t ∧ t.sclOut = true ∧ t.sdaOut = true) := by
  rcases readBit_cases s with ⟨d, t, e, hf, hs, hd⟩ | ⟨t, e, hf, hs, hd⟩
  · refine .inl ⟨ackOfSample d, setAckf (ackOfSample d) t, by rw [readAck, e]; rfl, ?_, rfl, hs, hd⟩
    unfold changesOnlyBus at hf ⊢
    rw [setAckf, hf]
  · exact .inr ⟨t, by rw [readAck, e]; rfl, hf, hs, hd⟩

/-- Settles O25: from the two ends of each operation. -/
theorem latchesOnExitOfBusOperations : Obligations.LatchesOnExitOfBusOperations := by
  have write (b : Bit) (s : State) : ∃ t, exec (.writeBit b) s = .next t ∧ changesOnlyBus s t ∧
      (t.ret = .done ∧ t.sclOut = false ∧ t.sdaOut = b ∨ t.ret = .raised .timeout ∧ t.sclOut = true ∧ t.sdaOut = b) := by
    refine ⟨_, rfl, ?_⟩
    rcases writeBit_cases b s with ⟨t, e, hf, hs, hd⟩ | ⟨t, e, hf, hs, hd⟩ <;> rw [e]
    · exact ⟨hf.ret _, .inl ⟨rfl, hs, hd⟩⟩
    · exact ⟨hf.ret _, .inr ⟨rfl, hs, hd⟩⟩
  intro s
  refine ⟨⟨_, rfl, ?_⟩, ?_, ⟨_, rfl, ?_⟩, fun b => write b s, ⟨_, rfl, ?_⟩, fun k => write (ackBit k) s, ⟨_, rfl, ?_⟩⟩
  · rcases guardReleaseScl_cases s with ⟨t, e, hf, hs, hd⟩ | ⟨t, e, hf, hs, hd, hz⟩ <;> rw [e]
    · exact ⟨hf.ret _, hs, hd, .inl rfl⟩
    · exact ⟨hf.ret _, hs, hd, .inr ⟨rfl, hz⟩⟩
  · obtain ⟨hf, hs, hd⟩ := stopBus_outcome s
    exact ⟨_, _, rfl, hf.ret _, rfl, hs, hd⟩
  · rcases start_cases s with ⟨t, e, hf, hs, hd⟩ | ⟨t, e, hf, hs, hd⟩ <;> rw [e]
    · exact ⟨hf.ret _, .inl ⟨rfl, hs, hd⟩⟩
    · exact ⟨hf.ret _, .inr ⟨rfl, hs, hd⟩⟩
  · rcases readBit_cases s with ⟨d, t, e, hf, hs, hd⟩ | ⟨t, e, hf, hs, hd⟩ <;> rw [e]
    · exact ⟨hf.ret _, .inl ⟨⟨d, rfl⟩, hs, hd⟩⟩
    · exact ⟨hf.ret _, .inr ⟨rfl, hs, hd⟩⟩
  · rcases readAck_ends s with ⟨a, t, e, hf, rfl, hs, hd⟩ | ⟨t, e, hf, hs, hd⟩ <;> rw [e]
    · exact ⟨hf.ret _, .inl ⟨rfl, hs, hd⟩⟩
    · obtain ⟨-, -, ha, -⟩ := hf.fields
      have hsame : { s with ackf := t.ackf } = s := by rw [ha]
      exact ⟨hsame.symm ▸ hf.ret _, .inr ⟨rfl, ha, hs, hd⟩⟩

/-- Settles O30: `BUF` has no such byte. -/
theorem readByteOutsideTheBufferStops : Obligations.ReadByteOutsideTheBufferStops := by
  intro s k i hi
  have hno : hasByte s i = false := by simp [hasByte, BitVec.ult, hi]
  change execReadByte k i s = _
  simp [execReadByte, hno]

/-- Settles O39: a command met while `BUSY` waits. -/
theorem commandWaitsWhileBusy : Obligations.CommandWaitsWhileBusy := by
  intro i s hi hb
  obtain ⟨op, p, e⟩ := exec_command hi s
  rw [e]
  simp [runCommand, hb]

/-! ### The frame of the commands -/

/-- The registers of the scanner stay. -/
def keepsScanner (s t : State) : Prop := t.scanAddr = s.scanAddr ∧ t.foundAddr = s.foundAddr

theorem keepsScanner.trans {s t u : State} (h : keepsScanner s t) (k : keepsScanner t u) : keepsScanner s u :=
  ⟨k.1.trans h.1, k.2.trans h.2⟩

theorem changesOnlyPhase.keepsScanner {s t : State} (h : changesOnlyPhase s t) : Machine.keepsScanner s t := by
  unfold changesOnlyPhase at h
  rw [h]
  exact ⟨rfl, rfl⟩

theorem rdregAttempt_keepsScanner (s : State) : keepsScanner s (rdregAttempt s).state :=
  rdregAttempt_rel .trans changesOnlyPhase.keepsScanner (fun _ _ _ => ⟨rfl, rfl⟩) s

theorem changesOnlyByte.byteCnt {s t : State} (h : changesOnlyByte s t) : t.byteCnt = s.byteCnt := by
  obtain ⟨-, -, h, -⟩ := h.fields
  exact h

theorem endTransaction_byteCnt (r : Run Unit) : (endTransaction r).byteCnt = r.state.byteCnt := by
  have hstop (s : State) : (stopBus s).2.byteCnt = s.byteCnt := (stopBus_outcome s).1.toByte.byteCnt
  cases r with
  | ok a s =>
    have hclose (b : Bool) (t : State) : (closeWith b t).byteCnt = t.byteCnt := by
      unfold closeWith
      split <;> rfl
    exact (hclose _ _).trans (hstop s)
  | raised f s => exact hstop (enterAbort f s)

/-- PROBE counts no bytes. -/
theorem probe_byteCnt (s : State) : (probe s).2.byteCnt = s.byteCnt := by
  have hphase : (probeAddressPhase (probeBegin s)).state.byteCnt = s.byteCnt :=
    Run.andThen_keeps (R := fun s t => t.byteCnt = s.byteCnt) (fun h k => k.trans h)
      (start_changes (probeBegin s)).toByte.byteCnt fun _ t =>
        Run.andThen_keeps (R := fun s t => t.byteCnt = s.byteCnt) (fun h k => k.trans h)
          (sendFrame_changes _ _ (enterFsm .started t)).byteCnt fun _ _ => rfl
  exact (endTransaction_byteCnt _).trans hphase

/-- The working registers a command may or may not write: neither acceptance nor the response does. -/
def keepsRegisters (s t : State) : Prop :=
  t.shreg = s.shreg ∧ t.bitCnt = s.bitCnt ∧ t.byteCnt = s.byteCnt ∧ t.ackf = s.ackf ∧ keepsScanner s t

theorem keepsRegisters.scanner {s t : State} (h : keepsRegisters s t) : keepsScanner s t := by
  obtain ⟨-, -, -, -, h⟩ := h
  exact h

theorem keepsRegisters.byteCnt {s t : State} (h : keepsRegisters s t) : t.byteCnt = s.byteCnt := by
  obtain ⟨-, -, h, -⟩ := h
  exact h

theorem keepsRegisters.trans {s t u : State} (h : keepsRegisters s t) (k : keepsRegisters t u) : keepsRegisters s u := by
  obtain ⟨h1, h2, h3, h4, h5⟩ := h
  obtain ⟨k1, k2, k3, k4, k5⟩ := k
  exact ⟨k1.trans h1, k2.trans h2, k3.trans h3, k4.trans h4, h5.trans k5⟩

theorem changesOnlyBus.keepsRegisters {s t : State} (h : changesOnlyBus s t) : Machine.keepsRegisters s t := by
  unfold changesOnlyBus at h
  rw [h]
  exact ⟨rfl, rfl, rfl, rfl, rfl, rfl⟩

theorem respond_keepsRegisters (v : State) : keepsRegisters v (respond v) := by
  unfold respond
  split <;> exact ⟨rfl, rfl, rfl, rfl, rfl, rfl⟩

theorem changesOnlyBody.latched {op : BitVec 4} {p : Packet} {s t : State} (h : changesOnlyBody (accept op p s) t) :
    Machine.latched op p (respond t) := by
  unfold changesOnlyBody at h
  rw [h]
  unfold respond
  split <;> exact ⟨rfl, rfl, rfl, rfl, rfl, rfl, rfl, rfl, rfl⟩

/-- The frame of a command: the host's side stays, the packet is latched where it did not wait, and the working registers
are as before or as the body left them. -/
theorem runCommand_frame (op : BitVec 4) (p : Packet) (c : Option Check) (i : Instr) (s : State) :
    keepsHostSide s (runCommand op p c (commandBody i) s) ∧
      (s.busy = false → latched op p (runCommand op p c (commandBody i) s)) ∧
      (keepsRegisters s (runCommand op p c (commandBody i) s) ∨
        keepsRegisters (commandBody i (accept op p s)) (runCommand op p c (commandBody i) s)) := by
  have hside {t : State} (h : changesOnlyBody (accept op p s) t) : keepsHostSide s (respond t) :=
    ((accept_keepsHostSide op p s).trans h.keepsHostSide).trans (respond_keepsHostSide t)
  rcases runCommand_cases op p c (commandBody i) s with ⟨hb, h⟩ | ⟨-, -, h⟩ | ⟨-, -, h⟩ <;> rw [h]
  · exact ⟨⟨rfl, rfl, rfl, rfl, rfl, rfl, rfl⟩, fun hfree => absurd (hb.symm.trans hfree) nofun,
      .inl ⟨rfl, rfl, rfl, rfl, rfl, rfl⟩⟩
  · have hbody : changesOnlyBody (accept op p s) { accept op p s with err := .illegalCommand } := rfl
    exact ⟨hside hbody, fun _ => hbody.latched, .inl (respond_keepsRegisters { accept op p s with err := .illegalCommand })⟩
  · have hbody := commandBody_changes i (accept op p s)
    exact ⟨hside hbody, fun _ => hbody.latched, .inr (respond_keepsRegisters _)⟩

/-- INIT leaves the working registers. -/
theorem initBody_keepsRegisters (s : State) : keepsRegisters s (initBody s) :=
  (changesOnlyBus.trans (t := settle (setScl true (setSda true s))) rfl (guardedRelease_outcome _).1).keepsRegisters

/-- Settles O53: what the bodies leave, and the frame of acceptance and response. -/
theorem commandsLeaveTheOtherRegisters : Obligations.CommandsLeaveTheOtherRegisters := by
  intro p s
  refine ⟨⟨_, rfl, ?_⟩, ⟨_, rfl, ?_⟩, ⟨_, rfl, ?_⟩, ⟨_, rfl, ?_⟩⟩
  · obtain ⟨hside, hlatched, hregs⟩ := runCommand_frame opInit p (failedCheck s.maxLen (.init p)) (.init p) s
    obtain ⟨hshreg, hbit, hbyte, hackf, hscan, hfound⟩ :=
      hregs.elim id (initBody_keepsRegisters (accept opInit p s)).trans
    exact ⟨hshreg, hbit, hbyte, hscan, hackf, hfound, hside, hlatched⟩
  · obtain ⟨hside, hlatched, hregs⟩ := runCommand_frame opWrreg p (failedCheck s.maxLen (.wrreg p)) (.wrreg p) s
    have hbody : keepsScanner (accept opWrreg p s) (endTransaction (wrregAttempt (accept opWrreg p s))) :=
      ((wrregAttempt_changes _).trans (endTransaction_changes _)).keepsScanner
    obtain ⟨hscan, hfound⟩ := hregs.elim (·.scanner) fun h => hbody.trans h.scanner
    exact ⟨hscan, hfound, hside, hlatched⟩
  · obtain ⟨hside, hlatched, hregs⟩ := runCommand_frame opRdreg p (failedCheck s.maxLen (.rdreg p)) (.rdreg p) s
    have hbody : keepsScanner (accept opRdreg p s) (endTransaction (rdregAttempt (accept opRdreg p s))) :=
      (rdregAttempt_keepsScanner _).trans (endTransaction_changes _).keepsScanner
    obtain ⟨hscan, hfound⟩ := hregs.elim (·.scanner) fun h => hbody.trans h.scanner
    exact ⟨hscan, hfound, hside, hlatched⟩
  · obtain ⟨hside, hlatched, hregs⟩ := runCommand_frame opScan p (failedCheck s.maxLen (.scan p)) (.scan p) s
    have hbody : (commandBody (.scan p) (accept opScan p s)).byteCnt = s.byteCnt := by
      simp only [commandBody, scanBody]
      exact scanLoop_keeps (f := State.byteCnt) probe_byteCnt (fun _ _ => rfl) (fun _ => rfl) _ _
    exact ⟨hregs.elim (·.byteCnt) fun h => h.byteCnt.trans hbody, hside, hlatched⟩

end Sys2Proof.Machine

/-! # Operations on a bus that does not stretch the clock, and on one that stretches a single release past the budget -/

namespace Sys2Proof.Machine

/-! ### Cutting an event list at a release -/

theorem releases_append (es fs : List Event) : releases (es ++ fs) = releases es + releases fs := List.count_append

theorem cutAtRelease_of_ne {e : Event} (he : e ≠ .scl true) (n : Nat) (es : List Event) :
    cutAtRelease n (e :: es) = e :: cutAtRelease n es := by
  cases e with
  | scl b =>
    obtain rfl : b = false := by simpa using he
    cases n <;> rfl
  | _ => cases n <;> rfl

theorem releases_cons_of_ne {e : Event} (he : e ≠ .scl true) (es : List Event) :
    releases (e :: es) = releases es := by
  simp [releases, he]

theorem releases_cons_release (es : List Event) : releases (.scl true :: es) = releases es + 1 := by simp [releases]

/-- A cut within the first of two lists leaves the second out. -/
theorem cutAtRelease_append_left {n : Nat} {es : List Event} (h : n < releases es) (fs : List Event) :
    cutAtRelease n (es ++ fs) = cutAtRelease n es := by
  induction es generalizing n with
  | nil => simp [releases] at h
  | cons e es ih =>
    by_cases he : e = .scl true
    · subst he
      cases n with
      | zero => rfl
      | succ n => exact congrArg (List.cons _) (ih (by rw [releases_cons_release] at h; omega))
    · rw [List.cons_append, cutAtRelease_of_ne he, cutAtRelease_of_ne he, ih (by rwa [releases_cons_of_ne he] at h)]

/-- A cut beyond the first of two lists keeps it whole. -/
theorem cutAtRelease_append_right {n : Nat} {es : List Event} (h : releases es ≤ n) (fs : List Event) :
    cutAtRelease n (es ++ fs) = es ++ cutAtRelease (n - releases es) fs := by
  induction es generalizing n with
  | nil => rfl
  | cons e es ih =>
    by_cases he : e = .scl true
    · subst he
      rw [releases_cons_release] at h ⊢
      obtain ⟨m, rfl⟩ : ∃ m, n = m + 1 := ⟨n - 1, by omega⟩
      rw [Nat.add_sub_add_right]
      exact congrArg (List.cons _) (ih (by omega))
    · rw [releases_cons_of_ne he] at h ⊢
      rw [List.cons_append, cutAtRelease_of_ne he, ih h, List.cons_append]

/-- A cut keeps the events before it. -/
theorem cutAtRelease_isPrefix (n : Nat) (es : List Event) : cutAtRelease n es <+: es := by
  induction es generalizing n with
  | nil => exact ⟨[], rfl⟩
  | cons e es ih =>
    by_cases he : e = .scl true
    · subst he
      cases n with
      | zero => exact ⟨es, rfl⟩
      | succ n => exact List.cons_prefix_cons.mpr ⟨rfl, ih n⟩
    · rw [cutAtRelease_of_ne he]
      exact List.cons_prefix_cons.mpr ⟨rfl, ih n⟩

/-! ### The stores of an event list -/

/-- The buffer after a list of stores, the first one first. -/
def storeAll (ws : List (Nat × Byte)) (m : Memory) : Memory := ws.foldl (fun m w => m.put w.1 w.2) m

theorem storeAll_append (ws xs : List (Nat × Byte)) (m : Memory) :
    storeAll (ws ++ xs) m = storeAll xs (storeAll ws m) := List.foldl_append

/-- The first of the stores at rising indices. -/
theorem storeAll_of_isPrefix {i : Nat} {vs : List Byte} {ws : List (Nat × Byte)}
    (h : ws <+: (List.range' i vs.length).zip vs) (m : Memory) : storeAll ws m = putAll i (vs.take ws.length) m := by
  induction vs generalizing i ws m with
  | nil =>
    obtain rfl : ws = [] := List.prefix_nil.mp h
    rfl
  | cons v vs ih =>
    rw [List.length_cons, List.range'_succ, List.zip_cons_cons] at h
    cases ws with
    | nil => rfl
    | cons w ws =>
      obtain ⟨rfl, hws⟩ := List.cons_prefix_cons.mp h
      exact ih hws (m.put i v)

/-! ### Playing an event list -/

/-- The state s on a bus that has the answers c and d ready, with the events tr behind it. -/
def State.on (s : State) (tr : List Event) (c d : List Bit) : State :=
  { s with trace := tr, sclAnswers := c, sdaAnswers := d }

/-- From s to t `BUF` changes by the stores among es; the failure latch and the budget stay. -/
def advances (es : List Event) (s t : State) : Prop :=
  t.buf = storeAll (stores es) s.buf ∧ t.err = s.err ∧ t.tmo = s.tmo

theorem advances.trans {es fs : List Event} {s t u : State} (h : advances es s t) (k : advances fs t u) :
    advances (es ++ fs) s u := by
  obtain ⟨hb, he, ht⟩ := h
  obtain ⟨kb, ke, kt⟩ := k
  refine ⟨?_, ke.trans he, kt.trans ht⟩
  rw [stores_append, storeAll_append, ← hb, kb]

/-- The operation, started in s, plays the events es. With the clock line high at every release and the data line
answering ds it makes exactly es and returns a in t. With the clock line low for the whole budget at any one release
among es it raises Timeout there (41_clock_stretch_guard.md R141), having made es up to that release and the polls. -/
structure Plays {α : Type} (op : State → Run α) (s : State) (es : List Event) (ds : List Bit) (a : α) (t : State) :
    Prop where
  moves : advances es s t
  completes : ∀ tr c d, op (s.on tr (List.replicate (releases es) true ++ c) (ds ++ d)) =
    .ok a (t.on (es.reverse ++ tr) c d)
  timesOut : ∀ tr n c d, n < releases es → ∃ u d', advances (cutAtRelease n es) s u ∧
    op (s.on tr (List.replicate n true ++ (List.replicate (s.tmo.toNat + 1) false ++ c)) (ds ++ d)) =
      .raised .timeout (u.on (lowPolls (s.tmo.toNat + 1) ++ ((cutAtRelease n es).reverse ++ tr)) c d')

namespace Plays

variable {α β : Type} {op : State → Run α} {s t v : State} {es fs : List Event} {ds gs : List Bit} {a : α}
  {b : β} {g : State → State}

/-- An operation that releases no clock. -/
theorem of_no_release (hr : releases es = 0) (hm : advances es s t)
    (h : ∀ tr c d, op (s.on tr c (ds ++ d)) = .ok a (t.on (es.reverse ++ tr) c d)) : Plays op s es ds a t where
  moves := hm
  completes := by rw [hr]; exact h
  timesOut _ n _ _ hn := absurd hn (by omega)

/-- Returning at once. -/
theorem done : Plays (fun s => .ok a s) s [] [] a s := .of_no_release rfl ⟨rfl, rfl, rfl⟩ fun _ _ _ => rfl

/-- One operation after the other. -/
theorem andThen {f : α → State → Run β} (h : Plays op s es ds a t) (k : Plays (f a) t fs gs b v) :
    Plays (fun s => (op s).andThen f) s (es ++ fs) (ds ++ gs) b v where
  moves := h.moves.trans k.moves
  completes tr c d := by
    rw [releases_append, List.replicate_add, List.append_assoc, List.append_assoc, h.completes, List.reverse_append,
      List.append_assoc]
    exact k.completes _ _ _
  timesOut tr n c d hn := by
    have htmo : t.tmo = s.tmo := h.moves.2.2
    rw [List.append_assoc]
    by_cases hlt : n < releases es
    · obtain ⟨u, d', hu, e⟩ := h.timesOut tr n c (gs ++ d) hlt
      rw [cutAtRelease_append_left hlt, e]
      exact ⟨u, d', hu, rfl⟩
    · obtain ⟨m, rfl⟩ : ∃ m, n = releases es + m := ⟨n - releases es, by omega⟩
      rw [releases_append] at hn
      obtain ⟨u, d', hu, e⟩ := k.timesOut (es.reverse ++ tr) m c d (by omega)
      rw [htmo] at e
      rw [cutAtRelease_append_right (by omega), Nat.add_sub_cancel_left, List.replicate_add, List.append_assoc,
        h.completes, List.reverse_append, List.append_assoc]
      exact ⟨u, d', h.moves.trans hu, e⟩

/-- One operation after the other, which does not look at what the first returns. -/
theorem seq {op' : State → Run β} (h : Plays op s es ds a t) (k : Plays op' t fs gs b v) :
    Plays (fun s => (op s).andThen fun _ => op') s (es ++ fs) (ds ++ gs) b v := h.andThen k

/-- An update that releases no clock, before an operation. -/
theorem after (k : Plays op t fs gs a v) (hm : advances es s t) (hr : releases es = 0)
    (hg : ∀ tr c d, g (s.on tr c d) = t.on (es.reverse ++ tr) c d) : Plays (fun s => op (g s)) s (es ++ fs) gs a v :=
  andThen (op := fun s => .ok () (g s)) (ds := []) (f := fun _ => op)
    (of_no_release hr hm fun tr c d => congrArg _ (hg tr c d)) k

/-- An update g that makes no event, of the state s, before an operation. -/
theorem silently (s : State) (g : State → State) (k : Plays op t fs gs a v)
    (hm : advances [] s t := by exact ⟨rfl, rfl, rfl⟩)
    (hg : ∀ tr c d, g (s.on tr c d) = t.on tr c d := by intros; rfl) : Plays (fun s => op (g s)) s fs gs a v :=
  k.after (es := []) hm rfl hg

/-- An update g that makes no event, after an operation. -/
theorem lastly (h : Plays op s es ds a t) (g : State → State)
    (hm : advances [] t (g t) := by exact ⟨rfl, rfl, rfl⟩)
    (hg : ∀ tr c d, g (t.on tr c d) = (g t).on tr c d := by intros; rfl) :
    Plays (fun s => (op s).andThen fun _ t => .ok b (g t)) s es ds b (g t) := by
  have hlast : Plays (fun t => .ok b (g t)) t [] [] b (g t) :=
    .of_no_release rfl hm fun tr c d => congrArg _ (hg tr c d)
  simpa using h.seq hlast

/-- Only what the operation does in s under any bus counts. -/
theorem of_eq {op' : State → Run α} (h : Plays op' s es ds a t)
    (he : ∀ tr c d, op (s.on tr c d) = op' (s.on tr c d)) : Plays op s es ds a t where
  moves := h.moves
  completes tr c d := (he _ _ _).trans (h.completes tr c d)
  timesOut tr n c d hn := by
    rw [he]
    exact h.timesOut tr n c d hn

end Plays

end Sys2Proof.Machine

/-! # Bus operations, bytes and frames without stretching, each of which plays its events (O27, O28, O8) -/

namespace Sys2Proof.Machine

/-! ### Bus operations -/

/-- After a cell: the clock pulled low, the data latch b, the counter of the cell's guard unused. -/
def driven (b : Bit) (s : State) : State := { s with sclOut := false, sdaOut := b, stretchCnt := s.tmo }

theorem guardedRelease_high {s : State} {r : List Bit} (ha : s.sclAnswers = true :: r) :
    guardedRelease s = (false, { s with
      sclOut := true, stretchCnt := s.tmo, sclAnswers := r, trace := .readScl true :: .scl true :: s.trace }) := by
  have h := pollLoop_high s.tmo.toNat 0 (release s) r rfl ha (Nat.zero_le _)
  rw [guardedRelease, h]
  simp [release, setScl]

theorem guardedRelease_low {s : State} {r : List Bit}
    (ha : s.sclAnswers = List.replicate (s.tmo.toNat + 1) false ++ r) :
    guardedRelease s = (true, { s with
      sclOut := true, stretchCnt := 0, sclAnswers := r
      trace := lowPolls (s.tmo.toNat + 1) ++ .scl true :: s.trace }) :=
  pollLoop_low s.tmo.toNat (release s) r rfl rfl ha

/-- A guarded release whose budget passes (41_clock_stretch_guard.md R141). -/
theorem guardReleaseScl_low {s : State} {r : List Bit}
    (ha : s.sclAnswers = List.replicate (s.tmo.toNat + 1) false ++ r) :
    guardReleaseScl s = .raised .timeout { s with
      sclOut := true, stretchCnt := 0, sclAnswers := r
      trace := lowPolls (s.tmo.toNat + 1) ++ .scl true :: s.trace } := by
  rw [guardReleaseScl, guardedRelease_low ha]
  rfl

/-- After a guarded release without stretching, the data latch being b. -/
def clockReleased (b : Bit) (s : State) : State := { s with sclOut := true, sdaOut := b, stretchCnt := s.tmo }

/-- Setting the data line and releasing the clock, then what releases no clock: the shape of START and of a cell. -/
theorem cell_plays {α : Type} {s t : State} {es : List Event} {ds : List Bit} {a : α} {f : Unit → State → Run α}
    (b : Bit) (hr : releases es = 0) (hm : advances es s t)
    (h : ∀ tr c d, f () ((clockReleased b s).on tr c (ds ++ d)) = .ok a (t.on (es.reverse ++ tr) c d)) :
    Plays (fun s => (guardReleaseScl (delay (setSda b s))).andThen f) s
      ([.sda b, .delay, .scl true, .readScl true] ++ es) ds a t := by
  have hguard : Plays (fun s => guardReleaseScl (delay (setSda b s))) s [.sda b, .delay, .scl true, .readScl true] [] ()
      (clockReleased b s) :=
    { moves := ⟨rfl, rfl, rfl⟩
      completes := fun _ _ _ => guardReleaseScl_high rfl
      timesOut := fun tr n c d hn => by
        obtain rfl : n = 0 := by simpa [releases] using hn
        exact ⟨{ clockReleased b s with stretchCnt := 0 }, d, ⟨rfl, rfl, rfl⟩, guardReleaseScl_low rfl⟩ }
  exact hguard.andThen (.of_no_release hr hm h)

theorem start_plays (s : State) : Plays start s startEvents [] () (driven false s) :=
  cell_plays (es := [.delay, .sda false, .delay, .scl false]) true rfl ⟨rfl, rfl, rfl⟩ fun _ _ _ => rfl

theorem writeBit_plays (b : Bit) (s : State) : Plays (writeBit b) s (writeCell b) [] () (driven b s) :=
  cell_plays (es := [.delay, .scl false]) b rfl ⟨rfl, rfl, rfl⟩ fun _ _ _ => rfl

theorem readBit_plays (d : Bit) (s : State) : Plays readBit s (readCell d) [d] d (driven true s) :=
  cell_plays (es := [.delay, .readSda d, .scl false]) true rfl ⟨rfl, rfl, rfl⟩ fun tr c q => by
    rw [sdaSample_released (a := d) (r := q) rfl rfl, readSda_released (a := d) (r := q) rfl rfl]
    rfl

theorem readAck_plays (d : Bit) (s : State) :
    Plays readAck s (readCell d) [d] (!d) { driven true s with ackf := !d } := by
  have hflag : Plays (fun t => .ok (ackOfSample d) (setAckf (ackOfSample d) t)) (driven true s) [] [] (!d)
      { driven true s with ackf := !d } := .of_no_release rfl ⟨rfl, rfl, rfl⟩ fun _ _ _ => rfl
  exact (readBit_plays d s).andThen (f := fun d t => .ok (ackOfSample d) (setAckf (ackOfSample d) t)) hflag

/-! ### Bytes -/

theorem bitsOf_injective {v w : Byte} (h : bitsOf v = bitsOf w) : v = w := by
  simp only [bitsOf, List.cons.injEq] at h
  obtain ⟨h7, h6, h5, h4, h3, h2, h1, h0, -⟩ := h
  refine BitVec.eq_of_getLsbD_eq fun i hi => ?_
  interval_cases i <;> assumption

/-- The byte of eight samples, the first in bit 7, whatever the shift register held (20_memory.md R66). -/
theorem foldl_shiftIn_bitsOf (v w : Byte) : (bitsOf v).foldl shiftIn w = v :=
  bitsOf_injective (bitsOf_shiftIn w (bitsOf v) rfl)

theorem bitsOf_shiftIn_one (v : Byte) (x : Bit) : bitsOf (shiftIn v x) = (bitsOf v).tail ++ [x] := by
  simp [bitsOf, shiftIn]

/-- The state after the cells of the bits xs, each shifted out of `SHREG`. -/
def bitsSent (xs : List Bit) (s : State) : State := xs.foldl (fun s b => shiftBit false (driven b s)) s

/-- The state after the samples xs, each shifted into `SHREG`. -/
def bitsReceived (xs : List Bit) (s : State) : State := xs.foldl (fun s x => shiftBit x (driven true s)) s

/-- WRITE_BYTE's loop sends the bits that stand at the top of `SHREG` (42_byte_and_framing.md R150). -/
theorem sendBits_plays (n : Nat) (s : State) (hn : n ≤ 8) :
    Plays (sendBits n) s (((bitsOf s.shreg).take n).flatMap writeCell) [] ()
      (bitsSent ((bitsOf s.shreg).take n) s) := by
  induction n generalizing s with
  | zero => exact .done
  | succ n ih =>
    have hrest : (bitsOf (shiftIn s.shreg false)).take n = (bitsOf s.shreg).tail.take n := by
      rw [bitsOf_shiftIn_one]
      exact List.take_append_of_le_length (Nat.le_of_succ_le_succ hn)
    have hloop := ih (shiftBit false (driven (s.shreg.getLsbD 7) s)) (by omega)
    rw [shiftBit_shreg, show (driven (s.shreg.getLsbD 7) s).shreg = s.shreg from rfl, hrest] at hloop
    have hbody := (writeBit_plays _ s).andThen (f := fun _ t => sendBits n (shiftBit false t))
      (hloop.silently _ (shiftBit false))
    exact hbody.of_eq fun _ _ _ => rfl

/-- READ_BYTE's loop shifts the samples in (R152). -/
theorem receiveBits_plays (xs : List Bit) (s : State) :
    Plays (receiveBits xs.length) s (xs.flatMap readCell) xs () (bitsReceived xs s) := by
  induction xs generalizing s with
  | nil => exact .done
  | cons x xs ih =>
    exact (readBit_plays x s).andThen (f := fun d t => receiveBits xs.length (shiftBit d t))
      ((ih (shiftBit x (driven true s))).silently _ (shiftBit x))

theorem bitCnt_counts_down : (8 - 1 - 1 - 1 - 1 - 1 - 1 - 1 - 1 : BitVec 4) = 0 := rfl

/-- A byte sent leaves the shift register empty. -/
theorem bitsSent_byte (v : Byte) (s : State) :
    bitsSent (bitsOf v) (loadShift v s) = { driven (v.getLsbD 0) s with shreg := 0, bitCnt := 0 } := by
  rw [← bitCnt_counts_down, ← foldl_shiftIn_bitsOf 0 v]
  rfl

/-- A byte received stands in the shift register. -/
theorem bitsReceived_byte (v : Byte) (s : State) :
    bitsReceived (bitsOf v) (loadShift 0 s) = { driven true s with shreg := v, bitCnt := 0 } := by
  conv_rhs => rw [← bitCnt_counts_down, ← foldl_shiftIn_bitsOf v 0]
  rfl

/-- After a byte the block sent, its slot sampled d: `SHREG` is empty and `ACKF` tells the answer. -/
def byteSent (d : Bit) (s : State) : State := { driven true s with shreg := 0, bitCnt := 0, ackf := !d }

/-- WRITE_BYTE plays its frame, its slot sampled d (R150). -/
theorem writeByte_plays (v : Byte) (d : Bit) (s : State) :
    Plays (writeByte v) s (writeFrame v d) [d] (!d) (byteSent d s) := by
  have hbits := sendBits_plays 8 (loadShift v s) le_rfl
  rw [loadShift_shreg, show (bitsOf v).take 8 = bitsOf v from rfl, bitsSent_byte] at hbits
  exact (hbits.silently s (loadShift v)).seq (readAck_plays d _)

/-- After a byte the block received into `BUF[i]` and answered k. -/
def byteReceived (i : Nat) (v : Byte) (k : Ack) (s : State) : State :=
  { driven (ackBit k) s with shreg := v, bitCnt := 0, buf := s.buf.put i v }

/-- What READ_BYTE does after its eight samples: the store, then the acknowledge cell (R152, 20_memory.md R63). -/
def storeAndAnswer (k : Ack) (i : BitVec 12) (t : State) : Run Byte :=
  (writeAck k (memWrite i.toNat t.shreg t)).andThen fun _ u => .ok u.shreg u

theorem storeAndAnswer_plays (k : Ack) (i : BitVec 12) (s : State) :
    Plays (storeAndAnswer k i) s (.memWrite i.toNat s.shreg :: writeCell (ackBit k)) [] s.shreg
      { driven (ackBit k) s with buf := s.buf.put i.toNat s.shreg } := by
  have hreturn (u : State) : Plays (fun u => .ok u.shreg u) u [] [] u.shreg u :=
    .of_no_release rfl ⟨rfl, rfl, rfl⟩ fun _ _ _ => rfl
  have hanswer := (writeBit_plays (ackBit k) { s with buf := s.buf.put i.toNat s.shreg }).andThen
    (f := fun _ u => .ok u.shreg u) (hreturn _)
  rw [List.append_nil] at hanswer
  exact hanswer.after (es := [.memWrite i.toNat s.shreg]) (g := fun t => memWrite i.toNat t.shreg t)
    ⟨rfl, rfl, rfl⟩ rfl fun _ _ _ => rfl

/-- READ_BYTE plays its frame and stores the byte of its samples (R152). -/
theorem readByte_plays (k : Ack) (i : BitVec 12) (v : Byte) (s : State) :
    Plays (readByte k i) s (readFrame i.toNat v k) (bitsOf v) v (byteReceived i.toNat v k s) := by
  have hbits := receiveBits_plays (bitsOf v) (loadShift 0 s)
  rw [bitsReceived_byte] at hbits
  have hbyte := (hbits.silently s (loadShift 0)).seq (storeAndAnswer_plays k i _)
  rw [List.append_nil] at hbyte
  rw [readFrame, List.append_assoc]
  exact hbyte

theorem releases_writeFrame (v : Byte) (d : Bit) : releases (writeFrame v d) = 9 := rfl

theorem releases_readFrame (i : Nat) (v : Byte) (k : Ack) : releases (readFrame i v k) = 9 := rfl

theorem State.on_self {s : State} {c d : List Bit} (hc : s.sclAnswers = c) (hd : s.sdaAnswers = d) :
    s.on s.trace c d = s := by
  subst hc hd
  rfl

/-- Settles O27: WRITE_BYTE plays its frame. -/
theorem writeByteSendsItsBitsMostSignificantFirst : Obligations.WriteByteSendsItsBitsMostSignificantFirst := by
  intro s v d r q hc hd
  have h := (writeByte_plays v d s).completes s.trace r q
  rw [releases_writeFrame, List.singleton_append, State.on_self hc hd] at h
  have hexec : exec (.writeByte v) s = .next ((writeByte v s).finish .bit) := rfl
  rw [hexec, h]
  rfl

/-- Settles O28: READ_BYTE plays its frame. -/
theorem readByteStoresTheSampledByte : Obligations.ReadByteStoresTheSampledByte := by
  intro s k i v r q hi hc hd
  have h := (readByte_plays k i v s).completes s.trace r q
  rw [releases_readFrame, State.on_self hc hd] at h
  have hbyte : hasByte s i = true := by simp [hasByte, BitVec.ult, hi]
  have hexec : exec (.readByte k i) s = .next ((readByte k i s).finish .byte) := if_pos hbyte
  rw [hexec, h]
  rfl

/-- Settles O8: the indices count down from `RIW` - 1. -/
theorem registerIndexBytesAreMostSignificantFirst : Obligations.RegisterIndexBytesAreMostSignificantFirst :=
  fun _ => ⟨rfl, rfl, rfl, rfl, rfl⟩

/-! ### Frames -/

theorem sendFrame_plays (f : Failure) (v : Byte) (s : State) :
    Plays (sendFrame f v) s (writeFrame v false) [false] () (byteSent false s) := by
  have h := (writeByte_plays v false s).andThen (f := fun a t => if a then .ok () t else .raised f t) .done
  rw [List.append_nil] at h
  exact h

/-- A byte that is not acknowledged raises the failure of its phase (42_byte_and_framing.md R153, R156). -/
theorem sendFrame_refused (f : Failure) (v : Byte) (s : State) (tr : List Event) (c d : List Bit) :
    sendFrame f v (s.on tr (List.replicate 9 true ++ c) (true :: d)) =
      .raised f ((byteSent true s).on ((writeFrame v true).reverse ++ tr) c d) :=
  congrArg (fun r : Run Bool => r.andThen fun a t => if a then .ok () t else .raised f t)
    ((writeByte_plays v true s).completes tr c d)

/-- Frames sent from a state that an acknowledged byte has left: each comes back to it. -/
theorem sendFrames_plays (f : Failure) (vs : List Byte) {s : State} (hs : byteSent false s = s) :
    Plays (sendFrames f vs) s (ackedFrames vs) (List.replicate vs.length false) () s := by
  induction vs with
  | nil => exact .done
  | cons v vs ih =>
    have hframe := sendFrame_plays f v s
    rw [hs] at hframe
    exact hframe.seq ih

/-- SEND_ADDRESS plays the frames of its bytes (R153). -/
theorem sendAddress_plays (rw : Bit) (s : State) :
    Plays (sendAddress rw) s (ackedFrames (addressBytes s.am s.addr rw))
      (List.replicate (addressBytes s.am s.addr rw).length false) () { byteSent false s with fsm := .addressSent } := by
  obtain ⟨v, vs, hvs⟩ : ∃ v vs, addressBytes s.am s.addr rw = v :: vs := by
    cases s.am <;> cases rw <;> exact ⟨_, _, rfl⟩
  have h := ((sendFrame_plays .noResponse v s).seq (sendFrames_plays .noResponse vs rfl)).lastly (b := ())
    (enterFsm .addressSent)
  rw [hvs]
  exact h.of_eq fun tr c d => congrArg (fun l => (sendFrames .noResponse l (s.on tr c d)).andThen _) hvs

end Sys2Proof.Machine

/-! # The phases of WRREG and RDREG play their frames -/

namespace Sys2Proof.Machine

/-! ### The phases of a transfer -/

theorem count_succ (b : BitVec 12) (n : Nat) : b + 1 + BitVec.ofNat 12 n = b + BitVec.ofNat 12 (n + 1) := by
  rw [BitVec.ofNat_add, BitVec.add_assoc, BitVec.add_comm 1]
  rfl

theorem incCount_toNat {s : State} (h : s.byteCnt.toNat + 1 < 4096) :
    (incCount s).byteCnt.toNat = s.byteCnt.toNat + 1 := by
  rw [incCount_byteCnt, BitVec.toNat_add]
  exact Nat.mod_eq_of_lt h

/-- The loop of SEND_REGIDX, from a state that an acknowledged byte has left (42_byte_and_framing.md R156). -/
theorem sendIndexBytes_plays (n : Nat) {s : State} (hs : byteSent false s = s) :
    Plays (sendIndexBytes n) s (ackedFrames ((List.range n).reverse.map (regidxByteAt s.regidx)))
      (List.replicate n false) () { s with byteCnt := s.byteCnt + BitVec.ofNat 12 n } := by
  induction n generalizing s with
  | zero =>
    have h : Plays (sendIndexBytes 0) s [] [] () s := .done
    simpa [ackedFrames] using h
  | succ n ih =>
    have hframe := sendFrame_plays .protocolError (regidxByteAt s.regidx n) s
    rw [hs] at hframe
    have hrest := ih (s := incCount s) (congrArg incCount hs)
    have h := hframe.seq (hrest.silently s incCount)
    have hlist : (List.range (n + 1)).reverse = n :: (List.range n).reverse := by simp [List.range_succ]
    rw [hlist, ← count_succ]
    exact h.of_eq fun _ _ _ => rfl

theorem indexBytes_length (riw : BitVec 3) (regidx : Word) : (indexBytes riw regidx).length = riw.toNat := by
  simp [indexBytes]

/-- The index phase of a transfer: nothing with `RIW` = 0, else SEND_REGIDX, which moves `FSM` and `BYTECNT`. -/
theorem indexPhase_plays {s : State} (hs : byteSent false s = s) : ∃ f n,
    Plays indexPhase s (ackedFrames (indexBytes s.riw s.regidx)) (List.replicate s.riw.toNat false) ()
      { s with fsm := f, byteCnt := n } := by
  by_cases hr : s.riw = 0
  · refine ⟨s.fsm, s.byteCnt, ?_⟩
    have h : Plays (fun t => .ok () t) s [] [] () s := .done
    have hnone : indexBytes s.riw s.regidx = [] := by rw [hr]; rfl
    have hzero : s.riw.toNat = 0 := by rw [hr]; rfl
    rw [hnone, hzero]
    exact h.of_eq (op := indexPhase) fun _ _ _ => if_pos hr
  · have hbytes := sendIndexBytes_plays s.riw.toNat (s := clearCount s) (congrArg clearCount hs)
    have h := (hbytes.silently s clearCount).lastly (b := ()) (enterFsm .registerIndexSent)
    exact ⟨_, _, h.of_eq fun _ _ _ => if_neg hr⟩

/-- Steps 1 to 3 of WRREG and RDREG (43_transactions.md R176, R180). -/
theorem selectRegister_plays (s : State) : ∃ f n,
    Plays selectRegister s (startEvents ++ (ackedFrames (addressBytes s.am s.addr false) ++
        ackedFrames (indexBytes s.riw s.regidx)))
      (List.replicate ((addressBytes s.am s.addr false).length + s.riw.toNat) false) ()
      { byteSent false s with fsm := f, byteCnt := n } := by
  obtain ⟨f, n, hindex⟩ := indexPhase_plays (s := { byteSent false s with fsm := .addressSent }) rfl
  have haddress := (sendAddress_plays false { driven false s with fsm := .started }).silently
    (driven false s) (enterFsm .started)
  have h := (start_plays s).seq (haddress.seq hindex)
  rw [List.nil_append, ← List.replicate_add] at h
  exact ⟨f, n, h⟩

/-- The data phase of a write: each byte is read from `BUF`, then sent (R176, 20_memory.md R62). -/
theorem sendData_plays (n : Nat) {s : State} (hs : byteSent false s = s) (hn : s.byteCnt.toNat + n < 4096) :
    Plays (sendData n) s (dataEvents s.buf s.byteCnt.toNat n) (List.replicate n false) ()
      { s with byteCnt := s.byteCnt + BitVec.ofNat 12 n } := by
  induction n generalizing s with
  | zero =>
    have h : Plays (sendData 0) s [] [] () s := .done
    simpa [dataEvents] using h
  | succ n ih =>
    have hframe := sendFrame_plays .protocolError (s.buf.get s.byteCnt.toNat) s
    rw [hs] at hframe
    have hnext : (incCount s).byteCnt.toNat = s.byteCnt.toNat + 1 := incCount_toNat (by omega)
    have hrest := ih (s := incCount s) (congrArg incCount hs) (by omega)
    rw [hnext] at hrest
    have hread := hframe.after (s := s) (g := memRead s.byteCnt.toNat)
      (es := [.memRead s.byteCnt.toNat (s.buf.get s.byteCnt.toNat)]) ⟨rfl, rfl, rfl⟩ rfl fun _ _ _ => rfl
    have h := hread.seq (hrest.silently s incCount)
    rw [← count_succ]
    exact h.of_eq fun _ _ _ => rfl

/-- What the data phase of a read changes: the pins, the counter of the guard, the byte registers and `BUF`, and the
byte counter, which it brings to n. -/
def dataReceived (n : BitVec 12) (s u : State) : Prop :=
  u = { s with
    sclOut := u.sclOut, sdaOut := u.sdaOut, stretchCnt := u.stretchCnt, shreg := u.shreg, bitCnt := u.bitCnt
    buf := u.buf, byteCnt := n }

/-- The data phase of a read: ack for every byte but the last, nack for the last (R180). -/
theorem receiveData_plays (vs : List Byte) {s : State} (hn : s.byteCnt.toNat + vs.length = s.len.toNat) : ∃ u,
    Plays (receiveData vs.length) s (readEvents s.byteCnt.toNat vs) (vs.flatMap bitsOf) () u ∧
      dataReceived (s.byteCnt + BitVec.ofNat 12 vs.length) s u := by
  induction vs generalizing s with
  | nil =>
    have h : Plays (receiveData 0) s [] [] () s := .done
    exact ⟨s, h, by simp [dataReceived]⟩
  | cons v vs ih =>
    rw [List.length_cons] at hn
    have hack : ackForByte s.byteCnt s.len = if vs.isEmpty then .nack else .ack := by
      cases vs with
      | nil => simpa [ackForByte] using hn
      | cons w ws =>
        have hmore : s.byteCnt.toNat + 1 ≠ s.len.toNat := by
          rw [List.length_cons] at hn
          omega
        simp [ackForByte, hmore]
    have hbyte := readByte_plays (ackForByte s.byteCnt s.len) s.byteCnt v s
    let t := incCount (byteReceived s.byteCnt.toNat v (ackForByte s.byteCnt s.len) s)
    have hlen := s.len.isLt
    have hnext : t.byteCnt.toNat = s.byteCnt.toNat + 1 := incCount_toNat (s := byteReceived _ v _ s) (by
      change s.byteCnt.toNat + 1 < 4096; omega)
    obtain ⟨u, hrest, hu⟩ := ih (s := t) (by rw [hnext]; change _ = s.len.toNat; omega)
    rw [hnext] at hrest
    have h := hbyte.seq (hrest.silently _ incCount)
    refine ⟨u, ?_, ?_⟩
    · rw [readEvents, ← hack]
      exact h.of_eq fun _ _ _ => rfl
    · rw [List.length_cons, ← count_succ]
      exact hu

/-- WRREG up to its STOP plays its frame (43_transactions.md R176, 30_encoding.md R96). -/
theorem wrregAttempt_plays (p : Packet) (s : State) :
    Plays wrregAttempt (accept opWrreg p s) (wrregFrame p s.buf)
      (List.replicate ((addressBytes p.am p.addr false).length + p.riw.toNat + p.len.toNat) false) ()
      { byteSent false (accept opWrreg p s) with fsm := .dataTransfer, byteCnt := p.len } := by
  obtain ⟨f, n, hselect⟩ := selectRegister_plays (accept opWrreg p s)
  let v : State := { byteSent false (accept opWrreg p s) with fsm := .dataTransfer, byteCnt := 0 }
  have hdata := sendData_plays p.len.toNat (s := v) rfl (by simpa [v] using p.len.isLt)
  have hlen : v.byteCnt + BitVec.ofNat 12 p.len.toNat = p.len := by simp [v]
  rw [hlen] at hdata
  let u : State := { byteSent false (accept opWrreg p s) with fsm := f, byteCnt := n }
  have hall := hselect.seq ((hdata.silently u beginData).of_eq
    (op := fun t => sendData t.len.toNat (beginData t)) fun _ _ _ => rfl)
  rw [← List.replicate_add] at hall
  rw [wrregFrame, List.append_assoc startEvents]
  exact hall

/-- RDREG up to its data phase (R180). -/
theorem addressedForRead_plays (s : State) : ∃ n,
    Plays addressedForRead s (startEvents ++ (ackedFrames (addressBytes s.am s.addr false) ++
        ackedFrames (indexBytes s.riw s.regidx)) ++ (startEvents ++ ackedFrames (addressBytes s.am s.addr true)))
      (List.replicate ((addressBytes s.am s.addr false).length + s.riw.toNat + 1) false) ()
      { byteSent false s with ph2 := true, fsm := .addressSent, byteCnt := n } := by
  obtain ⟨f, n, hselect⟩ := selectRegister_plays s
  let u : State := { byteSent false s with fsm := f, byteCnt := n }
  have haddress := (sendAddress_plays true { driven false u with ph2 := true, fsm := .started }).silently
    (driven false u) secondPhase
  rw [addressBytes_read_length] at haddress
  rw [List.replicate_add]
  exact ⟨n, hselect.seq ((start_plays u).seq haddress)⟩

/-- RDREG up to its STOP plays its frame, the slave sending the bytes of vs (R180, R96). -/
theorem rdregAttempt_plays (p : Packet) (s : State) {vs : List Byte} (hvs : vs.length = p.len.toNat) : ∃ t,
    Plays rdregAttempt (accept opRdreg p s) (rdregFrame p vs)
      (List.replicate ((addressBytes p.am p.addr false).length + p.riw.toNat + 1) false ++ vs.flatMap bitsOf) () t ∧
      dataReceived p.len
        { byteSent false (accept opRdreg p s) with ph2 := true, fsm := .dataTransfer, byteCnt := 0 } t := by
  obtain ⟨n, haddressed⟩ := addressedForRead_plays (accept opRdreg p s)
  let v : State := { byteSent false (accept opRdreg p s) with ph2 := true, fsm := .dataTransfer, byteCnt := 0 }
  obtain ⟨t, hdata, ht⟩ := receiveData_plays vs (s := v) ((Nat.zero_add _).trans hvs)
  have hlen : v.byteCnt + BitVec.ofNat 12 p.len.toNat = p.len := by simp [v]
  rw [hvs] at hdata ht
  rw [hlen] at ht
  let u : State := { byteSent false (accept opRdreg p s) with ph2 := true, fsm := .addressSent, byteCnt := n }
  have hall := haddressed.seq ((hdata.silently u beginData).of_eq
    (op := fun t => receiveData t.len.toNat (beginData t)) fun _ _ _ => rfl)
  have hframe : rdregFrame p vs = startEvents ++ (ackedFrames (addressBytes p.am p.addr false) ++
      ackedFrames (indexBytes p.riw p.regidx)) ++ (startEvents ++ ackedFrames (addressBytes p.am p.addr true)) ++
      readEvents 0 vs := by simp [rdregFrame]
  rw [hframe]
  exact ⟨t, hall.of_eq fun _ _ _ => rdregAttempt_eq _, ht⟩

/-! ### Releases and stores of the frames -/

theorem releases_ackedFrames (vs : List Byte) : releases (ackedFrames vs) = 9 * vs.length := by
  induction vs with
  | nil => rfl
  | cons v vs ih =>
    have hcons : ackedFrames (v :: vs) = writeFrame v false ++ ackedFrames vs := rfl
    rw [hcons, releases_append, releases_writeFrame, ih, List.length_cons]
    omega

theorem releases_dataEvents (m : Memory) (i n : Nat) : releases (dataEvents m i n) = 9 * n := by
  induction n generalizing i with
  | zero => rfl
  | succ n ih =>
    rw [dataEvents, List.cons_append, releases_cons_of_ne (by simp), releases_append, releases_writeFrame, ih]
    omega

theorem releases_readEvents (i : Nat) (vs : List Byte) : releases (readEvents i vs) = 9 * vs.length := by
  induction vs generalizing i with
  | nil => rfl
  | cons v vs ih =>
    rw [readEvents, releases_append, releases_readFrame, ih, List.length_cons]
    omega

theorem releases_startEvents : releases startEvents = 1 := rfl

/-- The releases of a WRREG before its STOP (43_transactions.md R192). -/
theorem releases_wrregFrame (p : Packet) (m : Memory) : releases (wrregFrame p m) =
    9 * ((addressBytes p.am p.addr false).length + p.riw.toNat + p.len.toNat) + 1 := by
  simp only [wrregFrame, releases_append, releases_ackedFrames, releases_dataEvents, releases_startEvents,
    indexBytes_length]
  omega

/-- The releases of an RDREG before its STOP (R192). -/
theorem releases_rdregFrame (p : Packet) (vs : List Byte) : releases (rdregFrame p vs) =
    9 * ((addressBytes p.am p.addr false).length + p.riw.toNat + 1 + vs.length) + 2 := by
  simp only [rdregFrame, releases_append, releases_ackedFrames, releases_readEvents, releases_startEvents,
    indexBytes_length, addressBytes_read_length]
  omega

theorem stores_writeFrame (v : Byte) (d : Bit) : stores (writeFrame v d) = [] := rfl

theorem stores_readFrame (i : Nat) (v : Byte) (k : Ack) : stores (readFrame i v k) = [(i, v)] := rfl

theorem stores_ackedFrames (vs : List Byte) : stores (ackedFrames vs) = [] := by
  induction vs with
  | nil => rfl
  | cons v vs ih => exact (stores_append (writeFrame v false) (ackedFrames vs)).trans ih

theorem stores_dataEvents (m : Memory) (i n : Nat) : stores (dataEvents m i n) = [] := by
  induction n generalizing i with
  | zero => rfl
  | succ n ih => exact (stores_append (writeFrame (m.get i) false) (dataEvents m (i + 1) n)).trans (ih _)

theorem stores_readEvents (i : Nat) (vs : List Byte) :
    stores (readEvents i vs) = (List.range' i vs.length).zip vs := by
  induction vs generalizing i with
  | nil => rfl
  | cons v vs ih =>
    rw [readEvents, stores_append, stores_readFrame, ih, List.length_cons, List.range'_succ, List.zip_cons_cons]
    rfl

theorem stores_startEvents : stores startEvents = [] := rfl

theorem stores_wrregFrame (p : Packet) (m : Memory) : stores (wrregFrame p m) = [] := by
  simp [wrregFrame, stores_append, stores_startEvents, stores_ackedFrames, stores_dataEvents]

theorem stores_rdregFrame (p : Packet) (vs : List Byte) :
    stores (rdregFrame p vs) = (List.range' 0 vs.length).zip vs := by
  simp [rdregFrame, stores_append, stores_startEvents, stores_ackedFrames, stores_readEvents]

theorem stores_cut_isPrefix (n : Nat) (es : List Event) : stores (cutAtRelease n es) <+: stores es :=
  (cutAtRelease_isPrefix n es).filterMap _

/-- A write stores nothing, cut short or not. -/
theorem stores_cut_wrregFrame (n : Nat) (p : Packet) (m : Memory) : stores (cutAtRelease n (wrregFrame p m)) = [] :=
  List.prefix_nil.mp (stores_wrregFrame p m ▸ stores_cut_isPrefix n (wrregFrame p m))

/-- A read that is cut short has stored the first of its bytes. -/
theorem storeAll_cut_rdregFrame (n : Nat) (p : Packet) (vs : List Byte) (m : Memory) :
    storeAll (stores (cutAtRelease n (rdregFrame p vs))) m =
      putAll 0 (vs.take (stores (cutAtRelease n (rdregFrame p vs))).length) m :=
  storeAll_of_isPrefix (stores_rdregFrame p vs ▸ stores_cut_isPrefix n (rdregFrame p vs)) m

end Sys2Proof.Machine

/-! # Whole transfers, with the clock never stretched or once past the budget (O41, O42, O44) -/

namespace Sys2Proof.Machine

/-! ### The end of a transaction -/

/-- What the clock line answers in a STOP: low for the whole budget where it is stuck, else high at once. -/
def stopAnswers (tmo : Word) (stuck : Bool) : List Bit :=
  if stuck then List.replicate (tmo.toNat + 1) false else [true]

/-- The events of such a STOP (40_bus_signalling.md R122). -/
def stopTrace (tmo : Word) (stuck : Bool) : List Event := if stuck then expiredStopEvents tmo else stopEvents

/-- After a STOP, its guard expired or not: both latches 1. -/
def stopped (stuck : Bool) (s : State) : State :=
  { s with sclOut := true, sdaOut := true, stretchCnt := if stuck then 0 else s.tmo }

theorem lowPolls_reverse (n : Nat) : (lowPolls n).reverse = lowPolls n := List.reverse_replicate

/-- STOP reports whether its guard expired (R122). -/
theorem stopBus_answered (stuck : Bool) (s : State) (tr : List Event) (c d : List Bit) :
    stopBus (s.on tr (stopAnswers s.tmo stuck ++ c) d) =
      (stuck, (stopped stuck s).on ((stopTrace s.tmo stuck).reverse ++ tr) c d) := by
  let t := delay (setSda false (setScl false (s.on tr (stopAnswers s.tmo stuck ++ c) d)))
  cases stuck with
  | false =>
    have h := guardedRelease_high (s := t) (r := c) rfl
    simp only [stopBus, t] at h ⊢
    rw [h]
    rfl
  | true =>
    have h := guardedRelease_low (s := t) (r := c) rfl
    have htrace : (expiredStopEvents s.tmo).reverse ++ tr = .delay :: .sda true :: .delay ::
        (lowPolls (s.tmo.toNat + 1) ++ .scl true :: .delay :: .sda false :: .scl false :: tr) := by
      simp [expiredStopEvents, lowPolls_reverse]
    simp only [stopBus, t] at h ⊢
    rw [h]
    simp only [stopTrace, if_true, htrace]
    rfl

/-- After a transaction whose STOP found the clock line stuck or not, with the status st and `FSM` = f. -/
def closed (stuck : Bool) (st : Status) (f : Fsm) (s : State) : State := { stopped stuck s with err := st, fsm := f }

section
variable {s : State} {tmo : Word} (stuck : Bool) (he : s.err = .ok) (ht : s.tmo = tmo) (tr : List Event)
  (c d : List Bit)
include he ht

/-- The final STOP after a normal return: Timeout where its guard expires (60_exceptions.md R224). -/
theorem endTransaction_returned :
    endTransaction (.ok () (s.on tr (stopAnswers tmo stuck ++ c) d)) =
      (closed stuck (if stuck then .timeout else .ok) (if stuck then .aborted else .stopped) s).on
        ((stopTrace tmo stuck).reverse ++ tr) c d := by
  subst ht
  have hstop := stopBus_answered stuck s tr c d
  simp only [endTransaction, hstop]
  cases stuck
  · simp only [closed, stopped, ← he]
    rfl
  · simp [closeWith, closed, stopped, firstFailure, State.on, he]

/-- The forced STOP after a raise: its own expiry changes nothing (R220, R224). -/
theorem endTransaction_raised (f : Failure) :
    endTransaction (.raised f (s.on tr (stopAnswers tmo stuck ++ c) d)) =
      (closed stuck f.status .aborted s).on ((stopTrace tmo stuck).reverse ++ tr) c d := by
  subst ht
  have hstop := stopBus_answered stuck { s with err := f.status, fsm := .aborted } tr c d
  have henter : enterAbort f (s.on tr (stopAnswers s.tmo stuck ++ c) d) =
      State.on { s with err := f.status, fsm := .aborted } tr (stopAnswers s.tmo stuck ++ c) d := by
    simp [enterAbort, State.on, firstFailure, he]
  rw [endTransaction, abort, henter, hstop]
  rfl

end

/-! ### A whole command -/

/-- A legal command with the host ready: its body, then the response, taken at once. -/
theorem exec_legal {i : Instr} {op : BitVec 4} {p : Packet} {s : State}
    (hi : exec i s = .next (runCommand op p (failedCheck s.maxLen i) (commandBody i) s))
    (hb : s.busy = false) (hr : s.rspReady = true) (hc : failedCheck s.maxLen i = none) :
    exec i s = .next (taken (present (commandBody i (accept op p s)))) := by
  obtain ⟨-, -, hready, -⟩ := (commandBody_changes i (accept op p s)).keepsInputs
  rw [hi, hc, runCommand_legal hb, respond_ready (hready.trans hr)]

/-- The response to a command of the status st, its events being es. -/
def answeredWith (st : Status) (es : List Event) (r : List Bit) (t : State) : Prop :=
  t.err = st ∧ t.rspWord = responseWord st ∧ t.trace.reverse = es ++ [.respond st] ∧ t.sclOut = true ∧
    t.sdaOut = true ∧ t.fsm = .idle ∧ t.busy = false ∧ t.sclAnswers = r

theorem answeredWith_of_closed (stuck : Bool) (st : Status) (f : Fsm) (s : State) (es : List Event) (c d : List Bit) :
    answeredWith st es c (taken (present ((closed stuck st f s).on es.reverse c d))) := by
  have htrace : (Event.respond st :: es.reverse).reverse = es ++ [.respond st] := by simp
  exact ⟨rfl, rfl, htrace, rfl, rfl, rfl, rfl, rfl⟩

theorem accept_on {op : BitVec 4} {p : Packet} {s : State} {c d : List Bit} (hc : s.sclAnswers = c)
    (hd : s.sdaAnswers = d) : (accept op p s).on [] c d = accept op p s := by
  subst hc hd
  rfl

namespace Plays

variable {op : BitVec 4} {p : Packet} {s t : State} {attempt : State → Run Unit} {es : List Event} {ds : List Bit}

/-- A transfer whose every release before the STOP finds the clock line high. -/
theorem transfer_completed (h : Plays attempt (accept op p s) es ds () t) (stuck : Bool) {r q : List Bit}
    (hc : s.sclAnswers = List.replicate (releases es) true ++ (stopAnswers p.tmo stuck ++ r))
    (hd : s.sdaAnswers = ds ++ q) :
    endTransaction (attempt (accept op p s)) =
      (closed stuck (if stuck then .timeout else .ok) (if stuck then .aborted else .stopped) t).on
        (es ++ stopTrace p.tmo stuck).reverse r q := by
  obtain ⟨-, herr, htmo⟩ := h.moves
  have hrun := h.completes [] (stopAnswers p.tmo stuck ++ r) q
  rw [accept_on hc hd, List.append_nil] at hrun
  rw [hrun, endTransaction_returned (tmo := p.tmo) stuck herr htmo, List.reverse_append]

/-- A transfer stretched past the budget at the release numbered n before its STOP, n being one of those that its first
operations make. -/
theorem transfer_timedOut {first : State → Run Unit} (h : Plays first (accept op p s) es ds () t)
    (hfirst : ∀ u, first (accept op p s) = .raised .timeout u → attempt (accept op p s) = .raised .timeout u)
    (stuck : Bool) {n : Nat} {r q : List Bit} (hn : n < releases es)
    (hc : s.sclAnswers = List.replicate n true ++ (List.replicate (p.tmo.toNat + 1) false ++
      (stopAnswers p.tmo stuck ++ r)))
    (hd : s.sdaAnswers = ds ++ q) : ∃ u d,
    endTransaction (attempt (accept op p s)) = (closed stuck .timeout .aborted u).on
      (cutAtRelease n es ++ (lowPolls (p.tmo.toNat + 1) ++ stopTrace p.tmo stuck)).reverse r d ∧
      u.buf = storeAll (stores (cutAtRelease n es)) s.buf := by
  obtain ⟨u, d, ⟨hbuf, herr, htmo⟩, hrun⟩ := h.timesOut [] n (stopAnswers p.tmo stuck ++ r) q hn
  rw [show (accept op p s).tmo = p.tmo from rfl, accept_on hc hd, List.append_nil] at hrun
  refine ⟨u, d, ?_, hbuf⟩
  rw [hfirst _ hrun, ← List.append_assoc, endTransaction_raised (tmo := p.tmo) stuck herr htmo, List.reverse_append,
    List.reverse_append, lowPolls_reverse]
  rfl

end Plays

theorem exec_wrreg_legal {p : Packet} {s : State} (hb : s.busy = false) (hr : s.rspReady = true)
    (hc : failedCheck s.maxLen (.wrreg p) = none) :
    exec (.wrreg p) s = .next (taken (present (endTransaction (wrregAttempt (accept opWrreg p s))))) :=
  exec_legal rfl hb hr hc

theorem exec_rdreg_legal {p : Packet} {s : State} (hb : s.busy = false) (hr : s.rspReady = true)
    (hc : failedCheck s.maxLen (.rdreg p) = none) :
    exec (.rdreg p) s = .next (taken (present (endTransaction (rdregAttempt (accept opRdreg p s))))) :=
  exec_legal rfl hb hr hc

/-- Settles O41: WRREG plays its frame, and the guard of its STOP does not expire. -/
theorem wrregPutsTheWholeFrameOnTheWire : Obligations.WrregPutsTheWholeFrameOnTheWire := by
  intro p s r q na hb hr hlegal hc hd
  have hscl : s.sclAnswers =
      List.replicate (releases (wrregFrame p s.buf)) true ++ (stopAnswers p.tmo false ++ r) := by
    rw [releases_wrregFrame, hc, List.replicate_succ', List.append_assoc]
    rfl
  have hexec := exec_wrreg_legal hb hr hlegal
  rw [(wrregAttempt_plays p s).transfer_completed false hscl hd] at hexec
  obtain ⟨herr, hword, htrace, -⟩ := answeredWith_of_closed false .ok .stopped
    { byteSent false (accept opWrreg p s) with fsm := .dataTransfer, byteCnt := p.len }
    (wrregFrame p s.buf ++ stopEvents) r q
  have hlatched : latched opWrreg p (accept opWrreg p s) := ⟨rfl, rfl, rfl, rfl, rfl, rfl, rfl, rfl, rfl⟩
  exact ⟨_, hexec, herr, hword, htrace, hlatched, rfl, rfl, rfl, rfl, rfl, rfl, rfl, rfl, rfl, rfl, rfl, rfl,
    accept_keepsHostSide opWrreg p s⟩

/-- The buffer after a read that completed. -/
theorem get_of_plays_rdregFrame {p : Packet} {vs : List Byte} {s t : State} (h : advances (rdregFrame p vs) s t)
    (hw : s.buf.wf) (j : Nat) : t.buf.get j = (vs[j]?).getD (s.buf.get j) := by
  obtain ⟨hbuf, -⟩ := h
  rw [hbuf, stores_rdregFrame, storeAll_of_isPrefix List.prefix_rfl, get_putAll hw]
  simp

/-- Settles O42: RDREG plays its frame, and the guard of its STOP does not expire. -/
theorem rdregStoresTheSlavesBytes : Obligations.RdregStoresTheSlavesBytes := by
  intro p s vs r q na hb hr hw hlegal hvs hc hd
  have hscl : s.sclAnswers =
      List.replicate (releases (rdregFrame p vs)) true ++ (stopAnswers p.tmo false ++ r) := by
    rw [releases_rdregFrame, hc, hvs, List.replicate_succ', List.append_assoc]
    rfl
  obtain ⟨t, hplays, ht⟩ := rdregAttempt_plays p s hvs
  have hexec := exec_rdreg_legal hb hr hlegal
  rw [hplays.transfer_completed false hscl hd] at hexec
  obtain ⟨herr, hword, htrace, -⟩ := answeredWith_of_closed false .ok .stopped t (rdregFrame p vs ++ stopEvents) r q
  have hlatched : latched opRdreg p (accept opRdreg p s) := ⟨rfl, rfl, rfl, rfl, rfl, rfl, rfl, rfl, rfl⟩
  have hbuf := get_of_plays_rdregFrame hplays.moves hw
  refine ⟨_, hexec, herr, hword, htrace, hbuf, ?_⟩
  unfold dataReceived at ht
  rw [ht]
  exact ⟨hlatched, rfl, rfl, rfl, rfl, rfl, rfl, rfl, rfl, rfl, rfl, rfl, accept_keepsHostSide opRdreg p s⟩

/-! ### A stuck clock (O44) -/

/-- A transfer is its attempt and the end of its transaction, and a raise in its first START or in what follows up to
the data phases is one of the attempt. -/
theorem exec_transfer {i : Instr} {p : Packet} {s : State} (hi : i = .wrreg p ∨ i = .rdreg p) (hb : s.busy = false)
    (hr : s.rspReady = true) (hc : failedCheck s.maxLen i = none) : ∃ (op : BitVec 4) (attempt : State → Run Unit),
    exec i s = .next (taken (present (endTransaction (attempt (accept op p s))))) ∧
      ∀ f t u, selectRegister t = .raised f u → attempt t = .raised f u := by
  rcases hi with rfl | rfl
  · exact ⟨opWrreg, wrregAttempt, exec_wrreg_legal hb hr hc, fun f t u h => by simp [wrregAttempt, h, Run.andThen]⟩
  · exact ⟨opRdreg, rdregAttempt, exec_rdreg_legal hb hr hc, fun f t u h => by simp [rdregAttempt, h, Run.andThen]⟩

/-- The answer of a transfer, from the end of its transaction. -/
theorem exec_answeredWith {i : Instr} {s u : State} {r : Run Unit} {stuck : Bool} {st : Status} {f : Fsm}
    {es : List Event} {c d : List Bit} (hexec : exec i s = .next (taken (present (endTransaction r))))
    (hend : endTransaction r = (closed stuck st f u).on es.reverse c d) :
    ∃ t, t.buf = u.buf ∧ exec i s = .next t ∧ answeredWith st es c t :=
  ⟨_, by rw [hend]; rfl, hexec, hend ▸ answeredWith_of_closed stuck st f u es c d⟩

theorem selectRegister_start_raised {f : Failure} {t u : State} (h : start t = .raised f u) :
    selectRegister t = .raised f u := by
  rw [selectRegister, h]
  rfl

/-- The first address byte is not acknowledged (42_byte_and_framing.md R153). -/
theorem selectRegister_refused {s : State} {v : Byte} (hv : (addressBytes s.am s.addr false).head? = some v)
    (tr : List Event) (c d : List Bit) :
    selectRegister (s.on tr (List.replicate 10 true ++ c) (true :: d)) =
      .raised .noResponse (State.on { byteSent true s with fsm := .started }
        ((startEvents ++ writeFrame v true).reverse ++ tr) c d) := by
  obtain ⟨vs, hvs⟩ := List.head?_eq_some_iff.mp hv
  have hstart : start (s.on tr (List.replicate 10 true ++ c) (true :: d)) = .ok () ((driven false s).on
      (startEvents.reverse ++ tr) (List.replicate 9 true ++ c) (true :: d)) := (start_plays s).completes _ _ _
  have hframe := sendFrame_refused .noResponse v { driven false s with fsm := .started } (startEvents.reverse ++ tr) c d
  have hframes : sendFrames .noResponse (addressBytes s.am s.addr false)
      (State.on { driven false s with fsm := .started } (startEvents.reverse ++ tr) (List.replicate 9 true ++ c)
        (true :: d)) = .raised .noResponse (State.on { byteSent true s with fsm := .started }
        ((startEvents ++ writeFrame v true).reverse ++ tr) c d) := by
    rw [hvs, sendFrames, hframe, List.reverse_append, List.append_assoc]
    rfl
  rw [selectRegister, hstart]
  exact congrArg (fun r : Run Unit => (r.andThen fun _ t => .ok () (enterFsm .addressSent t)).andThen fun _ u =>
    indexPhase u) hframes

theorem stretchedOnce_assoc (n : Nat) (tmo : Word) (stuck : Bool) (r : List Bit) :
    List.replicate n true ++ List.replicate (tmo.toNat + 1) false ++
        (if stuck then List.replicate (tmo.toNat + 1) false else [true]) ++ r =
      List.replicate n true ++ (List.replicate (tmo.toNat + 1) false ++ (stopAnswers tmo stuck ++ r)) := by
  simp [stopAnswers]

/-- Settles O44: the frames are played up to the release that is stuck, and one STOP follows. -/
theorem stuckClockAnswersTimeout : Obligations.StuckClockAnswersTimeout := by
  intro p s r q address na ends hb hr
  refine ⟨fun i hi hc => ⟨fun hscl => ?_, fun v hv hscl hsda => ?_⟩, fun hc hscl hsda => ?_,
    fun vs hc hw hvs hscl hsda => ?_,
    fun n stuck => ⟨fun hc hn hscl hsda => ?_, fun vs hc hw hvs hn hscl hsda => ?_⟩⟩
  · obtain ⟨op, attempt, hexec, hraise⟩ := exec_transfer hi hb hr hc
    have hclock : s.sclAnswers = List.replicate 0 true ++ (List.replicate (p.tmo.toNat + 1) false ++
        (stopAnswers p.tmo true ++ r)) := by
      rw [hscl, Nat.two_mul, List.replicate_add, List.append_assoc]
      rfl
    obtain ⟨u, d, hend, hbuf⟩ := (start_plays (accept op p s)).transfer_timedOut
      (fun u h => hraise _ _ _ (selectRegister_start_raised h)) true (by decide) hclock rfl
    obtain ⟨t, ht, hanswer⟩ := exec_answeredWith hexec hend
    exact ⟨t, ht.trans hbuf, hanswer⟩
  · obtain ⟨op, attempt, hexec, hraise⟩ := exec_transfer hi hb hr hc
    have hclock : s.sclAnswers = List.replicate 10 true ++ (stopAnswers p.tmo true ++ r) := by
      rw [hscl, List.append_assoc]
      rfl
    have hrun := selectRegister_refused (s := accept op p s) hv [] (stopAnswers p.tmo true ++ r) q
    rw [accept_on hclock hsda, List.append_nil] at hrun
    have hend := endTransaction_raised (s := { byteSent true (accept op p s) with fsm := .started }) (tmo := p.tmo)
      true rfl rfl (startEvents ++ writeFrame v true).reverse r q .noResponse
    rw [← hraise _ _ _ hrun, ← List.reverse_append] at hend
    obtain ⟨t, ht, hanswer⟩ := exec_answeredWith hexec hend
    exact ⟨t, ht, hanswer⟩
  · have hclock : s.sclAnswers =
        List.replicate (releases (wrregFrame p s.buf)) true ++ (stopAnswers p.tmo true ++ r) := by
      rw [releases_wrregFrame, hscl, List.append_assoc]
      rfl
    obtain ⟨t, ht, hanswer⟩ := exec_answeredWith (exec_wrreg_legal hb hr hc)
      ((wrregAttempt_plays p s).transfer_completed true hclock hsda)
    exact ⟨t, ht, hanswer⟩
  · have hclock : s.sclAnswers =
        List.replicate (releases (rdregFrame p vs)) true ++ (stopAnswers p.tmo true ++ r) := by
      rw [releases_rdregFrame, hvs, hscl, List.append_assoc]
      rfl
    obtain ⟨u, hplays, -⟩ := rdregAttempt_plays p s hvs
    obtain ⟨t, ht, hanswer⟩ :=
      exec_answeredWith (exec_rdreg_legal hb hr hc) (hplays.transfer_completed true hclock hsda)
    exact ⟨t, fun j => ht ▸ get_of_plays_rdregFrame hplays.moves hw j, hanswer⟩
  · have hclock := hscl.trans (stretchedOnce_assoc n p.tmo stuck r)
    obtain ⟨u, d, hend, hbuf⟩ := (wrregAttempt_plays p s).transfer_timedOut (fun _ h => h) stuck
      (by rw [releases_wrregFrame]; exact hn) hclock hsda
    rw [stores_cut_wrregFrame] at hbuf
    obtain ⟨t, ht, hanswer⟩ := exec_answeredWith (exec_wrreg_legal hb hr hc) hend
    exact ⟨t, ht.trans hbuf, hanswer⟩
  · have hclock := hscl.trans (stretchedOnce_assoc n p.tmo stuck r)
    obtain ⟨v, hplays, -⟩ := rdregAttempt_plays p s hvs
    obtain ⟨u, d, hend, hbuf⟩ := hplays.transfer_timedOut (fun _ h => h) stuck
      (by rw [releases_rdregFrame, hvs]; exact hn) hclock hsda
    obtain ⟨t, ht, hanswer⟩ := exec_answeredWith (exec_rdreg_legal hb hr hc) hend
    refine ⟨t, fun j => ?_, hanswer⟩
    rw [ht, hbuf, storeAll_cut_rdregFrame, get_putAll hw]
    simp

end Sys2Proof.Machine

/-! # The encodings: packets, internal operations and wire bytes (O1 to O7, O9) -/

namespace Sys2Proof.Machine

open Laws.CodeSpace (packetOf_op packetOf_reserved)

/-! ### Bits and bytes -/

/-- The lowest bit as a word of its own. -/
theorem ofBool_getLsbD {w : Nat} (x : BitVec w) (i : Nat) : BitVec.ofBool (x.getLsbD i) = x.extractLsb' i 1 := by
  rw [BitVec.getLsbD_eq_extractLsb']
  generalize x.extractLsb' i 1 = y
  revert y
  decide

/-- A word whose high part is 0 is its low part. -/
theorem append_low_of_high_zero {m n : Nat} {x : BitVec (m + n)} (h : x.extractLsb' n m = 0) :
    0#m ++ x.extractLsb' 0 n = x := by
  have hx := BitVec.extractLsb'_append_extractLsb' (x := x)
  rwa [h] at hx

/-- A byte is its bits 7 to 1 and its bit 0 (30_encoding.md R91). -/
theorem addr7Byte_extract (b : Byte) : addr7Byte (b.extractLsb' 1 7) (b.getLsbD 0) = b :=
  BitVec.concat_extractLsb'_getLsb (x := b)

theorem addr7Byte_bits (a : BitVec 7) (r : Bit) :
    (addr7Byte a r).extractLsb' 1 7 = a ∧ (addr7Byte a r).getLsbD 0 = r :=
  ⟨BitVec.extractLsb'_append_eq_left, BitVec.getLsbD_concat_zero⟩

theorem addr10Byte_bits (a : BitVec 2) (r : Bit) : hasTenBitMark (addr10Byte a r) = true ∧
    (addr10Byte a r).extractLsb' 1 2 = a ∧ (addr10Byte a r).getLsbD 0 = r := by
  revert a r
  decide

/-- A byte with the mark of a 10-bit address is that mark, its bits 2 and 1, and its bit 0 (R92). -/
theorem addr10Byte_extract {b : Byte} (h : hasTenBitMark b = true) :
    addr10Byte (b.extractLsb' 1 2) (b.getLsbD 0) = b := by
  have hmark : b.extractLsb' 3 5 = 0b11110#5 := of_decide_eq_true h
  have hhigh : b.extractLsb' 3 5 ++ b.extractLsb' 1 2 = b.extractLsb' 1 7 :=
    BitVec.extractLsb'_append_extractLsb'_eq_extractLsb' rfl
  rw [addr10Byte, ← hmark, hhigh]
  exact addr7Byte_extract b

/-! ### Packets -/

/-- The command an operation code names (30_encoding.md R86). -/
def commandNamed (op : BitVec 4) : Option (Packet → Instr) :=
  if op = opInit then some .init
  else if op = opWrreg then some .wrreg
  else if op = opRdreg then some .rdreg
  else if op = opScan then some .scan
  else none

theorem decodePacket_named {p : BitVec 128} {make : Packet → Instr} (h : commandNamed (packetOp p) = some make)
    (hr : packetReserved p = false) : decode (.packet p) = .ok (make (packetFields p)) := by
  change decodePacket p = _
  unfold commandNamed at h
  simp [decodePacket, h, hr]

theorem decodePacket_unnamed {p : BitVec 128} (h : commandNamed (packetOp p) = none) :
    decode (.packet p) = .error .reservedOpcode := by
  change decodePacket p = _
  unfold commandNamed at h
  simp [decodePacket, h]

/-- Checks 1 and 2 of R88 are the decoder's. -/
theorem decodePacket_reserved {p : BitVec 128} (hr : packetReserved p = true) :
    ∃ e, decode (.packet p) = .error e := by
  cases h : commandNamed (packetOp p) with
  | none => exact ⟨_, decodePacket_unnamed h⟩
  | some make =>
    refine ⟨.reservedBit, ?_⟩
    change decodePacket p = _
    unfold commandNamed at h
    simp [decodePacket, h, hr]

theorem packetReserved_of_decoded {p : BitVec 128} {i : Instr} (h : decode (.packet p) = .ok i) :
    packetReserved p = false := by
  cases hr : packetReserved p with
  | false => rfl
  | true =>
    obtain ⟨e, he⟩ := decodePacket_reserved hr
    rw [he] at h
    cases h

/-- A packet is its operation code and its fields, where its reserved bit is 0 (R82, R83). -/
theorem packetOf_packetFields {p : BitVec 128} (hr : packetReserved p = false) :
    packetOf (packetOp p) (packetFields p) = p := by
  have ham : decide ((packetFields p).am = .ten) = p.getLsbD 4 := by
    unfold packetFields
    cases p.getLsbD 4 <;> rfl
  have hbit : false = p.getLsbD 19 := hr.symm
  unfold packetOf
  rw [ham, hbit]
  simp only [packetFields, packetOp, ofBool_getLsbD]
  iterate 9 rw [BitVec.extractLsb'_append_extractLsb'_eq_extractLsb' (by decide)]
  exact BitVec.extractLsb'_eq_self

theorem append_inj {m n : Nat} {x x' : BitVec m} {y y' : BitVec n} (h : x ++ y = x' ++ y') : x = x' ∧ y = y' := by
  have hhigh := congrArg (BitVec.extractLsb' n m) h
  have hlow := congrArg (BitVec.extractLsb' 0 n) h
  rw [BitVec.extractLsb'_append_eq_left, BitVec.extractLsb'_append_eq_left] at hhigh
  rw [BitVec.extractLsb'_append_eq_right, BitVec.extractLsb'_append_eq_right] at hlow
  exact ⟨hhigh, hlow⟩

theorem ofBool_injective : ∀ {a b : Bool}, BitVec.ofBool a = BitVec.ofBool b → a = b := by decide

theorem addrMode_of_code {a b : AddrMode} (h : decide (a = .ten) = decide (b = .ten)) : a = b := by
  cases a <;> cases b <;> simp_all

/-- No field of a packet is dropped by the encoding. -/
theorem packetOf_injective {op : BitVec 4} {f g : Packet} (h : packetOf op f = packetOf op g) : f = g := by
  obtain ⟨h, -⟩ := append_inj h
  obtain ⟨h, ham⟩ := append_inj h
  obtain ⟨h, hriw⟩ := append_inj h
  obtain ⟨h, haddr⟩ := append_inj h
  obtain ⟨h, hskip⟩ := append_inj h
  obtain ⟨h, -⟩ := append_inj h
  obtain ⟨h, hlen⟩ := append_inj h
  obtain ⟨h, hclk⟩ := append_inj h
  obtain ⟨hregidx, htmo⟩ := append_inj h
  obtain ⟨am, riw, addr, skip, len, clk, tmo, regidx⟩ := f
  obtain ⟨am', riw', addr', skip', len', clk', tmo', regidx'⟩ := g
  rw [Packet.mk.injEq]
  exact ⟨addrMode_of_code (ofBool_injective ham), hriw, haddr, ofBool_injective hskip, hlen, hclk, htmo, hregidx⟩

/-- The fields of an encoded packet (R82, R83). -/
theorem packetFields_packetOf (op : BitVec 4) (f : Packet) : packetFields (packetOf op f) = f := by
  refine packetOf_injective (op := op) ?_
  have h := packetOf_packetFields (packetOf_reserved op f)
  rwa [packetOf_op] at h

/-- What decodes where a condition holds. -/
theorem ok_of_guarded {c : Prop} [Decidable c] {e : DecodeError} {i j : Instr}
    (h : (if c then .ok i else .error e) = Except.ok j) : c ∧ i = j := by
  split at h
  · exact ⟨‹_›, Except.ok.inj h⟩
  · cases h

/-- What decodes where a condition fails. -/
theorem ok_of_unless {c : Prop} [Decidable c] {e : DecodeError} {i j : Instr}
    (h : (if c then .error e else .ok i) = Except.ok j) : ¬c ∧ i = j := by
  split at h
  · cases h
  · exact ⟨‹_›, Except.ok.inj h⟩

/-! ### Internal operations -/

theorem whenZero_ok {n : Nat} {unused : BitVec n} {i j : Instr} (h : whenZero unused i = .ok j) :
    unused = 0 ∧ i = j := ok_of_guarded h

theorem ackOfBit_ackBit (k : Ack) : ackOfBit (ackBit k) = k := by cases k <;> rfl

theorem ackBit_ackOfBit (b : Bit) : ackBit (ackOfBit b) = b := by cases b <;> rfl

/-- An operand word of one bit (log 8). -/
theorem bitOperand_extract {x : BitVec 16} (h : x.extractLsb' 1 15 = 0) :
    0#15 ++ BitVec.ofBool (x.getLsbD 0) = x := by
  rw [ofBool_getLsbD]
  exact append_low_of_high_zero h

/-- The operand word of READ_BYTE (log 8). -/
theorem readByteOperand_extract {x : BitVec 16} (h : x.extractLsb' 13 3 = 0) :
    readByteOperand (ackOfBit (x.getLsbD 12)) (x.extractLsb' 0 12) = x := by
  have hword : x.extractLsb' 12 1 ++ x.extractLsb' 0 12 = x.extractLsb' 0 13 :=
    BitVec.extractLsb'_append_extractLsb'_eq_extractLsb' rfl
  rw [readByteOperand, ackBit_ackOfBit, ofBool_getLsbD, BitVec.append_assoc, hword]
  exact append_low_of_high_zero h

theorem readByteOperand_bits (k : Ack) (i : BitVec 12) : (readByteOperand k i).extractLsb' 13 3 = 0 ∧
    ackOfBit ((readByteOperand k i).getLsbD 12) = k ∧ (readByteOperand k i).extractLsb' 0 12 = i := by
  refine ⟨?_, ?_, BitVec.extractLsb'_append_eq_right⟩
  · exact (BitVec.extractLsb'_append_eq_of_le (by decide)).trans BitVec.extractLsb'_append_eq_left
  · rw [readByteOperand, BitVec.getLsbD_append]
    cases k <;> rfl

theorem decodeInternal_reserved {n : BitVec 4} (h : 12 ≤ n.toNat) (x : BitVec 16) :
    decode (.internal n x) = .error .reservedNumber := by
  obtain ⟨k, hk⟩ : ∃ k, n.toNat = k + 12 := ⟨_, (Nat.sub_add_cancel h).symm⟩
  change decodeInternal n x = _
  rw [decodeInternal, hk]
  rfl

/-- What an internal word decodes to is encoded by its number and its operand word (30_encoding.md R102, log 8). -/
theorem encode_of_decodeInternal {n : BitVec 4} {x : BitVec 16} {i : Instr} (h : decodeInternal n x = .ok i) :
    encode i = .internal n x := by
  have number {k : BitVec 4} (hk : n.toNat = k.toNat) : k = n := (BitVec.eq_of_toNat_eq hk).symm
  unfold decodeInternal at h
  split at h
  case h_13 => cases h
  all_goals
    rename_i hn
    obtain ⟨hx, rfl⟩ := whenZero_ok h
  case h_4 => exact congrArg₂ Code.internal (number hn) (bitOperand_extract hx)
  case h_6 =>
    rw [encode, ackBit_ackOfBit]
    exact congrArg₂ Code.internal (number hn) (bitOperand_extract hx)
  case h_8 => exact congrArg₂ Code.internal (number hn) (append_low_of_high_zero hx)
  case h_9 => exact congrArg₂ Code.internal (number hn) (readByteOperand_extract hx)
  case h_10 => exact congrArg₂ Code.internal (number hn) (bitOperand_extract hx)
  all_goals exact congrArg₂ Code.internal (number hn) hx.symm

/-! ### Both directions -/

theorem decode_packetOf {op : BitVec 4} {make : Packet → Instr} (h : commandNamed op = some make) (p : Packet) :
    decode (.packet (packetOf op p)) = .ok (make p) := by
  have hdec := decodePacket_named (p := packetOf op p) ((packetOf_op op p).symm ▸ h) (packetOf_reserved op p)
  rwa [packetFields_packetOf] at hdec

/-- Decoding an encoded instruction gives it back. -/
theorem decode_encode (i : Instr) : decode (encode i) = .ok i := by
  cases i with
  | init p | wrreg p | rdreg p | scan p => exact decode_packetOf rfl p
  | guardReleaseScl | start | stop | readBit | readAck | sendRegidx | probe => rfl
  | writeBit b | sendAddress b => cases b <;> rfl
  | writeAck k => cases k <;> rfl
  | writeByte v =>
    change whenZero ((0#8 ++ v).extractLsb' 8 8) (.writeByte ((0#8 ++ v).extractLsb' 0 8)) = _
    rw [BitVec.extractLsb'_append_eq_left, BitVec.extractLsb'_append_eq_right]
    rfl
  | readByte k j =>
    obtain ⟨hunused, hack, hindex⟩ := readByteOperand_bits k j
    change whenZero ((readByteOperand k j).extractLsb' 13 3)
      (.readByte (ackOfBit ((readByteOperand k j).getLsbD 12)) ((readByteOperand k j).extractLsb' 0 12)) = _
    rw [hunused, hack, hindex]
    rfl
  | addr7 a r =>
    obtain ⟨ha, hr⟩ := addr7Byte_bits a r
    exact congrArg Except.ok (congrArg₂ Instr.addr7 ha hr)
  | addr10Hi a r =>
    obtain ⟨hmark, ha, hr⟩ := addr10Byte_bits a r
    exact (if_pos hmark).trans (congrArg Except.ok (congrArg₂ Instr.addr10Hi ha hr))
  | addr10Re a =>
    obtain ⟨hmark, ha, hr⟩ := addr10Byte_bits a true
    exact (if_pos (Bool.and_eq_true_iff.mpr ⟨hmark, hr⟩)).trans (congrArg Except.ok (congrArg Instr.addr10Re ha))
  | probeAddr a =>
    obtain ⟨ha, hr⟩ := addr7Byte_bits a false
    exact (if_neg (Bool.not_eq_true _ ▸ hr)).trans (congrArg Except.ok (congrArg Instr.probeAddr ha))
  | addr10Lo a | regidxByte a | dataByte a => rfl

/-- What a packet decodes to is encoded by that packet (30_encoding.md R82, R83, R86). -/
theorem encode_of_decodePacket {p : BitVec 128} {i : Instr} (h : decode (.packet p) = .ok i) :
    encode i = .packet p := by
  have hp := packetOf_packetFields (packetReserved_of_decoded h)
  rcases decodePacket_cases h with ⟨ho, rfl⟩ | ⟨ho, rfl⟩ | ⟨ho, rfl⟩ | ⟨ho, rfl⟩ <;> rw [ho] at hp <;>
    exact congrArg Code.packet hp

/-- What a wire byte decodes to is encoded by that byte at its place (R91 to R96). -/
theorem encode_of_decodeWire {place : FramePlace} {b : Byte} {i : Instr} (h : decodeWire place b = .ok i) :
    encode i = .wire place b := by
  cases place with
  | address7 =>
    cases h
    exact congrArg _ (addr7Byte_extract b)
  | address10First =>
    obtain ⟨hmark, rfl⟩ := ok_of_guarded h
    exact congrArg _ (addr10Byte_extract hmark)
  | address10Second | registerIndex | data =>
    cases h
    rfl
  | reAddress10 =>
    obtain ⟨hboth, rfl⟩ := ok_of_guarded h
    obtain ⟨hmark, hread⟩ := Bool.and_eq_true_iff.mp hboth
    have hb := addr10Byte_extract hmark
    rw [hread] at hb
    exact congrArg _ hb
  | probe =>
    obtain ⟨hwrite, rfl⟩ := ok_of_unless h
    have hb := addr7Byte_extract b
    rw [Bool.eq_false_of_not_eq_true hwrite] at hb
    exact congrArg _ hb

/-- Settles O5: each encoding is taken apart by its decoder, the packet by its fields. -/
theorem decodeOfEncodeIsTheInstruction : Obligations.DecodeOfEncodeIsTheInstruction := decode_encode

/-- Settles O6: by the encoding space of the word. -/
theorem encodeOfDecodeIsTheWord : Obligations.EncodeOfDecodeIsTheWord := by
  intro c i h
  cases c with
  | packet p => exact encode_of_decodePacket h
  | internal n x => exact encode_of_decodeInternal h
  | wire place b => exact encode_of_decodeWire h

/-- Settles O2: each byte is the encoding of its instruction. -/
theorem wireBytesDecodeByTheirPatterns : Obligations.WireBytesDecodeByTheirPatterns :=
  ⟨fun a r => decode_encode (.addr7 a r), fun a r => decode_encode (.addr10Hi a r), fun a => decode_encode (.addr10Lo a),
    fun a => decode_encode (.addr10Re a), fun v => decode_encode (.regidxByte v), fun v => decode_encode (.dataByte v),
    fun a => decode_encode (.probeAddr a)⟩

/-- Settles O3: each word is the encoding of its operation, and the decoder has no number above 11. -/
theorem internalNumbersDecodeToTheirOperations : Obligations.InternalNumbersDecodeToTheirOperations :=
  ⟨decode_encode .guardReleaseScl, decode_encode .start, decode_encode .stop, decode_encode (.writeBit true),
    decode_encode .readBit, decode_encode (.writeAck .nack), decode_encode .readAck, decode_encode (.writeByte 0xD0),
    decode_encode (.readByte .nack 0xABC), decode_encode (.sendAddress true), decode_encode .sendRegidx,
    decode_encode .probe, fun _ x h => decodeInternal_reserved h x⟩

/-- Settles O7: the framer's bytes are these patterns. -/
theorem addressPhaseSendsTheFramersBytes : Obligations.AddressPhaseSendsTheFramersBytes :=
  ⟨fun _ _ => rfl, fun _ => rfl, fun _ => rfl⟩

/-- Settles O1: the packets are the encodings of the commands, and what is encoded decodes. -/
theorem workedPacketsDecodeToTheirCommands : Obligations.WorkedPacketsDecodeToTheirCommands := by
  have hwrreg : encode (.wrreg ⟨.seven, 1, 0x68, false, 1, 100000, 1000, 0⟩) =
      .packet (packetWords 0x00106822 0x000186A0 0x000003E8 0x00000000) := by decide
  have hrdreg : encode (.rdreg ⟨.seven, 1, 0x68, false, 2, 100000, 1000, 0⟩) =
      .packet (packetWords 0x00206823 0x000186A0 0x000003E8 0x00000000) := by decide
  have hscan : encode (.scan ⟨.seven, 0, 0, true, 0, 100000, 1000, 0⟩) =
      .packet (packetWords 0x00040004 0x000186A0 0x000003E8 0x00000000) := by decide
  have hinit : encode (.init ⟨.ten, 2, 0x2A5, false, 0, 400000, 50, 0⟩) =
      .packet (packetWords 0x0002A551 0x00061A80 0x00000032 0x00000000) := by decide
  exact ⟨hwrreg ▸ decode_encode _, hrdreg ▸ decode_encode _, hscan ▸ decode_encode _, hinit ▸ decode_encode _, hwrreg,
    hrdreg, hscan, hinit⟩

/-! ### The words of a packet -/

section
variable (w0 w1 w2 w3 : Word)

theorem packetWords_extract {start len : Nat} (h : start + len ≤ 32) :
    (packetWords w0 w1 w2 w3).extractLsb' start len = w0.extractLsb' start len :=
  BitVec.extractLsb'_append_eq_of_add_le h

theorem packetWords_bit {i : Nat} (h : i < 32) : (packetWords w0 w1 w2 w3).getLsbD i = w0.getLsbD i := by
  rw [BitVec.getLsbD_eq_extractLsb', BitVec.getLsbD_eq_extractLsb', packetWords_extract w0 w1 w2 w3 h]

theorem packetOp_packetWords : packetOp (packetWords w0 w1 w2 w3) = w0.extractLsb' 0 4 :=
  packetWords_extract w0 w1 w2 w3 (by decide)

theorem packetReserved_packetWords : packetReserved (packetWords w0 w1 w2 w3) = w0.getLsbD 19 :=
  packetWords_bit w0 w1 w2 w3 (by decide)

theorem packetClk_packetWords : (packetFields (packetWords w0 w1 w2 w3)).clk = w1 := by
  change (w3 ++ w2 ++ w1 ++ w0).extractLsb' 32 32 = w1
  rw [BitVec.extractLsb'_append_eq_of_le (by decide)]
  exact BitVec.extractLsb'_append_eq_right

/-- W0 under the mask of R86: `OP` and the reserved bit. -/
theorem masked_word : w0 &&& 0x0008000F = 0#12 ++ BitVec.ofBool (w0.getLsbD 19) ++ 0#15 ++ w0.extractLsb' 0 4 := by
  have hword : w0.extractLsb' 20 12 ++ w0.extractLsb' 19 1 ++ w0.extractLsb' 4 15 ++ w0.extractLsb' 0 4 = w0 := by
    iterate 3 rw [BitVec.extractLsb'_append_extractLsb'_eq_extractLsb' (by decide)]
    exact BitVec.extractLsb'_eq_self
  have hmask : (0x0008000F : Word) = 0#12 ++ BitVec.allOnes 1 ++ 0#15 ++ BitVec.allOnes 4 := rfl
  calc w0 &&& 0x0008000F
      = (w0.extractLsb' 20 12 ++ w0.extractLsb' 19 1 ++ w0.extractLsb' 4 15 ++ w0.extractLsb' 0 4) &&&
          (0#12 ++ BitVec.allOnes 1 ++ 0#15 ++ BitVec.allOnes 4) := by rw [hword, hmask]
    _ = _ := by simp only [BitVec.and_append, BitVec.and_zero, BitVec.and_allOnes, ofBool_getLsbD]

theorem masked_word_iff (op : BitVec 4) : w0 &&& 0x0008000F = 0#12 ++ 0#1 ++ 0#15 ++ op ↔
    w0.getLsbD 19 = false ∧ w0.extractLsb' 0 4 = op := by
  rw [masked_word]
  refine ⟨fun h => ?_, fun ⟨hr, ho⟩ => by rw [hr, ho]; rfl⟩
  obtain ⟨h, ho⟩ := append_inj h
  obtain ⟨h, -⟩ := append_inj h
  obtain ⟨-, hr⟩ := append_inj h
  exact ⟨ofBool_injective hr, ho⟩

/-- A word that is `OP` alone under the mask names the command of that `OP`. -/
theorem decode_masked {op : BitVec 4} {make : Packet → Instr} (hop : commandNamed op = some make)
    (h : w0 &&& 0x0008000F = 0#12 ++ 0#1 ++ 0#15 ++ op) :
    decode (.packet (packetWords w0 w1 w2 w3)) = .ok (make (packetFields (packetWords w0 w1 w2 w3))) := by
  obtain ⟨hr, rfl⟩ := (masked_word_iff w0 op).mp h
  exact decodePacket_named (packetOp_packetWords w0 w1 w2 w3 ▸ hop) (packetReserved_packetWords w0 w1 w2 w3 ▸ hr)

end

theorem commandNamed_none {op : BitVec 4} (hinit : op ≠ opInit) (hwrreg : op ≠ opWrreg) (hrdreg : op ≠ opRdreg)
    (hscan : op ≠ opScan) : commandNamed op = none := by
  simp [commandNamed, hinit, hwrreg, hrdreg, hscan]

/-- Settles O4: the masked word is `OP` with the reserved bit. -/
theorem maskedWordTellsTheCommand : Obligations.MaskedWordTellsTheCommand := by
  intro w0 w1 w2 w3 f
  refine ⟨decode_masked w0 w1 w2 w3 (op := opInit) rfl, decode_masked w0 w1 w2 w3 (op := opWrreg) rfl,
    decode_masked w0 w1 w2 w3 (op := opRdreg) rfl, decode_masked w0 w1 w2 w3 (op := opScan) rfl, fun h1 h2 h3 h4 => ?_⟩
  cases hr : w0.getLsbD 19 with
  | true => exact decodePacket_reserved (packetReserved_packetWords w0 w1 w2 w3 ▸ hr)
  | false =>
    have hother {op : BitVec 4} (h : w0 &&& 0x0008000F ≠ 0#12 ++ 0#1 ++ 0#15 ++ op) :
        packetOp (packetWords w0 w1 w2 w3) ≠ op := by
      rw [packetOp_packetWords]
      exact fun ho => h ((masked_word_iff w0 op).mpr ⟨hr, ho⟩)
    exact ⟨_, decodePacket_unnamed (commandNamed_none (hother h1) (hother h2) (hother h3) (hother h4))⟩

/-! ### Legality -/

theorem clockRateOk_iff (clk : Word) : clockRateOk clk = true ↔ 10000 ≤ clk.toNat ∧ clk.toNat ≤ 1000000 := by
  simp [clockRateOk, BitVec.ule, Config.clkMin, Config.clkMax]

theorem indexWidthOk_iff (riw : BitVec 3) : indexWidthOk riw = true ↔ riw.toNat ≤ 4 := by
  simp [indexWidthOk, BitVec.ule, Config.riwMax]

theorem addressOk_iff (am : AddrMode) (addr : BitVec 10) :
    addressOk am addr = true ↔ (am = .seven → addr.toNat ≤ 0x7F) := by
  cases am <;> simp [addressOk, BitVec.ule, Config.addr7Max]

theorem lengthOk_iff (maxLen len : BitVec 12) :
    lengthOk maxLen len = true ↔ 1 ≤ len.toNat ∧ len.toNat ≤ maxLen.toNat := by
  simp [lengthOk, BitVec.ule]

/-- Checks 3 to 5 of R88. -/
theorem descriptorCheck_eq_none (p : Packet) : descriptorCheck p = none ↔
    (10000 ≤ p.clk.toNat ∧ p.clk.toNat ≤ 1000000) ∧ p.riw.toNat ≤ 4 ∧ (p.am = .seven → p.addr.toNat ≤ 0x7F) := by
  rw [← clockRateOk_iff, ← indexWidthOk_iff, ← addressOk_iff]
  unfold descriptorCheck
  cases clockRateOk p.clk <;> cases indexWidthOk p.riw <;> cases addressOk p.am p.addr <;> simp

/-- Checks 3 to 6 of R88. -/
theorem transferCheck_eq_none (maxLen : BitVec 12) (p : Packet) : transferCheck maxLen p = none ↔
    descriptorCheck p = none ∧ 1 ≤ p.len.toNat ∧ p.len.toNat ≤ maxLen.toNat := by
  rw [← lengthOk_iff]
  unfold transferCheck
  cases descriptorCheck p <;> cases lengthOk maxLen p.len <;> simp

/-- The one check of SCAN beyond the decoder's. -/
theorem scanCheck_eq_none (maxLen : BitVec 12) (p : Packet) : failedCheck maxLen (.scan p) = none ↔
    10000 ≤ p.clk.toNat ∧ p.clk.toNat ≤ 1000000 := by
  rw [← clockRateOk_iff, failedCheck]
  cases clockRateOk p.clk <;> simp

/-- The checks 3 to 6 of R88 on the fields, by the operation code. -/
def checksHold (maxLen : BitVec 12) (op : Nat) (p : Packet) : Prop :=
  (10000 ≤ p.clk.toNat ∧ p.clk.toNat ≤ 1000000) ∧ (op = 1 ∨ op = 2 ∨ op = 3 → p.riw.toNat ≤ 4) ∧
    (op = 1 ∨ op = 2 ∨ op = 3 → p.am = .seven → p.addr.toNat ≤ 0x7F) ∧
    (op = 2 ∨ op = 3 → 1 ≤ p.len.toNat ∧ p.len.toNat ≤ maxLen.toNat)

theorem exists_named {op : BitVec 4} {make : Packet → Instr} (h : commandNamed op = some make)
    (P : (Packet → Instr) → Prop) : (∃ m, commandNamed op = some m ∧ P m) ↔ P make := by
  simp [h]

/-- Check 1: the operation codes 1 to 4 name a command, whose checks are those of its code. -/
theorem commandNamed_legal (maxLen : BitVec 12) (op : BitVec 4) (p : Packet) :
    (∃ make, commandNamed op = some make ∧ failedCheck maxLen (make p) = none) ↔
      (1 ≤ op.toNat ∧ op.toNat ≤ 4) ∧ checksHold maxLen op.toNat p := by
  by_cases hinit : op = opInit
  · rw [hinit, exists_named (op := opInit) rfl]
    exact (descriptorCheck_eq_none p).trans (by simp [checksHold, opInit])
  by_cases hwrreg : op = opWrreg
  · rw [hwrreg, exists_named (op := opWrreg) rfl]
    exact (transferCheck_eq_none maxLen p).trans (by simp [checksHold, opWrreg, descriptorCheck_eq_none, and_assoc])
  by_cases hrdreg : op = opRdreg
  · rw [hrdreg, exists_named (op := opRdreg) rfl]
    exact (transferCheck_eq_none maxLen p).trans (by simp [checksHold, opRdreg, descriptorCheck_eq_none, and_assoc])
  by_cases hscan : op = opScan
  · rw [hscan, exists_named (op := opScan) rfl]
    exact (scanCheck_eq_none maxLen p).trans (by simp [checksHold, opScan])
  have hother {k : BitVec 4} (h : op ≠ k) : op.toNat ≠ k.toNat := fun e => h (BitVec.eq_of_toNat_eq e)
  have h1 : op.toNat ≠ 1 := hother hinit
  have h2 : op.toNat ≠ 2 := hother hwrreg
  have h3 : op.toNat ≠ 3 := hother hrdreg
  have h4 : op.toNat ≠ 4 := hother hscan
  have hrange : ¬(1 ≤ op.toNat ∧ op.toNat ≤ 4) := by omega
  simp [commandNamed_none hinit hwrreg hrdreg hscan, hrange]

/-- A packet is legal where its reserved bit is 0 and its operation code names a command whose checks it passes. -/
theorem decodePacket_legal (maxLen : BitVec 12) (p : BitVec 128) :
    (∃ i, decode (.packet p) = .ok i ∧ failedCheck maxLen i = none) ↔ packetReserved p = false ∧
      ∃ make, commandNamed (packetOp p) = some make ∧ failedCheck maxLen (make (packetFields p)) = none := by
  constructor
  · rintro ⟨i, hdec, hc⟩
    refine ⟨packetReserved_of_decoded hdec, ?_⟩
    rcases decodePacket_cases hdec with ⟨ho, rfl⟩ | ⟨ho, rfl⟩ | ⟨ho, rfl⟩ | ⟨ho, rfl⟩ <;> rw [ho] <;>
      exact ⟨_, rfl, hc⟩
  · rintro ⟨hr, make, hmake, hc⟩
    exact ⟨_, decodePacket_named hmake hr, hc⟩

/-- Settles O9: the decoder makes checks 1 and 2, and the fields of the packet are these bits of its words. -/
theorem legalityIsTheChecksOfTheSpec : Obligations.LegalityIsTheChecksOfTheSpec := by
  intro maxLen w0 w1 w2 w3 op transfer
  have hriw : (packetFields (packetWords w0 w1 w2 w3)).riw = w0.extractLsb' 5 3 :=
    packetWords_extract w0 w1 w2 w3 (by decide)
  have haddr : (packetFields (packetWords w0 w1 w2 w3)).addr = w0.extractLsb' 8 10 :=
    packetWords_extract w0 w1 w2 w3 (by decide)
  have hlen : (packetFields (packetWords w0 w1 w2 w3)).len = w0.extractLsb' 20 12 :=
    packetWords_extract w0 w1 w2 w3 (by decide)
  have ham : (packetFields (packetWords w0 w1 w2 w3)).am = .seven ↔ w0.getLsbD 4 = false := by
    rw [← packetWords_bit w0 w1 w2 w3 (by decide), packetFields]
    cases (packetWords w0 w1 w2 w3).getLsbD 4 <;> simp
  rw [decodePacket_legal, commandNamed_legal, packetOp_packetWords, packetReserved_packetWords, and_left_comm]
  simp only [checksHold, packetClk_packetWords, hriw, haddr, hlen, ham]
  rfl

end Sys2Proof.Machine

/-! # Wire bytes and framers alone, the operation slot, and illegal commands (O12, O31 to O34, O38) -/

namespace Sys2Proof.Machine

/-! ### Wire bytes (log 9, log 10) -/

/-- A checked frame standing alone is WRITE_BYTE standing alone, its flag turned into a return or the failure f. -/
theorem sendFrame_finish (f : Failure) (v : Byte) (s : State) : ∃ t u, exec (.writeByte v) s = .next t ∧
    (sendFrame f v s).finish (fun _ => .done) = u ∧
      ((t.ret = .raised .timeout ∧ u = t) ∨ (t.ret = .bit true ∧ u = { t with ret := .done }) ∨
        (t.ret = .bit false ∧ u = { t with ret := .raised f })) := by
  refine ⟨(writeByte v s).finish .bit, _, rfl, rfl, ?_⟩
  rcases writeByte_cases v s with ⟨a, t, e, -⟩ | ⟨t, e, -⟩ <;> rw [sendFrame, e]
  · cases a with
    | true => exact .inr (.inl ⟨rfl, rfl⟩)
    | false => exact .inr (.inr ⟨rfl, rfl⟩)
  · exact .inl ⟨rfl, rfl⟩

/-- The same for an instruction that is the checked frame of v. -/
theorem framed_of_sendFrame {i : Instr} {v : Byte} {f : Failure} {s : State}
    (h : exec i s = .next ((sendFrame f v s).finish fun _ => .done)) : ∃ t u, exec (.writeByte v) s = .next t ∧
    exec i s = .next u ∧
      ((t.ret = .raised .timeout ∧ u = t) ∨ (t.ret = .bit true ∧ u = { t with ret := .done }) ∨
        (t.ret = .bit false ∧ u = { t with ret := .raised f })) := by
  obtain ⟨t, u, ht, hu, hframe⟩ := sendFrame_finish f v s
  exact ⟨t, u, ht, hu ▸ h, hframe⟩

/-- With `PH2` = 0 a DATA_BYTE is sent (log 10). -/
theorem exec_dataByte_sent {s : State} (h : s.ph2 = false) (v : Byte) :
    exec (.dataByte v) s = .next ((sendFrame .protocolError v s).finish fun _ => .done) := by
  change execDataByte v s = _
  simp [execDataByte, h]

/-- With `PH2` = 1 it is received (log 10). -/
theorem exec_dataByte_received {s : State} (h : s.ph2 = true) (v : Byte) :
    exec (.dataByte v) s = exec (.readByte (ackForByte s.byteCnt s.len) s.byteCnt) s := by
  change execDataByte v s = execReadByte _ _ s
  simp [execDataByte, execReadByte, h]

/-- Settles O31: each wire byte is the checked frame of its pattern. -/
theorem wireBytesAreCheckedByteFrames : Obligations.WireBytesAreCheckedByteFrames := fun _ =>
  ⟨fun _ _ => framed_of_sendFrame rfl, fun _ _ => framed_of_sendFrame rfl, fun _ => framed_of_sendFrame rfl,
    fun _ => framed_of_sendFrame rfl, fun _ => framed_of_sendFrame rfl,
    fun v h => framed_of_sendFrame (exec_dataByte_sent h v), fun _ => framed_of_sendFrame rfl⟩

/-- Settles O32: the answer is that of the byte's place. -/
theorem receivedDataByteIsReadByte : Obligations.ReceivedDataByteIsReadByte := by
  intro s v h
  rw [exec_dataByte_received h]
  exact ⟨fun hlast => by rw [ackForByte, if_pos hlast], fun hmore => by rw [ackForByte, if_neg hmore]⟩

/-! ### The framers -/

/-- Settles O33: SEND_ADDRESS plays its frames. -/
theorem sendAddressPutsItsBytesOnTheWire : Obligations.SendAddressPutsItsBytesOnTheWire := by
  intro s rw' r q hc hd
  have h := (sendAddress_plays rw' s).completes s.trace r q
  rw [releases_ackedFrames, State.on_self hc hd] at h
  have hexec : exec (.sendAddress rw') s = .next ((sendAddress rw' s).finish fun _ => .done) := rfl
  rw [hexec, h]
  rfl

/-- SEND_REGIDX of at least one byte plays its frames (42_byte_and_framing.md R156). -/
theorem sendRegidx_plays {s : State} (hr : 1 ≤ s.riw.toNat) : Plays sendRegidx s
    (ackedFrames (indexBytes s.riw s.regidx)) (List.replicate s.riw.toNat false) ()
    { byteSent false s with fsm := .registerIndexSent, byteCnt := s.riw.setWidth 12 } := by
  obtain ⟨n, hn⟩ : ∃ n, s.riw.toNat = n + 1 := ⟨_, (Nat.sub_add_cancel hr).symm⟩
  have hfirst := sendFrame_plays .protocolError (regidxByteAt s.regidx n) (clearCount s)
  have hrest := sendIndexBytes_plays n (s := incCount (byteSent false (clearCount s))) rfl
  have hbytes := (hfirst.seq (hrest.silently _ incCount)).silently s clearCount
  have h := hbytes.lastly (b := ()) (enterFsm .registerIndexSent)
  have hlist : indexBytes s.riw s.regidx =
      regidxByteAt s.regidx n :: (List.range n).reverse.map (regidxByteAt s.regidx) := by
    simp [indexBytes, hn, List.range_succ]
  have hcount : s.riw.setWidth 12 = 0#12 + 1 + BitVec.ofNat 12 n := by
    rw [count_succ, ← hn, BitVec.zero_add, BitVec.ofNat_toNat]
  rw [hlist, hn, hcount]
  refine h.of_eq fun tr c d => ?_
  change (sendIndexBytes s.riw.toNat _).andThen _ = _
  rw [hn]
  rfl

/-- Settles O34: SEND_REGIDX plays its frames. -/
theorem sendRegidxPutsItsBytesOnTheWire : Obligations.SendRegidxPutsItsBytesOnTheWire := by
  intro s r q hr _ hc hd
  have h := (sendRegidx_plays hr).completes s.trace r q
  rw [releases_ackedFrames, indexBytes_length, State.on_self hc hd] at h
  have hexec : exec .sendRegidx s = .next ((sendRegidx s).finish fun _ => .done) := rfl
  rw [hexec, h]
  rfl

/-! ### The operation slot (log 6, log 8) -/

theorem decode_of_decodeTableWord {nbits w : Nat} {i : Instr} (h : decodeTableWord nbits w = some i) :
    decode (tableCode nbits w) = .ok i := by
  unfold decodeTableWord at h
  cases hdec : decode (tableCode nbits w) with
  | ok j => simpa [hdec, Except.toOption] using h
  | error e => simp [hdec, Except.toOption] at h

/-- Settles O12: the word is in the slot, and it is the block's turn. -/
theorem fetchedTableWordRuns : Obligations.FetchedTableWordRuns := by
  intro s nbits w i h
  have hturn : blockTurn (s.withFetchWord nbits w) = some (s.withFetchWord nbits w) := blockTurn_silent rfl
  exact stepRunsTheDecodedInstruction _ _ _ _ hturn rfl rfl rfl (decode_of_decodeTableWord h) fun _ => rfl

/-! ### Illegal commands (60_exceptions.md R215) -/

/-- An illegal command before its response: latched, with `ERR` = IllegalCommand. -/
def rejected (op : BitVec 4) (p : Packet) (s : State) : State := { accept op p s with err := .illegalCommand }

/-- What a command that is rejected in s comes to: the response is its only event, and pins, buffer, `ACKF` and working
registers stay. -/
def respondsIllegal (s t : State) : Prop :=
  (t.err = .illegalCommand ∧ t.rspWord = 5 ∧ t.trace = [.respond .illegalCommand] ∧ t.found = []) ∧
    t.buf = s.buf ∧ t.sclOut = s.sclOut ∧ t.sdaOut = s.sdaOut ∧ t.ackf = s.ackf ∧ t.sclAnswers = s.sclAnswers ∧
    t.sdaAnswers = s.sdaAnswers ∧ t.shreg = s.shreg ∧ t.bitCnt = s.bitCnt ∧ t.byteCnt = s.byteCnt ∧
    t.scanAddr = s.scanAddr ∧ t.stretchCnt = s.stretchCnt ∧ t.foundAddr = s.foundAddr

theorem present_rejected (op : BitVec 4) (p : Packet) (s : State) : respondsIllegal s (present (rejected op p s)) :=
  ⟨⟨rfl, rfl, rfl, rfl⟩, rfl, rfl, rfl, rfl, rfl, rfl, rfl, rfl, rfl, rfl, rfl, rfl⟩

theorem respond_rejected (op : BitVec 4) (p : Packet) (s : State) : respondsIllegal s (respond (rejected op p s)) := by
  unfold respond
  split <;> exact present_rejected op p s

theorem run_two {s t u : State} (ht : step s = .next t) (hu : step t = .next u) : Sys2Proof.core.run 2 s = .next u := by
  have ht' : Sys2Proof.core.step s = .next t := ht
  have hu' : Sys2Proof.core.step t = .next u := hu
  simp only [Host.Core.run, ht', hu']

/-- An illegal packet accepted at the port: the packet is taken, and the response remains. -/
def rejectedAtPort (p : BitVec 128) (rest : List (BitVec 128)) (s : State) : State :=
  { rejected (packetOp p) (packetFields p) s with
    cmds := rest, foundValid := false, place := [.respond, .awaitTaken] }

/-- An illegal packet offered at the port: a step accepts it, the next presents the response. -/
theorem run_illegal_packet {s : State} {p : BitVec 128} {rest : List (BitVec 128)} (hm : s.hostMoves = [])
    (hr : s.rst = false) (hp : s.place = []) (hf : s.fetch = none) (hb : s.busy = false) (hcmds : s.cmds = p :: rest)
    (hno : ∀ i, decode (.packet p) = .ok i → failedCheck s.maxLen i ≠ none) :
    Sys2Proof.core.run 2 s = .next { present (rejectedAtPort p rest s) with place := [.awaitTaken] } := by
  have haccept : step s = .next (rejectedAtPort p rest s) := by
    have hport : step s = .next (acceptPacket p { s with cmds := rest, foundValid := false }) := by
      rw [step_port (blockTurn_silent hm) hr hp hf]
      simp [commandPort, hcmds, hb]
    rcases acceptPacket_cases p { s with cmds := rest, foundValid := false } with ⟨i, hdec, hc, -⟩ | ⟨-, e⟩
    · exact absurd hc (hno i hdec)
    · exact hport.trans (congrArg Host.Outcome.next e)
  exact run_two haccept (step_task (s := rejectedAtPort p rest s) (blockTurn_silent hm) hr rfl)

/-- Settles O38: a rejected command only responds, whole, at the port, and from the slot. -/
theorem illegalCommandOnlyResponds : Obligations.IllegalCommandOnlyResponds := by
  refine ⟨fun i s c hi hb hc => ?_, fun s p rest hm hr hp hf hb hcmds hno => ?_,
    fun s u p e hturn hr hp hf hb hdec => ?_⟩
  · obtain ⟨op, p, he⟩ := exec_command hi s
    rw [hc, runCommand_illegal hb] at he
    obtain ⟨hanswer, hframe⟩ := respond_rejected op p s
    exact ⟨_, he, hanswer, hframe, (accept_keepsHostSide op p s).trans (respond_keepsHostSide (rejected op p s))⟩
  · obtain ⟨hanswer, hframe⟩ := present_rejected (packetOp p) (packetFields p) s
    obtain ⟨hwaits, htaken⟩ := responseIsHeldUntilTaken
      { present (rejectedAtPort p rest s) with place := [.awaitTaken] } _ (blockTurn_silent hm) hr rfl
    have hlatched : latched (packetOp p) (packetFields p) (accept (packetOp p) (packetFields p) s) :=
      ⟨rfl, rfl, rfl, rfl, rfl, rfl, rfl, rfl, rfl⟩
    cases hready : s.rspReady with
    | false =>
      exact ⟨_, _, run_illegal_packet hm hr hp hf hb hcmds hno, hwaits hready, hanswer, hframe, hlatched, rfl, rfl, rfl,
        rfl, hanswer, hframe, rfl, rfl⟩
    | true =>
      exact ⟨_, _, run_illegal_packet hm hr hp hf hb hcmds hno, htaken hready, hanswer, hframe, hlatched, rfl, rfl, rfl,
        rfl, hanswer, hframe, rfl, rfl⟩
  · obtain ⟨m, rfl⟩ := blockTurn_takes_moves hturn
    have hslot : runSlot (.packet p) { s with hostMoves := m, foundValid := false } =
        .next (respond (rejected (packetOp p) (packetFields p)
          { s with hostMoves := m, foundValid := false, fetch := none })) := by
      simp only [runSlot, hdec, hb, Bool.false_eq_true, if_false, rejectCommand, rejected]
    obtain ⟨hanswer, hframe⟩ := respond_rejected (packetOp p) (packetFields p)
      { s with hostMoves := m, foundValid := false, fetch := none }
    exact ⟨_, (step_slot hturn hr hp hf).trans hslot, hanswer, hframe⟩

end Sys2Proof.Machine

/-! # The first byte that is not acknowledged (O43) -/

namespace Sys2Proof.Machine

/-! ### Operations ended by a NACK -/

/-- The operation, started in s on a bus that never stretches the clock, makes the events es, the data line answering ds,
the last of them an acknowledge slot that was not answered, and raises f. -/
def Refused {α : Type} (op : State → Run α) (s : State) (es : List Event) (ds : List Bit) (f : Failure) : Prop :=
  ∃ t, advances es s t ∧ t.ackf = false ∧ ∀ tr c d,
    op (s.on tr (List.replicate (releases es) true ++ c) (ds ++ d)) = .raised f (t.on (es.reverse ++ tr) c d)

namespace Refused

variable {α β : Type} {op : State → Run α} {s t : State} {es fs : List Event} {ds gs : List Bit} {a : α} {f : Failure}
  {g : State → State}

/-- A refusal leaves the operations in progress. -/
theorem andThen (h : Refused op s es ds f) (k : α → State → Run β) : Refused (fun s => (op s).andThen k) s es ds f := by
  obtain ⟨u, hu, hack, hrun⟩ := h
  exact ⟨u, hu, hack, fun tr c d => congrArg (fun r : Run α => r.andThen k) (hrun tr c d)⟩

/-- An operation that completes, and then a refusal. -/
theorem afterPlays {k : α → State → Run β} (h : Plays op s es ds a t) (hk : Refused (k a) t fs gs f) :
    Refused (fun s => (op s).andThen k) s (es ++ fs) (ds ++ gs) f := by
  obtain ⟨u, hu, hack, hrun⟩ := hk
  refine ⟨u, h.moves.trans hu, hack, fun tr c d => ?_⟩
  beta_reduce
  rw [releases_append, List.replicate_add, List.append_assoc, List.append_assoc, h.completes, List.reverse_append,
    List.append_assoc]
  exact hrun _ _ _

/-- The same, where what the first returns is not looked at. -/
theorem seq {op' : State → Run β} (h : Plays op s es ds a t) (hk : Refused op' t fs gs f) :
    Refused (fun s => (op s).andThen fun _ => op') s (es ++ fs) (ds ++ gs) f := afterPlays h hk

/-- An update g of the state s that makes no event, before a refusal. -/
theorem silently (s : State) (g : State → State) (h : Refused op t es ds f)
    (hm : advances [] s t := by exact ⟨rfl, rfl, rfl⟩)
    (hg : ∀ tr c d, g (s.on tr c d) = t.on tr c d := by intros; rfl) : Refused (fun s => op (g s)) s es ds f := by
  obtain ⟨u, hu, hack, hrun⟩ := h
  exact ⟨u, hm.trans hu, hack, fun tr c d => (congrArg op (hg _ _ _)).trans (hrun tr c d)⟩

theorem of_eq {op' : State → Run α} (h : Refused op' s es ds f)
    (he : ∀ tr c d, op (s.on tr c d) = op' (s.on tr c d)) : Refused op s es ds f := by
  obtain ⟨u, hu, hack, hrun⟩ := h
  exact ⟨u, hu, hack, fun tr c d => (he _ _ _).trans (hrun tr c d)⟩

theorem events {es' : List Event} {ds' : List Bit} (h : Refused op s es ds f) (hes : es' = es) (hds : ds' = ds) :
    Refused op s es' ds' f := by
  subst hes hds
  exact h

/-- An operation that raises wherever op does. -/
theorem of_raises {op' : State → Run β} (h : Refused op s es ds f)
    (hraise : ∀ f t u, op t = .raised f u → op' t = .raised f u) : Refused op' s es ds f := by
  obtain ⟨u, hu, hack, hrun⟩ := h
  exact ⟨u, hu, hack, fun tr c d => hraise _ _ _ (hrun tr c d)⟩

end Refused

/-! ### The phases of a transfer -/

theorem sendFrame_isRefused (f : Failure) (v : Byte) (s : State) :
    Refused (sendFrame f v) s (writeFrame v true) [true] f :=
  ⟨byteSent true s, ⟨rfl, rfl, rfl⟩, rfl, sendFrame_refused f v s⟩

/-- Frames of which the first k are acknowledged and the next, of v, is not. -/
theorem sendFrames_refused (f : Failure) {vs : List Byte} {k : Nat} {v : Byte} (hv : vs[k]? = some v) (s : State) :
    Refused (sendFrames f vs) s (ackedFrames (vs.take k) ++ writeFrame v true) (List.replicate k false ++ [true]) f := by
  induction vs generalizing k s with
  | nil => cases hv
  | cons w vs ih =>
    cases k with
    | zero =>
      obtain rfl : w = v := Option.some.inj hv
      exact (sendFrame_isRefused f w s).andThen _
    | succ k =>
      have h := Refused.seq (sendFrame_plays f w s) (ih hv (byteSent false s))
      rwa [← List.append_assoc (writeFrame w false), ← List.append_assoc [false]] at h

/-- An address byte is not acknowledged (42_byte_and_framing.md R153). -/
theorem sendAddress_refused {rw : Bit} {s : State} {k : Nat} {v : Byte}
    (hv : (addressBytes s.am s.addr rw)[k]? = some v) :
    Refused (sendAddress rw) s (ackedFrames ((addressBytes s.am s.addr rw).take k) ++ writeFrame v true)
      (List.replicate k false ++ [true]) .noResponse :=
  (sendFrames_refused .noResponse hv s).andThen fun _ t => .ok () (enterFsm .addressSent t)

theorem indexBytes_succ (n : Nat) (regidx : Word) : (List.range (n + 1)).reverse.map (regidxByteAt regidx) =
    regidxByteAt regidx n :: (List.range n).reverse.map (regidxByteAt regidx) := by
  simp [List.range_succ]

/-- A register-index byte is not acknowledged (R156). -/
theorem sendIndexBytes_refused {n k : Nat} {v : Byte} {s : State}
    (hv : ((List.range n).reverse.map (regidxByteAt s.regidx))[k]? = some v) :
    Refused (sendIndexBytes n) s
      (ackedFrames (((List.range n).reverse.map (regidxByteAt s.regidx)).take k) ++ writeFrame v true)
      (List.replicate k false ++ [true]) .protocolError := by
  induction n generalizing k s with
  | zero => cases hv
  | succ n ih =>
    rw [indexBytes_succ] at hv ⊢
    cases k with
    | zero =>
      obtain rfl : regidxByteAt s.regidx n = v := Option.some.inj hv
      exact ((sendFrame_isRefused .protocolError _ s).andThen _).of_eq fun _ _ _ => rfl
    | succ k =>
      have hrest := ih (s := incCount (byteSent false s)) hv
      have h := Refused.seq (sendFrame_plays .protocolError (regidxByteAt s.regidx n) s) (hrest.silently _ incCount)
      rw [← List.append_assoc (writeFrame _ false), ← List.append_assoc [false]] at h
      exact h.of_eq fun _ _ _ => rfl

theorem indexPhase_refused {k : Nat} {v : Byte} {s : State} (hv : (indexBytes s.riw s.regidx)[k]? = some v) :
    Refused indexPhase s (ackedFrames ((indexBytes s.riw s.regidx).take k) ++ writeFrame v true)
      (List.replicate k false ++ [true]) .protocolError := by
  have hr : s.riw ≠ 0 := fun h => by rw [h] at hv; cases hv
  have hbytes := (sendIndexBytes_refused (s := clearCount s) hv).silently s clearCount
  have h := hbytes.andThen fun _ t => .ok () (enterFsm .registerIndexSent t)
  exact h.of_eq fun _ _ _ => if_neg hr

/-- Steps 1 to 3 of WRREG and RDREG, ended by an address byte. -/
theorem selectRegister_address_refused {k : Nat} {v : Byte} {s : State}
    (hv : (addressBytes s.am s.addr false)[k]? = some v) :
    Refused selectRegister s (startEvents ++ ackedFrames ((addressBytes s.am s.addr false).take k) ++ writeFrame v true)
      (List.replicate k false ++ [true]) .noResponse := by
  have haddress := (sendAddress_refused (s := { driven false s with fsm := .started }) hv).silently
    (driven false s) (enterFsm .started)
  have h := Refused.seq (start_plays s) (haddress.andThen fun _ u => indexPhase u)
  rw [← List.append_assoc startEvents] at h
  exact h

/-- Steps 1 to 3, ended by an index byte. -/
theorem selectRegister_index_refused {k : Nat} {v : Byte} {s : State} (hv : (indexBytes s.riw s.regidx)[k]? = some v) :
    Refused selectRegister s
      (startEvents ++ (ackedFrames (addressBytes s.am s.addr false) ++ ackedFrames ((indexBytes s.riw s.regidx).take k)) ++
        writeFrame v true)
      (List.replicate ((addressBytes s.am s.addr false).length + k) false ++ [true]) .protocolError := by
  have haddress := (sendAddress_plays false { driven false s with fsm := .started }).silently
    (driven false s) (enterFsm .started)
  have hindex := indexPhase_refused (s := { byteSent false s with fsm := .addressSent }) hv
  have h := Refused.seq (start_plays s) (Refused.seq haddress hindex)
  rw [List.replicate_add, List.append_assoc, List.append_assoc, List.append_assoc]
  exact h

theorem memRead_plays (i : Nat) (s : State) :
    Plays (fun s => .ok () (memRead i s)) s [.memRead i (s.buf.get i)] [] () s :=
  .of_no_release rfl ⟨rfl, rfl, rfl⟩ fun _ _ _ => rfl

/-- A data byte of a write is not acknowledged (43_transactions.md R176). -/
theorem sendData_refused {n k b : Nat} {m : Memory} {s : State} (hk : k < n) (hm : s.buf = m)
    (hb : s.byteCnt.toNat = b) (hn : b + n < 4096) :
    Refused (sendData n) s
      (dataEvents m b k ++ [.memRead (b + k) (m.get (b + k))] ++ writeFrame (m.get (b + k)) true)
      (List.replicate k false ++ [true]) .protocolError := by
  obtain ⟨n, rfl⟩ : ∃ l, n = l + 1 := ⟨n - 1, by omega⟩
  induction k generalizing n b s with
  | zero =>
    have hframe := sendFrame_isRefused .protocolError (m.get b) s
    have h := Refused.seq (memRead_plays b s) (hframe.andThen fun _ t => sendData n (incCount t))
    subst hm hb
    exact h.of_eq fun _ _ _ => rfl
  | succ k ih =>
    obtain ⟨n, rfl⟩ : ∃ l, n = l + 1 := ⟨n - 1, by omega⟩
    have hnext : (incCount (byteSent false s)).byteCnt.toNat = b + 1 := by
      rw [← hb]
      exact incCount_toNat (s := byteSent false s) (show s.byteCnt.toNat + 1 < 4096 by omega)
    have hrest := ih (s := incCount (byteSent false s)) hm hnext n (by omega) (by omega)
    have hframe := sendFrame_plays .protocolError (m.get b) s
    have h := Refused.seq (memRead_plays b s) (Refused.seq hframe (hrest.silently _ incCount))
    subst hm hb
    refine (h.of_eq fun _ _ _ => rfl).events ?_ ?_
    · simp [dataEvents, Nat.add_assoc, Nat.add_comm 1]
    · simp [List.replicate_succ]

/-- WRREG ended by a data byte. -/
theorem wrregAttempt_data_refused {p : Packet} {s : State} {k : Nat} (hk : k < p.len.toNat) :
    Refused wrregAttempt (accept opWrreg p s)
      (startEvents ++ (ackedFrames (addressBytes p.am p.addr false) ++ ackedFrames (indexBytes p.riw p.regidx) ++
        dataEvents s.buf 0 k ++ [.memRead k (s.buf.get k)]) ++ writeFrame (s.buf.get k) true)
      (List.replicate ((addressBytes p.am p.addr false).length + p.riw.toNat + k) false ++ [true]) .protocolError := by
  obtain ⟨f, n, hselect⟩ := selectRegister_plays (accept opWrreg p s)
  let u : State := { byteSent false (accept opWrreg p s) with fsm := f, byteCnt := n }
  have hdata := sendData_refused (s := beginData u) (m := s.buf) (b := 0) hk rfl rfl (by have := p.len.isLt; omega)
  have h := Refused.seq hselect ((hdata.silently u beginData).of_eq
    (op := fun t => sendData t.len.toNat (beginData t)) fun _ _ _ => rfl)
  have hassoc (as bs cs ds es fs : List Event) :
      as ++ (bs ++ cs ++ ds ++ es) ++ fs = as ++ (bs ++ cs) ++ (ds ++ es ++ fs) := by simp
  refine h.events ?_ (by rw [List.replicate_add, List.append_assoc]; rfl)
  rw [hassoc, Nat.zero_add]
  rfl

/-- RDREG ended by the byte after the repeated start (R180). -/
theorem addressedForRead_refused {s : State} {v : Byte} (hv : addressBytes s.am s.addr true = [v]) :
    Refused addressedForRead s
      (startEvents ++ (ackedFrames (addressBytes s.am s.addr false) ++ ackedFrames (indexBytes s.riw s.regidx) ++
        startEvents) ++ writeFrame v true)
      (List.replicate ((addressBytes s.am s.addr false).length + s.riw.toNat) false ++ [true]) .noResponse := by
  obtain ⟨f, n, hselect⟩ := selectRegister_plays s
  let u : State := { byteSent false s with fsm := f, byteCnt := n }
  have haddress := (sendAddress_refused (rw := true) (k := 0) (v := v)
    (s := { driven false u with ph2 := true, fsm := .started }) (congrArg (·[0]?) hv)).silently (driven false u) secondPhase
  have h := Refused.seq hselect (Refused.seq (start_plays u) haddress)
  have hassoc (as bs cs ds es : List Event) :
      as ++ (bs ++ cs ++ ds) ++ es = as ++ (bs ++ cs) ++ (ds ++ ([] ++ es)) := by simp
  exact h.events (hassoc ..) rfl

/-! ### The end of the transaction -/

/-- A transfer ended by a NACK, es being its events between the START and the byte of v: one STOP follows, and the
response tells the failure (60_exceptions.md R220). -/
theorem Refused.transfer {op : BitVec 4} {p : Packet} {s : State} {attempt : State → Run Unit} {es : List Event} {v : Byte}
    {m n : Nat} {f : Failure} {i : Instr} {r q : List Bit}
    (h : Refused attempt (accept op p s) (startEvents ++ es ++ writeFrame v true) (List.replicate n false ++ [true]) f)
    (hexec : exec i s = .next (taken (present (endTransaction (attempt (accept op p s))))))
    (hstores : stores es = []) (hreleases : releases es + 11 = m)
    (hc : s.sclAnswers = List.replicate m true ++ r) (hd : s.sdaAnswers = List.replicate n false ++ true :: q) :
    ∃ t, exec i s = .next t ∧ t.err = f.status ∧ t.rspWord = responseWord f.status ∧
      t.trace.reverse = startEvents ++ es ++ writeFrame v true ++ stopEvents ++ [.respond f.status] ∧ t.buf = s.buf ∧
      t.ackf = false ∧ t.sclOut = true ∧ t.sdaOut = true ∧ t.fsm = .idle ∧ t.busy = false ∧ t.sclAnswers = r ∧
      t.sdaAnswers = q := by
  obtain ⟨u, ⟨hbuf, herr, htmo⟩, hack, hrun⟩ := h
  have hcount : m = releases (startEvents ++ es ++ writeFrame v true) + 1 := by
    rw [releases_append, releases_append, releases_startEvents, releases_writeFrame]
    omega
  have hclock : s.sclAnswers =
      List.replicate (releases (startEvents ++ es ++ writeFrame v true)) true ++ (stopAnswers p.tmo false ++ r) := by
    rw [hc, hcount, List.replicate_succ', List.append_assoc]
    rfl
  have hdata : s.sdaAnswers = List.replicate n false ++ [true] ++ q := by rw [hd, List.append_assoc]; rfl
  have hraised := hrun [] (stopAnswers p.tmo false ++ r) q
  rw [accept_on hclock hdata, List.append_nil] at hraised
  have hend := endTransaction_raised (tmo := p.tmo) false herr htmo
    (startEvents ++ es ++ writeFrame v true).reverse r q f
  rw [← hraised, ← List.reverse_append] at hend
  obtain ⟨hst, hword, htrace, hscl, hsda, hfsm, hbusy, hr⟩ :=
    answeredWith_of_closed false f.status .aborted u (startEvents ++ es ++ writeFrame v true ++ stopEvents) r q
  rw [hend] at hexec
  rw [stores_append, stores_append, stores_startEvents, hstores, stores_writeFrame] at hbuf
  exact ⟨_, hexec, hst, hword, htrace, hbuf, hack, hscl, hsda, hfsm, hbusy, hr, rfl⟩

theorem stores_memRead (i : Nat) (v : Byte) : stores [.memRead i v] = [] := rfl

theorem releases_memRead (i : Nat) (v : Byte) : releases [.memRead i v] = 0 := rfl

/-- Settles O43: each phase plays its frames up to the byte that is refused, and one STOP follows. -/
theorem unacknowledgedByteEndsTheTransfer : Obligations.UnacknowledgedByteEndsTheTransfer := by
  intro p s v k r q i address na index ends hi hb hr hc
  refine ⟨fun hv hscl hsda => ?_, fun hv hscl hsda => ?_, fun hi hk hv hscl hsda => ?_, fun hi hv hscl hsda => ?_⟩
  · obtain ⟨op, attempt, hexec, hraise⟩ := exec_transfer hi hb hr hc
    obtain ⟨hk, -⟩ := List.getElem?_eq_some_iff.mp hv
    have h : Refused attempt (accept op p s) (startEvents ++ ackedFrames (address.take k) ++ writeFrame v true) _ _ :=
      (selectRegister_address_refused (s := accept op p s) hv).of_raises hraise
    refine h.transfer hexec (stores_ackedFrames _) ?_ hscl hsda
    rw [releases_ackedFrames, List.length_take_of_le hk.le]
    omega
  · obtain ⟨op, attempt, hexec, hraise⟩ := exec_transfer hi hb hr hc
    obtain ⟨hk, -⟩ := List.getElem?_eq_some_iff.mp hv
    have h : Refused attempt (accept op p s)
        (startEvents ++ (ackedFrames address ++ ackedFrames (index.take k)) ++ writeFrame v true) _ _ :=
      (selectRegister_index_refused (s := accept op p s) hv).of_raises hraise
    refine h.transfer hexec ?_ ?_ hscl hsda
    · rw [stores_append, stores_ackedFrames, stores_ackedFrames, List.append_nil]
    · rw [releases_append, releases_ackedFrames, releases_ackedFrames, List.length_take_of_le hk.le]
      omega
  · subst hi hv
    have h : Refused wrregAttempt (accept opWrreg p s) (startEvents ++ (ackedFrames address ++ ackedFrames index ++
        dataEvents s.buf 0 k ++ [.memRead k (s.buf.get k)]) ++ writeFrame (s.buf.get k) true) _ _ :=
      wrregAttempt_data_refused hk
    refine h.transfer (exec_wrreg_legal hb hr hc) ?_ ?_ hscl hsda
    · simp only [stores_append, stores_ackedFrames, stores_dataEvents, stores_memRead, List.append_nil]
    · simp only [releases_append, releases_ackedFrames, releases_dataEvents, releases_memRead, index,
        indexBytes_length]
      omega
  · subst hi
    have h : Refused rdregAttempt (accept opRdreg p s)
        (startEvents ++ (ackedFrames address ++ ackedFrames index ++ startEvents) ++ writeFrame v true) _ _ :=
      ((addressedForRead_refused (s := accept opRdreg p s) hv).andThen _).of_eq fun _ _ _ => rdregAttempt_eq _
    have hstores : stores (ackedFrames address ++ ackedFrames index ++ startEvents) = [] := by
      simp only [stores_append, stores_ackedFrames, stores_startEvents, List.append_nil]
    have hreleases : releases (ackedFrames address ++ ackedFrames index ++ startEvents) + 11 =
        9 * (na + p.riw.toNat + 1) + 3 := by
      simp only [releases_append, releases_ackedFrames, releases_startEvents, index, indexBytes_length]
      omega
    obtain ⟨t, ht, hst, hword, htrace, hbuf, hack, hsclOut, hsdaOut, hfsm, hbusy, -⟩ :=
      h.transfer (exec_rdreg_legal hb hr hc) hstores hreleases hscl hsda
    have hassoc (as bs cs ds es : List Event) : as ++ (bs ++ cs ++ ds) ++ es = as ++ bs ++ cs ++ ds ++ es := by simp
    rw [hassoc] at htrace
    exact ⟨t, ht, hst, hword, htrace, hbuf, hack, hsclOut, hsdaOut, hfsm, hbusy⟩

end Sys2Proof.Machine

/-! # PROBE (O49) -/

namespace Sys2Proof.Machine

/-! ### The events of a run -/

/-- The steps of the sequencer add events in front of those made already. -/
theorem Ticks.trace_extends {w v : State} (h : Ticks w v) : w.trace <:+ v.trace := by
  induction h with
  | refl => exact List.suffix_refl _
  | tail _ htick ih =>
    obtain ⟨t, k, u, -, hrun, rfl⟩ := htick
    obtain ⟨e, htrace, -⟩ := runTask_makesEvent hrun
    exact ih.trans ⟨e.toList, htrace.symm⟩

theorem probe_trace_extends (s : State) : s.trace <:+ (probe s).2.trace := by
  obtain ⟨y, -, h⟩ := probe_performs s .none []
  have htrace := Ticks.trace_extends h
  exact htrace

/-- The samples among the events of a run that stores and finds nothing. -/
theorem sampled.mem {ds : List Bit} {s t : State} (h : sampled ds s t) {es : List Event} (ht : t.trace = es ++ s.trace)
    (b : Bit) : .readSda b ∈ es ↔ b ∈ ds := by
  have hes : es.filter notable = (ds.map Event.readSda).reverse := by
    unfold sampled notes at h
    rw [ht, List.filter_append] at h
    exact List.append_cancel_right h
  have hmem : .readSda b ∈ es ↔ .readSda b ∈ es.filter notable := by simp [List.mem_filter, notable]
  rw [hmem, hes]
  simp

/-! ### What the acknowledge slot tells -/

/-- WRITE_BYTE returns what its slot said, and samples nothing where it raises (42_byte_and_framing.md R150). -/
theorem writeByte_sampled (v : Byte) (s : State) :
    (∃ d t, writeByte v s = .ok (!d) t ∧ sampled [d] s t ∧ t.ackf = !d) ∨
      ∃ t, writeByte v s = .raised .timeout t ∧ sampled [] s t := by
  have hbits := notes_sendBits 8 (loadShift v s)
  rcases sendBits_cases 8 (loadShift v s) (by omega) rfl with ⟨t, e, -⟩ | ⟨t, e, -⟩ <;> rw [e] at hbits
  · have hsent : sampled [] s t := hbits
    rcases readBit_sampled t with ⟨d, u, eu, hu⟩ | ⟨u, eu, hu⟩
    · refine .inl ⟨d, setAckf (!d) u, ?_, hsent.trans hu, rfl⟩
      simp only [writeByte, e, Run.andThen, readAck, eu]
      rfl
    · exact .inr ⟨u, by simp only [writeByte, e, Run.andThen, readAck, eu], hsent.trans hu⟩
  · exact .inr ⟨t, by rw [writeByte, e]; rfl, hbits⟩

/-- A checked frame by its slot: low, high, or never sampled (R153). -/
theorem sendFrame_sampled (f : Failure) (v : Byte) (s : State) :
    (∃ t, sendFrame f v s = .ok () t ∧ sampled [false] s t ∧ t.ackf = true) ∨
      (∃ t, sendFrame f v s = .raised f t ∧ sampled [true] s t) ∨
      ∃ t, sendFrame f v s = .raised .timeout t ∧ sampled [] s t := by
  rcases writeByte_sampled v s with ⟨d, t, e, hs, ha⟩ | ⟨t, e, hs⟩
  · cases d with
    | false => exact .inl ⟨t, by rw [sendFrame, e]; rfl, hs, ha⟩
    | true => exact .inr (.inl ⟨t, by rw [sendFrame, e]; rfl, hs⟩)
  · exact .inr (.inr ⟨t, by rw [sendFrame, e]; rfl, hs⟩)

/-- The same for the address phase of a probe (43_transactions.md R184). -/
theorem probeAddressPhase_sampled (s : State) :
    (∃ t, probeAddressPhase s = .ok () t ∧ sampled [false] s t ∧ t.ackf = true) ∨
      (∃ t, probeAddressPhase s = .raised .noResponse t ∧ sampled [true] s t) ∨
      ∃ t, probeAddressPhase s = .raised .timeout t ∧ sampled [] s t := by
  have hstart := notes_start s
  rcases start_cases s with ⟨t, e, -⟩ | ⟨t, e, -⟩ <;> rw [e] at hstart
  · have hst : sampled [] s (enterFsm .started t) := hstart
    rcases sendFrame_sampled .noResponse (addr7Byte (probeAddress t.scanAddr) false) (enterFsm .started t)
      with ⟨u, eu, hu, ha⟩ | ⟨u, eu, hu⟩ | ⟨u, eu, hu⟩
    · exact .inl ⟨enterFsm .addressSent u, by simp only [probeAddressPhase, e, Run.andThen, eu], hst.trans hu, ha⟩
    · exact .inr (.inl ⟨u, by simp only [probeAddressPhase, e, Run.andThen, eu], hst.trans hu⟩)
    · exact .inr (.inr ⟨u, by simp only [probeAddressPhase, e, Run.andThen, eu], hst.trans hu⟩)
  · exact .inr (.inr ⟨t, by rw [probeAddressPhase, e]; rfl, hstart⟩)

/-- `PH2` and the failure latch stay. -/
def keepsPh2Err (s t : State) : Prop := t.ph2 = s.ph2 ∧ t.err = s.err

theorem keepsPh2Err.trans {s t u : State} (h : keepsPh2Err s t) (k : keepsPh2Err t u) : keepsPh2Err s u :=
  ⟨k.1.trans h.1, k.2.trans h.2⟩

theorem changesOnlyByte.keepsPh2Err {s t : State} (h : changesOnlyByte s t) : Machine.keepsPh2Err s t := by
  obtain ⟨-, hph, -, -, herr, -⟩ := h.fields
  exact ⟨hph, herr⟩

theorem probeAddressPhase_keeps (s : State) : keepsPh2Err s (probeAddressPhase s).state :=
  Run.andThen_keeps .trans (start_changes s).toByte.keepsPh2Err fun _ t =>
    Run.andThen_keeps .trans (sendFrame_changes _ _ (enterFsm .started t)).keepsPh2Err fun _ _ => ⟨rfl, rfl⟩

/-- The STOP of a transaction leaves `ACKF` and `PH2`. -/
theorem endTransaction_keeps (r : Run Unit) :
    (endTransaction r).ackf = r.state.ackf ∧ (endTransaction r).ph2 = r.state.ph2 := by
  cases r with
  | ok a s =>
    obtain ⟨-, -, hack, -⟩ := (stopBus_outcome s).1.fields
    obtain ⟨hph, -⟩ := (stopBus_outcome s).1.toByte.keepsPh2Err
    simp only [endTransaction, closeWith]
    split <;> exact ⟨hack, hph⟩
  | raised f s =>
    obtain ⟨-, -, hack, -⟩ := (abort_outcome f s).1.fields
    obtain ⟨hph, -⟩ := (abort_outcome f s).1.toByte.keepsPh2Err
    exact ⟨hack, hph⟩

/-- After a normal return the STOP may only add a Timeout of its own (60_exceptions.md R224). -/
theorem endTransaction_returned_err {s : State} (h : s.err = .ok) :
    (endTransaction (.ok () s)).err = .ok ∨ (endTransaction (.ok () s)).err = .timeout := by
  obtain ⟨-, herr⟩ := (stopBus_outcome s).1.toByte.keepsPh2Err
  simp only [endTransaction, closeWith]
  split
  · exact .inr (by simp [herr, h, firstFailure])
  · exact .inl (herr.trans h)

/-- After a raise the failure latched first is the raised one (R219). -/
theorem endTransaction_raised_err {s : State} (h : s.err = .ok) (f : Failure) :
    (endTransaction (.raised f s)).err = f.status := by
  obtain ⟨-, herr⟩ := (abort_outcome f s).1.toByte.keepsPh2Err
  exact herr.trans (by simp [enterAbort, firstFailure, h])

/-! ### PROBE -/

/-- The three ends of PROBE, by its slot: sampled low, sampled high, or never sampled (R184). -/
theorem probe_cases (s : State) :
    ((probe s).1 = true ∧ sampled [false] s (probe s).2 ∧ (probe s).2.ackf = true ∧
        ((probe s).2.err = .ok ∨ (probe s).2.err = .timeout)) ∨
      ((probe s).1 = false ∧ sampled [true] s (probe s).2 ∧ (probe s).2.err = .noResponse) ∨
      ((probe s).1 = false ∧ sampled [] s (probe s).2 ∧ (probe s).2.err = .timeout) := by
  obtain ⟨-, herr⟩ := probeAddressPhase_keeps (probeBegin s)
  have hnotes := notes_endTransaction (probeAddressPhase (probeBegin s))
  have hend := endTransaction_keeps (probeAddressPhase (probeBegin s))
  unfold probe
  rcases probeAddressPhase_sampled (probeBegin s) with ⟨t, e, hs, ha⟩ | ⟨t, e, hs⟩ | ⟨t, e, hs⟩ <;>
    rw [e] at herr hnotes hend ⊢
  · exact .inl ⟨rfl, hnotes.trans hs, hend.1.trans ha, endTransaction_returned_err herr⟩
  · exact .inr (.inl ⟨rfl, hnotes.trans hs, endTransaction_raised_err herr .noResponse⟩)
  · exact .inr (.inr ⟨rfl, hnotes.trans hs, endTransaction_raised_err herr .timeout⟩)

/-- What PROBE reports and latches, by the samples among its events es. -/
theorem probe_reports {s : State} {es : List Event} (hes : (probe s).2.trace = es ++ s.trace) :
    ((probe s).1 = true ↔ .readSda false ∈ es) ∧ ((probe s).2.err = .noResponse ↔ .readSda true ∈ es) ∧
      ((probe s).1 = true → (probe s).2.ackf = true ∧ ((probe s).2.err = .ok ∨ (probe s).2.err = .timeout)) ∧
      ((probe s).2.err = .ok ∨ (probe s).2.err = .timeout ∨ (probe s).2.err = .noResponse) := by
  rcases probe_cases s with ⟨hf, hs, hack, herr⟩ | ⟨hf, hs, herr⟩ | ⟨hf, hs, herr⟩ <;>
    rw [hs.mem hes, hs.mem hes, hf]
  · refine ⟨by simp, ?_, fun _ => ⟨hack, herr⟩, herr.imp_right .inl⟩
    rcases herr with herr | herr <;> simp [herr]
  · simp [herr]
  · simp [herr]

theorem probe_ph2 (s : State) : (probe s).2.ph2 = false := by
  obtain ⟨-, hend⟩ := endTransaction_keeps (probeAddressPhase (probeBegin s))
  obtain ⟨hphase, -⟩ := probeAddressPhase_keeps (probeBegin s)
  exact hend.trans hphase

/-- The address byte of a probe of the address in `SCAN_ADDR`. -/
abbrev probeByte (s : State) : Byte := addr7Byte (probeAddress s.scanAddr) false

/-- What PROBE does between its START and its STOP. -/
def probeFrame (s : State) : Run Unit :=
  (sendFrame .noResponse (probeByte s) (enterFsm .started s)).andThen fun _ u => .ok () (enterFsm .addressSent u)

theorem probeAddressPhase_plays (s : State) : Plays probeAddressPhase s (startEvents ++ writeFrame (probeByte s) false)
    [false] () { byteSent false s with fsm := .addressSent } := by
  have hframe := (sendFrame_plays .noResponse (probeByte s) (enterFsm .started (driven false s))).silently
    (driven false s) (enterFsm .started)
  have hrest : Plays probeFrame (driven false s) _ _ () _ :=
    (hframe.lastly (b := ()) (enterFsm .addressSent)).of_eq fun _ _ _ => rfl
  exact (start_plays s).seq hrest

theorem probeAddressPhase_refused (s : State) :
    Refused probeAddressPhase s (startEvents ++ writeFrame (probeByte s) true) [true] .noResponse := by
  have hframe := (sendFrame_isRefused .noResponse (probeByte s) (enterFsm .started (driven false s))).silently
    (driven false s) (enterFsm .started)
  have hrest : Refused probeFrame (driven false s) _ _ _ :=
    (hframe.andThen fun _ u => .ok () (enterFsm .addressSent u)).of_eq fun _ _ _ => rfl
  exact Refused.seq (start_plays s) hrest

/-- PROBE without stretching, its slot sampled d (R184, 30_encoding.md R96). -/
theorem probe_unstretched (d : Bit) (s : State) (tr : List Event) (c q : List Bit) : ∃ u : State,
    probe (s.on tr (List.replicate 11 true ++ c) (d :: q)) =
      (!d, u.on ((startEvents ++ writeFrame (probeByte s) d ++ stopEvents).reverse ++ tr) c q) ∧
      u.ackf = !d ∧ u.err = if d then .noResponse else .ok := by
  let es := startEvents ++ writeFrame (probeByte s) d
  have hprobe {r : Run Unit}
      (hr : probeAddressPhase (probeBegin (s.on tr (List.replicate 11 true ++ c) (d :: q))) = r) :
      probe (s.on tr (List.replicate 11 true ++ c) (d :: q)) = (r.isOk, enterFsm .idle (endTransaction r)) := by
    rw [probe, hr]
  cases d with
  | false =>
    have hplays := probeAddressPhase_plays (probeBegin s)
    obtain ⟨-, herr, htmo⟩ := hplays.moves
    have hend := endTransaction_returned (tmo := s.tmo) false herr htmo (es.reverse ++ tr) c q
    let sent : State := { byteSent false (probeBegin s) with fsm := .addressSent }
    refine ⟨enterFsm .idle (closed false .ok .stopped sent),
      (hprobe (hplays.completes tr (true :: c) q)).trans ?_, rfl, rfl⟩
    rw [List.reverse_append, List.append_assoc]
    exact Prod.ext rfl (congrArg (enterFsm .idle) hend)
  | true =>
    obtain ⟨u, ⟨-, herr, htmo⟩, hack, hrun⟩ := probeAddressPhase_refused (probeBegin s)
    have hend := endTransaction_raised (tmo := s.tmo) false herr htmo (es.reverse ++ tr) c q .noResponse
    refine ⟨enterFsm .idle (closed false .noResponse .aborted u), (hprobe (hrun tr (true :: c) q)).trans ?_, hack, rfl⟩
    rw [List.reverse_append, List.append_assoc]
    exact Prod.ext rfl (congrArg (enterFsm .idle) hend)

/-- Settles O49: the slot tells what PROBE reports, and without stretching it plays its frame. -/
theorem probeReportsTheAcknowledge : Obligations.ProbeReportsTheAcknowledge := by
  refine ⟨fun s => ?_, fun s d r q hc hd => ?_⟩
  · obtain ⟨es, hes⟩ := probe_trace_extends s
    obtain ⟨hscl, hsda, hfsm⟩ := probe_latches s
    have hframe : changesOnlyPhase s { (probe s).2 with ret := .bit (probe s).1 } := (probe_changes s).trans rfl
    obtain ⟨hfound, hnone, hack, herr⟩ := probe_reports hes.symm
    exact ⟨_, _, es, rfl, rfl, hes.symm, hfound, hnone, hack, hscl, hsda, hfsm, probe_ph2 s, herr, hframe, probe_byteCnt s⟩
  · obtain ⟨u, hrun, hack, herr⟩ := probe_unstretched d s s.trace r q
    rw [State.on_self hc hd] at hrun
    have hexec : exec .probe s = .next { (probe s).2 with ret := .bit (probe s).1 } := rfl
    rw [hrun] at hexec
    exact ⟨_, hexec, rfl, hack, herr, rfl⟩

end Sys2Proof.Machine

/-! # START, STOP and the cells: events and results (O21, O22, O23, O24, O26) -/

namespace Sys2Proof.Machine

/-! ### The polls of a guard -/

theorem lowPolls_append_low (n : Nat) (es : List Event) :
    lowPolls n ++ .readScl false :: es = lowPolls (n + 1) ++ es := by
  simp [lowPolls, List.replicate_succ']

/-- In every environment the poll loop makes some low polls and a high one, or low polls only for its whole budget
(41_clock_stretch_guard.md R142). -/
theorem pollLoop_polls (k : Nat) (s : State) :
    (∃ n ≤ k, (pollLoop k s).1 = false ∧ (pollLoop k s).2.trace = .readScl true :: (lowPolls n ++ s.trace)) ∨
      (pollLoop k s).1 = true ∧ (pollLoop k s).2.trace = lowPolls (k + 1) ++ s.trace := by
  induction k generalizing s with
  | zero =>
    cases h : sclSample s with
    | true => exact .inl ⟨0, Nat.le_refl 0, by simp [pollLoop, h, readScl, lowPolls]⟩
    | false => exact .inr (by simp [pollLoop, h, readScl, lowPolls])
  | succ k ih =>
    cases h : sclSample s with
    | true => exact .inl ⟨0, Nat.zero_le _, by simp [pollLoop, h, readScl, lowPolls]⟩
    | false =>
      have hloop : pollLoop (k + 1) s = pollLoop k (countPoll (readScl s)) := by simp [pollLoop, h]
      have htrace : (countPoll (readScl s)).trace = .readScl false :: s.trace := by simp [countPoll, readScl, h]
      rw [hloop]
      rcases ih (countPoll (readScl s)) with ⟨n, hn, he, ht⟩ | ⟨he, ht⟩ <;> rw [htrace, lowPolls_append_low] at ht
      · exact .inl ⟨n + 1, Nat.succ_le_succ hn, he, ht⟩
      · exact .inr ⟨he, ht⟩

/-- The polls of a guarded release, in every environment. -/
theorem guardedRelease_polls (s : State) :
    (∃ n ≤ s.tmo.toNat, (guardedRelease s).1 = false ∧
        (guardedRelease s).2.trace = .readScl true :: (lowPolls n ++ .scl true :: s.trace)) ∨
      (guardedRelease s).1 = true ∧
        (guardedRelease s).2.trace = lowPolls (s.tmo.toNat + 1) ++ .scl true :: s.trace :=
  pollLoop_polls s.tmo.toNat (release s)

/-- A guarded release on n low polls within the budget and a high one. -/
theorem guardedRelease_polled {s : State} {n : Nat} {r : List Bit} (hn : n ≤ s.tmo.toNat)
    (ha : s.sclAnswers = List.replicate n false ++ true :: r) :
    guardedRelease s = (false, { s with
      sclOut := true, stretchCnt := s.tmo - BitVec.ofNat 32 n, sclAnswers := r
      trace := .readScl true :: (lowPolls n ++ .scl true :: s.trace) }) :=
  pollLoop_high s.tmo.toNat n (release s) r rfl ha hn

/-! ### START, the cells and READ_ACK -/

/-- An operation that stands alone, without stretching. -/
theorem Plays.exec_unstretched {α : Type} {op : State → Run α} {s t : State} {es : List Event} {ds : List Bit} {a : α}
    (h : Plays op s es ds a t) {i : Instr} {value : α → OpResult} (hexec : exec i s = .next ((op s).finish value))
    {r q : List Bit} (hc : s.sclAnswers = List.replicate (releases es) true ++ r) (hd : s.sdaAnswers = ds ++ q) :
    exec i s = .next { t.on (es.reverse ++ s.trace) r q with ret := value a } := by
  have hrun := h.completes s.trace r q
  rw [State.on_self hc hd] at hrun
  rw [hexec, hrun]
  rfl

/-- Settles O21: START plays its events. -/
theorem startMakesTheStartCondition : Obligations.StartMakesTheStartCondition := fun s _ hc =>
  (start_plays s).exec_unstretched (i := .start) (value := fun _ => .done) rfl hc rfl

/-- Settles O23: WRITE_BIT plays its cell, and WRITE_ACK is the WRITE_BIT of its bit. -/
theorem writeBitDrivesTheLineForOneCell : Obligations.WriteBitDrivesTheLineForOneCell := by
  refine ⟨fun s b r hc => ?_, fun s => ⟨rfl, rfl⟩⟩
  exact (writeBit_plays b s).exec_unstretched (i := .writeBit b) (value := fun _ => .done) rfl hc rfl

/-- Settles O24: READ_BIT and READ_ACK play the cell of the one sample. -/
theorem readBitSamplesOnce : Obligations.ReadBitSamplesOnce := by
  intro s d r q hc hd
  exact ⟨(readBit_plays d s).exec_unstretched (i := .readBit) (value := .bit) rfl hc hd,
    (readAck_plays d s).exec_unstretched (i := .readAck) (value := .bit) rfl hc hd⟩

/-- Settles O26: the guard of the slot expires before the sample. -/
theorem stretchedSlotReportsTimeout : Obligations.StretchedSlotReportsTimeout := by
  intro s r hc
  have hguard := guardReleaseScl_low (s := delay (setSda true s)) (r := r) hc
  have hexec : exec .readAck s = .next ((readAck s).finish .bit) := rfl
  rw [hexec, readAck, readBit, hguard, List.append_assoc]
  rfl

/-! ### STOP -/

/-- STOP up to its guarded release. -/
def stopOpened (s : State) : State := delay (setSda false (setScl false s))

theorem exec_stop {s t : State} {e : Bool} (h : guardedRelease (stopOpened s) = (e, t)) :
    exec .stop s = .next { delay (setSda true (delay t)) with ret := .bit e } := by
  have hstop : stopBus s = (e, delay (setSda true (delay t))) := by rw [stopBus, ← stopOpened, h]
  have hexec : exec .stop s = .next { (stopBus s).2 with ret := .bit (stopBus s).1 } := rfl
  rw [hexec, hstop]

theorem stopBus_trace (s : State) :
    (stopBus s).2.trace = .delay :: .sda true :: .delay :: (guardedRelease (stopOpened s)).2.trace := rfl

/-- Settles O22: what the guard of the STOP does, by its polls. -/
theorem stopAlwaysReleasesBothLines : Obligations.StopAlwaysReleasesBothLines := by
  refine ⟨fun s n r hn hc => ?_, fun s r hc => ?_, fun s => ?_⟩
  · rw [exec_stop (guardedRelease_polled (s := stopOpened s) hn hc)]
    simp [stopOpened, setScl, setSda, delay]
  · rw [exec_stop (guardedRelease_low (s := stopOpened s) hc)]
    simp [stopOpened, setScl, setSda, delay]
  · obtain ⟨hframe, hscl, hsda⟩ := stopBus_outcome s
    have htrace := stopBus_trace s
    rcases guardedRelease_polls (stopOpened s) with ⟨n, hn, he, ht⟩ | ⟨he, ht⟩ <;> rw [ht] at htrace
    · exact ⟨_, n, rfl, hscl, hsda, hframe.ret _, hn,
        .inl ⟨congrArg OpResult.bit he, htrace.trans (by simp [stopOpened])⟩⟩
    · exact ⟨_, 0, rfl, hscl, hsda, hframe.ret _, Nat.zero_le _,
        .inr ⟨congrArg OpResult.bit he, htrace.trans (by simp [stopOpened])⟩⟩

end Sys2Proof.Machine

/-! # Start and stop conditions on the wire (O48) -/

namespace Sys2Proof.Machine

/-! ### The conditions one event makes -/

/-- The events so far, taken from released latches, account for the pin latches. -/
def tracked (s : State) : Prop := latchesAfter true true s.trace = (s.sclOut, s.sdaOut)

/-- From s to t the block's latches make a start conditions and b stop conditions (40_bus_signalling.md R127). -/
def makesEdges (a b : Nat) (s t : State) : Prop :=
  tracked s → tracked t ∧ startEdges true true t.trace = startEdges true true s.trace + a ∧
    stopEdges true true t.trace = stopEdges true true s.trace + b

theorem makesEdges.refl (s : State) : makesEdges 0 0 s s := fun h => ⟨h, rfl, rfl⟩

theorem makesEdges.trans {a b a' b' : Nat} {s t u : State} (h : makesEdges a b s t) (k : makesEdges a' b' t u) :
    makesEdges (a + a') (b + b') s u := by
  intro hs
  obtain ⟨ht, hstart, hstop⟩ := h hs
  obtain ⟨hu, kstart, kstop⟩ := k ht
  exact ⟨hu, by omega, by omega⟩

theorem setScl_edges (b : Bit) (s : State) : makesEdges 0 0 s (setScl b s) :=
  fun h => ⟨congrArg (fun l : Bit × Bit => (b, l.2)) h, rfl, rfl⟩

/-- A write of the data latch makes a condition where it changes the latch while the clock latch is 1. -/
theorem setSda_edges (b : Bit) (s : State) :
    makesEdges (if s.sclOut && s.sdaOut && !b then 1 else 0) (if s.sclOut && !s.sdaOut && b then 1 else 0) s
      (setSda b s) := by
  intro h
  have hlatches : latchesAfter true true s.trace = (s.sclOut, s.sdaOut) := h
  refine ⟨congrArg (fun l : Bit × Bit => (l.1, b)) h, ?_, ?_⟩ <;> cases b <;>
    simp [startEdges, stopEdges, hlatches, Nat.add_comm]

/-- It makes none while the clock latch is 0, or where the latch has the value already. -/
theorem setSda_no_edge {b : Bit} {s : State} (h : s.sclOut = false ∨ s.sdaOut = b) :
    makesEdges 0 0 s (setSda b s) := by
  have hedges := setSda_edges b s
  rcases h with h | h
  · simpa [h] using hedges
  · cases b <;> simpa [h] using hedges

theorem setSda_falls {s : State} (hc : s.sclOut = true) (hd : s.sdaOut = true) :
    makesEdges 1 0 s (setSda false s) := by
  simpa [hc, hd] using setSda_edges false s

theorem setSda_rises {s : State} (hc : s.sclOut = true) (hd : s.sdaOut = false) :
    makesEdges 0 1 s (setSda true s) := by
  simpa [hc, hd] using setSda_edges true s

/-! ### The guard and STOP -/

theorem pollLoop_edges (n : Nat) (s : State) : makesEdges 0 0 s (pollLoop n s).2 := by
  induction n generalizing s with
  | zero => exact .refl s
  | succ n ih =>
    unfold pollLoop
    split
    · exact .refl s
    · exact ih (countPoll (readScl s))

theorem guardedRelease_edges (s : State) : makesEdges 0 0 s (guardedRelease s).2 :=
  (setScl_edges true s).trans (pollLoop_edges _ (release s))

theorem guardReleaseScl_edges (s : State) : makesEdges 0 0 s (guardReleaseScl s).state := by
  unfold guardReleaseScl
  split <;> exact guardedRelease_edges s

/-- STOP makes the one stop condition from any latches: it sets the data latch while the clock latch is 0 (R122). -/
theorem stopBus_edges (s : State) : makesEdges 0 1 s (stopBus s).2 := by
  have hopened : makesEdges 0 0 s (stopOpened s) :=
    (setScl_edges false s).trans (setSda_no_edge (s := setScl false s) (b := false) (.inl rfl))
  have hguard := guardedRelease_edges (stopOpened s)
  obtain ⟨-, hscl, hsda, -⟩ := guardedRelease_outcome (stopOpened s)
  exact (hopened.trans hguard).trans (setSda_rises (s := delay (guardedRelease (stopOpened s)).2) hscl hsda)

/-! ### Operations that make no stop condition -/

/-- A run begun in s makes at most n start conditions and no stop condition, and returns with the clock latch 0. -/
def signals {α : Type} (n : Nat) (s : State) (r : Run α) : Prop :=
  (∃ m ≤ n, makesEdges m 0 s r.state) ∧ (r.isOk = true → r.state.sclOut = false)

namespace signals

variable {α β : Type} {k m n : Nat} {s : State}

theorem ok {t : State} {a : α} (h : makesEdges 0 0 s t) (hl : t.sclOut = false) : signals 0 s (.ok a t) :=
  ⟨⟨0, Nat.le_refl 0, h⟩, fun _ => hl⟩

theorem andThen {r : Run α} {f : α → State → Run β} (h : signals m s r)
    (hf : ∀ a t, t.sclOut = false → signals n t (f a t)) (hk : m + n = k := by rfl) : signals k s (r.andThen f) := by
  subst hk
  obtain ⟨⟨i, hi, he⟩, hlow⟩ := h
  cases r with
  | ok a t =>
    obtain ⟨⟨j, hj, ke⟩, klow⟩ := hf a t (hlow rfl)
    exact ⟨⟨i + j, Nat.add_le_add hi hj, he.trans ke⟩, klow⟩
  | raised g t => exact ⟨⟨i, Nat.le_add_right_of_le hi, he⟩, nofun⟩

end signals

/-- Setting the data line and releasing the clock, then what pulls the clock low again: the shape of START and of a
cell. -/
theorem cell_signals {α : Type} {n : Nat} {b : Bit} {s : State} {f : Unit → State → Run α}
    (h : s.sclOut = false ∨ s.sdaOut = b)
    (hf : ∀ t, t.sclOut = true → t.sdaOut = b → makesEdges n 0 t (f () t).state ∧ (f () t).state.sclOut = false) :
    signals n s ((guardReleaseScl (delay (setSda b s))).andThen f) := by
  have hset : makesEdges 0 0 s (delay (setSda b s)) := setSda_no_edge h
  have hrel := hset.trans (guardReleaseScl_edges (delay (setSda b s)))
  rcases guardReleaseScl_cases (delay (setSda b s)) with ⟨t, e, -, hc, hd⟩ | ⟨t, e, -⟩ <;> rw [e] at hrel ⊢
  · obtain ⟨hedges, hlow⟩ := hf t hc hd
    have hall := hrel.trans hedges
    rw [Nat.zero_add] at hall
    exact ⟨⟨n, Nat.le_refl n, hall⟩, fun _ => hlow⟩
  · exact ⟨⟨0, Nat.zero_le n, hrel⟩, nofun⟩

/-- START makes its condition where its guard does not expire (R121). -/
theorem start_signals {s : State} (h : s.sclOut = false ∨ s.sdaOut = true) : signals 1 s (start s) := by
  have hfall {t : State} (hc : t.sclOut = true) (hd : t.sdaOut = true) :
      makesEdges 1 0 t (setScl false (delay (setSda false (delay t)))) :=
    (setSda_falls (s := delay t) hc hd).trans (setScl_edges false (delay (setSda false (delay t))))
  exact cell_signals h fun t hc hd => ⟨hfall hc hd, rfl⟩

section
variable {s : State} (hl : s.sclOut = false)
include hl

theorem writeBit_signals (b : Bit) : signals 0 s (writeBit b s) :=
  cell_signals (.inl hl) fun t _ _ => ⟨setScl_edges false (delay t), rfl⟩

theorem readBit_signals : signals 0 s (readBit s) :=
  cell_signals (.inl hl) fun t _ _ => ⟨setScl_edges false (readSda (delay t)), rfl⟩

theorem readAck_signals : signals 0 s (readAck s) :=
  (readBit_signals hl).andThen fun _ t ht => .ok (.refl t) ht

end

/-! ### Bytes -/

theorem sendBits_signals (n : Nat) {s : State} (hl : s.sclOut = false) : signals 0 s (sendBits n s) := by
  induction n generalizing s with
  | zero => exact .ok (.refl s) hl
  | succ n ih => exact (writeBit_signals hl _).andThen fun _ t ht => ih (s := shiftBit false t) ht

theorem receiveBits_signals (n : Nat) {s : State} (hl : s.sclOut = false) : signals 0 s (receiveBits n s) := by
  induction n generalizing s with
  | zero => exact .ok (.refl s) hl
  | succ n ih => exact (readBit_signals hl).andThen fun d t ht => ih (s := shiftBit d t) ht

theorem writeByte_signals (v : Byte) {s : State} (hl : s.sclOut = false) : signals 0 s (writeByte v s) :=
  (sendBits_signals 8 (s := loadShift v s) hl).andThen fun _ _ ht => readAck_signals ht

theorem readByte_signals (k : Ack) (i : BitVec 12) {s : State} (hl : s.sclOut = false) :
    signals 0 s (readByte k i s) :=
  (receiveBits_signals 8 (s := loadShift 0 s) hl).andThen fun _ t ht =>
    (writeBit_signals (s := memWrite i.toNat t.shreg t) ht (ackBit k)).andThen fun _ u hu => .ok (.refl u) hu

theorem sendFrame_signals (f : Failure) (v : Byte) {s : State} (hl : s.sclOut = false) :
    signals 0 s (sendFrame f v s) :=
  (writeByte_signals v hl).andThen fun a t ht => by
    cases a with
    | true => exact .ok (.refl t) ht
    | false => exact ⟨⟨0, Nat.le_refl 0, .refl t⟩, nofun⟩

/-! ### The framers and the phases of a transfer -/

theorem sendFrames_signals (f : Failure) (vs : List Byte) {s : State} (hl : s.sclOut = false) :
    signals 0 s (sendFrames f vs s) := by
  induction vs generalizing s with
  | nil => exact .ok (.refl s) hl
  | cons v vs ih => exact (sendFrame_signals f v hl).andThen fun _ _ ht => ih ht

theorem sendAddress_signals (rw : Bit) {s : State} (hl : s.sclOut = false) : signals 0 s (sendAddress rw s) :=
  (sendFrames_signals _ _ hl).andThen fun _ t ht => .ok (.refl t) ht

theorem sendIndexBytes_signals (n : Nat) {s : State} (hl : s.sclOut = false) : signals 0 s (sendIndexBytes n s) := by
  induction n generalizing s with
  | zero => exact .ok (.refl s) hl
  | succ n ih => exact (sendFrame_signals _ _ hl).andThen fun _ t ht => ih (s := incCount t) ht

theorem indexPhase_signals {s : State} (hl : s.sclOut = false) : signals 0 s (indexPhase s) := by
  unfold indexPhase
  split
  · exact .ok (.refl s) hl
  · exact (sendIndexBytes_signals _ (s := clearCount s) hl).andThen fun _ t ht => .ok (.refl t) ht

theorem selectRegister_signals {s : State} (hd : s.sdaOut = true) : signals 1 s (selectRegister s) :=
  (start_signals (.inr hd)).andThen fun _ t ht =>
    (sendAddress_signals false (s := enterFsm .started t) ht).andThen fun _ _ hu => indexPhase_signals hu

theorem sendData_signals (n : Nat) {s : State} (hl : s.sclOut = false) : signals 0 s (sendData n s) := by
  induction n generalizing s with
  | zero => exact .ok (.refl s) hl
  | succ n ih =>
    exact (sendFrame_signals _ _ (s := memRead s.byteCnt.toNat s) hl).andThen fun _ t ht => ih (s := incCount t) ht

theorem receiveData_signals (n : Nat) {s : State} (hl : s.sclOut = false) : signals 0 s (receiveData n s) := by
  induction n generalizing s with
  | zero => exact .ok (.refl s) hl
  | succ n ih => exact (readByte_signals _ _ hl).andThen fun _ t ht => ih (s := incCount t) ht

/-- WRREG starts once up to its STOP. -/
theorem wrregAttempt_signals {s : State} (hd : s.sdaOut = true) : signals 1 s (wrregAttempt s) :=
  (selectRegister_signals hd).andThen fun _ t ht => sendData_signals _ (s := beginData t) ht

/-- RDREG starts at most twice: the repeated START finds the clock latch 0. -/
theorem rdregAttempt_signals {s : State} (hd : s.sdaOut = true) : signals 2 s (rdregAttempt s) :=
  (selectRegister_signals hd).andThen fun _ _ ht =>
    (start_signals (.inl ht)).andThen fun _ u hu =>
      (sendAddress_signals true (s := secondPhase u) hu).andThen fun _ v hv =>
        receiveData_signals _ (s := beginData v) hv

theorem probeAddressPhase_signals {s : State} (hd : s.sdaOut = true) : signals 1 s (probeAddressPhase s) :=
  (start_signals (.inr hd)).andThen fun _ t ht =>
    (sendFrame_signals _ _ (s := enterFsm .started t) ht).andThen fun _ u hu => .ok (.refl u) hu

/-! ### Whole commands -/

theorem closeWith_edges (b : Bool) (s : State) : makesEdges 0 0 s (closeWith b s) := by
  unfold closeWith
  split <;> exact .refl s

/-- However an attempt ends, its transaction makes one stop condition (43_transactions.md R186). -/
theorem endTransaction_edges {n : Nat} {s : State} {r : Run Unit} (h : signals n s r) :
    ∃ m ≤ n, makesEdges m 1 s (endTransaction r) := by
  obtain ⟨⟨m, hm, he⟩, -⟩ := h
  refine ⟨m, hm, ?_⟩
  cases r with
  | ok a t => exact (he.trans (stopBus_edges t)).trans (closeWith_edges _ _)
  | raised f t => exact he.trans (stopBus_edges (enterAbort f t))

/-- INIT finds the data latch 1 and makes no condition (R172). -/
theorem initBody_edges {s : State} (hd : s.sdaOut = true) : makesEdges 0 0 s (initBody s) := by
  have hopened : makesEdges 0 0 s (settle (setScl true (setSda true s))) :=
    (setSda_no_edge (.inr hd)).trans (setScl_edges true (setSda true s))
  exact fun h => hopened.trans (guardedRelease_edges _) h

theorem respond_edges (s : State) : makesEdges 0 0 s (respond s) := by
  unfold respond
  split <;> exact .refl s

/-- The conditions in the whole record of a run from an empty one and released latches. -/
theorem makesEdges.counts {a b : Nat} {s t : State} (h : makesEdges a b s t) (hs : s.trace = [])
    (hc : s.sclOut = true) (hd : s.sdaOut = true) :
    startEdges true true t.trace = a ∧ stopEdges true true t.trace = b := by
  obtain ⟨-, hstart, hstop⟩ := h (by rw [tracked, hs, hc, hd]; rfl)
  rw [hs] at hstart hstop
  simpa [startEdges, stopEdges] using And.intro hstart hstop

/-- A legal command makes the conditions of its body. -/
theorem exec_legal_edges {i : Instr} {op : BitVec 4} {p : Packet} {a b : Nat} {s : State}
    (hi : exec i s = .next (runCommand op p (failedCheck s.maxLen i) (commandBody i) s)) (hb : s.busy = false)
    (hlegal : failedCheck s.maxLen i = none) (hc : s.sclOut = true) (hd : s.sdaOut = true)
    (h : makesEdges a b (accept op p s) (commandBody i (accept op p s))) :
    ∃ t, exec i s = .next t ∧ startEdges true true t.trace = a ∧ stopEdges true true t.trace = b := by
  refine ⟨_, ?_, (h.trans (respond_edges _)).counts rfl hc hd⟩
  rw [hi, hlegal, runCommand_legal hb]

/-- Settles O48: every data change of a transaction but its STARTs' and its STOP's falls while the clock latch is 0. -/
theorem everyTransactionMakesOneStop : Obligations.EveryTransactionMakesOneStop := by
  intro p s hc hd hb
  refine ⟨fun hlegal => ?_, fun hlegal => ?_, fun hlegal => ?_, fun htrace => ?_⟩
  · obtain ⟨m, hm, h⟩ := endTransaction_edges (wrregAttempt_signals (s := accept opWrreg p s) hd)
    obtain ⟨t, ht, hstart, hstop⟩ := exec_legal_edges (i := .wrreg p) rfl hb hlegal hc hd h
    exact ⟨t, ht, hstop, hstart ▸ hm⟩
  · obtain ⟨m, hm, h⟩ := endTransaction_edges (rdregAttempt_signals (s := accept opRdreg p s) hd)
    obtain ⟨t, ht, hstart, hstop⟩ := exec_legal_edges (i := .rdreg p) rfl hb hlegal hc hd h
    exact ⟨t, ht, hstop, hstart ▸ hm⟩
  · obtain ⟨t, ht, hstart, hstop⟩ := exec_legal_edges (i := .init p) rfl hb hlegal hc hd
      (initBody_edges (s := accept opInit p s) hd)
    exact ⟨t, ht, hstop, hstart⟩
  · obtain ⟨m, hm, h⟩ := endTransaction_edges (probeAddressPhase_signals (s := probeBegin s) hd)
    obtain ⟨hstart, hstop⟩ := h.counts htrace hc hd
    exact ⟨_, rfl, hstop, hstart.trans_le hm⟩

end Sys2Proof.Machine

/-! # The guard as an operation: its result and its count of polls (O18, O19, O20) -/

namespace Sys2Proof.Machine

/-- Every poll of the loop but the last counts the counter down by one, and is the loop's only event
(41_clock_stretch_guard.md R141). -/
theorem pollLoop_counts {k : Nat} {s : State} (hk : s.stretchCnt.toNat = k) :
    (pollLoop k s).2.stretchCnt.toNat + (pollLoop k s).2.trace.length = k + (s.trace.length + 1) := by
  induction k generalizing s with
  | zero => simp [pollLoop, hk]
  | succ k ih =>
    cases h : sclSample s with
    | true => simp [pollLoop, h, hk]
    | false =>
      have hloop : pollLoop (k + 1) s = pollLoop k (countPoll (readScl s)) := by simp [pollLoop, h]
      have hlength : (countPoll (readScl s)).trace.length = s.trace.length + 1 := rfl
      have hrest := ih (s := countPoll (readScl s)) (counter_down hk).2
      rw [hloop]
      omega

/-- After n low polls and one more, the counter of a guarded release is n below the budget. -/
theorem guardedRelease_counter {s : State} {n : Nat} {b : Bit}
    (ht : (guardedRelease s).2.trace = .readScl b :: (lowPolls n ++ .scl true :: s.trace)) :
    (guardedRelease s).2.stretchCnt.toNat = s.tmo.toNat - n := by
  have hcount : (guardedRelease s).2.stretchCnt.toNat + (guardedRelease s).2.trace.length =
      s.tmo.toNat + (s.trace.length + 1 + 1) := pollLoop_counts (s := release s) rfl
  have hlength : (guardedRelease s).2.trace.length = n + (s.trace.length + 1) + 1 := by simp [ht, lowPolls]
  omega

theorem exec_guardReleaseScl {s t : State} {e : Bool} (h : guardedRelease s = (e, t)) :
    exec .guardReleaseScl s = .next { t with ret := if e then .raised .timeout else .done } := by
  have hexec : exec .guardReleaseScl s = .next ((guardReleaseScl s).finish fun _ => .done) := rfl
  rw [hexec, guardReleaseScl, h]
  cases e <;> rfl

/-- Settles O18: the guarded release ends at the high poll, within its budget. -/
theorem guardReturnsAtTheFirstHighPoll : Obligations.GuardReturnsAtTheFirstHighPoll := fun _ _ _ hn ha =>
  exec_guardReleaseScl (guardedRelease_polled hn ha)

/-- Settles O19: the guarded release expires. -/
theorem guardTimesOutAfterTheBudget : Obligations.GuardTimesOutAfterTheBudget := fun _ _ ha =>
  exec_guardReleaseScl (guardedRelease_low ha)

/-- Settles O20: from the polls of the guarded release; the last of an expired one is the low poll after `TMO` others. -/
theorem guardMakesAtMostTheBudgetOfPolls : Obligations.GuardMakesAtMostTheBudgetOfPolls := by
  intro s
  obtain ⟨hframe, hscl, hsda, -⟩ := guardedRelease_outcome s
  rcases guardedRelease_polls s with ⟨n, hn, he, ht⟩ | ⟨he, ht⟩
  · exact ⟨_, n, exec_guardReleaseScl (Prod.ext he rfl), hn, guardedRelease_counter ht, hframe.ret _, hscl, hsda,
      .inl ⟨rfl, ht⟩⟩
  · have hlast : (guardedRelease s).2.trace = .readScl false :: (lowPolls s.tmo.toNat ++ .scl true :: s.trace) := ht
    exact ⟨_, _, exec_guardReleaseScl (Prod.ext he rfl), Nat.le_refl _, guardedRelease_counter hlast, hframe.ret _, hscl, hsda,
      .inr ⟨rfl, rfl, hlast⟩⟩

end Sys2Proof.Machine


/-! # Byte operations and framers in every environment (O29, O35) -/

namespace Sys2Proof.Machine

/-! ### The frame of a byte operation, with a field written beside it -/

/-- Handing over a result changes only the byte registers. -/
theorem changesOnlyByte.ret {s t : State} (h : changesOnlyByte s t) (x : OpResult) :
    changesOnlyByte s { t with ret := x } :=
  h.trans rfl

theorem changesOnlyByte.setBuf {s t : State} (h : changesOnlyByte s t) (m : Memory) :
    changesOnlyByte { s with buf := m } { t with buf := m } := by
  unfold changesOnlyByte at *
  rw [h]

theorem changesOnlyByte.setFsm {s t : State} (h : changesOnlyByte s t) (f : Fsm) :
    changesOnlyByte { s with fsm := f } { t with fsm := f } := by
  unfold changesOnlyByte at *
  rw [h]

/-! ### Byte operations -/

/-- From s to t a byte was received and stored at i; `ACKF` was left (42_byte_and_framing.md R152). -/
def storesByte (i : Nat) (s t : State) : Prop :=
  changesOnlyByte { s with buf := t.buf } t ∧ t.ackf = s.ackf ∧ t.bitCnt = 0 ∧ t.buf = s.buf.put i t.shreg

/-- A store of `SHREG` once its bits are in, and a bus operation after it. -/
theorem storesByte_of_memWrite {i : Nat} {s u t : State} (hu : changesOnlyByte s u) (hack : u.ackf = s.ackf)
    (hbit : u.bitCnt = 0) (ht : changesOnlyBus (memWrite i u.shreg u) t) : storesByte i s t := by
  obtain ⟨hshreg, hbit', hack', hbuf, -⟩ := ht.fields
  refine ⟨?_, hack'.trans hack, hbit'.trans hbit, ?_⟩
  · rw [hbuf]
    have hwrite : changesOnlyByte { u with buf := u.buf.put i u.shreg } (memWrite i u.shreg u) := rfl
    exact ((hu.setBuf _).trans hwrite).trans ht.toByte
  · rw [hbuf, hshreg, memWrite_buf, memWrite_shreg, hu.toPhase.buf]

/-- The ends of READ_BYTE (R152): the byte stored and answered; a Timeout in a data cell, with bits left and nothing
stored; a Timeout in the acknowledge cell, the byte stored. -/
theorem readByte_cases (k : Ack) (i : BitVec 12) (s : State) :
    (∃ t, readByte k i s = .ok t.shreg t ∧ storesByte i.toNat s t ∧ t.sclOut = false ∧ t.sdaOut = ackBit k) ∨
      (∃ t, readByte k i s = .raised .timeout t ∧ changesOnlyByte s t ∧ t.ackf = s.ackf ∧ t.bitCnt ≠ 0 ∧
        t.sclOut = true) ∨
      (∃ t, readByte k i s = .raised .timeout t ∧ storesByte i.toNat s t ∧ t.sclOut = true) := by
  have hload := loadShift_changes 0 s
  rcases receiveBits_cases 8 (loadShift 0 s) (by omega) rfl with ⟨u, e, hu, hack, hbit⟩ | ⟨t, e, ht, hack, hbit, hscl⟩
  · have hstored {t : State} (ht : changesOnlyBus (memWrite i.toNat u.shreg u) t) : storesByte i.toNat s t :=
      storesByte_of_memWrite (hload.trans hu) hack hbit ht
    rcases writeBit_cases (ackBit k) (memWrite i.toNat u.shreg u) with ⟨t, e', ht, hscl, hsda⟩ | ⟨t, e', ht, hscl, -⟩
    · exact .inl ⟨t, by rw [readByte, e, Run.andThen, writeAck, e']; rfl, hstored ht, hscl, hsda⟩
    · exact .inr (.inr ⟨t, by rw [readByte, e, Run.andThen, writeAck, e']; rfl, hstored ht, hscl⟩)
  · exact .inr (.inl ⟨t, by rw [readByte, e]; rfl, hload.trans ht, hack, hbit, hscl⟩)

theorem exec_readByte {s : State} {i : BitVec 12} (hi : i.toNat < s.maxLen.toNat) (k : Ack) :
    exec (.readByte k i) s = .next ((readByte k i s).finish .byte) := by
  have hbyte : hasByte s i = true := by simp [hasByte, BitVec.ult, hi]
  change execReadByte k i s = _
  rw [execReadByte, if_pos hbyte]

/-- In a canonical memory a stored byte is read back, and every other byte is as before. -/
theorem storesByte.reads {i : Nat} {s t : State} (h : storesByte i s t) (hwf : s.buf.wf) :
    (∀ a, a ≠ i → t.buf.get a = s.buf.get a) ∧ t.buf.get i = t.shreg := by
  obtain ⟨-, -, -, hbuf⟩ := h
  constructor
  · intro a ha
    rw [hbuf, Memory.get_put hwf, if_neg ha]
  · rw [hbuf, Memory.get_put hwf, if_pos rfl]

/-- Settles O29: from the ends of the two operations. -/
theorem byteOperationsFailOnlyByTimeout : Obligations.ByteOperationsFailOnlyByTimeout := by
  refine ⟨fun s v => ⟨_, rfl, ?_⟩, fun s k i hwf hi => ⟨_, exec_readByte hi k, ?_⟩⟩
  · rcases writeByte_cases v s with ⟨a, t, e, ht, rfl, hbit, hscl, hsda⟩ | ⟨t, e, ht, hack, hscl⟩ <;> rw [e]
    · exact ⟨ht.ret _, .inl ⟨rfl, hscl, hsda, hbit⟩⟩
    · exact ⟨ht.ret _, .inr ⟨rfl, hack, hscl⟩⟩
  · rcases readByte_cases k i s with ⟨t, e, h, hscl, hsda⟩ | ⟨t, e, ht, hack, hbit, hscl⟩ | ⟨t, e, h, hscl⟩ <;> rw [e]
    · obtain ⟨hother, hread⟩ := h.reads hwf
      obtain ⟨ht, hack, -, -⟩ := h
      exact ⟨ht.ret _, hack, hother, .inl ⟨rfl, hread, hscl, hsda⟩⟩
    · have hbuf : t.buf = s.buf := ht.toPhase.buf
      exact ⟨(ht.setBuf t.buf).ret _, hack, fun a _ => congrArg (·.get a) hbuf,
        .inr ⟨rfl, hscl, fun _ => hbuf, fun hz => absurd hz hbit⟩⟩
    · obtain ⟨hother, hread⟩ := h.reads hwf
      obtain ⟨ht, hack, hbit, -⟩ := h
      exact ⟨ht.ret _, hack, hother, .inr ⟨rfl, hscl, fun hne => absurd hbit hne, fun _ => hread⟩⟩

/-! ### The ends of a run -/

/-- A run that returns leaves a state with P; one that raises f leaves a state with Q f. -/
def Run.ends {α : Type} (P : State → Prop) (Q : Failure → State → Prop) : Run α → Prop
  | .ok _ s => P s
  | .raised f s => Q f s

theorem Run.ends.andThen {α β : Type} {P P' : State → Prop} {Q : Failure → State → Prop} {r : Run α}
    {k : α → State → Run β} (h : r.ends P Q) (hk : ∀ a t, r = .ok a t → P t → (k a t).ends P' Q) :
    (r.andThen k).ends P' Q := by
  cases r with
  | ok a t => exact hk a t rfl h
  | raised f t => exact h

/-! ### Checked frames -/

/-- What an acknowledged frame leaves. -/
def acknowledged (t : State) : Prop := t.ackf = true ∧ t.sclOut = false ∧ t.sdaOut = true

/-- What a frame leaves that raised g, where f is the failure of a NACK (42_byte_and_framing.md R153, R156). -/
def frameRaised (f g : Failure) (t : State) : Prop :=
  g = f ∧ t.ackf = false ∧ t.sclOut = false ∧ t.sdaOut = true ∨ g = .timeout ∧ t.sclOut = true

theorem sendFrame_frameEnds (f : Failure) (v : Byte) (s : State) :
    (sendFrame f v s).ends acknowledged (frameRaised f) := by
  rcases sendFrame_cases f v s with ⟨t, e, -, hok⟩ | ⟨t, e, -, hnack⟩ | ⟨t, e, -, -, hscl⟩ <;> rw [e]
  · exact hok
  · exact .inl ⟨rfl, hnack⟩
  · exact .inr ⟨rfl, hscl⟩

theorem sendFrames_frameEnds (f : Failure) (vs : List Byte) {s : State} (hs : acknowledged s) :
    (sendFrames f vs s).ends acknowledged (frameRaised f) := by
  induction vs generalizing s with
  | nil => exact hs
  | cons v vs ih => exact (sendFrame_frameEnds f v s).andThen fun _ t _ ht => ih ht

/-- An address phase has at least one byte, whose frame needs no acknowledge before it. -/
theorem addressFrames_frameEnds (f : Failure) (am : AddrMode) (addr : BitVec 10) (rw : Bit) (s : State) :
    (sendFrames f (addressBytes am addr rw) s).ends acknowledged (frameRaised f) := by
  obtain ⟨v, vs, hbytes⟩ : ∃ v vs, addressBytes am addr rw = v :: vs := by
    cases am <;> cases rw <;> exact ⟨_, _, rfl⟩
  rw [hbytes]
  exact (sendFrame_frameEnds f v s).andThen fun _ t _ ht => sendFrames_frameEnds f vs ht

/-- Only the byte registers and `BYTECNT`. -/
def changesOnlyCounted (s t : State) : Prop := changesOnlyByte { s with byteCnt := t.byteCnt } t

theorem changesOnlyCounted.trans {s t u : State} (h : changesOnlyCounted s t) (k : changesOnlyCounted t u) :
    changesOnlyCounted s u := by
  unfold changesOnlyCounted changesOnlyByte at *
  exact k.trans (by rw [h])

theorem changesOnlyByte.toCounted {s t : State} (h : changesOnlyByte s t) : changesOnlyCounted s t := by
  unfold changesOnlyCounted changesOnlyByte at *
  rw [h]

theorem sendIndexBytes_counted (n : Nat) (s : State) : changesOnlyCounted s (sendIndexBytes n s).state := by
  induction n generalizing s with
  | zero => exact changesOnlyByte.refl s
  | succ n ih =>
    exact Run.andThen_keeps .trans (sendFrame_changes _ _ s).toCounted fun _ t =>
      changesOnlyCounted.trans (t := incCount t) rfl (ih _)

/-- The loop of SEND_REGIDX counts its bytes where it returns (R156). -/
theorem sendIndexBytes_frameEnds (n : Nat) (s : State) : (sendIndexBytes n s).ends
    (fun t => t.byteCnt = s.byteCnt + BitVec.ofNat 12 n) (frameRaised .protocolError) := by
  induction n generalizing s with
  | zero => exact (BitVec.add_zero s.byteCnt).symm
  | succ n ih =>
    refine (sendFrame_frameEnds _ _ s).andThen fun _ t he _ => ?_
    have hcount : t.byteCnt = s.byteCnt := (Run.rel_of_ok (sendFrame_changes _ _ s) he).byteCnt
    have hrest := ih (incCount t)
    rwa [incCount_byteCnt, hcount, count_succ] at hrest

/-! ### The framers -/

/-- A framer standing alone: its frames r, then `FSM` is f. -/
def framerState (f : Fsm) (r : Run Unit) : State :=
  (r.andThen fun _ t => .ok () (enterFsm f t)).finish fun _ => .done

theorem exec_sendAddress (rw : Bit) (s : State) : exec (.sendAddress rw) s =
    .next (framerState .addressSent (sendFrames .noResponse (addressBytes s.am s.addr rw) s)) := rfl

theorem exec_sendRegidx (s : State) : exec .sendRegidx s =
    .next (framerState .registerIndexSent (sendIndexBytes s.riw.toNat (clearCount s))) := rfl

theorem framerState_byteCnt (f : Fsm) (r : Run Unit) : (framerState f r).byteCnt = r.state.byteCnt := by
  cases r <;> rfl

theorem framerState_frame {s : State} {r : Run Unit} (h : changesOnlyByte s r.state) (f : Fsm) :
    changesOnlyByte { s with fsm := (framerState f r).fsm } (framerState f r) := by
  cases r with
  | ok a t => exact (h.setFsm f).ret _
  | raised g t => exact (h.setFsm t.fsm).ret _

/-- A framer ends done with `FSM` moved, or raises as one of its frames did, with `FSM` left. -/
theorem framerState_ends {s : State} {r : Run Unit} {f : Fsm} {g : Failure} {P : State → Prop}
    (hr : r.ends P (frameRaised g)) (hfsm : r.state.fsm = s.fsm) :
    (∃ u, P u ∧ framerState f r = { u with fsm := f, ret := .done }) ∨
      (framerState f r).ret = .raised g ∧ (framerState f r).ackf = false ∧ (framerState f r).fsm = s.fsm ∧
        (framerState f r).sclOut = false ∧ (framerState f r).sdaOut = true ∨
      (framerState f r).ret = .raised .timeout ∧ (framerState f r).fsm = s.fsm ∧ (framerState f r).sclOut = true := by
  cases r with
  | ok a u => exact .inl ⟨u, hr, rfl⟩
  | raised g' t =>
    rcases hr with ⟨rfl, hack, hscl, hsda⟩ | ⟨rfl, hscl⟩
    · exact .inr (.inl ⟨rfl, hack, hfsm, hscl, hsda⟩)
    · exact .inr (.inr ⟨rfl, hfsm, hscl⟩)

/-- Settles O35: from the ends of a checked frame, over the frames of each framer. -/
theorem framersRaiseTheirOwnFailures : Obligations.FramersRaiseTheirOwnFailures := by
  refine ⟨fun s rw => ⟨_, exec_sendAddress rw s, ?_⟩, fun s => ⟨_, exec_sendRegidx s, ?_⟩⟩
  · have hframe := sendFrames_changes .noResponse (addressBytes s.am s.addr rw) s
    obtain ⟨hfsm, -⟩ := hframe.fields
    refine ⟨framerState_frame hframe _, ?_⟩
    rcases framerState_ends (addressFrames_frameEnds .noResponse s.am s.addr rw s) hfsm with ⟨u, hack, e⟩ | hraised
    · rw [e]
      obtain ⟨hackf, hscl, hsda⟩ := hack
      exact .inl ⟨rfl, hackf, rfl, hscl, hsda⟩
    · exact .inr hraised
  · have hframe := sendIndexBytes_counted s.riw.toNat (clearCount s)
    obtain ⟨hfsm, -⟩ := changesOnlyByte.fields hframe
    refine ⟨?_, ?_⟩
    · rw [framerState_byteCnt]
      exact framerState_frame hframe _
    · rcases framerState_ends (sendIndexBytes_frameEnds s.riw.toNat (clearCount s)) hfsm with ⟨u, hcount, e⟩ | hraised
      · rw [e]
        refine .inl ⟨rfl, rfl, hcount.trans ?_⟩
        rw [clearCount_byteCnt, BitVec.ofNat_toNat]
        exact BitVec.zero_add _
      · exact .inr hraised

end Sys2Proof.Machine

/-! # INIT on a bus whose data line is sampled once (O40) -/

namespace Sys2Proof.Machine

/-- INIT up to its guarded release. -/
def initOpened (s : State) : State := settle (setScl true (setSda true s))

/-- INIT samples the released data line once, whatever its guard did (43_transactions.md R172). -/
theorem initBody_sampled {s t : State} {e d : Bit} {q : List Bit} (h : guardedRelease (initOpened s) = (e, t))
    (hrel : t.sdaOut = true) (hd : t.sdaAnswers = d :: q) :
    initBody s = { t with sdaAnswers := q, trace := .readSda d :: t.trace, err := initStatus e d t.err } := by
  rw [initBody, ← initOpened, h, sdaSample_released hrel hd, readSda_released hrel hd]

/-- Settles O40: by what the guarded release of INIT comes to, and the one sample after it. -/
theorem initChecksTheIdleBus : Obligations.InitChecksTheIdleBus := by
  intro p s hb hr hlegal
  have hexec := exec_legal (i := .init p) (op := opInit) (p := p) rfl hb hr hlegal
  have hlatched : latched opInit p (accept opInit p s) := ⟨rfl, rfl, rfl, rfl, rfl, rfl, rfl, rfl, rfl⟩
  have hside := accept_keepsHostSide opInit p s
  refine ⟨fun n d r q hn hc hd => ?_, fun d r q hc hd => ?_⟩
  · have hguard := guardedRelease_polled (s := initOpened (accept opInit p s)) hn hc
    rw [commandBody, initBody_sampled hguard rfl hd] at hexec
    refine ⟨_, hexec, ?_, ?_, ?_, hlatched, rfl, rfl, rfl, rfl, rfl, rfl, rfl, hside⟩
    · cases d <;> rfl
    · cases d <;> rfl
    · simp [initOpened, initEvents, lowPolls]
  · have hguard := guardedRelease_low (s := initOpened (accept opInit p s)) hc
    rw [commandBody, initBody_sampled hguard rfl hd] at hexec
    refine ⟨_, hexec, rfl, rfl, ?_, rfl, rfl, rfl, rfl, rfl, hside⟩
    simp [initOpened, initEvents, lowPolls, initStatus, firstFailure]

end Sys2Proof.Machine

/-! # How often a transfer releases the clock (O47) -/

namespace Sys2Proof.Machine

/-! ### Runs that release the clock -/

/-- A run from s that returns has released the clock n times, however each release was stretched. -/
def releasesClock {α : Type} (n : Nat) (s : State) (r : Run α) : Prop :=
  r.isOk = true → releases r.state.trace = releases s.trace + n

namespace releasesClock

variable {α β : Type} {k m n : Nat} {s t : State}

theorem andThen {r : Run α} {f : α → State → Run β} (h : releasesClock m s r)
    (hf : ∀ a t, r = .ok a t → releasesClock n t (f a t)) (hk : m + n = k) :
    releasesClock k s (r.andThen f) := by
  subst hk
  cases r with
  | ok a t =>
    have hfirst : releases t.trace = releases s.trace + m := h rfl
    exact fun hok => (hf a t rfl hok).trans (by rw [hfirst, Nat.add_assoc])
  | raised g t => nofun

/-- What is done to a state without a release, before a run. -/
theorem after {r : Run α} (hst : releases t.trace = releases s.trace) (h : releasesClock n t r) :
    releasesClock n s r := fun hok => hst ▸ h hok

/-- A return that releases nothing. -/
theorem returned {a : α} (hst : releases t.trace = releases s.trace) : releasesClock 0 s (.ok a t) := fun _ => hst

end releasesClock

/-! ### Bus operations -/

theorem releases_pollLoop (n : Nat) (s : State) : releases (pollLoop n s).2.trace = releases s.trace := by
  have hread (s : State) : releases (readScl s).trace = releases s.trace := by simp [releases]
  induction n generalizing s with
  | zero => exact hread s
  | succ n ih =>
    unfold pollLoop
    split
    · exact hread s
    · exact (ih _).trans (hread s)

theorem releases_guardedRelease (s : State) : releases (guardedRelease s).2.trace = releases s.trace + 1 :=
  (releases_pollLoop _ (release s)).trans (releases_cons_release _)

/-- STOP releases the clock once (40_bus_signalling.md R122). -/
theorem releases_stopBus (s : State) : releases (stopBus s).2.trace = releases s.trace + 1 := by
  have hopened : releases (stopOpened s).trace = releases s.trace := by simp [stopOpened, releases]
  have hclosed : releases (stopBus s).2.trace = releases (guardedRelease (stopOpened s)).2.trace := by
    simp [stopBus_trace, releases]
  rw [hclosed, releases_guardedRelease, hopened]

/-- Setting the data line and releasing the clock, then what releases nothing: the shape of START and of a cell. -/
theorem cell_releasesClock {α : Type} (b : Bit) (s : State) {f : Unit → State → Run α}
    (hf : ∀ t, releasesClock 0 t (f () t)) : releasesClock 1 s ((guardReleaseScl (delay (setSda b s))).andThen f) := by
  have hset : releases (delay (setSda b s)).trace = releases s.trace := by simp [releases]
  refine .after hset (.andThen (fun _ => ?_) (fun _ t _ => hf t) rfl)
  unfold guardReleaseScl
  split <;> exact releases_guardedRelease _

theorem start_releasesClock (s : State) : releasesClock 1 s (start s) :=
  cell_releasesClock true s fun _ => .returned (by simp [releases])

theorem writeBit_releasesClock (b : Bit) (s : State) : releasesClock 1 s (writeBit b s) :=
  cell_releasesClock b s fun _ => .returned (by simp [releases])

theorem readBit_releasesClock (s : State) : releasesClock 1 s (readBit s) :=
  cell_releasesClock true s fun _ => .returned (by simp [releases])

theorem readAck_releasesClock (s : State) : releasesClock 1 s (readAck s) :=
  .andThen (readBit_releasesClock s) (fun _ _ _ => .returned rfl) rfl

/-! ### Byte frames: nine cells (43_transactions.md R192) -/

theorem sendBits_releasesClock (n : Nat) (s : State) : releasesClock n s (sendBits n s) := by
  induction n generalizing s with
  | zero => exact .returned rfl
  | succ n ih =>
    exact .andThen (writeBit_releasesClock _ s) (fun _ t _ => .after (t := shiftBit false t) rfl (ih _)) (Nat.add_comm 1 n)

theorem receiveBits_releasesClock (n : Nat) (s : State) : releasesClock n s (receiveBits n s) := by
  induction n generalizing s with
  | zero => exact .returned rfl
  | succ n ih =>
    exact .andThen (readBit_releasesClock s) (fun d t _ => .after (t := shiftBit d t) rfl (ih _)) (Nat.add_comm 1 n)

theorem writeByte_releasesClock (v : Byte) (s : State) : releasesClock 9 s (writeByte v s) :=
  .after (t := loadShift v s) rfl <| .andThen (sendBits_releasesClock 8 _) (fun _ t _ => readAck_releasesClock t) rfl

theorem readByte_releasesClock (k : Ack) (i : BitVec 12) (s : State) : releasesClock 9 s (readByte k i s) :=
  .after (t := loadShift 0 s) rfl <| .andThen (receiveBits_releasesClock 8 _) (fun _ t _ =>
    .after (t := memWrite i.toNat t.shreg t) (by simp [releases]) <|
      .andThen (writeBit_releasesClock (ackBit k) _) (fun _ _ _ => .returned rfl) rfl) rfl

theorem sendFrame_releasesClock (f : Failure) (v : Byte) (s : State) : releasesClock 9 s (sendFrame f v s) :=
  .andThen (writeByte_releasesClock v s) (hk := rfl) fun a t _ => by
    cases a with
    | true => exact .returned rfl
    | false => nofun

/-! ### Framers and phases -/

theorem sendFrames_releasesClock (f : Failure) (vs : List Byte) (s : State) :
    releasesClock (9 * vs.length) s (sendFrames f vs s) := by
  induction vs generalizing s with
  | nil => exact .returned rfl
  | cons v vs ih => exact .andThen (sendFrame_releasesClock f v s) (fun _ t _ => ih t) (Nat.add_comm _ _)

theorem sendAddress_releasesClock (rw : Bit) (s : State) :
    releasesClock (9 * (addressBytes s.am s.addr rw).length) s (sendAddress rw s) :=
  .andThen (sendFrames_releasesClock _ _ s) (fun _ _ _ => .returned rfl) rfl

theorem sendIndexBytes_releasesClock (n : Nat) (s : State) : releasesClock (9 * n) s (sendIndexBytes n s) := by
  induction n generalizing s with
  | zero => exact .returned rfl
  | succ n ih =>
    exact .andThen (sendFrame_releasesClock _ _ s) (fun _ t _ => .after (t := incCount t) rfl (ih _)) (Nat.add_comm _ _)

theorem indexPhase_releasesClock (s : State) : releasesClock (9 * s.riw.toNat) s (indexPhase s) := by
  unfold indexPhase
  split
  · rename_i h
    rw [h]
    exact .returned rfl
  · exact .andThen (.after (t := clearCount s) rfl (sendIndexBytes_releasesClock _ _)) (fun _ _ _ => .returned rfl) rfl

/-- The releases up to the end of the register index. -/
theorem selectRegister_releasesClock (s : State) :
    releasesClock (1 + 9 * ((addressBytes s.am s.addr false).length + s.riw.toNat)) s (selectRegister s) := by
  refine .andThen (start_releasesClock s) (fun _ t ht => ?_) rfl
  obtain ⟨ham, haddr, hriw, -⟩ := (Run.rel_of_ok (start_changes s) ht).toPhase.packet
  rw [← ham, ← haddr, ← hriw]
  refine .andThen (.after (t := enterFsm .started t) rfl (sendAddress_releasesClock false _)) (fun _ u hu => ?_)
    (Nat.mul_add 9 _ _).symm
  obtain ⟨-, -, hriw', -⟩ := (Run.rel_of_ok (sendAddress_changes false (enterFsm .started t)) hu).packet
  have h := indexPhase_releasesClock u
  rwa [hriw'] at h

theorem sendData_releasesClock (n : Nat) (s : State) : releasesClock (9 * n) s (sendData n s) := by
  induction n generalizing s with
  | zero => exact .returned rfl
  | succ n ih =>
    exact .after (t := memRead s.byteCnt.toNat s) (by simp [releases]) <|
      .andThen (sendFrame_releasesClock _ _ _) (fun _ t _ => .after (t := incCount t) rfl (ih _)) (Nat.add_comm _ _)

theorem receiveData_releasesClock (n : Nat) (s : State) : releasesClock (9 * n) s (receiveData n s) := by
  induction n generalizing s with
  | zero => exact .returned rfl
  | succ n ih =>
    exact .andThen (readByte_releasesClock _ _ s) (fun _ t _ => .after (t := incCount t) rfl (ih _)) (Nat.add_comm _ _)

theorem wrregAttempt_releasesClock (s : State) :
    releasesClock (9 * ((addressBytes s.am s.addr false).length + s.riw.toNat + s.len.toNat) + 1) s
      (wrregAttempt s) := by
  refine .andThen (selectRegister_releasesClock s) (fun _ t ht => ?_) (by omega : _ + 9 * s.len.toNat = _)
  obtain ⟨-, -, -, hlen⟩ := (Run.rel_of_ok (selectRegister_changes s) ht).packet
  have h := sendData_releasesClock t.len.toNat (beginData t)
  rw [hlen] at h ⊢
  exact .after (t := beginData t) rfl h

theorem addressedForRead_releasesClock (s : State) :
    releasesClock (9 * slotsBeforeData s + 2) s (addressedForRead s) := by
  refine .andThen (selectRegister_releasesClock s) (fun _ t _ => ?_) (by unfold slotsBeforeData; omega : _ + 10 = _)
  refine .andThen (n := 9) (start_releasesClock t) (fun _ u _ => ?_) rfl
  have h := sendAddress_releasesClock true (secondPhase u)
  rw [addressBytes_read_length] at h
  exact .after (t := secondPhase u) rfl h

theorem rdregAttempt_releasesClock (s : State) :
    releasesClock (9 * (slotsBeforeData s + s.len.toNat) + 2) s (rdregAttempt s) := by
  rw [rdregAttempt_eq]
  refine .andThen (addressedForRead_releasesClock s) (fun _ t ht => ?_) (by omega : _ + 9 * s.len.toNat = _)
  obtain ⟨-, -, -, hlen⟩ := (Run.rel_of_ok (addressedForRead_changes s) ht).packet
  have h := receiveData_releasesClock t.len.toNat (beginData t)
  rw [hlen] at h ⊢
  exact .after (t := beginData t) rfl h

/-! ### Whole transfers -/

theorem releases_respond (v : State) : releases (respond v).trace = releases v.trace := by
  have hpresent : releases (present v).trace = releases v.trace := by simp [releases]
  unfold respond
  split <;> exact hpresent

/-- A transfer that ends Ok has returned from its attempt, and its STOP makes the last release. -/
theorem endTransaction_releases {n : Nat} {s : State} {r : Run Unit} (h : releasesClock n s r)
    (hok : (endTransaction r).err = .ok) : releases (endTransaction r).trace = releases s.trace + n + 1 := by
  have hret : r.isOk = true := endTransaction_ok hok
  rw [← h hret]
  cases r with
  | ok a t =>
    have hclose (b : Bool) (u : State) : (closeWith b u).trace = u.trace := by
      unfold closeWith
      split <;> rfl
    rw [endTransaction, hclose]
    exact releases_stopBus t
  | raised f t => cases hret

/-- The releases in the whole record of a legal transfer. -/
theorem exec_legal_releases {i : Instr} {op : BitVec 4} {p : Packet} {n : Nat} {s : State} {attempt : State → Run Unit}
    (hi : exec i s = .next (runCommand op p (failedCheck s.maxLen i) (fun t => endTransaction (attempt t)) s))
    (hb : s.busy = false) (hlegal : failedCheck s.maxLen i = none)
    (h : releasesClock n (accept op p s) (attempt (accept op p s))) :
    ∃ t, exec i s = .next t ∧ (t.err = .ok → releases t.trace = n + 1) := by
  refine ⟨respond (endTransaction (attempt (accept op p s))), by rw [hi, hlegal, runCommand_legal hb], fun hok => ?_⟩
  obtain ⟨-, herr, -⟩ := respond_record (endTransaction (attempt (accept op p s)))
  rw [releases_respond, endTransaction_releases h (herr ▸ hok)]
  exact congrArg (· + 1) (Nat.zero_add n)

/-- Settles O47: one release for each cell, nine cells for each byte, and one for each START and for the STOP. -/
theorem successfulTransfersReleaseTheClock : Obligations.SuccessfulTransfersReleaseTheClock := by
  intro p s na hb
  have hna : (addressBytes p.am p.addr false).length = na := by
    cases ham : p.am <;> simp [na, ham, addressBytes]
  have hwrite := wrregAttempt_releasesClock (accept opWrreg p s)
  have hread := rdregAttempt_releasesClock (accept opRdreg p s)
  refine ⟨fun hlegal => ?_, fun hlegal => ?_⟩
  · rw [← hna]
    exact exec_legal_releases (i := .wrreg p) rfl hb hlegal hwrite
  · rw [← hna]
    exact exec_legal_releases (i := .rdreg p) rfl hb hlegal hread

end Sys2Proof.Machine

/-! # No memory between commands (O52) -/

namespace Sys2Proof.Machine

/-! ### What the outcome of a command shows -/

/-- The state without what a command may find different and show no trace of: the working registers, none of which it
reads before it writes it, the host's further offers and moves, and what the ports last showed (43_transactions.md R188). -/
def visible (s : State) : State :=
  { s with
    bitCnt := 0, byteCnt := 0, scanAddr := 0, shreg := 0, stretchCnt := 0, ackf := false
    cmds := [], hostMoves := [], rspWord := 0, foundValid := false, foundAddr := 0 }

/-- The two states differ in such registers only. -/
def alike (s u : State) : Prop := visible s = visible u

/-- The two states are alike and agree on the register f too. -/
def alikeWith {β : Type} (f : State → β) (s u : State) : Prop := alike s u ∧ f s = f u

/-- An update that reads none of these registers keeps states alike. -/
theorem alike.map {s u : State} (h : alike s u) (g : State → State)
    (hg : ∀ s, visible (g s) = visible (g (visible s))) : alike (g s) (g u) := by
  rw [alike, hg s, hg u, h]

/-- What is read of alike states is the same, as long as it is none of these registers: then f reads of s what it reads of
`visible s`. -/
theorem alike.read {α : Type} {s u : State} (h : alike s u) (f : State → α) : f (visible s) = f (visible u) :=
  congrArg f h

/-- The two runs end the same way: they return the same value in states related by R, or raise the same failure in states
that are alike. -/
inductive alikeRuns {α : Type} (R : State → State → Prop) : Run α → Run α → Prop where
  | ok {a b : α} {s u : State} (hab : a = b) (h : R s u) : alikeRuns R (.ok a s) (.ok b u)
  | raised (f : Failure) {s u : State} (h : alike s u) : alikeRuns R (.raised f s) (.raised f u)

namespace alikeRuns

variable {α β : Type} {R R' : State → State → Prop} {r q : Run α}

theorem andThen {f g : α → State → Run β} (h : alikeRuns R r q)
    (hf : ∀ a t v, R t v → alikeRuns R' (f a t) (g a v)) : alikeRuns R' (r.andThen f) (q.andThen g) := by
  cases h with
  | ok hab htv => exact hab ▸ hf _ _ _ htv
  | raised f htv => exact .raised f htv

/-- Runs from states that agree on a register, which both runs keep. -/
theorem keeping {f : State → β} {s u : State} (h : alikeRuns alike r q) (hsu : f s = f u) (hr : f r.state = f s)
    (hq : f q.state = f u) : alikeRuns (alikeWith f) r q := by
  cases h with
  | ok hab htv => exact .ok hab ⟨htv, hr.trans (hsu.trans hq.symm)⟩
  | raised f htv => exact .raised f htv

theorem isOk (h : alikeRuns R r q) : r.isOk = q.isOk := by
  cases h <;> rfl

end alikeRuns

/-! ### The registers an operation keeps -/

theorem changesOnlyBus.shreg {s t : State} (h : changesOnlyBus s t) : t.shreg = s.shreg := by
  obtain ⟨h, -⟩ := h.fields
  exact h

theorem changesOnlyPhase.scanAddr {s t : State} (h : changesOnlyPhase s t) : t.scanAddr = s.scanAddr := by
  obtain ⟨h, -⟩ := h.fields
  exact h

theorem readByte_byteCnt (k : Ack) (i : BitVec 12) (s : State) : (readByte k i s).state.byteCnt = s.byteCnt := by
  obtain ⟨h, -⟩ := readByte_fields k i s
  exact h

/-! ### Bus operations -/

section
variable {s u : State} (h : alike s u)
include h

theorem pollLoop_alike (n : Nat) : (pollLoop n s).1 = (pollLoop n u).1 ∧ alike (pollLoop n s).2 (pollLoop n u).2 := by
  have hsample : sclSample s = sclSample u := h.read sclSample
  induction n generalizing s u with
  | zero => exact ⟨congrArg (!·) hsample, h.map readScl fun _ => rfl⟩
  | succ n ih =>
    have hread : alike (readScl s) (readScl u) := h.map readScl fun _ => rfl
    unfold pollLoop
    rw [hsample]
    split
    · exact ⟨rfl, hread⟩
    · have hcount : alike (countPoll (readScl s)) (countPoll (readScl u)) := hread.map countPoll fun _ => rfl
      exact ih hcount (hcount.read sclSample)

theorem guardedRelease_alike :
    (guardedRelease s).1 = (guardedRelease u).1 ∧ alike (guardedRelease s).2 (guardedRelease u).2 := by
  have htmo : s.tmo = u.tmo := h.read State.tmo
  rw [guardedRelease, guardedRelease, htmo]
  exact pollLoop_alike (h.map release fun _ => rfl) _

theorem guardReleaseScl_alike : alikeRuns alike (guardReleaseScl s) (guardReleaseScl u) := by
  obtain ⟨he, ht⟩ := guardedRelease_alike h
  unfold guardReleaseScl
  rw [he]
  split
  · exact .raised _ ht
  · exact .ok rfl ht

theorem stopBus_alike : (stopBus s).1 = (stopBus u).1 ∧ alike (stopBus s).2 (stopBus u).2 := by
  obtain ⟨he, ht⟩ := guardedRelease_alike (h.map stopOpened fun _ => rfl)
  exact ⟨he, ht.map (fun t => delay (setSda true (delay t))) fun _ => rfl⟩

/-- Setting the data line and releasing the clock: the shape of START and of a cell. -/
theorem cell_alike {α : Type} (b : Bit) {f : Unit → State → Run α}
    (hf : ∀ {t v}, alike t v → alikeRuns alike (f () t) (f () v)) :
    alikeRuns alike ((guardReleaseScl (delay (setSda b s))).andThen f)
      ((guardReleaseScl (delay (setSda b u))).andThen f) :=
  (guardReleaseScl_alike (h.map (fun s => delay (setSda b s)) fun _ => rfl)).andThen fun _ _ _ => hf

theorem start_alike : alikeRuns alike (start s) (start u) :=
  cell_alike h true fun htv => .ok rfl (htv.map (fun t => setScl false (delay (setSda false (delay t)))) fun _ => rfl)

theorem writeBit_alike (b : Bit) : alikeRuns alike (writeBit b s) (writeBit b u) :=
  cell_alike h b fun htv => .ok rfl (htv.map (fun t => setScl false (delay t)) fun _ => rfl)

theorem readBit_alike : alikeRuns alike (readBit s) (readBit u) :=
  cell_alike h true fun htv =>
    .ok (htv.read fun t => sdaSample (delay t)) (htv.map (fun t => setScl false (readSda (delay t))) fun _ => rfl)

theorem readAck_alike : alikeRuns alike (readAck s) (readAck u) :=
  (readBit_alike h).andThen fun d _ _ htv => .ok rfl (htv.map (setAckf (ackOfSample d)) fun _ => rfl)

end

/-! ### Bytes: `SHREG` is loaded before it is read -/

theorem shiftBit_alike {s u : State} (h : alikeWith State.shreg s u) (x : Bit) :
    alikeWith State.shreg (shiftBit x s) (shiftBit x u) :=
  ⟨h.1.map (shiftBit x) fun _ => rfl, congrArg (shiftIn · x) h.2⟩

theorem sendBits_alike (n : Nat) {s u : State} (h : alikeWith State.shreg s u) :
    alikeRuns alike (sendBits n s) (sendBits n u) := by
  induction n generalizing s u with
  | zero => exact .ok rfl h.1
  | succ n ih =>
    obtain ⟨hsu, hsh⟩ := h
    rw [sendBits, sendBits, ← hsh]
    exact ((writeBit_alike hsu _).keeping hsh (writeBit_changes _ s).shreg (writeBit_changes _ u).shreg).andThen
      fun _ _ _ htv => ih (shiftBit_alike htv false)

theorem receiveBits_alike (n : Nat) {s u : State} (h : alikeWith State.shreg s u) :
    alikeRuns (alikeWith State.shreg) (receiveBits n s) (receiveBits n u) := by
  induction n generalizing s u with
  | zero => exact .ok rfl h
  | succ n ih =>
    obtain ⟨hsu, hsh⟩ := h
    exact ((readBit_alike hsu).keeping hsh (readBit_changes s).shreg (readBit_changes u).shreg).andThen
      fun d _ _ htv => ih (shiftBit_alike htv d)

theorem memWrite_alike {s u : State} (h : alikeWith State.shreg s u) (i : Nat) :
    alikeWith State.shreg (memWrite i s.shreg s) (memWrite i u.shreg u) := by
  obtain ⟨hsu, hsh⟩ := h
  rw [← hsh]
  exact ⟨hsu.map (memWrite i s.shreg) fun _ => rfl, hsh⟩

section
variable {s u : State} (h : alike s u)
include h

theorem loadShift_alike (v : Byte) : alikeWith State.shreg (loadShift v s) (loadShift v u) :=
  ⟨h.map (loadShift v) fun _ => rfl, rfl⟩

theorem writeByte_alike (v : Byte) : alikeRuns alike (writeByte v s) (writeByte v u) :=
  (sendBits_alike 8 (loadShift_alike h v)).andThen fun _ _ _ htv => readAck_alike htv

theorem readByte_alike (k : Ack) (i : BitVec 12) : alikeRuns alike (readByte k i s) (readByte k i u) :=
  (receiveBits_alike 8 (loadShift_alike h 0)).andThen fun _ t v htv => by
    obtain ⟨hw, hsh⟩ := memWrite_alike htv i.toNat
    exact ((writeBit_alike hw (ackBit k)).keeping hsh (writeBit_changes _ _).shreg
      (writeBit_changes _ _).shreg).andThen fun _ _ _ hread => .ok hread.2 hread.1

theorem sendFrame_alike (f : Failure) (v : Byte) : alikeRuns alike (sendFrame f v s) (sendFrame f v u) :=
  (writeByte_alike h v).andThen fun a _ _ htv => by
    cases a with
    | true => exact .ok rfl htv
    | false => exact .raised f htv

end

/-! ### Framers and phases: `BYTECNT` is cleared before it is read -/

theorem sendFrames_alike (f : Failure) (vs : List Byte) {s u : State} (h : alike s u) :
    alikeRuns alike (sendFrames f vs s) (sendFrames f vs u) := by
  induction vs generalizing s u with
  | nil => exact .ok rfl h
  | cons v vs ih => exact (sendFrame_alike h f v).andThen fun _ _ _ htv => ih htv

theorem sendIndexBytes_alike (n : Nat) {s u : State} (h : alike s u) :
    alikeRuns alike (sendIndexBytes n s) (sendIndexBytes n u) := by
  induction n generalizing s u with
  | zero => exact .ok rfl h
  | succ n ih =>
    have hidx : s.regidx = u.regidx := h.read State.regidx
    rw [sendIndexBytes, sendIndexBytes, ← hidx]
    exact (sendFrame_alike h _ _).andThen fun _ _ _ htv => ih (htv.map incCount fun _ => rfl)

theorem incCount_alike {s u : State} (h : alikeWith State.byteCnt s u) :
    alikeWith State.byteCnt (incCount s) (incCount u) :=
  ⟨h.1.map incCount fun _ => rfl, congrArg (· + 1) h.2⟩

theorem sendData_alike (n : Nat) {s u : State} (h : alikeWith State.byteCnt s u) :
    alikeRuns alike (sendData n s) (sendData n u) := by
  induction n generalizing s u with
  | zero => exact .ok rfl h.1
  | succ n ih =>
    obtain ⟨hsu, hcnt⟩ := h
    have hbuf : s.buf = u.buf := hsu.read State.buf
    rw [sendData, sendData, ← hcnt, ← hbuf]
    have hloaded := hsu.map (memRead s.byteCnt.toNat) fun _ => rfl
    exact ((sendFrame_alike hloaded _ _).keeping hcnt (sendFrame_changes _ _ _).byteCnt
      (sendFrame_changes _ _ _).byteCnt).andThen fun _ _ _ htv => ih (incCount_alike htv)

theorem receiveData_alike (n : Nat) {s u : State} (h : alikeWith State.byteCnt s u) :
    alikeRuns alike (receiveData n s) (receiveData n u) := by
  induction n generalizing s u with
  | zero => exact .ok rfl h.1
  | succ n ih =>
    obtain ⟨hsu, hcnt⟩ := h
    have hlen : s.len = u.len := hsu.read State.len
    rw [receiveData, receiveData, ← hcnt, ← hlen]
    exact ((readByte_alike hsu _ _).keeping hcnt (readByte_byteCnt _ _ s) (readByte_byteCnt _ _ u)).andThen
      fun _ _ _ htv => ih (incCount_alike htv)

section
variable {s u : State} (h : alike s u)
include h

theorem sendAddress_alike (rw : Bit) : alikeRuns alike (sendAddress rw s) (sendAddress rw u) := by
  have hbytes : addressBytes s.am s.addr rw = addressBytes u.am u.addr rw :=
    h.read fun s => addressBytes s.am s.addr rw
  rw [sendAddress, sendAddress, ← hbytes]
  exact (sendFrames_alike _ _ h).andThen fun _ _ _ htv => .ok rfl (htv.map (enterFsm .addressSent) fun _ => rfl)

theorem indexPhase_alike : alikeRuns alike (indexPhase s) (indexPhase u) := by
  have hriw : s.riw = u.riw := h.read State.riw
  unfold indexPhase sendRegidx
  rw [← hriw]
  split
  · exact .ok rfl h
  · exact (sendIndexBytes_alike _ (h.map clearCount fun _ => rfl)).andThen fun _ _ _ htv =>
      .ok rfl (htv.map (enterFsm .registerIndexSent) fun _ => rfl)

theorem selectRegister_alike : alikeRuns alike (selectRegister s) (selectRegister u) :=
  (start_alike h).andThen fun _ _ _ htv =>
    (sendAddress_alike (htv.map (enterFsm .started) fun _ => rfl) false).andThen fun _ _ _ => indexPhase_alike

theorem beginData_alike : alikeWith State.byteCnt (beginData s) (beginData u) :=
  ⟨h.map beginData fun _ => rfl, rfl⟩

theorem wrregAttempt_alike : alikeRuns alike (wrregAttempt s) (wrregAttempt u) :=
  (selectRegister_alike h).andThen fun _ t v htv => by
    have hlen : t.len = v.len := htv.read State.len
    rw [← hlen]
    exact sendData_alike _ (beginData_alike htv)

theorem rdregAttempt_alike : alikeRuns alike (rdregAttempt s) (rdregAttempt u) :=
  (selectRegister_alike h).andThen fun _ _ _ htv => (start_alike htv).andThen fun _ _ _ huv =>
    (sendAddress_alike (huv.map secondPhase fun _ => rfl) true).andThen fun _ t v htv => by
      have hlen : t.len = v.len := htv.read State.len
      rw [← hlen]
      exact receiveData_alike _ (beginData_alike htv)

end

theorem closeWith_alike {s u : State} (h : alike s u) (e : Bool) : alike (closeWith e s) (closeWith e u) := by
  cases e with
  | true => exact h.map (closeWith true) fun _ => rfl
  | false => exact h.map (closeWith false) fun _ => rfl

theorem endTransaction_alike {r q : Run Unit} (h : alikeRuns alike r q) :
    alike (endTransaction r) (endTransaction q) := by
  cases h with
  | ok hab h =>
    obtain ⟨he, ht⟩ := stopBus_alike h
    rw [endTransaction, endTransaction, he]
    exact closeWith_alike ht _
  | raised f h => exact (stopBus_alike (h.map (enterAbort f) fun _ => rfl)).2

/-! ### The scanner: `SCAN_ADDR` is cleared before it is read -/

theorem probeAddressPhase_alike {s u : State} (h : alikeWith State.scanAddr s u) :
    alikeRuns alike (probeAddressPhase s) (probeAddressPhase u) :=
  ((start_alike h.1).keeping h.2 (start_changes s).toPhase.scanAddr (start_changes u).toPhase.scanAddr).andThen
    fun _ t v htv => by
      obtain ⟨htv, haddr⟩ := htv
      rw [← haddr]
      exact (sendFrame_alike (htv.map (enterFsm .started) fun _ => rfl) _ _).andThen fun _ _ _ huv =>
        .ok rfl (huv.map (enterFsm .addressSent) fun _ => rfl)

theorem probe_alike {s u : State} (h : alikeWith State.scanAddr s u) :
    (probe s).1 = (probe u).1 ∧ alikeWith State.scanAddr (probe s).2 (probe u).2 := by
  obtain ⟨hsu, haddr⟩ := h
  have hphase := probeAddressPhase_alike (s := probeBegin s) (u := probeBegin u) ⟨hsu.map probeBegin fun _ => rfl, haddr⟩
  refine ⟨hphase.isOk, (endTransaction_alike hphase).map (enterFsm .idle) fun _ => rfl, ?_⟩
  rw [(probe_changes s).scanAddr, (probe_changes u).scanAddr, haddr]

theorem scanOne_alike {s u : State} (h : alikeWith State.scanAddr s u) : alike (scanOne s) (scanOne u) := by
  obtain ⟨hfound, hprobed, haddr⟩ := probe_alike h
  have hskips : scanSkips s.skip s.scanAddr = scanSkips u.skip u.scanAddr := by
    have hskip : s.skip = u.skip := h.1.read State.skip
    rw [hskip, h.2]
  rw [scanOne, scanOne, hskips, hfound, haddr]
  split
  · exact h.1
  · split
    · exact hprobed.map (emitFound _) fun _ => rfl
    · exact hprobed

theorem scanLoop_alike (n : Nat) {s u : State} (h : alikeWith State.scanAddr s u) :
    alike (scanLoop n s) (scanLoop n u) := by
  induction n generalizing s u with
  | zero => exact h.1
  | succ n ih =>
    refine ih ⟨(scanOne_alike h).map nextAddress fun _ => rfl, ?_⟩
    rw [nextAddress_scanAddr, nextAddress_scanAddr, scanOne_fields, scanOne_fields, h.2]

/-! ### Whole commands -/

theorem initBody_alike {s u : State} (h : alike s u) : alike (initBody s) (initBody u) := by
  obtain ⟨he, ht⟩ := guardedRelease_alike (h.map (fun s => settle (setScl true (setSda true s))) fun _ => rfl)
  rw [initBody, initBody, he]
  exact ht.map (fun t => { readSda t with err := initStatus _ (sdaSample t) t.err }) fun _ => rfl

theorem commandBody_alike (i : Instr) {s u : State} (h : alike s u) : alike (commandBody i s) (commandBody i u) := by
  cases i with
  | init p => exact initBody_alike h
  | wrreg p => exact endTransaction_alike (wrregAttempt_alike h)
  | rdreg p => exact endTransaction_alike (rdregAttempt_alike h)
  | scan p =>
    have hcleared : alikeWith State.scanAddr { s with scanAddr := 0 } { u with scanAddr := 0 } :=
      ⟨h.map (fun s => { s with scanAddr := 0 }) fun _ => rfl, rfl⟩
    exact (scanLoop_alike _ hcleared).map (fun t => { t with err := .ok }) fun _ => rfl
  | _ => exact h

theorem respond_alike {s u : State} (h : alike s u) : alike (respond s) (respond u) := by
  have hready : s.rspReady = u.rspReady := h.read State.rspReady
  unfold respond
  rw [hready]
  split
  · exact h.map (fun s => taken (present s)) fun _ => rfl
  · exact h.map (fun s => { present s with place := [.awaitTaken] }) fun _ => rfl

/-- Two blocks between commands that agree on `BUF`, `MAX_LEN`, the host's readiness and the bus accept a packet alike. -/
theorem accept_alike {s u : State} (hs : readyForCommand s) (hu : readyForCommand u) (hbuf : s.buf = u.buf)
    (hmax : s.maxLen = u.maxLen) (hready : s.rspReady = u.rspReady) (hscl : s.sclAnswers = u.sclAnswers)
    (hsda : s.sdaAnswers = u.sdaAnswers) (hsclDraws : s.sclDraws = u.sclDraws) (hsdaDraws : s.sdaDraws = u.sdaDraws)
    (op : BitVec 4) (p : Packet) : alike (accept op p s) (accept op p u) := by
  obtain ⟨⟨-, hplace, hvalid⟩, ⟨hc, hd, hfsm⟩, hrst, hfetch⟩ := hs
  obtain ⟨⟨-, uplace, uvalid⟩, ⟨uc, ud, ufsm⟩, urst, ufetch⟩ := hu
  simp only [alike, visible, accept, *]

theorem runCommand_alike {op : BitVec 4} {p : Packet} {c : Option Check} {i : Instr} {s u : State}
    (hs : s.busy = false) (hu : u.busy = false) (h : alike (accept op p s) (accept op p u)) :
    alike (runCommand op p c (commandBody i) s) (runCommand op p c (commandBody i) u) := by
  cases c with
  | some c =>
    rw [runCommand_illegal hs, runCommand_illegal hu]
    exact respond_alike (h.map (fun t => { t with err := .illegalCommand }) fun _ => rfl)
  | none =>
    rw [runCommand_legal hs, runCommand_legal hu]
    exact respond_alike (commandBody_alike i h)

/-- Every command is run with the operation code and the packet it has, in whatever state. -/
theorem exec_command_uniform {i : Instr} (hi : i.isCommand = true) : ∃ op p, ∀ s,
    exec i s = .next (runCommand op p (failedCheck s.maxLen i) (commandBody i) s) := by
  cases i with
  | init p => exact ⟨opInit, p, fun _ => rfl⟩
  | wrreg p => exact ⟨opWrreg, p, fun _ => rfl⟩
  | rdreg p => exact ⟨opRdreg, p, fun _ => rfl⟩
  | scan p => exact ⟨opScan, p, fun _ => rfl⟩
  | _ => cases hi

/-- A command shows the word of the status it leaves. -/
theorem exec_command_word {i : Instr} (hi : i.isCommand = true) {s t : State} (hb : s.busy = false)
    (h : exec i s = .next t) : t.rspWord = responseWord t.err := by
  obtain ⟨v, -, he⟩ := exec_command_responds hi hb
  cases h.symm.trans he
  exact respond_word v

/-- Settles O52: the accepted states are alike, and a command keeps them so. -/
theorem commandsKeepNoMemory : Obligations.CommandsKeepNoMemory := by
  intro i s u hi hs hu hbuf hmax hready hscl hsda hsclDraws hsdaDraws
  have ⟨⟨hsb, _⟩, _⟩ := hs
  have ⟨⟨hub, _⟩, _⟩ := hu
  obtain ⟨op, p, hexec⟩ := exec_command_uniform hi
  have haccept := accept_alike hs hu hbuf hmax hready hscl hsda hsclDraws hsdaDraws op p
  have h := runCommand_alike (c := failedCheck s.maxLen i) (i := i) hsb hub haccept
  have hexecs := hexec s
  have hexecu := hexec u
  rw [← hmax] at hexecu
  have herr : (runCommand op p _ _ s).err = (runCommand op p _ _ u).err := h.read State.err
  have hword := (exec_command_word hi hsb hexecs).trans
    ((congrArg responseWord herr).trans (exec_command_word hi hub hexecu).symm)
  exact ⟨_, _, hexecs, hexecu, h.read State.trace, h.read State.buf, h.read State.found, hword, herr, h.read State.sclOut,
    h.read State.sdaOut, h.read State.fsm, h.read State.busy, h.read State.place, h.read State.sclAnswers,
    h.read State.sdaAnswers, h.read State.sclDraws, h.read State.sdaDraws⟩

end Sys2Proof.Machine

/-! # The statuses a command can answer (O45) -/

namespace Sys2Proof.Machine

/-! ### The failures a run can raise -/

/-- The latch still holds Ok however the run ends, and it raises only failures that A admits. -/
def raisesOnly {α : Type} (A : Failure → Prop) (r : Run α) : Prop :=
  r.ends (fun t => t.err = .ok) fun f t => t.err = .ok ∧ A f

theorem raisesOnly.andThen {α β : Type} {A : Failure → Prop} {r : Run α} {k : α → State → Run β}
    (h : raisesOnly A r) (hk : ∀ a t, r = .ok a t → t.err = .ok → raisesOnly A (k a t)) :
    raisesOnly A (r.andThen k) :=
  Run.ends.andThen h hk

theorem changesOnlyByte.err {s t : State} (h : changesOnlyByte s t) : t.err = s.err := by
  obtain ⟨-, -, -, -, h, -⟩ := h.fields
  exact h

theorem changesOnlyPhase.riw {s t : State} (h : changesOnlyPhase s t) : t.riw = s.riw := by
  obtain ⟨-, -, h, -⟩ := h.packet
  exact h

section
variable {A : Failure → Prop} {s : State} (htimeout : A .timeout) (herr : s.err = .ok)
include htimeout herr

theorem start_raisesOnly : raisesOnly A (start s) := by
  rcases start_cases s with ⟨t, e, ht, -⟩ | ⟨t, e, ht, -⟩ <;> rw [e]
  · exact ht.toByte.err.trans herr
  · exact ⟨ht.toByte.err.trans herr, htimeout⟩

theorem readByte_raisesOnly (k : Ack) (i : BitVec 12) : raisesOnly A (readByte k i s) := by
  rcases readByte_cases k i s with ⟨t, e, ⟨ht, -⟩, -⟩ | ⟨t, e, ht, -⟩ | ⟨t, e, ⟨ht, -⟩, -⟩ <;> rw [e]
  · exact ht.err.trans herr
  · exact ⟨ht.err.trans herr, htimeout⟩
  · exact ⟨ht.err.trans herr, htimeout⟩

theorem receiveData_raisesOnly (n : Nat) : raisesOnly A (receiveData n s) := by
  induction n generalizing s with
  | zero => exact herr
  | succ n ih => exact (readByte_raisesOnly htimeout herr _ _).andThen fun _ t _ ht => ih (s := incCount t) ht

/-- A checked frame raises its own failure or Timeout (42_byte_and_framing.md R153, R156). -/
theorem sendFrame_raisesOnly {f : Failure} (hf : A f) (v : Byte) : raisesOnly A (sendFrame f v s) := by
  rcases sendFrame_cases f v s with ⟨t, e, ht, -⟩ | ⟨t, e, ht, -⟩ | ⟨t, e, ht, -⟩ <;> rw [e]
  · exact ht.err.trans herr
  · exact ⟨ht.err.trans herr, hf⟩
  · exact ⟨ht.err.trans herr, htimeout⟩

theorem sendFrames_raisesOnly {f : Failure} (hf : A f) (vs : List Byte) : raisesOnly A (sendFrames f vs s) := by
  induction vs generalizing s with
  | nil => exact herr
  | cons v vs ih => exact (sendFrame_raisesOnly htimeout herr hf v).andThen fun _ _ _ ht => ih ht

theorem sendIndexBytes_raisesOnly (hprotocol : A .protocolError) (n : Nat) : raisesOnly A (sendIndexBytes n s) := by
  induction n generalizing s with
  | zero => exact herr
  | succ n ih =>
    exact (sendFrame_raisesOnly htimeout herr hprotocol _).andThen fun _ t _ ht => ih (s := incCount t) ht

theorem sendData_raisesOnly (hprotocol : A .protocolError) (n : Nat) : raisesOnly A (sendData n s) := by
  induction n generalizing s with
  | zero => exact herr
  | succ n ih =>
    exact (sendFrame_raisesOnly (s := memRead s.byteCnt.toNat s) htimeout herr hprotocol _).andThen fun _ t _ ht =>
      ih (s := incCount t) ht

/-- Without an index phase there is no ProtocolError (60_exceptions.md R213). -/
theorem indexPhase_raisesOnly (hindex : s.riw ≠ 0 → A .protocolError) : raisesOnly A (indexPhase s) := by
  unfold indexPhase
  split
  · exact herr
  · rename_i hriw
    exact (sendIndexBytes_raisesOnly (s := clearCount s) htimeout herr (hindex hriw) _).andThen fun _ _ _ ht => ht

variable (hnoResponse : A .noResponse)
include hnoResponse

theorem sendAddress_raisesOnly (rw : Bit) : raisesOnly A (sendAddress rw s) :=
  (sendFrames_raisesOnly htimeout herr hnoResponse _).andThen fun _ _ _ ht => ht

theorem selectRegister_raisesOnly (hindex : s.riw ≠ 0 → A .protocolError) : raisesOnly A (selectRegister s) := by
  refine (start_raisesOnly htimeout herr).andThen fun _ t hst ht =>
    (sendAddress_raisesOnly (s := enterFsm .started t) htimeout ht hnoResponse false).andThen fun _ u htu hu =>
      indexPhase_raisesOnly htimeout hu ?_
  have hriw : u.riw = s.riw := (Run.rel_of_ok (sendAddress_changes false (enterFsm .started t)) htu).riw.trans
    (Run.rel_of_ok (start_changes s) hst).toPhase.riw
  rwa [hriw]

theorem wrregAttempt_raisesOnly (hprotocol : A .protocolError) : raisesOnly A (wrregAttempt s) :=
  (selectRegister_raisesOnly htimeout herr hnoResponse fun _ => hprotocol).andThen fun _ t _ ht =>
    sendData_raisesOnly (s := beginData t) htimeout ht hprotocol _

theorem rdregAttempt_raisesOnly (hindex : s.riw ≠ 0 → A .protocolError) : raisesOnly A (rdregAttempt s) :=
  (selectRegister_raisesOnly htimeout herr hnoResponse hindex).andThen fun _ _ _ ht =>
    (start_raisesOnly htimeout ht).andThen fun _ u _ hu =>
      (sendAddress_raisesOnly (s := secondPhase u) htimeout hu hnoResponse true).andThen fun _ v _ hv =>
        receiveData_raisesOnly (s := beginData v) htimeout hv _

end

/-! ### The status of a command -/

/-- A transaction ends with Ok, with Timeout, which its STOP may add, or with the failure its attempt raised
(60_exceptions.md R219, R224). -/
theorem raisesOnly.endTransaction_err {A : Failure → Prop} {r : Run Unit} (h : raisesOnly A r) :
    (endTransaction r).err = .ok ∨ (endTransaction r).err = .timeout ∨
      ∃ f, A f ∧ (endTransaction r).err = f.status := by
  cases r with
  | ok a t => exact (endTransaction_returned_err h).imp_right .inl
  | raised f t =>
    obtain ⟨herr, hf⟩ := h
    exact .inr (.inr ⟨f, hf, endTransaction_raised_err herr f⟩)

/-- The statuses of a transfer, ProtocolError where it may be raised. -/
theorem raisesOnly.transfer_err {P : Prop} {r : Run Unit} (h : raisesOnly (fun f => f = .protocolError → P) r) :
    (endTransaction r).err = .ok ∨ (endTransaction r).err = .timeout ∨ (endTransaction r).err = .noResponse ∨
      ((endTransaction r).err = .protocolError ∧ P) := by
  rcases h.endTransaction_err with hok | htimeout | ⟨f, hf, herr⟩
  · exact .inl hok
  · exact .inr (.inl htimeout)
  · cases f with
    | timeout => exact .inr (.inl herr)
    | noResponse => exact .inr (.inr (.inl herr))
    | protocolError => exact .inr (.inr (.inr ⟨herr, hf rfl⟩))

theorem initStatus_of_ok (expired d : Bit) :
    initStatus expired d .ok = .ok ∨ initStatus expired d .ok = .initError := by
  unfold initStatus
  split
  · exact .inr rfl
  · exact .inl rfl

/-- INIT answers Ok or InitError (43_transactions.md R172). -/
theorem initBody_err {s : State} (herr : s.err = .ok) : (initBody s).err = .ok ∨ (initBody s).err = .initError := by
  have hbody : (initBody s).err = initStatus _ _ .ok :=
    congrArg (initStatus _ _) ((guardedRelease_outcome (initOpened s)).1.toByte.err.trans herr)
  rw [hbody]
  exact initStatus_of_ok _ _

/-- A legal command runs its body between acceptance and response, the host ready or not. -/
theorem exec_legal_responds {i : Instr} {op : BitVec 4} {p : Packet} {s : State}
    (hi : exec i s = .next (runCommand op p (failedCheck s.maxLen i) (commandBody i) s)) (hb : s.busy = false)
    (hlegal : failedCheck s.maxLen i = none) : exec i s = .next (respond (commandBody i (accept op p s))) := by
  rw [hi, hlegal, runCommand_legal hb]

/-- It answers the status its body leaves. -/
theorem exec_legal_err {i : Instr} {op : BitVec 4} {p : Packet} {s : State}
    (hi : exec i s = .next (runCommand op p (failedCheck s.maxLen i) (commandBody i) s)) (hb : s.busy = false)
    (hlegal : failedCheck s.maxLen i = none) :
    ∃ t, exec i s = .next t ∧ t.err = (commandBody i (accept op p s)).err := by
  obtain ⟨-, herr, -⟩ := respond_record (commandBody i (accept op p s))
  exact ⟨_, exec_legal_responds hi hb hlegal, herr⟩

/-- Settles O45: by the failures each attempt can raise. -/
theorem statusesEachCommandCanAnswer : Obligations.StatusesEachCommandCanAnswer := by
  refine fun p s hb => ⟨fun hlegal => ?_, fun hlegal => ?_, fun hlegal => ?_, fun hlegal => ?_⟩
  · obtain ⟨t, hexec, herr⟩ := exec_legal_err (op := opInit) (p := p) rfl hb hlegal
    exact ⟨t, hexec, herr ▸ initBody_err rfl⟩
  · obtain ⟨t, hexec, herr⟩ := exec_legal_err (op := opWrreg) (p := p) rfl hb hlegal
    have hwrite : raisesOnly (fun f => f = .protocolError → True) (wrregAttempt (accept opWrreg p s)) :=
      wrregAttempt_raisesOnly nofun rfl nofun fun _ => trivial
    have hstatus := hwrite.transfer_err
    rw [and_true] at hstatus
    exact ⟨t, hexec, herr ▸ hstatus⟩
  · obtain ⟨t, hexec, herr⟩ := exec_legal_err (op := opRdreg) (p := p) rfl hb hlegal
    have hread : raisesOnly (fun f => f = .protocolError → p.riw ≠ 0) (rdregAttempt (accept opRdreg p s)) :=
      rdregAttempt_raisesOnly nofun rfl nofun fun hriw _ => hriw
    exact ⟨t, hexec, herr ▸ hread.transfer_err⟩
  · exact exec_legal_err (op := opScan) (p := p) rfl hb hlegal

end Sys2Proof.Machine

/-! # The bus scanner (O50, O51) -/

namespace Sys2Proof.Machine

/-! ### The addresses of a scan -/

/-- The addresses a scan probes of the n from a on, those left out that `SKIP` leaves out (44_scanner.md R200). -/
def addressesProbed (skip : Bool) (a n : Nat) : List Nat :=
  (List.range' a n).filter fun k => !scanSkips skip (BitVec.ofNat 8 k)

theorem addressesProbed_skipped {skip : Bool} {a : Nat} (h : scanSkips skip (BitVec.ofNat 8 a) = true) (n : Nat) :
    addressesProbed skip a (n + 1) = addressesProbed skip (a + 1) n := by
  simp [addressesProbed, List.range'_succ, h]

theorem addressesProbed_probed {skip : Bool} {a : Nat} (h : scanSkips skip (BitVec.ofNat 8 a) = false) (n : Nat) :
    addressesProbed skip a (n + 1) = a :: addressesProbed skip (a + 1) n := by
  simp [addressesProbed, List.range'_succ, h]

theorem mem_addressesProbed {skip : Bool} {a n k : Nat} :
    k ∈ addressesProbed skip a n ↔ (a ≤ k ∧ k < a + n) ∧ scanSkips skip (BitVec.ofNat 8 k) = false := by
  simp [addressesProbed, List.mem_range'_1]

/-- A whole scan leaves out the reserved addresses or none (R201). -/
theorem addressesProbed_all (skip : Bool) : addressesProbed skip 0 Config.scanEnd.toNat =
    if skip then List.range' 0x08 0x70 else List.range 0x80 := by
  cases skip with
  | false => simp [addressesProbed, scanSkips, List.range_eq_range', Config.scanEnd]
  | true => decide +kernel

theorem not_isReservedAddress {k : Nat} (hk : k < 0x80) (h : isReservedAddress (BitVec.ofNat 8 k) = false) :
    0x08 ≤ k ∧ k ≤ 0x77 := by
  simp only [isReservedAddress, BitVec.ule, Bool.or_eq_false_iff, decide_eq_false_iff_not, BitVec.toNat_ofNat,
    BitVec.reduceToNat, Config.reservedLowLast, Config.reservedHighFirst] at h
  omega

theorem toNat_address {k : Nat} (hk : k < 0x80) : (BitVec.ofNat 7 k).toNat = k := by
  rw [BitVec.toNat_ofNat]
  omega

/-- The addresses probed rise. -/
theorem addressesProbed_rising (skip : Bool) (n : Nat) (hn : n ≤ 0x80) :
    ((addressesProbed skip 0 n).map (BitVec.ofNat 7)).Pairwise fun a b => a.toNat < b.toNat := by
  rw [List.pairwise_map]
  refine ((List.pairwise_lt_range' (s := 0) (n := n)).filter _).imp_of_mem fun {j k} hj hk hlt => ?_
  obtain ⟨⟨-, hj⟩, -⟩ := mem_addressesProbed.mp hj
  obtain ⟨⟨-, hk⟩, -⟩ := mem_addressesProbed.mp hk
  rwa [toNat_address (by omega), toNat_address (by omega)]

theorem probeAddress_ofNat (a : Nat) : probeAddress (BitVec.ofNat 8 a) = BitVec.ofNat 7 a := by
  apply BitVec.eq_of_toNat_eq
  simp [probeAddress]

theorem nextAddress_ofNat {s : State} {a : Nat} (ha : s.scanAddr = BitVec.ofNat 8 a) :
    (nextAddress s).scanAddr = BitVec.ofNat 8 (a + 1) := by
  rw [nextAddress_scanAddr, ha, BitVec.ofNat_add]
  rfl

/-! ### One address -/

theorem scanOne_skipped {s : State} (h : scanSkips s.skip s.scanAddr = true) : scanOne s = s := if_pos h

/-- An address that is not left out is probed, and reported where it was found (R203). -/
theorem scanOne_probed {s : State} (h : scanSkips s.skip s.scanAddr = false) :
    scanOne s = if (probe s).1 then emitFound (probeAddress s.scanAddr) (probe s).2 else (probe s).2 := by
  rw [scanOne, h, if_neg Bool.false_ne_true, (probe_changes s).scanAddr]

theorem scanOne_skip (s : State) : (scanOne s).skip = s.skip := by
  have h := scanOne_changes s
  unfold changesOnlyBody at h
  rw [h]

theorem probe_found (s : State) : (probe s).2.found = s.found := by
  have h := probe_changes s
  unfold changesOnlyPhase at h
  rw [h]

/-! ### A scan in every environment -/

/-- A scan finds some of the addresses it probes, in their order. -/
theorem scanLoop_found (n a : Nat) {s : State} (ha : s.scanAddr = BitVec.ofNat 8 a) :
    ∃ l, (scanLoop n s).found = s.found ++ l ∧ l.Sublist ((addressesProbed s.skip a n).map (BitVec.ofNat 7)) := by
  induction n generalizing a s with
  | zero => exact ⟨[], (List.append_nil _).symm, List.nil_sublist _⟩
  | succ n ih =>
    have hnext : (nextAddress (scanOne s)).scanAddr = BitVec.ofNat 8 (a + 1) :=
      nextAddress_ofNat ((scanOne_fields s).trans ha)
    obtain ⟨l, hfound, hl⟩ := ih (a + 1) hnext
    rw [nextAddress_skip, scanOne_skip] at hl
    rw [nextAddress_found] at hfound
    rw [scanLoop, hfound]
    cases hskip : scanSkips s.skip s.scanAddr with
    | true =>
      rw [scanOne_skipped hskip, addressesProbed_skipped (ha ▸ hskip)]
      exact ⟨l, rfl, hl⟩
    | false =>
      rw [scanOne_probed hskip, addressesProbed_probed (ha ▸ hskip), List.map_cons]
      split
      · refine ⟨BitVec.ofNat 7 a :: l, ?_, hl.cons_cons _⟩
        rw [emitFound_found, probe_found, ha, probeAddress_ofNat, List.append_assoc, List.singleton_append]
      · exact ⟨l, by rw [probe_found], hl.cons _⟩

theorem scanLoop_scanAddr (n a : Nat) {s : State} (ha : s.scanAddr = BitVec.ofNat 8 a) :
    (scanLoop n s).scanAddr = BitVec.ofNat 8 (a + n) := by
  induction n generalizing a s with
  | zero => exact ha
  | succ n ih =>
    rw [scanLoop, ih (a + 1) (nextAddress_ofNat ((scanOne_fields s).trans ha)), Nat.add_right_comm, Nat.add_assoc]

theorem scanBody_scanAddr (s : State) : (scanBody s).scanAddr = 0x80 :=
  (scanLoop_scanAddr Config.scanEnd.toNat 0 (s := { s with scanAddr := 0 }) rfl).trans (by decide)

/-- The found events of a scan rise and lie in the range `SKIP` allows (R201). -/
theorem scanBody_found {s : State} (hs : s.found = []) :
    (scanBody s).found.Pairwise (fun a b => a.toNat < b.toNat) ∧
      (s.skip = true → ∀ a ∈ (scanBody s).found, 0x08 ≤ a.toNat ∧ a.toNat ≤ 0x77) := by
  obtain ⟨l, hfound, hl⟩ := scanLoop_found Config.scanEnd.toNat 0 (s := { s with scanAddr := 0 }) rfl
  have hbody : (scanBody s).found = l := by
    rw [scanBody]
    simpa [hs] using hfound
  rw [hbody]
  refine ⟨(addressesProbed_rising s.skip Config.scanEnd.toNat (by decide)).sublist hl, fun hskip a ha => ?_⟩
  obtain ⟨k, hk, rfl⟩ := List.mem_map.mp (hl.subset ha)
  obtain ⟨⟨-, hlt⟩, hreserved⟩ := mem_addressesProbed.mp hk
  replace hlt : k < 0x80 := hlt
  rw [toNat_address hlt]
  exact not_isReservedAddress hlt (by simpa [scanSkips, hskip] using hreserved)

theorem respond_found (v : State) : (respond v).found = v.found := by
  unfold respond
  split <;> rfl

/-- Settles O50: the frame of a command, and the found events of the loop. -/
theorem scanSwallowsFailures : Obligations.ScanSwallowsFailures := by
  intro p s hb hlegal
  have hexec : exec (.scan p) s = .next (respond (scanBody (accept opScan p s))) := exec_legal_responds rfl hb hlegal
  obtain ⟨-, -, -, t, hframe, hbyte, hside, hlatched⟩ := commandsLeaveTheOtherRegisters p s
  obtain rfl := Host.Outcome.next.inj (hexec.symm.trans hframe)
  obtain ⟨u, hkeeps, hbuf⟩ := exec_command_buf (i := .scan p) rfl nofun s
  obtain rfl := Host.Outcome.next.inj (hexec.symm.trans hkeeps)
  obtain ⟨-, herr, -⟩ := respond_record (scanBody (accept opScan p s))
  obtain ⟨hscan, -⟩ := (respond_keepsRegisters (scanBody (accept opScan p s))).scanner
  obtain ⟨hrising, hrange⟩ := scanBody_found (s := accept opScan p s) rfl
  refine ⟨_, hexec, herr, (respond_word _).trans (congrArg responseWord herr), hlatched hb, ?_, ?_, hbuf, hbyte,
    hscan.trans (scanBody_scanAddr _), hside⟩
  · rwa [respond_found]
  · rwa [respond_found]

/-! ### A scan without stretching -/

/-- The events of a scan of the addresses of xs, each with what its slot was sampled (R203). -/
def scanEvents (xs : List (Nat × Bit)) : List Event := xs.flatMap fun x => probeEvents x.1 x.2

/-- Those of them whose slot was sampled low. -/
def acknowledgedAddresses (xs : List (Nat × Bit)) : List (BitVec 7) :=
  xs.filterMap fun x => if x.2 then none else some (BitVec.ofNat 7 x.1)

/-- The state s on a bus that stretches no probe of the addresses of xs and answers each slot as xs says. -/
def State.onScan (s : State) (xs : List (Nat × Bit)) (tr : List Event) (c q : List Bit) : State :=
  s.on tr (List.replicate (11 * xs.length) true ++ c) (xs.map Prod.snd ++ q)

@[simp] theorem State.onScan_scanAddr (s : State) (xs : List (Nat × Bit)) (tr : List Event) (c q : List Bit) :
    (s.onScan xs tr c q).scanAddr = s.scanAddr := rfl

@[simp] theorem State.onScan_skip (s : State) (xs : List (Nat × Bit)) (tr : List Event) (c q : List Bit) :
    (s.onScan xs tr c q).skip = s.skip := rfl

/-- The answers of the first probe are used up by it. -/
theorem probe_onScan (s : State) (x : Nat × Bit) (xs : List (Nat × Bit)) (tr : List Event) (c q : List Bit) :
    ∃ u : State, u.found = s.found ∧ probe (s.onScan (x :: xs) tr c q) =
      (!x.2, u.onScan xs ((startEvents ++ writeFrame (probeByte s) x.2 ++ stopEvents).reverse ++ tr) c q) := by
  have hanswers : List.replicate (11 * (x :: xs).length) true ++ c =
      List.replicate 11 true ++ (List.replicate (11 * xs.length) true ++ c) := by
    rw [← List.append_assoc, ← List.replicate_add, List.length_cons, Nat.mul_succ, Nat.add_comm]
  obtain ⟨u, hprobe, -⟩ :=
    probe_unstretched x.2 s tr (List.replicate (11 * xs.length) true ++ c) (xs.map Prod.snd ++ q)
  rw [← hanswers] at hprobe
  have hfound := probe_found (s.onScan (x :: xs) tr c q)
  exact ⟨u, (congrArg (fun r => r.2.found) hprobe).symm.trans hfound, hprobe⟩

/-- An address is probed with its address byte on the wire, and found after the STOP where its slot was sampled low
(R203, R205). -/
theorem scanOne_unstretched {s : State} {x : Nat × Bit} (ha : s.scanAddr = BitVec.ofNat 8 x.1)
    (hskip : scanSkips s.skip s.scanAddr = false) (xs : List (Nat × Bit)) (tr : List Event) (c q : List Bit) :
    ∃ v : State, scanOne (s.onScan (x :: xs) tr c q) = v.onScan xs ((probeEvents x.1 x.2).reverse ++ tr) c q ∧
      v.found = s.found ++ acknowledgedAddresses [x] := by
  obtain ⟨a, d⟩ := x
  obtain ⟨u, hfound, hprobe⟩ := probe_onScan s (a, d) xs tr c q
  have haddr : probeAddress s.scanAddr = BitVec.ofNat 7 a := by rw [ha, probeAddress_ofNat]
  have hbyte : probeByte s = BitVec.ofNat 7 a ++ 0#1 := congrArg (addr7Byte · false) haddr
  rw [scanOne_probed (s := s.onScan ((a, d) :: xs) tr c q) hskip, hprobe, hbyte, State.onScan_scanAddr, haddr]
  cases d with
  | true => exact ⟨u, by simp [probeEvents], by simp [acknowledgedAddresses, hfound]⟩
  | false =>
    refine ⟨emitFound (BitVec.ofNat 7 a) u, ?_, congrArg (· ++ [BitVec.ofNat 7 a]) hfound⟩
    rw [probeEvents, List.reverse_append]
    rfl

/-- The scan from address a on, xs pairing each address it probes with its sample. -/
theorem scanLoop_unstretched (n a : Nat) {s : State} (ha : s.scanAddr = BitVec.ofNat 8 a) {xs : List (Nat × Bit)}
    (hxs : xs.map Prod.fst = addressesProbed s.skip a n) (tr : List Event) (c q : List Bit) : ∃ v : State,
    scanLoop n (s.onScan xs tr c q) = v.on ((scanEvents xs).reverse ++ tr) c q ∧
      v.found = s.found ++ acknowledgedAddresses xs := by
  induction n generalizing a s xs tr with
  | zero =>
    obtain rfl : xs = [] := List.map_eq_nil_iff.mp hxs
    exact ⟨s, rfl, (List.append_nil _).symm⟩
  | succ n ih =>
    rw [scanLoop]
    cases hskip : scanSkips s.skip s.scanAddr with
    | true =>
      rw [addressesProbed_skipped (ha ▸ hskip)] at hxs
      rw [scanOne_skipped (s := s.onScan xs tr c q) hskip]
      exact ih (s := nextAddress s) (a + 1) (nextAddress_ofNat ha) hxs tr
    | false =>
      rw [addressesProbed_probed (ha ▸ hskip)] at hxs
      obtain ⟨x, ys, rfl, rfl, hys⟩ := List.map_eq_cons_iff.mp hxs
      obtain ⟨t, hone, hfound⟩ := scanOne_unstretched ha hskip ys tr c q
      have haddr := scanOne_fields (s.onScan (x :: ys) tr c q)
      have hkeep := scanOne_skip (s.onScan (x :: ys) tr c q)
      rw [hone] at haddr hkeep ⊢
      simp only [State.onScan_scanAddr, State.onScan_skip] at haddr hkeep
      obtain ⟨v, hloop, hrest⟩ := ih (s := nextAddress t) (x.1 + 1) (nextAddress_ofNat (haddr.trans ha))
        (by rw [nextAddress_skip, hkeep, hys]) ((probeEvents x.1 x.2).reverse ++ tr)
      refine ⟨v, hloop.trans ?_, ?_⟩
      · simp [scanEvents]
      · rw [hrest, nextAddress_found, hfound, List.append_assoc]
        exact congrArg (s.found ++ ·) (List.filterMap_append (l := [x])).symm

theorem scanBody_unstretched (s : State) {xs : List (Nat × Bit)}
    (hxs : xs.map Prod.fst = addressesProbed s.skip 0 Config.scanEnd.toNat) (tr : List Event) (c q : List Bit) :
    ∃ v : State, scanBody (s.onScan xs tr c q) = v.on ((scanEvents xs).reverse ++ tr) c q ∧ v.err = .ok ∧
      v.found = s.found ++ acknowledgedAddresses xs := by
  obtain ⟨v, hloop, hfound⟩ := scanLoop_unstretched _ 0 (s := { s with scanAddr := 0 }) rfl hxs tr c q
  exact ⟨{ v with err := .ok }, congrArg (fun t : State => { t with err := .ok }) hloop, rfl, hfound⟩

/-- Settles O51: the loop probes the addresses of the scan, each paired with its sample. -/
theorem scanFindsExactlyTheAcknowledged : Obligations.ScanFindsExactlyTheAcknowledged := by
  intro p s ds r q probed hb hr hlegal hlen hc hd
  have hexec : exec (.scan p) s = .next (taken (present (scanBody (accept opScan p s)))) := exec_legal rfl hb hr hlegal
  have hfst : (probed.zip ds).map Prod.fst = addressesProbed p.skip 0 Config.scanEnd.toNat :=
    (List.map_fst_zip hlen.ge).trans (addressesProbed_all p.skip).symm
  have hsnd : (probed.zip ds).map Prod.snd = ds := List.map_snd_zip hlen.le
  have hzip : (probed.zip ds).length = probed.length := by rw [List.length_zip, hlen, Nat.min_self]
  have hbus : (accept opScan p s).onScan (probed.zip ds) [] r q = accept opScan p s := by
    rw [State.onScan, hsnd, hzip]
    exact accept_on hc hd
  obtain ⟨v, hbody, herr, hfound⟩ := scanBody_unstretched (accept opScan p s) hfst [] r q
  rw [hbus, List.append_nil] at hbody
  rw [hbody] at hexec
  have htrace : (Event.respond v.err :: (scanEvents (probed.zip ds)).reverse).reverse =
      scanEvents (probed.zip ds) ++ [.respond .ok] := by
    simp [herr]
  exact ⟨_, hexec, herr, htrace, hfound, rfl, rfl, rfl⟩

end Sys2Proof.Machine

/-! # Taking a failure (O36) -/

namespace Sys2Proof.Machine

/-! ### The model's result record under STOP -/

theorem pollLoop_ret (n : Nat) (s : State) : (pollLoop n s).2.ret = s.ret := by
  induction n generalizing s with
  | zero => rfl
  | succ n ih =>
    rw [pollLoop]
    split
    · rfl
    · exact ih (countPoll (readScl s))

theorem stopBus_ret (s : State) : (stopBus s).2.ret = s.ret :=
  pollLoop_ret s.tmo.toNat (release (delay (setSda false (setScl false s))))

/-! ### The abort -/

/-- An abort is STOP standing alone from the abort entry, its result dropped (60_exceptions.md R220). -/
theorem abort_eq_stop (f : Failure) (s : State) :
    ∃ v, exec .stop (enterAbort f s) = .next v ∧ abort f s = { v with ret := s.ret } := by
  refine ⟨{ (stopBus (enterAbort f s)).2 with ret := .bit (stopBus (enterAbort f s)).1 }, rfl, ?_⟩
  have hret : (abort f s).ret = s.ret := stopBus_ret (enterAbort f s)
  rw [← hret]
  rfl

/-- Settles O36: the abort is the abort entry and then STOP, which leaves `ERR` and `FSM` as the entry set them. -/
theorem takingAFailureLatchesItAndStops : Obligations.TakingAFailureLatchesItAndStops := by
  intro f s t
  obtain ⟨hframe, hscl, hsda⟩ : changesOnlyBus (enterAbort f s) t ∧ t.sclOut = true ∧ t.sdaOut = true := abort_outcome f s
  obtain ⟨-, -, -, -, -, herr, hfsm⟩ := hframe.fields
  have hentry : enterAbort f s = { s with err := t.err, fsm := t.fsm } := by
    rw [herr, hfsm]
    rfl
  exact ⟨abort_eq_stop f s, hentry ▸ hframe, hfsm, hscl, hsda, fun hok => herr.trans (if_pos hok),
    fun hheld => herr.trans (if_neg hheld)⟩

end Sys2Proof.Machine

/-! # The reset values, from the assertion of `rst` to its release (O10) -/

namespace Sys2Proof.Machine

/-- The values of 70_reset_and_hazards.md R240. -/
def resetValues (t : State) : Prop :=
  t.sclOut = true ∧ t.sdaOut = true ∧ t.fsm = .idle ∧ t.busy = false ∧ t.err = .ok ∧ t.ph2 = false ∧
    t.ackf = false ∧ t.rspValid = false ∧ t.foundValid = false ∧ t.cmdReady = true

theorem resetBlock_resetValues (s : State) : resetValues (resetBlock s) := by
  obtain ⟨hscl, hsda, hfsm, hbusy, herr, hph2, hackf, hrsp, hfound, -, -⟩ := resetBlock_values s
  exact ⟨hscl, hsda, hfsm, hbusy, herr, hph2, hackf, hrsp, hfound, congrArg (!·) hbusy⟩

/-- A reset block is in reset, with nothing running and `BUF` kept (R240, R242). -/
theorem resetBlock_inReset {s : State} (hr : s.rst = true) :
    resetValues (resetBlock s) ∧ (resetBlock s).place = [] ∧ (resetBlock s).buf = s.buf ∧ (resetBlock s).rst = true :=
  ⟨resetBlock_resetValues s, rfl, rfl, hr⟩

theorem step_setReset {s : State} {b : Bool} {k : List HostMove} (hm : s.hostMoves = .reset b :: k) :
    step s = .next (setReset b { s with hostMoves := k }) :=
  (step_hostMove hm (by simp) (by simp)).trans (by simp [hostTurn, hm])

/-- A move of the host asserts `rst`, which resets the block, or writes nothing but inputs and `BUF`. -/
theorem hostTurn_keeps_resetValues {s t : State} (hs : s.rst = true → resetValues s) (hturn : blockTurn s = none)
    (h : hostTurn s = .next t) (hr : t.rst = true) : resetValues t := by
  rcases hostTurn_cases hturn h with ⟨p, k, -, rfl⟩ | ⟨b, k, -, rfl⟩ | ⟨b, k, -, rfl⟩ | ⟨i, v, k, -, -, -, rfl⟩
  · exact hs hr
  · exact hs hr
  · cases b with
    | true => exact resetBlock_resetValues _
    | false => cases hr
  · exact hs hr

/-- A step of the block leaves `rst` as it is, so one that ends in reset began in it. -/
theorem step_block_resetValues {s u t : State} (hturn : blockTurn s = some u) (h : step s = .next t)
    (hr : t.rst = true) : resetValues t := by
  obtain ⟨-, hrst, -⟩ := step_block_inputs hturn h
  have hasserted : u.rst = true := by rw [blockTurn_changes hturn, ← hr, hrst]
  rw [step_reset hturn hasserted] at h
  cases h
  exact resetBlock_resetValues u

theorem step_keeps_resetValues {s t : State} (hs : s.rst = true → resetValues s) (h : step s = .next t)
    (hr : t.rst = true) : resetValues t := by
  cases hturn : blockTurn s with
  | none => exact hostTurn_keeps_resetValues hs hturn ((step_host hturn).symm.trans h) hr
  | some u => exact step_block_resetValues hturn h hr

/-- Settles O10: every way into reset is resetBlock, and a state in reset is left by the release alone. -/
theorem resetLeavesTheStatedValues : Obligations.ResetLeavesTheStatedValues := by
  refine ⟨resetBlock_resetValues State.reset, fun s u hturn hr => ?_, fun s k hm => ?_, fun s k hm => step_setReset hm,
    fun s t => step_keeps_resetValues⟩
  · obtain ⟨hvalues, hplace, hbuf, hrst⟩ := resetBlock_inReset hr
    have hu : u.buf = s.buf := by rw [blockTurn_changes hturn]
    exact ⟨_, step_reset hturn hr, hvalues, hplace, hbuf.trans hu, hrst⟩
  · exact ⟨_, step_setReset hm, resetBlock_inReset (s := { s with hostMoves := k, rst := true }) rfl⟩

end Sys2Proof.Machine

/-! # The half-periods the operations wait (O54) -/

namespace Sys2Proof.Machine

/-! ### Runs that wait -/

/-- With the clock line high at each of the c releases it makes, the run from s returns and has waited n half-periods,
whatever the data line answers. -/
def waits {α : Type} (c n : Nat) (s : State) (r : Run α) : Prop :=
  ∀ rest, s.sclAnswers = List.replicate c true ++ rest →
    ∃ a t, r = .ok a t ∧ t.sclAnswers = rest ∧ halfPeriods t.trace = halfPeriods s.trace + n

namespace waits

variable {α β : Type} {c d e k m n : Nat} {s t : State}

/-- A return after n half-periods in which the clock is not released. -/
theorem returned {a : α} (hc : t.sclAnswers = s.sclAnswers)
    (hn : halfPeriods t.trace = halfPeriods s.trace + n) : waits 0 n s (.ok a t) :=
  fun _ h => ⟨a, t, rfl, hc.trans h, hn⟩

theorem andThen {r : Run α} {f : α → State → Run β} (h : waits c m s r) (hf : ∀ a t, waits d n t (f a t))
    (he : c + d = e) (hk : m + n = k) : waits e k s (r.andThen f) := by
  subst he hk
  intro rest hs
  rw [List.replicate_add, List.append_assoc] at hs
  obtain ⟨a, t, rfl, ht, hm⟩ := h _ hs
  obtain ⟨b, u, hu, hrest, hn⟩ := hf a t rest ht
  exact ⟨b, u, hu, hrest, by rw [hn, hm, Nat.add_assoc]⟩

/-- What is done to a state without a wait, before a run. -/
theorem after {r : Run α} (hc : t.sclAnswers = s.sclAnswers) (hn : halfPeriods t.trace = halfPeriods s.trace)
    (h : waits c n t r) : waits c n s r :=
  fun rest hs => hn ▸ h rest (hc.trans hs)

/-- The wait of an operation that stands alone, as its meaning shows it. -/
theorem exec_halfPeriods {op : State → Run α} {i : Instr} {value : α → OpResult} (h : waits c n s (op s))
    (hexec : exec i s = .next ((op s).finish value)) {rest : List Bit}
    (hs : s.sclAnswers = List.replicate c true ++ rest) :
    ∃ t, exec i s = .next t ∧ halfPeriods t.trace = halfPeriods s.trace + n := by
  obtain ⟨a, t, hrun, -, hn⟩ := h rest hs
  exact ⟨_, hexec, by rw [hrun]; exact hn⟩

end waits

/-! ### Bus operations -/

@[simp] theorem halfPeriods_delay (es : List Event) : halfPeriods (.delay :: es) = halfPeriods es + 1 := List.count_cons_self

@[simp] theorem halfPeriods_cons_of_ne {e : Event} (he : e ≠ .delay) (es : List Event) :
    halfPeriods (e :: es) = halfPeriods es := List.count_cons_of_ne he

/-- Setting the data line and releasing the clock, then what waits n half-periods: the shape of START and of a cell. -/
theorem cell_waits {α : Type} {n : Nat} (b : Bit) (s : State) {f : Unit → State → Run α}
    (hf : ∀ t, waits 0 n t (f () t)) : waits 1 (1 + n) s ((guardReleaseScl (delay (setSda b s))).andThen f) := by
  have hguard : waits 1 1 s (guardReleaseScl (delay (setSda b s))) :=
    fun _ hs => ⟨_, _, guardReleaseScl_high hs, rfl, by simp⟩
  exact hguard.andThen (fun _ => hf) rfl rfl

theorem start_waits (s : State) : waits 1 3 s (start s) :=
  cell_waits (n := 2) true s fun _ => .returned rfl (by simp)

theorem writeBit_waits (b : Bit) (s : State) : waits 1 2 s (writeBit b s) :=
  cell_waits (n := 1) b s fun _ => .returned rfl (by simp)

theorem readBit_waits (s : State) : waits 1 2 s (readBit s) :=
  cell_waits (n := 1) true s fun _ => .returned rfl (by simp)

theorem readAck_waits (s : State) : waits 1 2 s (readAck s) :=
  (readBit_waits s).andThen (n := 0) (fun _ _ => .returned rfl rfl) rfl rfl

/-- STOP waits before its release, before the data line rises and after it (40_bus_signalling.md R122). -/
theorem stop_waits {s : State} {r : List Bit} (hs : s.sclAnswers = true :: r) :
    ∃ t, exec .stop s = .next t ∧ halfPeriods t.trace = halfPeriods s.trace + 3 :=
  ⟨_, exec_stop (guardedRelease_high (s := stopOpened s) hs), by simp [stopOpened]⟩

/-! ### Bytes: nine cells (42_byte_and_framing.md R150, R152) -/

theorem sendBits_waits (n : Nat) (s : State) : waits n (2 * n) s (sendBits n s) := by
  induction n generalizing s with
  | zero => exact .returned rfl rfl
  | succ n ih =>
    exact (writeBit_waits _ s).andThen (fun _ t => .after (t := shiftBit false t) rfl rfl (ih _)) (Nat.add_comm 1 n)
      (Nat.add_comm 2 (2 * n))

theorem receiveBits_waits (n : Nat) (s : State) : waits n (2 * n) s (receiveBits n s) := by
  induction n generalizing s with
  | zero => exact .returned rfl rfl
  | succ n ih =>
    exact (readBit_waits s).andThen (fun d t => .after (t := shiftBit d t) rfl rfl (ih _)) (Nat.add_comm 1 n)
      (Nat.add_comm 2 (2 * n))

theorem writeByte_waits (v : Byte) (s : State) : waits 9 18 s (writeByte v s) :=
  .after (t := loadShift v s) rfl rfl <| (sendBits_waits 8 _).andThen (fun _ t => readAck_waits t) rfl rfl

theorem readByte_waits (k : Ack) (i : BitVec 12) (s : State) : waits 9 18 s (readByte k i s) :=
  .after (t := loadShift 0 s) rfl rfl <| (receiveBits_waits 8 _).andThen (fun _ t =>
    .after (t := memWrite i.toNat t.shreg t) rfl (by simp) <|
      (writeBit_waits (ackBit k) _).andThen (n := 0) (fun _ _ => .returned rfl rfl) rfl rfl) rfl rfl

/-- Settles O54: the waits of each operation, added up over its cells. -/
theorem delaysPerOperation : Obligations.DelaysPerOperation := by
  refine ⟨fun s r hs => ⟨?_, stop_waits hs, fun b => ?_, ?_⟩, fun s r hs => ⟨fun v => ?_, fun k i hi => ?_⟩⟩
  · exact (start_waits s).exec_halfPeriods (i := .start) (value := fun _ => .done) rfl hs
  · exact (writeBit_waits b s).exec_halfPeriods (i := .writeBit b) (value := fun _ => .done) rfl hs
  · exact (readBit_waits s).exec_halfPeriods (i := .readBit) (value := .bit) rfl hs
  · exact (writeByte_waits v s).exec_halfPeriods (i := .writeByte v) (value := .bit) rfl hs
  · have hbyte : hasByte s i = true := by simp [hasByte, BitVec.ult, hi]
    exact (readByte_waits k i s).exec_halfPeriods (i := .readByte k i) (value := .byte) (if_pos hbyte) hs

end Sys2Proof.Machine
